-- ==== Sys2Proof/Word.lean ====
section
/-! DEFINITION. The word types of the block: the widths of spec/10_state.md, and nothing else. -/

namespace Sys2Proof

/-- A byte (R16). -/
abbrev Byte := BitVec 8

/-- A 32-bit word: the command word of R145, and the u32 registers of spec/10_state.md. -/
abbrev Word := BitVec 32

/-- A u64 register (R32, R34, R43, R44, R46). -/
abbrev U64 := BitVec 64

/-- An 11-bit probability (R220). -/
abbrev Prob := BitVec 11

end Sys2Proof
end

