-- ==== Sys2Proof/Syntax.lean ====
section
/-! DEFINITION. The syntax of the block: its 43 instructions (the eight packets of R251 and the thirty-five host commands
of R146), the names of the bit-model entries (R36, R37), decision bits (R210) and the error codes of a status word (R480). -/

namespace Sys2Proof

/-- The error codes of R480. -/
inductive ErrorCode where
  | ok | badArgument | memError | sequenceError | headerError | unexpectedEof | dataError | libraryError
deriving DecidableEq, Repr, Inhabited

/-- The two length models of R36: one for MATCH and EOS, one for REP0 to REP3. -/
inductive LenModel where
  | matchLen | repLen
deriving DecidableEq, Repr, Inhabited

/-- One bit-model entry `M[i]` (R21), named by its array and index as R36 and R37 name them. -/
inductive ModelRef where
  /-- `bm_literal[ctx][node]` -/
  | literal (ctx node : Nat)
  /-- `bm_match[state][pos_state]` -/
  | isMatch (state posState : Nat)
  /-- `bm_rep[state]` -/
  | rep (state : Nat)
  /-- `bm_rep0[state]` -/
  | rep0 (state : Nat)
  /-- `bm_rep1[state]` -/
  | rep1 (state : Nat)
  /-- `bm_rep2[state]` -/
  | rep2 (state : Nat)
  /-- `bm_len[state][pos_state]` -/
  | len (state posState : Nat)
  /-- `bm_dis_slot[len_state][node]` -/
  | disSlot (lenState node : Nat)
  /-- `bm_dis[index]` -/
  | dis (index : Nat)
  /-- `bm_align[node]` -/
  | align (node : Nat)
  /-- `L.choice1` -/
  | choice1 (l : LenModel)
  /-- `L.choice2` -/
  | choice2 (l : LenModel)
  /-- `L.bm_low[pos_state][node]` -/
  | low (l : LenModel) (posState node : Nat)
  /-- `L.bm_mid[pos_state][node]` -/
  | mid (l : LenModel) (posState node : Nat)
  /-- `L.bm_high[node]` -/
  | high (l : LenModel) (node : Nat)
deriving DecidableEq, Repr, Inhabited

/-- One decision bit of a packet (R210): `b@M[i]`, or a direct bit when there is no model. -/
structure Decision where
  bit : Bool
  model : Option ModelRef
deriving DecidableEq, Repr, Inhabited

/-- The instructions: one constructor per row of spec/opcode_table.json. -/
inductive Instr where
  -- packets (R251)
  | lit (c : Byte)
  | matchDist (len : Nat) (d : Word)
  | shortRep
  | rep0 (len : Nat)
  | rep1 (len : Nat)
  | rep2 (len : Nat)
  | rep3 (len : Nat)
  | eos
  -- global queries (R146)
  | qApiVersion
  | qVersionString
  | qMinDictionarySize
  | qMaxDictionarySize
  | qMinMatchLenLimit
  | qMaxMatchLenLimit
  -- encoder commands (R146)
  | encOpen (chan : Byte) (dictSize matchLenLimit : Word) (memberSizeLimit : U64)
  | encClose (chan : Byte)
  | encWriteSize (chan : Byte)
  | encWrite (chan : Byte) (n : Word) (bytes : List Byte)
  | encRead (chan : Byte) (n : Word)
  | encSyncFlush (chan : Byte)
  | encFinish (chan : Byte)
  | encRestartMember (chan : Byte)
  | encMemberFinished (chan : Byte)
  | encFinished (chan : Byte)
  | encErrno (chan : Byte)
  -- decoder commands (R146)
  | decOpen (chan : Byte)
  | decClose (chan : Byte)
  | decWriteSize (chan : Byte)
  | decWrite (chan : Byte) (n : Word) (bytes : List Byte)
  | decRead (chan : Byte) (n : Word)
  | decFinish (chan : Byte)
  | decReset (chan : Byte)
  | decSyncToMember (chan : Byte)
  | decMemberFinished (chan : Byte)
  | decFinished (chan : Byte)
  | decErrno (chan : Byte)
  | decMemberVersion (chan : Byte)
  | decDictionarySize (chan : Byte)
  | decDataCrc (chan : Byte)
  | decDataPosition (chan : Byte)
  | decMemberPosition (chan : Byte)
  | decTotalInSize (chan : Byte)
  | decTotalOutSize (chan : Byte)
deriving DecidableEq, Repr, Inhabited

/-- How many data bytes a write of length operand `n` carries: `n` when `n > 0` read as two's complement, else none
(R148, R411). -/
def dataCount (n : Word) : Nat := if n.toInt ≤ 0 then 0 else n.toNat

end Sys2Proof
end

