-- ==== Sys2Proof/Config.lean ====
section
/-! DEFINITION. What an implementation fixes: the constants of spec/00_scope.md R7 to R14, the named parameters of R15 as
plain data (State holds them, so that every statement holds for every value of them), and the parameters that are functions
as constants without a body, of which nothing can be proved but what the model's own checks enforce. -/

namespace Sys2Proof

/-! ## Fixed constants -/

/-- Normalisation threshold (R172). -/
def top : Nat := 2 ^ 24

/-- The four magic bytes and the version byte of a header (R131, R370). -/
def headerPrefix : List Byte := [0x4C#8, 0x5A#8, 0x49#8, 0x50#8, 0x01#8]

/-- The stored distance of the end-of-stream marker (R22). -/
def eosDistance : Word := 0xFFFFFFFF#32

/-- Bounds accepted at open (R13). -/
def minDictionarySize : Nat := 2 ^ 12
def maxDictionarySize : Nat := 2 ^ 29
def minMatchLenLimit : Nat := 5
def maxMatchLenLimit : Nat := 273
def minMemberSizeLimit : Nat := 100
def maxMemberSizeLimit : Nat := 2 ^ 63 - 1

/-- The interface identity (R3, R460, R461). -/
def apiVersion : Word := 1013#32
def versionString : List Byte := [0x31#8, 0x2E#8, 0x31#8, 0x33#8]

/-- The most plaintext bytes one packet produces (R280). -/
def maxPacketBytes : Nat := 273

/-- The trial buffer's capacity (R48, R349). -/
def trialCapacity : Nat := 8192

/-! ## Named parameters (R15) -/

/-- The two match-finder variants (R330). -/
inductive Variant where
  | fast | normal
deriving DecidableEq, Repr, Inhabited

/-- Which parser the implementation has: the minimal one of R346, or another, of which only its number is known. -/
inductive ParserChoice where
  | minimal
  | implementation (k : Nat)
deriving DecidableEq, Repr, Inhabited

/-- Which variant rule the implementation has: the suggested default of D18, or another. -/
inductive VariantChoice where
  | suggested
  | implementation (k : Nat)
deriving DecidableEq, Repr, Inhabited

/-- The parameters of R15 that are data (`NUM_CHANNELS` is the number of channels State holds). -/
structure Params where
  beforeSize : Nat
  afterSize : Nat
  maxWindowBytes : Nat
  inFifoCap : Nat
  outFifoCap : Nat
  encOutReserve : Nat
  memberMargin : Nat
  hashSize : Nat
  fastCycles : Nat
  normalCycles : Nat
  /-- names the hash functions `hash2`, `hash3`, `hash4` of the implementation -/
  hashChoice : Nat
  parser : ParserChoice
  variantRule : VariantChoice
deriving DecidableEq, Repr, Inhabited

/-- The constraints of R15 and 92_eei_decisions.md D17 to D24, D26 and D46 on these parameters; `IN_FIFO_CAP` below `2^32`, so
that the u32 result of R442 can hold it (DEDUCED, safe: log 20). `HASH_SIZE >= 1` is the model's own bound: R15, D20 and R323 give
`HASH_SIZE` none (DESIGN CHOICE, safe: log 4). `NUM_CHANNELS >= 1` (D25) is with the channels: `State.paramsWf`
of Safety.lean. -/
def Params.wf (p : Params) : Prop :=
  273 ≤ p.afterSize ∧ 32 ≤ p.inFifoCap ∧ p.inFifoCap < 2 ^ 32 ∧ 273 ≤ p.outFifoCap ∧ 1 ≤ p.encOutReserve ∧
    p.memberMargin ≤ 73 ∧ 1 ≤ p.hashSize

/-- The parameters the programs of 95_test_vectors.md section 3 use, and values for those it does not name
(DESIGN CHOICE, unsafe: log 1). -/
def Params.default : Params :=
  { beforeSize := 0, afterSize := 273, maxWindowBytes := 2 ^ 30, inFifoCap := 64, outFifoCap := 273, encOutReserve := 64,
    memberMargin := 16, hashSize := 65536, fastCycles := 16, normalCycles := 16, hashChoice := 0, parser := .minimal,
    variantRule := .suggested }

/-! ## The parser as a parameter (R345) -/

/-- One record of the trial buffer (R349): `prevIndex` and `prevIndex2` are indices into the buffer, 0 to 8191. -/
structure Trial where
  price : Nat
  prevIndex : Fin 8192
  prevIndex2 : Fin 8192
  state : Fin 12
  rep0 : Word
  rep1 : Word
  rep2 : Word
  rep3 : Word
deriving DecidableEq, Repr, Inhabited

/-- What a parser may look at. R345 (c) lists the view (R341), the flag `at_end`, `LZ.state`, `rep0..3`, the models (each entry
that is not 1024) and the match-finder's pairs. `dataPosition`, `dictionarySize`, `matchLenLimit` and `variant` are not in that
list: the model gives them to the parser too (DESIGN CHOICE, safe: log 2). -/
structure ParserInput where
  dataPosition : Nat
  history : List Byte
  lookahead : List Byte
  atEnd : Bool
  state : Fin 12
  rep0 : Word
  rep1 : Word
  rep2 : Word
  rep3 : Word
  models : List (ModelRef × Prob)
  pairs : List (Nat × Nat)
  dictionarySize : Nat
  matchLenLimit : Nat
  variant : Variant
deriving DecidableEq, Repr, Inhabited

/-- What a parser answers: the packet to code now, the packets to code in the following steps, and the trial buffer it
leaves (R345, R348). -/
structure ParserOutput where
  packet : Instr
  rest : List Instr
  trials : List Trial
deriving DecidableEq, Repr, Inhabited

/-- FREE VALUE: parser number `k` (D19). Nothing is known of it; `Encoder.parse` of Machine/Encoder.lean codes its answer only
where R345 (a) allows it (log 2). -/
opaque Config.parse (k : Nat) (view : ParserInput) : ParserOutput

/-- FREE VALUE: variant rule number `k` (D18): any total function of the dictionary size and the match length limit
(log 3). -/
opaque Config.variant (k : Nat) (dictionarySize matchLenLimit : Nat) : Variant

/-- FREE VALUE: the hash functions of implementation `k` (D20), on 4, 3 and 2 bytes (log 4). -/
opaque Config.hash4 (k : Nat) (key : List Byte) : Nat
opaque Config.hash3 (k : Nat) (key : List Byte) : Nat
opaque Config.hash2 (k : Nat) (key : List Byte) : Nat

end Sys2Proof
end

