-- ==== Sys2Proof/Decode.lean ====
section
/-! DEFINITION. Decoding and encoding (spec/30_encoding.md): packets as decision bits, host commands as words and data bytes.
The packet decoder is written once over a source of decision bits: here the source is a list of bits, in the machine it is the
range decoder (R210), so both read the same code. -/

namespace Sys2Proof

/-! ## Sources of decision bits -/

/-- What reading from a source gives: a value and the source after it; `hold`, nothing was taken (R20); or an error, with the
source as it stood when the error was raised (R485). -/
inductive Src (σ α : Type) where
  | ok (a : α) (st : σ)
  | hold
  | raise (e : ErrorCode) (st : σ)
deriving DecidableEq, Repr

/-- First `x`, then `f`: a hold or an error of `x` ends the whole (R20, R289). -/
def Src.bind {σ α β : Type} (x : Src σ α) (f : α → σ → Src σ β) : Src σ β :=
  match x with
  | .ok a st => f a st
  | .hold => .hold
  | .raise e st => .raise e st

/-! ## What selects the models of a packet -/

/-- The context of a packet, taken at its start (R226 to R229): `LZ.state`, `pos_state`, `lit_state`, the match byte of a
matched literal if there is one, and whether `LZ.data_position = 0` (R283). -/
structure PacketCtx where
  state : Nat
  posState : Nat
  litState : Nat
  matchByte : Option Byte
  atStart : Bool
deriving DecidableEq, Repr, Inhabited

/-- The context of a member's first packet, but for the check of R283: the one the bit-level decoder uses, since no context
changes the bits of a packet (R136). -/
def PacketCtx.plain : PacketCtx :=
  { state := 0, posState := 0, litState := 0, matchByte := none, atStart := false }

/-! ## Distances (R262) -/

/-- `Slot(d)` (R262). -/
def distSlot (d : Nat) : Nat :=
  if d < 4 then d else 2 * d.log2 + (d.testBit (d.log2 - 1)).toNat

/-- The number of footer bits of a slot, `db` (R262). -/
def slotBits (slot : Nat) : Nat := slot / 2 - 1

/-- The least distance of a slot, `base` (R262). -/
def slotBase (slot : Nat) : Nat := (2 + slot % 2) * 2 ^ slotBits slot

/-- `len_state` (R228). -/
def lenState (len : Nat) : Nat := min (len - 2) 3

/-! ## Decoding a packet from decision bits -/

section Decoding

variable {σ : Type} (bit : σ → Option ModelRef → Src σ Bool)

/-- The bits of a tree from node `m` on, most significant first; the value is the last node (R195). -/
def decTree (base : Nat → ModelRef) : Nat → Nat → σ → Src σ Nat
  | 0, m, st => .ok m st
  | k + 1, m, st => (bit st (some (base m))).bind fun b st => decTree base k (2 * m + b.toNat) st

/-- A symbol of an `nbits`-bit tree (R195). -/
def decSymbol (base : Nat → ModelRef) (nbits : Nat) (st : σ) : Src σ Nat :=
  (decTree bit base nbits 1 st).bind fun m st => .ok (m - 2 ^ nbits) st

/-- The bits of a reverse tree, least significant first, from node `m`, with bit `i` next and `sym` so far (R196). -/
def decTreeRev (base : Nat → ModelRef) : Nat → Nat → Nat → Nat → σ → Src σ Nat
  | 0, _, _, sym, st => .ok sym st
  | k + 1, m, i, sym, st => (bit st (some (base m))).bind fun b st =>
      decTreeRev base k (2 * m + b.toNat) (i + 1) (sym + b.toNat * 2 ^ i) st

/-- Direct bits, most significant first, with `v` so far (R197). -/
def decDirect : Nat → Nat → σ → Src σ Nat
  | 0, v, st => .ok v st
  | k + 1, v, st => (bit st none).bind fun b st => decDirect k (2 * v + b.toNat) st

/-- The index of a matched-mode model (R243). -/
def matchedIndex (mbit : Bool) (node : Nat) : Nat := 0x100 + mbit.toNat * 0x100 + node

/-- The bits of a matched literal, bit `k - 1` next, from `node`; `matched` as long as the bits agree (R243). -/
def decMatched (ctx : Nat) (matchByte : Byte) : Nat → Nat → Bool → σ → Src σ Nat
  | 0, node, _, st => .ok node st
  | k + 1, node, matched, st =>
      let mbit := matchByte.getLsbD k
      let index := if matched then matchedIndex mbit node else node
      (bit st (some (.literal ctx index))).bind fun b st =>
        decMatched ctx matchByte k (2 * node + b.toNat) (matched && (mbit == b)) st

/-- The literal byte (R244). In a state of 7 or more the match byte is always there (R242); where it is not, no rule says
what happens, and R489's `library_error` is raised (log 11). -/
def decLiteral (c : PacketCtx) (st : σ) : Src σ Byte :=
  if c.state ≤ 6 then
    (decSymbol bit (.literal c.litState) 8 st).bind fun v st => .ok (BitVec.ofNat 8 v) st
  else
    match c.matchByte with
    | some mb => (decMatched bit c.litState mb 8 1 true st).bind fun node st => .ok (BitVec.ofNat 8 (node - 0x100)) st
    | none => .raise .libraryError st

/-- `LenDecode` (R260). -/
def decLen (l : LenModel) (posState : Nat) (st : σ) : Src σ Nat :=
  (bit st (some (.choice1 l))).bind fun far st =>
    if far then
      (bit st (some (.choice2 l))).bind fun high st =>
        if high then (decSymbol bit (.high l) 8 st).bind fun k st => .ok (18 + k) st
        else (decSymbol bit (.mid l posState) 3 st).bind fun k st => .ok (10 + k) st
    else (decSymbol bit (.low l posState) 3 st).bind fun k st => .ok (2 + k) st

/-- `DistDecode` (R264). -/
def decDist (len : Nat) (st : σ) : Src σ Word :=
  (decSymbol bit (.disSlot (lenState len)) 6 st).bind fun slot st =>
    if slot < 4 then .ok (BitVec.ofNat 32 slot) st
    else if slot < 14 then
      (decTreeRev bit (fun m => .dis (slotBase slot - slot + m)) (slotBits slot) 1 0 0 st).bind fun r st =>
        .ok (BitVec.ofNat 32 (slotBase slot + r)) st
    else
      (decDirect bit (slotBits slot - 4) 0 st).bind fun h st =>
        (decTreeRev bit .align 4 1 0 0 st).bind fun r st =>
          .ok (BitVec.ofNat 32 (slotBase slot + h * 16 + r)) st

/-- The packet whose MATCH form was read: the marker when `len = 2` and the distance is `0xFFFFFFFF` (R140, R288). -/
def matchPacket (len : Nat) (d : Word) : Instr :=
  if d = eosDistance ∧ len = 2 then .eos else .matchDist len d

/-- The decoder's dispatch on a packet's prefix, with the check of R283 in its place (R281, R135). -/
def decPacket (c : PacketCtx) (st : σ) : Src σ Instr :=
  (bit st (some (.isMatch c.state c.posState))).bind fun isMatch st =>
    if !isMatch then (decLiteral bit c st).bind fun b st => .ok (.lit b) st
    else (bit st (some (.rep c.state))).bind fun isRep st =>
      if !isRep then
        (decLen bit .matchLen c.posState st).bind fun len st =>
          (decDist bit len st).bind fun d st => .ok (matchPacket len d) st
      else if c.atStart then .raise .dataError st
      else (bit st (some (.rep0 c.state))).bind fun notRep0 st =>
        if !notRep0 then
          (bit st (some (.len c.state c.posState))).bind fun long st =>
            if !long then .ok .shortRep st
            else (decLen bit .repLen c.posState st).bind fun len st => .ok (.rep0 len) st
        else (bit st (some (.rep1 c.state))).bind fun notRep1 st =>
          if !notRep1 then (decLen bit .repLen c.posState st).bind fun len st => .ok (.rep1 len) st
          else (bit st (some (.rep2 c.state))).bind fun notRep2 st =>
            (decLen bit .repLen c.posState st).bind fun len st =>
              .ok (if notRep2 then .rep3 len else .rep2 len) st

end Decoding

/-! ## Decoding -/

/-- The code of an instruction: the decision bits of a packet (R135), or the words and the data bytes of a host command
(R145). -/
inductive Code where
  | packet (bits : List Bool)
  | command (words : List Word) (data : List Byte)
deriving DecidableEq, Repr, Inhabited

/-- Why a command word is rejected (R147). -/
inductive Reserved where
  | opcode | field | channel
deriving DecidableEq, Repr, Inhabited

/-- What the decoder answers: an instruction and the code after it; a reserved encoding and the code after it; or that the
code ends before the instruction does. -/
inductive Decoded where
  | instr (i : Instr) (rest : Code)
  | reserved (why : Reserved) (rest : Code)
  | incomplete
deriving DecidableEq, Repr, Inhabited

/-- A list of decision bits as a source: every bit is taken as it stands, whatever model selects it (R136, R139). -/
def listBit (bits : List Bool) (_ : Option ModelRef) : Src (List Bool) Bool :=
  match bits with
  | b :: rest => .ok b rest
  | [] => .hold

/-- A packet from its decision bits (R135 to R142: every long enough sequence begins with a packet). -/
def decodePacket (bits : List Bool) : Decoded :=
  match decPacket listBit .plain bits with
  | .ok i rest => .instr i (.packet rest)
  | .hold => .incomplete
  | .raise _ _ => .incomplete

/-- The fields of a command word (R145). -/
def opcodeField (w : Word) : Nat := (w.extractLsb' 24 8).toNat
def chanField (w : Word) : Byte := w.extractLsb' 16 8
def reservedField (w : Word) : BitVec 16 := w.extractLsb' 0 16

/-- A command with no operand words. -/
def noOperands (i : Instr) (words : List Word) (data : List Byte) : Decoded := .instr i (.command words data)

/-- A command with one operand word, the length of a read. -/
def lengthOperand (i : Word → Instr) (words : List Word) (data : List Byte) : Decoded :=
  match words with
  | n :: rest => .instr (i n) (.command rest data)
  | [] => .incomplete

/-- A command with a length word and its data bytes (R148). -/
def dataOperands (i : Word → List Byte → Instr) (words : List Word) (data : List Byte) : Decoded :=
  match words with
  | n :: rest =>
      if data.length < dataCount n then .incomplete
      else .instr (i n (data.take (dataCount n))) (.command rest (data.drop (dataCount n)))
  | [] => .incomplete

/-- The operands of an open: u32, u32, and u64 as two words, low first (R146). -/
def openOperands (i : Word → Word → U64 → Instr) (words : List Word) (data : List Byte) : Decoded :=
  match words with
  | dictSize :: matchLen :: lo :: hi :: rest => .instr (i dictSize matchLen (hi ++ lo)) (.command rest data)
  | _ => .incomplete

/-- The opcode map of R146, on the words after word 0. -/
def decodeOpcode (op : Nat) (chan : Byte) (words : List Word) (data : List Byte) : Decoded :=
  match op with
  | 0x01 => noOperands .qApiVersion words data
  | 0x02 => noOperands .qVersionString words data
  | 0x03 => noOperands .qMinDictionarySize words data
  | 0x04 => noOperands .qMaxDictionarySize words data
  | 0x05 => noOperands .qMinMatchLenLimit words data
  | 0x06 => noOperands .qMaxMatchLenLimit words data
  | 0x10 => openOperands (.encOpen chan) words data
  | 0x11 => noOperands (.encClose chan) words data
  | 0x12 => noOperands (.encWriteSize chan) words data
  | 0x13 => dataOperands (.encWrite chan) words data
  | 0x14 => lengthOperand (.encRead chan) words data
  | 0x15 => noOperands (.encSyncFlush chan) words data
  | 0x16 => noOperands (.encFinish chan) words data
  | 0x17 => noOperands (.encRestartMember chan) words data
  | 0x18 => noOperands (.encMemberFinished chan) words data
  | 0x19 => noOperands (.encFinished chan) words data
  | 0x1A => noOperands (.encErrno chan) words data
  | 0x20 => noOperands (.decOpen chan) words data
  | 0x21 => noOperands (.decClose chan) words data
  | 0x22 => noOperands (.decWriteSize chan) words data
  | 0x23 => dataOperands (.decWrite chan) words data
  | 0x24 => lengthOperand (.decRead chan) words data
  | 0x25 => noOperands (.decFinish chan) words data
  | 0x26 => noOperands (.decReset chan) words data
  | 0x27 => noOperands (.decSyncToMember chan) words data
  | 0x28 => noOperands (.decMemberFinished chan) words data
  | 0x29 => noOperands (.decFinished chan) words data
  | 0x2A => noOperands (.decErrno chan) words data
  | 0x2B => noOperands (.decMemberVersion chan) words data
  | 0x2C => noOperands (.decDictionarySize chan) words data
  | 0x2D => noOperands (.decDataCrc chan) words data
  | 0x2E => noOperands (.decDataPosition chan) words data
  | 0x2F => noOperands (.decMemberPosition chan) words data
  | 0x30 => noOperands (.decTotalInSize chan) words data
  | 0x31 => noOperands (.decTotalOutSize chan) words data
  | _ => .reserved .opcode (.command words data)

/-- The reserved field must be 0, and the channel field of a global query must be 0 (R145, R147); a command rejected for
either still has the length of its opcode (R148; DEDUCED: log 17). -/
def checkFields (w : Word) (r : Decoded) : Decoded :=
  match r with
  | .instr i rest =>
      if reservedField w ≠ 0 then .reserved .field rest
      else if opcodeField w ≤ 0x06 ∧ chanField w ≠ 0 then .reserved .channel rest
      else .instr i rest
  | .reserved why rest => .reserved why rest
  | .incomplete => .incomplete

/-- A host command from its words and data bytes (R145 to R148). Whether the channel exists is the machine's check. -/
def decodeCommand (words : List Word) (data : List Byte) : Decoded :=
  match words with
  | [] => .incomplete
  | w :: rest => checkFields w (decodeOpcode (opcodeField w) (chanField w) rest data)

/-- The decoder: total on every code. -/
def decode : Code → Decoded
  | .packet bits => decodePacket bits
  | .command words data => decodeCommand words data

/-! ## Encoding -/

/-- The decision bits of an `nbits`-bit tree symbol from node `m` on, most significant first (R179). -/
def treeDecisions (base : Nat → ModelRef) (symbol : Nat) : Nat → Nat → List Decision
  | 0, _ => []
  | k + 1, m => ⟨symbol.testBit k, some (base m)⟩ :: treeDecisions base symbol k (2 * m + (symbol.testBit k).toNat)

/-- The decision bits of a reverse tree from node `m` on, bit `i` next (R180). -/
def treeRevDecisions (base : Nat → ModelRef) (symbol : Nat) : Nat → Nat → Nat → List Decision
  | 0, _, _ => []
  | k + 1, m, i =>
      ⟨symbol.testBit i, some (base m)⟩ :: treeRevDecisions base symbol k (2 * m + (symbol.testBit i).toNat) (i + 1)

/-- Direct bits, most significant first (R181). -/
def directDecisions (value : Nat) : Nat → List Decision
  | 0 => []
  | k + 1 => ⟨value.testBit k, none⟩ :: directDecisions value k

/-- The decision bits of a matched literal (R243). -/
def matchedDecisions (ctx : Nat) (matchByte : Byte) (c : Byte) : Nat → Nat → Bool → List Decision
  | 0, _, _ => []
  | k + 1, node, matched =>
      let mbit := matchByte.getLsbD k
      let b := c.getLsbD k
      let index := if matched then matchedIndex mbit node else node
      ⟨b, some (.literal ctx index)⟩ :: matchedDecisions ctx matchByte c k (2 * node + b.toNat) (matched && (mbit == b))

/-- The LITBYTE field (R136, R244). -/
def literalDecisions (c : PacketCtx) (b : Byte) : List Decision :=
  match decide (c.state ≤ 6), c.matchByte with
  | false, some mb => matchedDecisions c.litState mb b 8 1 true
  | _, _ => treeDecisions (.literal c.litState) b.toNat 8 1

/-- The LEN field (R137, R260). -/
def lenDecisions (l : LenModel) (posState len : Nat) : List Decision :=
  let k := len - 2
  if k < 8 then ⟨false, some (.choice1 l)⟩ :: treeDecisions (.low l posState) k 3 1
  else if k < 16 then
    ⟨true, some (.choice1 l)⟩ :: ⟨false, some (.choice2 l)⟩ :: treeDecisions (.mid l posState) (k - 8) 3 1
  else ⟨true, some (.choice1 l)⟩ :: ⟨true, some (.choice2 l)⟩ :: treeDecisions (.high l) (k - 16) 8 1

/-- The footer of a DIST field (R138, R264). -/
def footerDecisions (d : Nat) : List Decision :=
  let slot := distSlot d
  let r := d - slotBase slot
  if slot < 4 then []
  else if slot < 14 then treeRevDecisions (fun m => .dis (slotBase slot - slot + m)) r (slotBits slot) 1 0
  else directDecisions (r / 16) (slotBits slot - 4) ++ treeRevDecisions .align (r % 16) 4 1 0

/-- The DIST field (R138, R264). -/
def distDecisions (len d : Nat) : List Decision :=
  treeDecisions (.disSlot (lenState len)) (distSlot d) 6 1 ++ footerDecisions d

/-- The decision bits of a packet in a context, in coding order (R135 to R140). A host command has none. -/
def packetDecisions (c : PacketCtx) : Instr → List Decision
  | .lit b => ⟨false, some (.isMatch c.state c.posState)⟩ :: literalDecisions c b
  | .matchDist len d =>
      ⟨true, some (.isMatch c.state c.posState)⟩ :: ⟨false, some (.rep c.state)⟩ ::
        (lenDecisions .matchLen c.posState len ++ distDecisions len d.toNat)
  | .shortRep =>
      [⟨true, some (.isMatch c.state c.posState)⟩, ⟨true, some (.rep c.state)⟩, ⟨false, some (.rep0 c.state)⟩,
        ⟨false, some (.len c.state c.posState)⟩]
  | .rep0 len =>
      ⟨true, some (.isMatch c.state c.posState)⟩ :: ⟨true, some (.rep c.state)⟩ :: ⟨false, some (.rep0 c.state)⟩ ::
        ⟨true, some (.len c.state c.posState)⟩ :: lenDecisions .repLen c.posState len
  | .rep1 len =>
      ⟨true, some (.isMatch c.state c.posState)⟩ :: ⟨true, some (.rep c.state)⟩ :: ⟨true, some (.rep0 c.state)⟩ ::
        ⟨false, some (.rep1 c.state)⟩ :: lenDecisions .repLen c.posState len
  | .rep2 len =>
      ⟨true, some (.isMatch c.state c.posState)⟩ :: ⟨true, some (.rep c.state)⟩ :: ⟨true, some (.rep0 c.state)⟩ ::
        ⟨true, some (.rep1 c.state)⟩ :: ⟨false, some (.rep2 c.state)⟩ :: lenDecisions .repLen c.posState len
  | .rep3 len =>
      ⟨true, some (.isMatch c.state c.posState)⟩ :: ⟨true, some (.rep c.state)⟩ :: ⟨true, some (.rep0 c.state)⟩ ::
        ⟨true, some (.rep1 c.state)⟩ :: ⟨true, some (.rep2 c.state)⟩ :: lenDecisions .repLen c.posState len
  | .eos =>
      ⟨true, some (.isMatch c.state c.posState)⟩ :: ⟨false, some (.rep c.state)⟩ ::
        (lenDecisions .matchLen c.posState 2 ++ distDecisions 2 eosDistance.toNat)
  | _ => []

/-- The decision bits of a packet (R135): those of its decisions. -/
def packetBits (i : Instr) : List Bool := (packetDecisions .plain i).map Decision.bit

/-- Word 0 of a command (R145). -/
def commandWord (op chan : Byte) : Word := (op ++ chan : BitVec 16) ++ 0#16

/-- The low and the high word of a u64 (R146). -/
def lowWord (v : U64) : Word := v.extractLsb' 0 32
def highWord (v : U64) : Word := v.extractLsb' 32 32

/-- The encoder: the code of an instruction, from the tables of R135 to R140 and R146. -/
def encode : Instr → Code
  | .lit c => .packet (packetBits (.lit c))
  | .matchDist len d => .packet (packetBits (.matchDist len d))
  | .shortRep => .packet (packetBits .shortRep)
  | .rep0 len => .packet (packetBits (.rep0 len))
  | .rep1 len => .packet (packetBits (.rep1 len))
  | .rep2 len => .packet (packetBits (.rep2 len))
  | .rep3 len => .packet (packetBits (.rep3 len))
  | .eos => .packet (packetBits .eos)
  | .qApiVersion => .command [commandWord 0x01 0] []
  | .qVersionString => .command [commandWord 0x02 0] []
  | .qMinDictionarySize => .command [commandWord 0x03 0] []
  | .qMaxDictionarySize => .command [commandWord 0x04 0] []
  | .qMinMatchLenLimit => .command [commandWord 0x05 0] []
  | .qMaxMatchLenLimit => .command [commandWord 0x06 0] []
  | .encOpen chan ds ml lim => .command [commandWord 0x10 chan, ds, ml, lowWord lim, highWord lim] []
  | .encClose chan => .command [commandWord 0x11 chan] []
  | .encWriteSize chan => .command [commandWord 0x12 chan] []
  | .encWrite chan n bytes => .command [commandWord 0x13 chan, n] bytes
  | .encRead chan n => .command [commandWord 0x14 chan, n] []
  | .encSyncFlush chan => .command [commandWord 0x15 chan] []
  | .encFinish chan => .command [commandWord 0x16 chan] []
  | .encRestartMember chan => .command [commandWord 0x17 chan] []
  | .encMemberFinished chan => .command [commandWord 0x18 chan] []
  | .encFinished chan => .command [commandWord 0x19 chan] []
  | .encErrno chan => .command [commandWord 0x1A chan] []
  | .decOpen chan => .command [commandWord 0x20 chan] []
  | .decClose chan => .command [commandWord 0x21 chan] []
  | .decWriteSize chan => .command [commandWord 0x22 chan] []
  | .decWrite chan n bytes => .command [commandWord 0x23 chan, n] bytes
  | .decRead chan n => .command [commandWord 0x24 chan, n] []
  | .decFinish chan => .command [commandWord 0x25 chan] []
  | .decReset chan => .command [commandWord 0x26 chan] []
  | .decSyncToMember chan => .command [commandWord 0x27 chan] []
  | .decMemberFinished chan => .command [commandWord 0x28 chan] []
  | .decFinished chan => .command [commandWord 0x29 chan] []
  | .decErrno chan => .command [commandWord 0x2A chan] []
  | .decMemberVersion chan => .command [commandWord 0x2B chan] []
  | .decDictionarySize chan => .command [commandWord 0x2C chan] []
  | .decDataCrc chan => .command [commandWord 0x2D chan] []
  | .decDataPosition chan => .command [commandWord 0x2E chan] []
  | .decMemberPosition chan => .command [commandWord 0x2F chan] []
  | .decTotalInSize chan => .command [commandWord 0x30 chan] []
  | .decTotalOutSize chan => .command [commandWord 0x31 chan] []

/-! ## Words numbered as the opcode table numbers them -/

/-- The longest command in words (R146: word 0 and the four operand words of `ENC_OPEN`). -/
def operandPadding : List Word := [0#32, 0#32, 0#32, 0#32]

/-- The longest packet has 48 decision bits (R141). -/
def tableBits (w : Nat) : List Bool := (List.range 48).map w.testBit

/-- The instruction the decoder reads from a row of the opcode table: 32 bits are a command word, followed by operand words of
zeros; any other width is a packet, its first decision bit in bit 0 (DESIGN CHOICE, safe: log 21). -/
def decodeTableWord (nbits w : Nat) : Option Instr :=
  let code := if nbits = 32 then Code.command (BitVec.ofNat 32 w :: operandPadding) [] else .packet (tableBits (w % 2 ^ nbits))
  match decode code with
  | .instr i _ => some i
  | .reserved _ _ => none
  | .incomplete => none

end Sys2Proof
end

