-- ==== Sys2Proof/Machine/State.lean ====
section
/-! DEFINITION. The state of the block as plain data (spec/10_state.md), its value after power-on (R520), and the reasons a
step can stop. -/

namespace Sys2Proof.Machine

/-! ## Storage -/

/-- A window: the bytes of the current member by member position. A position not listed holds no byte (safe: log 8). -/
abbrev Memory := List Host.Cell

/-- The canonical form of a window: positions strictly rising. (No entry equals what an unlisted position reads as, since an
unlisted position reads as no byte.) -/
abbrev Memory.wf (m : Memory) : Prop := (m.map Prod.fst).Pairwise (· < ·)

/-- The place of a model entry in the canonical order: its array, then its indices. -/
def modelKey : ModelRef → Nat × Nat × Nat
  | .literal ctx node => (0, ctx, node)
  | .isMatch s ps => (1, s, ps)
  | .rep s => (2, s, 0)
  | .rep0 s => (3, s, 0)
  | .rep1 s => (4, s, 0)
  | .rep2 s => (5, s, 0)
  | .len s ps => (6, s, ps)
  | .disSlot ls node => (7, ls, node)
  | .dis i => (8, i, 0)
  | .align node => (9, node, 0)
  | .choice1 .matchLen => (10, 0, 0)
  | .choice2 .matchLen => (11, 0, 0)
  | .low .matchLen ps node => (12, ps, node)
  | .mid .matchLen ps node => (13, ps, node)
  | .high .matchLen node => (14, node, 0)
  | .choice1 .repLen => (15, 0, 0)
  | .choice2 .repLen => (16, 0, 0)
  | .low .repLen ps node => (17, ps, node)
  | .mid .repLen ps node => (18, ps, node)
  | .high .repLen node => (19, node, 0)

/-- The canonical order of model entries. -/
abbrev modelLt (a b : ModelRef) : Prop :=
  (modelKey a).1 < (modelKey b).1 ∨
    ((modelKey a).1 = (modelKey b).1 ∧ ((modelKey a).2.1 < (modelKey b).2.1 ∨
      ((modelKey a).2.1 = (modelKey b).2.1 ∧ (modelKey a).2.2 < (modelKey b).2.2)))

/-- The bit-model arrays of R36 and R37: every entry whose value is not the initial 1024 (R221), by its name. -/
abbrev Models := List (ModelRef × Prob)

/-- The initial value of a model entry (R221). -/
def initialProb : Prob := 1024#11

/-- The canonical form of the model arrays: entries in order, none of value 1024. -/
abbrev Models.wf (m : Models) : Prop :=
  (m.map Prod.fst).Pairwise modelLt ∧ ∀ e ∈ m, e.2 ≠ initialProb

/-- A table of positions: a key not listed holds the free sentinel (R47, R323). -/
abbrev PosTable := List (Nat × Nat)

/-- The canonical form of a table of positions. -/
abbrev PosTable.wf (t : PosTable) : Prop := (t.map Prod.fst).Pairwise (· < ·)

/-! ## Registers -/

/-- The encoder's range-coder registers (R32). -/
structure RangeEnc where
  low : BitVec 33
  range : Word
  cache : Byte
  ffCount : U64
  shifts : U64
deriving DecidableEq, Repr, Inhabited

/-- RC_ENC_INIT (R174). -/
def RangeEnc.init : RangeEnc :=
  { low := 0#33, range := 0xFFFFFFFF#32, cache := 0x00#8, ffCount := 0#64, shifts := 0#64 }

/-- The decoder's range-coder registers (R33). -/
structure RangeDec where
  code : Word
  range : Word
deriving DecidableEq, Repr, Inhabited

/-- The registers before `RC_DEC_LOAD` (R33, R521). -/
def RangeDec.init : RangeDec := { code := 0#32, range := 0xFFFFFFFF#32 }

/-- The LZMA registers (R34); `LZ.state` holds only the values 0 to 11 (R35). -/
structure Lzma where
  state : Fin 12
  rep0 : Word
  rep1 : Word
  rep2 : Word
  rep3 : Word
  dataPosition : U64
deriving DecidableEq, Repr, Inhabited

/-- The LZMA registers at a member start (R34). -/
def Lzma.init : Lzma :=
  { state := 0, rep0 := 0#32, rep1 := 0#32, rep2 := 0#32, rep3 := 0#32, dataPosition := 0#64 }

/-- `CRC.value` at a member start (R39, R381). -/
def crcInit : Word := 0xFFFFFFFF#32

/-- `phase` (R42). -/
inductive Phase where
  | idle | inMember | memberFinished | finished | fatal
deriving DecidableEq, Repr, Inhabited

/-- `DEC.part` (R42). -/
inductive Part where
  | header | load | payload | trailer
deriving DecidableEq, Repr, Inhabited

/-- The match-finder arrays (R47): `MF.hash` in three parts by key length (R333), and `MF.son`. Positions are absolute (R322). -/
structure MatchFinder where
  hash2 : PosTable
  hash3 : PosTable
  hash4 : PosTable
  son : PosTable
  /-- the first position of the member not yet inserted (R335); the model's own field (log 19) -/
  next : Nat
deriving DecidableEq, Repr, Inhabited

/-- Every entry free (R47), no position inserted. -/
def MatchFinder.init : MatchFinder := { hash2 := [], hash3 := [], hash4 := [], son := [], next := 0 }

/-- The four tables are in canonical form. -/
abbrev MatchFinder.wf (m : MatchFinder) : Prop := m.hash2.wf ∧ m.hash3.wf ∧ m.hash4.wf ∧ m.son.wf

/-! ## Channels -/

/-- An encoder channel (R32, R34, R36, R39, R40, R42, R44, R46 to R49). `ENC.member_position` and `ENC.window_size` are
computed (Machine/Flags.lean). -/
structure Encoder where
  phase : Phase
  errno : ErrorCode
  finishing : Bool
  syncPending : Bool
  resumeOnWrite : Bool
  limitReached : Bool
  dictByte : Byte
  dictionarySize : Word
  matchLenLimit : BitVec 16
  memberSizeLimit : U64
  variant : Variant
  re : RangeEnc
  lz : Lzma
  models : Models
  crc : Word
  window : Memory
  streamPos : U64
  cyclicPos : Word
  mf : MatchFinder
  /-- the trial buffer (R48), empty on a fast channel -/
  trial : List Trial
  /-- the packets of the last trial-buffer flush not yet coded (R345, R348) -/
  planned : List Instr
  /-- the output FIFO (R49) -/
  out : List Byte
  totalIn : U64
  totalOut : U64
deriving DecidableEq, Repr, Inhabited

/-- A decoder channel (R33, R34, R36, R39, R41, R42, R43, R50, R51). -/
structure Decoder where
  phase : Phase
  errno : ErrorCode
  finishing : Bool
  part : Part
  memberVersion : Byte
  dictionarySize : Word
  rd : RangeDec
  lz : Lzma
  models : Models
  crc : Word
  history : Memory
  memberPosition : U64
  totalIn : U64
  totalOut : U64
  /-- the input FIFO (R51) -/
  inp : List Byte
  /-- the output FIFO (R51) -/
  out : List Byte
deriving DecidableEq, Repr, Inhabited

/-- A decoder channel right after `DEC_OPEN` or `DEC_RESET` (R446, R521). -/
def Decoder.init : Decoder :=
  { phase := .idle, errno := .ok, finishing := false, part := .header, memberVersion := 0#8, dictionarySize := 0#32,
    rd := .init, lz := .init, models := [], crc := crcInit, history := [], memberPosition := 0#64, totalIn := 0#64,
    totalOut := 0#64, inp := [], out := [] }

/-- A channel (R30, R410). A closed channel holds no register (R421, R520; log 7). -/
inductive Channel where
  | closed
  | enc (e : Encoder)
  | dec (d : Decoder)
deriving DecidableEq, Repr, Inhabited

/-! ## The block -/

/-- The response to a command (R145): the status word, the result words, the result bytes. -/
structure Response where
  status : Word
  words : List Word
  data : List Byte
deriving DecidableEq, Repr, Inhabited

/-- The local variables of the read command in progress (R424, R444): its channel, `n`, and the bytes given so far, whose
number is `m`. -/
structure Run where
  chan : Byte
  n : Nat
  got : List Byte
deriving DecidableEq, Repr, Inhabited

/-- The state of the block: its parameters (R15), its channels (R30), the command port (R145) and the read in progress. -/
structure State where
  params : Params
  channels : List Channel
  /-- command words and operand words the host has issued, not yet taken -/
  portWords : List Word
  /-- data bytes the host has issued, not yet taken -/
  portData : List Byte
  responses : List Response
  running : Option Run
deriving DecidableEq, Repr, Inhabited

/-- Power-on (R520): every channel closed, nothing issued. The parameters and the number of channels are those of the spec's
programs (DESIGN CHOICE, unsafe: log 1). -/
def State.reset : State :=
  { params := .default, channels := [.closed, .closed], portWords := [], portData := [], responses := [], running := none }

/-- The model's faults. The spec's errors are not among them: they are next states (R483, R484). -/
inductive Fault where
  /-- Raised by a packet on an encoder channel where the encoder's precondition (R291, R345) does not hold, so that the spec
  gives it no effect. Safe: the machine stops where no run of the hardware goes; no step raises it (log 11). -/
  | illegalEncoderPacket
deriving DecidableEq, Repr

/-- The model's refusals. -/
inductive Refusal where
  /-- An instruction without a meaning yet, by its mnemonic. Safe: the machine stops. -/
  | notModelled (mnemonic : String)
  /-- Raised by a packet when no read command runs: packet steps run only inside `ENC_READ` and `DEC_READ` (R413). Safe: the
  machine stops where no run of the hardware goes; no step raises it (log 12). -/
  | noReadRunning
deriving DecidableEq, Repr

end Sys2Proof.Machine
end

