-- ==== Sys2Proof/Machine/Ops.lean ====
section
/-! DEFINITION. The named operations on the state: windows, model arrays, position tables, channels, responses, and the
block's exception mechanism: rejecting a command (R483), entering Fatal (R484, R490) and leaving it (R491, R492). -/

namespace Sys2Proof.Machine

/-! ## Tables in canonical form -/

/-- The value of a key, if it is listed. -/
def tableGet {κ β : Type} [DecidableEq κ] : List (κ × β) → κ → Option β
  | [], _ => none
  | (k', v) :: rest, k => if k' = k then some v else tableGet rest k

/-- List a key with a value, in its place by `lt`. -/
def tablePut {κ β : Type} [DecidableEq κ] (lt : κ → κ → Prop) [DecidableRel lt] :
    List (κ × β) → κ → β → List (κ × β)
  | [], k, v => [(k, v)]
  | (k', v') :: rest, k, v =>
      if k' = k then (k, v) :: rest
      else if lt k k' then (k, v) :: (k', v') :: rest
      else (k', v') :: tablePut lt rest k v

/-- Take a key out. -/
def tableErase {κ β : Type} [DecidableEq κ] : List (κ × β) → κ → List (κ × β)
  | [], _ => []
  | (k', v) :: rest, k => if k' = k then tableErase rest k else (k', v) :: tableErase rest k

/-! ## Windows (R103, R104, R105) -/

/-- The byte at a member position, if one has been written. -/
def Memory.read (m : Memory) (pos : Nat) : Option Byte := tableGet m pos

/-- Write the byte at a member position. -/
def Memory.write (m : Memory) (pos : Nat) (b : Byte) : Memory := tablePut (· < ·) m pos b

/-- Write bytes at rising positions. -/
def Memory.writeList (m : Memory) (pos : Nat) : List Byte → Memory
  | [] => m
  | b :: rest => (m.write pos b).writeList (pos + 1) rest

/-- The bytes at the positions from `pos` to `pos + n - 1` that hold one. -/
def Memory.readList (m : Memory) (pos : Nat) : Nat → List Byte
  | 0 => []
  | n + 1 =>
      match m.read pos with
      | some b => b :: m.readList (pos + 1) n
      | none => m.readList (pos + 1) n

/-- `WinRead(s)` at data position `dp` in a dictionary of size `ds` (R104): defined when `s < dp` and `s < ds`. -/
def winRead (m : Memory) (dp ds s : Nat) : Option Byte :=
  if s < dp ∧ s < ds then m.read (dp - s - 1) else none

/-! ## Bit models (R21, R221, R224) -/

/-- `M[i]`. -/
def Models.get (m : Models) (r : ModelRef) : Prob := (tableGet m r).getD initialProb

/-- `M[i] <- p`. -/
def Models.set (m : Models) (r : ModelRef) (p : Prob) : Models :=
  if p = initialProb then tableErase m r else tablePut modelLt m r p

/-! ## Position tables (R47, R323) -/

/-- The position a table holds for a key; none is the free sentinel. -/
def PosTable.get (t : PosTable) (k : Nat) : Option Nat := tableGet t k

/-- Store a position, or the free sentinel. -/
def PosTable.put (t : PosTable) (k : Nat) (pos : Option Nat) : PosTable :=
  match pos with
  | some p => tablePut (· < ·) t k p
  | none => tableErase t k

/-! ## Channels and responses -/

/-- The channel of an id (R410). An id of `NUM_CHANNELS` or more names no channel and reads as a closed one: both are
`bad_argument` and change nothing (R147, R410). -/
def State.chan (s : State) (c : Byte) : Channel := s.channels.getD c.toNat .closed

/-- The id names a channel (R147). -/
def State.chanValid (s : State) (c : Byte) : Bool := decide (c.toNat < s.channels.length)

/-- Replace a channel. -/
def State.setChan (s : State) (c : Byte) (ch : Channel) : State := { s with channels := s.channels.set c.toNat ch }

/-- The number of an error code (R480). -/
def errorNumber : ErrorCode → Nat
  | .ok => 0
  | .badArgument => 1
  | .memError => 2
  | .sequenceError => 3
  | .headerError => 4
  | .unexpectedEof => 5
  | .dataError => 6
  | .libraryError => 7

/-- The status word of a response (R145): the code in bits 7..0, the rest 0. -/
def errorWord (e : ErrorCode) : Word := BitVec.ofNat 32 (errorNumber e)

/-- Give the host a response. -/
def State.respond (s : State) (status : ErrorCode) (words : List Word) (data : List Byte) : State :=
  { s with responses := s.responses ++ [{ status := errorWord status, words := words, data := data }] }

/-! ## Errors: taking and leaving the Fatal latch -/

/-- A command that fails the checks on its word or its channel (R412 (1)): the status word is the only report (R147, R410,
R483). -/
def State.reject (s : State) : State := s.respond .badArgument [] []

/-- ENTERING FATAL, the block's trap entry (R484, R490), on an encoder channel: `errno` and `phase` change and nothing else. -/
def Encoder.enterFatal (e : Encoder) (err : ErrorCode) : Encoder := { e with errno := err, phase := .fatal }

/-- ENTERING FATAL (R484, R490) on a decoder channel. -/
def Decoder.enterFatal (d : Decoder) (err : ErrorCode) : Decoder := { d with errno := err, phase := .fatal }

/-- `bad_argument` raised by a command's own operand check on an open channel (R415, R483): `errno` records it unless a code
is latched; the phase does not change. -/
def Encoder.rejectArgument (e : Encoder) : Encoder := if e.phase = .fatal then e else { e with errno := .badArgument }
def Decoder.rejectArgument (d : Decoder) : Decoder := if d.phase = .fatal then d else { d with errno := .badArgument }

/-- LEAVING FATAL by `DEC_RESET` (R446, R491): the channel is as after open. -/
def Decoder.reset (_ : Decoder) : Decoder := Decoder.init

/-- LEAVING FATAL by resynchronisation (R393, R492, R523), once the input has been searched: `rest` is the input kept and
`dropped` the number of bytes discarded. -/
def Decoder.leaveFatalAt (d : Decoder) (rest : List Byte) (dropped : Nat) : Decoder :=
  { d with phase := .idle, errno := .ok, part := .header, inp := rest, totalIn := d.totalIn + BitVec.ofNat 64 dropped }

end Sys2Proof.Machine
end

