-- ==== Sys2Proof/Machine/Crc.lean ====
section
/-! DEFINITION. CRC-32 (R380 to R384). -/

namespace Sys2Proof.Machine

/-- One of the eight steps of a table entry (R380). -/
def crcShift (c : Word) : Word := if c.getLsbD 0 then 0xEDB88320#32 ^^^ (c >>> 1) else c >>> 1

/-- `CRC_TABLE[n]` (R380). -/
def crcTable (n : Byte) : Word :=
  crcShift (crcShift (crcShift (crcShift (crcShift (crcShift (crcShift (crcShift (n.setWidth 32))))))))

/-- `CRCUpdate(c, b)` (R382). -/
def crcUpdate (c : Word) (b : Byte) : Word := crcTable ((c ^^^ b.setWidth 32).setWidth 8) ^^^ (c >>> 8)

/-- `CRCFinal` (R383). -/
def crcFinal (c : Word) : Word := c ^^^ 0xFFFFFFFF#32

end Sys2Proof.Machine
end

