-- ==== Sys2Proof/Machine/Operands.lean ====
section
/-! DEFINITION. The operand forms: signed lengths (R411), multi-byte fields (R107, R146), the coded dictionary size (R370 to
R375), and the header's checks (R385). -/

namespace Sys2Proof.Machine

/-! ## Lengths (R411) -/

/-- A length operand is negative. -/
def lengthNegative (n : Word) : Bool := n.msb

/-! ## Little-endian fields (R107) and u64 results (R146) -/

/-- `n` bytes of a value, least significant first. -/
def leBytes : Nat → Nat → List Byte
  | 0, _ => []
  | n + 1, v => BitVec.ofNat 8 v :: leBytes n (v / 256)

/-- The value of bytes, least significant first. -/
def leValue : List Byte → Nat
  | [] => 0
  | b :: rest => b.toNat + 256 * leValue rest

/-- A u64 result: two words, low first (R146). -/
def resultWords (v : U64) : List Word := [lowWord v, highWord v]

/-- A flag as a u32 result (R428). -/
def flagWord (b : Bool) : Word := if b then 1#32 else 0#32

/-! ## The coded dictionary size -/

/-- `16 * DictDecode(DD)` (R371), exact for every byte. -/
def dictDecode16 (dd : Byte) : Nat := (16 - dd.toNat / 32) * 2 ^ (dd.toNat % 32)

/-- The coded byte is valid (R372): its exact size lies in `[2^12, 2^29]`. -/
def dictValid (dd : Byte) : Bool :=
  decide (16 * minDictionarySize ≤ dictDecode16 dd) && decide (dictDecode16 dd ≤ 16 * maxDictionarySize)

/-- `DictDecode(DD)` (R371), the size of a valid byte. -/
def dictDecode (dd : Byte) : Nat := dictDecode16 dd / 16

/-- `ceil(log2 v)` for `v ≥ 1`. -/
def ceilLog2 (v : Nat) : Nat := if 2 ^ v.log2 = v then v.log2 else v.log2 + 1

/-- `DictEncode(size)` (R374). -/
def dictEncode (size : Nat) : Byte :=
  if size ≤ 4096 then 0x0C#8
  else
    let b := ceilLog2 size
    let f := (2 ^ b - size) / 2 ^ (b - 4)
    BitVec.ofNat 8 (f * 32 + b)

/-! ## Headers (R370, R385) -/

/-- The six header bytes (R370, R394). -/
def headerBytes (dictByte : Byte) : List Byte := headerPrefix ++ [dictByte]

/-- The first six bytes form a valid header (R385's three checks, R393). -/
def validHeader : List Byte → Bool
  | a :: b :: c :: d :: v :: dd :: _ => decide ([a, b, c, d, v] = headerPrefix) && dictValid dd
  | _ => false

/-- Fewer than six bytes that a valid header may begin with (R385, R393). -/
def headerStart (bytes : List Byte) : Bool := bytes.isPrefixOf headerPrefix

/-- The search of R393: the input kept, and the number of bytes discarded before it. -/
def resyncSearch : List Byte → List Byte × Nat
  | [] => ([], 0)
  | b :: rest =>
      if validHeader (b :: rest) || headerStart (b :: rest) then (b :: rest, 0)
      else let r := resyncSearch rest; (r.1, r.2 + 1)

end Sys2Proof.Machine
end

