-- ==== Sys2Proof/Machine/Flags.lean ====
section
/-! DEFINITION. The block has no flags register (R31). This file holds what plays a flag's part: the values computed from the
status registers and counters, and the transitions of `phase` that a condition triggers. -/

namespace Sys2Proof.Machine

/-! ## Encoder quantities -/

/-- `lookahead = ENC.stream_pos - LZ.data_position` (R320). -/
def Encoder.lookahead (e : Encoder) : Nat := e.streamPos.toNat - e.lz.dataPosition.toNat

/-- `keep_from` (R320). -/
def Encoder.keepFrom (e : Encoder) : Nat := e.lz.dataPosition.toNat - e.dictionarySize.toNat

/-- `ENC.window_size` (R46, R324). -/
def Encoder.windowSize (p : Params) (e : Encoder) : Nat := e.dictionarySize.toNat + p.beforeSize + p.afterSize

/-- `ENC.member_position = 6 + RE.shifts` (R44, R183). -/
def Encoder.memberPosition (e : Encoder) : Nat := 6 + e.re.shifts.toNat

/-- The parser's view in look-ahead bytes (R341). -/
def Encoder.view (p : Params) (e : Encoder) : Nat := min e.lookahead p.afterSize

/-- `at_end` (R341). -/
def Encoder.atEnd (p : Params) (e : Encoder) : Bool :=
  (e.finishing || e.syncPending) && decide (e.lookahead ≤ p.afterSize)

/-- The window free space (R321), before the cap. -/
def Encoder.freeSpace (p : Params) (e : Encoder) : Nat := e.windowSize p - (e.streamPos.toNat - e.keepFrom)

/-- The value of `ENC_WRITE_SIZE` (R422), capped at `2^31 - 1` (R321). After a sync-flush close it is the free space the new
member's window will have. R45 says that no per-member counter passes `2^64 - 1`: the last cap keeps `ENC.stream_pos` there
(DESIGN CHOICE, safe: log 14). -/
def Encoder.writeSize (p : Params) (e : Encoder) : Nat :=
  if e.phase = .fatal ∨ e.finishing ∨ e.syncPending ∨ e.limitReached then 0
  else if e.resumeOnWrite then min (e.windowSize p - e.lookahead) (2 ^ 31 - 1)
  else min (min (e.freeSpace p) (2 ^ 31 - 1)) (2 ^ 64 - 1 - e.streamPos.toNat)

/-! ## When an encoder step or close is enabled -/

/-- There is look-ahead for a packet step (R340's last two conditions). -/
def Encoder.hasView (p : Params) (e : Encoder) : Bool :=
  decide (1 ≤ e.lookahead) && (decide (p.afterSize ≤ e.lookahead) || e.finishing || e.syncPending)

/-- The member-size limit is reached (R395). -/
def Encoder.atLimit (p : Params) (e : Encoder) : Bool :=
  decide (e.memberSizeLimit.toNat ≤ e.memberPosition + 20 + p.memberMargin)

/-- The limit closes the member: where a packet step would have its look-ahead, the close runs instead (R395; the output
reserve does not hold a close, R394; DEDUCED: log 13). -/
def Encoder.limitClose (p : Params) (e : Encoder) : Bool :=
  decide (e.phase = .inMember) && e.hasView p && e.atLimit p

/-- A finish or a sync flush closes the member (R342). -/
def Encoder.endClose (e : Encoder) : Bool :=
  decide (e.phase = .inMember) && decide (e.lookahead = 0) && (e.finishing || e.syncPending)

/-- A close is enabled (R424). -/
def Encoder.closeEnabled (p : Params) (e : Encoder) : Bool := e.limitClose p || e.endClose

/-- A packet step is enabled (R340). -/
def Encoder.stepEnabled (p : Params) (e : Encoder) : Bool :=
  decide (e.phase = .inMember) && !e.atLimit p && decide (e.out.length < p.encOutReserve) && e.hasView p

/-! ## Results and phase transitions -/

/-- `ENC_MEMBER_FINISHED` (R428, R398). -/
def Encoder.memberFinishedFlag (e : Encoder) : Bool :=
  decide (e.phase = .memberFinished ∨ e.phase = .finished) && e.out.isEmpty

/-- `ENC_FINISHED` (R429). -/
def Encoder.finishedFlag (e : Encoder) : Bool := decide (e.phase = .finished)

/-- EncEndCheck (R398). -/
def Encoder.endCheck (e : Encoder) : Encoder :=
  if e.phase = .memberFinished ∧ e.finishing ∧ e.lookahead = 0 ∧ e.out = [] then { e with phase := .finished } else e

/-- `DEC_WRITE_SIZE` (R442). -/
def Decoder.writeSize (p : Params) (d : Decoder) : Nat :=
  if d.phase = .fatal ∨ d.finishing then 0 else p.inFifoCap - d.inp.length

/-- `DEC_MEMBER_FINISHED` (R448). -/
def Decoder.memberFinishedFlag (d : Decoder) : Bool :=
  decide (d.phase = .memberFinished ∨ d.phase = .finished) && d.out.isEmpty

/-- `DEC_FINISHED` (R449). -/
def Decoder.finishedFlag (d : Decoder) : Bool := decide (d.phase = .finished)

/-- NextMemberCheck (R390, first sentence). -/
def Decoder.nextMemberCheck (d : Decoder) : Decoder :=
  if d.phase = .memberFinished ∧ d.out = [] ∧ d.inp ≠ [] then { d with phase := .idle } else d

/-- FinishedCheck (R390, second sentence). -/
def Decoder.finishedCheck (d : Decoder) : Decoder :=
  if d.phase = .memberFinished ∧ d.out = [] ∧ d.inp = [] ∧ d.finishing then { d with phase := .finished } else d

/-- A decoder packet step has its output room (R280). -/
def Decoder.hasRoom (p : Params) (d : Decoder) : Bool := decide (d.out.length + maxPacketBytes ≤ p.outFifoCap)

/-- `n` more bytes take no decoder counter past `2^64 - 1` (R45, R282). -/
def Decoder.countersHold (d : Decoder) (n : Nat) : Bool :=
  decide (d.lz.dataPosition.toNat + n < 2 ^ 64) && decide (d.totalOut.toNat + n < 2 ^ 64)

/-- Taking `n` bytes of input takes no decoder counter past `2^64 - 1` (R45). -/
def Decoder.inputCountersHold (d : Decoder) (n : Nat) : Bool :=
  decide (d.memberPosition.toNat + n < 2 ^ 64) && decide (d.totalIn.toNat + n < 2 ^ 64)

end Sys2Proof.Machine
end

