-- ==== Sys2Proof/Machine/Models.lean ====
section
/-! DEFINITION. Bit models, context selection and prices (spec/41_bit_models.md), and the tables of the LZMA registers
(R252, R253). -/

namespace Sys2Proof.Machine

/-! ## Bit model -/

/-- `BitUpdate(p, bit)` (R222). -/
def bitUpdate (p : Prob) (bit : Bool) : Prob :=
  if bit then p - (p >>> 5) else p + BitVec.ofNat 11 ((2048 - p.toNat) / 32)

/-! ## Context selection (R226, R227) -/

/-- `pos_state` (R226). -/
def posState (dataPosition : Nat) : Nat := dataPosition % 4

/-- `lit_state` of the previous byte (R227). -/
def litState (prevByte : Byte) : Nat := prevByte.toNat / 32

/-- The context of the next packet on a channel with these LZMA registers, this window and this dictionary size. -/
def packetCtx (lz : Lzma) (window : Memory) (dictionarySize : Nat) : PacketCtx :=
  { state := lz.state.val
    posState := posState lz.dataPosition.toNat
    litState := litState ((winRead window lz.dataPosition.toNat dictionarySize 0).getD 0x00#8)
    matchByte :=
      if 7 ≤ lz.state.val then winRead window lz.dataPosition.toNat dictionarySize lz.rep0.toNat else none
    atStart := decide (lz.dataPosition = 0#64) }

/-! ## State transitions (R252) and rep distances (R253) -/

/-- `set_char` (R252). -/
def setChar (s : Fin 12) : Fin 12 := ([0, 0, 0, 0, 1, 2, 3, 4, 5, 6, 4, 5] : List (Fin 12)).getD s.val 0

/-- `set_match` (R252). -/
def setMatch (s : Fin 12) : Fin 12 := if s.val < 7 then 7 else 10

/-- `set_rep` (R252). -/
def setRep (s : Fin 12) : Fin 12 := if s.val < 7 then 8 else 11

/-- `set_shortrep` (R252). -/
def setShortRep (s : Fin 12) : Fin 12 := if s.val < 7 then 9 else 11

/-- The LZMA registers after a LIT, before its byte is counted. -/
def Lzma.afterLit (lz : Lzma) : Lzma := { lz with state := setChar lz.state }

/-- After a MATCH of stored distance `d` (R253, R271). -/
def Lzma.afterMatch (lz : Lzma) (d : Word) : Lzma :=
  { lz with state := setMatch lz.state, rep0 := d, rep1 := lz.rep0, rep2 := lz.rep1, rep3 := lz.rep2 }

/-- After a SHORTREP (R272). -/
def Lzma.afterShortRep (lz : Lzma) : Lzma := { lz with state := setShortRep lz.state }

/-- After a REP0 (R273). -/
def Lzma.afterRep0 (lz : Lzma) : Lzma := { lz with state := setRep lz.state }

/-- After a REP1 (R253, R274). -/
def Lzma.afterRep1 (lz : Lzma) : Lzma := { lz with state := setRep lz.state, rep0 := lz.rep1, rep1 := lz.rep0 }

/-- After a REP2 (R253, R275). -/
def Lzma.afterRep2 (lz : Lzma) : Lzma :=
  { lz with state := setRep lz.state, rep0 := lz.rep2, rep1 := lz.rep0, rep2 := lz.rep1 }

/-- After a REP3 (R253, R276). -/
def Lzma.afterRep3 (lz : Lzma) : Lzma :=
  { lz with state := setRep lz.state, rep0 := lz.rep3, rep1 := lz.rep0, rep2 := lz.rep1, rep3 := lz.rep2 }

/-! ## Prices (R230 to R233) -/

/-- The inner loop of R230: halve `val` until it is below `2^16`, counting; 16 rounds suffice for a square. -/
def priceNormalise : Nat → Nat → Nat → Nat × Nat
  | 0, val, bits => (val, bits)
  | k + 1, val, bits => if 2 ^ 16 ≤ val then priceNormalise k (val / 2) (bits + 1) else (val, bits)

/-- The six rounds of R230. -/
def priceRounds : Nat → Nat → Nat → Nat
  | 0, _, bits => bits
  | k + 1, val, bits =>
      let r := priceNormalise 16 (val * val) (bits * 2)
      priceRounds k r.1 r.2

/-- `PRICE[i]` (R230). -/
def priceEntry (i : Nat) : Nat := 704 - (priceRounds 6 (4 * i + 2) 0 + 15)

/-- `price(bit, p)` (R231). -/
def bitPrice (bit : Bool) (p : Prob) : Nat :=
  if bit then priceEntry ((2048 - p.toNat) / 4) else priceEntry (p.toNat / 4)

/-- The price of one decision bit (R232): a direct bit costs 64. -/
def decisionPrice (m : Models) (d : Decision) : Nat :=
  match d.model with
  | some r => bitPrice d.bit (m.get r)
  | none => 64

/-- The price of a packet or a field: the sum over its decision bits, with the models as they are before coding (R232). -/
def symbolPrice (m : Models) (ds : List Decision) : Nat := (ds.map (decisionPrice m)).sum

/-- A candidate parse as R350 compares it: its total price, the length of its last packet, that packet's rep index and its
distance. R350 defines no rep index for a packet that is no rep: the model gives it 4, so that at equal price and length a rep
wins (DESIGN CHOICE, safe: log 23). -/
structure Candidate where
  price : Nat
  lastLen : Nat
  repIndex : Nat
  distance : Nat
deriving DecidableEq, Repr

/-- The first candidate wins over the second (R348, R350): lower price, then longer last packet, then smaller rep index, then
smaller distance. -/
def Candidate.beats (a b : Candidate) : Bool :=
  decide (a.price < b.price) || (decide (a.price = b.price) && (decide (b.lastLen < a.lastLen) ||
    (decide (a.lastLen = b.lastLen) && (decide (a.repIndex < b.repIndex) ||
      (decide (a.repIndex = b.repIndex) && decide (a.distance < b.distance))))))

end Sys2Proof.Machine
end

