-- ==== Sys2Proof/Machine/RangeCoder.lean ====
section
/-! DEFINITION. The range coder (spec/40_range_coder.md). The encoder's primitives act on an encoder channel, the decoder's on a
decoder channel as a source of decision bits (R210). -/

namespace Sys2Proof.Machine

/-! ## Encoder -/

/-- The carry: bit 32 of `RE.low` (R173). -/
def RangeEnc.carry (r : RangeEnc) : Bool := decide (2 ^ 32 ≤ r.low.toNat)

/-- The top byte of `RE.low` is `0x0FF`: the byte is deferred (R176). -/
def RangeEnc.defers (r : RangeEnc) : Bool := decide (r.low.toNat / 2 ^ 24 = 0xFF)

/-- The bytes one shift emits (R176): none when it defers, else the cache byte with the carry and the pending bytes. -/
def RangeEnc.shiftBytes (r : RangeEnc) : List Byte :=
  if r.defers then []
  else (r.cache + BitVec.ofNat 8 r.carry.toNat) ::
    List.replicate r.ffCount.toNat (0xFF#8 + BitVec.ofNat 8 r.carry.toNat)

/-- The registers after one shift (R176). -/
def RangeEnc.shift (r : RangeEnc) : RangeEnc :=
  { r with
    low := BitVec.ofNat 33 (r.low.toNat % 2 ^ 24 * 2 ^ 8)
    cache := if r.defers then r.cache else BitVec.ofNat 8 (r.low.toNat / 2 ^ 24)
    ffCount := if r.defers then r.ffCount + 1#64 else 0#64
    shifts := r.shifts + 1#64 }

/-- RC_SHIFT_LOW (R176). -/
def Encoder.shiftLow (e : Encoder) : Encoder := { e with out := e.out ++ e.re.shiftBytes, re := e.re.shift }

/-- RC_ENC_NORMALIZE (R177). -/
def Encoder.normalize (e : Encoder) : Encoder :=
  if e.re.range.toNat < top then Encoder.shiftLow { e with re := { e.re with range := e.re.range <<< 8 } } else e

/-- `bound` of a decision bit (R178). -/
def rangeBound (range : Word) (p : Prob) : Word := (range >>> 11) * p.setWidth 32

/-- RC_ENC_BIT(M[i], bit) (R178). -/
def Encoder.encBit (e : Encoder) (r : ModelRef) (bit : Bool) : Encoder :=
  let p := e.models.get r
  let bound := rangeBound e.re.range p
  let re :=
    if bit then { e.re with low := e.re.low + bound.setWidth 33, range := e.re.range - bound }
    else { e.re with range := bound }
  Encoder.normalize { e with re := re, models := e.models.set r (bitUpdate p bit) }

/-- One bit of RC_ENC_DIRECT (R181). -/
def Encoder.encDirectBit (e : Encoder) (bit : Bool) : Encoder :=
  let half := e.re.range >>> 1
  Encoder.normalize
    { e with re := { e.re with low := if bit then e.re.low + half.setWidth 33 else e.re.low, range := half } }

/-- Code one decision bit (R210). -/
def Encoder.encDecision (e : Encoder) (d : Decision) : Encoder :=
  match d.model with
  | some r => e.encBit r d.bit
  | none => e.encDirectBit d.bit

/-- Code decision bits in order. With the lists of Decode.lean this is RC_ENC_TREE (R179), RC_ENC_TREE_REV (R180) and
RC_ENC_DIRECT (R181). -/
def Encoder.encDecisions (e : Encoder) (ds : List Decision) : Encoder := ds.foldl Encoder.encDecision e

/-- RC_ENC_FLUSH (R182): five shifts. -/
def Encoder.flush (e : Encoder) : Encoder := e.shiftLow.shiftLow.shiftLow.shiftLow.shiftLow

/-! ## Decoder -/

/-- RdByte (R191), with the counters' check of R45. -/
def Decoder.rdByte (d : Decoder) : Src Decoder Byte :=
  match d.inp with
  | [] => if d.finishing then .raise .unexpectedEof d else .hold
  | b :: rest =>
      if d.inputCountersHold 1 then
        .ok b { d with inp := rest, memberPosition := d.memberPosition + 1#64, totalIn := d.totalIn + 1#64 }
      else .raise .libraryError d

/-- DEC_CHECK (R193). -/
def Decoder.check (d : Decoder) : Src Decoder Unit :=
  if d.rd.code.toNat < d.rd.range.toNat then .ok () d else .raise .dataError d

/-- RC_DEC_NORMALIZE (R192): `RD.range` is shifted before the byte is read, so that it stays shifted where the read raises
(R485). -/
def Decoder.normalize (d : Decoder) : Src Decoder Unit :=
  if d.rd.range.toNat < top then
    (Decoder.rdByte { d with rd := { d.rd with range := d.rd.range <<< 8 } }).bind fun b d =>
      Decoder.check { d with rd := { d.rd with code := (d.rd.code <<< 8) ||| b.setWidth 32 } }
  else d.check

/-- RC_DEC_BIT(M[i]) (R194). -/
def Decoder.decBit (d : Decoder) (r : ModelRef) : Src Decoder Bool :=
  let p := d.models.get r
  let bound := rangeBound d.rd.range p
  let bit := decide (bound.toNat ≤ d.rd.code.toNat)
  let rd : RangeDec :=
    if bit then { code := d.rd.code - bound, range := d.rd.range - bound } else { d.rd with range := bound }
  (Decoder.normalize { d with rd := rd, models := d.models.set r (bitUpdate p bit) }).bind fun _ d => .ok bit d

/-- One bit of RC_DEC_DIRECT (R197). -/
def Decoder.decDirectBit (d : Decoder) : Src Decoder Bool :=
  let half := d.rd.range >>> 1
  let bit := decide (half.toNat ≤ d.rd.code.toNat)
  let rd : RangeDec := { code := if bit then d.rd.code - half else d.rd.code, range := half }
  (Decoder.normalize { d with rd := rd }).bind fun _ d => .ok bit d

/-- The range decoder as a source of decision bits (R210): with Decode.lean this is RC_DEC_TREE (R195), RC_DEC_TREE_REV (R196)
and RC_DEC_DIRECT (R197). -/
def rangeBit (d : Decoder) (r : Option ModelRef) : Src Decoder Bool :=
  match r with
  | some r => d.decBit r
  | none => d.decDirectBit

/-- One of the four bytes RC_DEC_LOAD shifts in (R190). -/
def Decoder.loadByte (d : Decoder) : Src Decoder Unit :=
  d.rdByte.bind fun b d => .ok () { d with rd := { d.rd with code := (d.rd.code <<< 8) ||| b.setWidth 32 } }

/-- RC_DEC_LOAD (R190). -/
def Decoder.rcLoad (d : Decoder) : Src Decoder Unit :=
  (Decoder.rdByte { d with rd := .init }).bind fun b d =>
    if b ≠ 0x00#8 then .raise .headerError d
    else d.loadByte.bind fun _ d => d.loadByte.bind fun _ d => d.loadByte.bind fun _ d => d.loadByte.bind fun _ d =>
      d.check

end Sys2Proof.Machine
end

