-- ==== Sys2Proof/Machine/Decoder.lean ====
section
/-! DEFINITION. The decoder's datapath: the header, load and trailer steps (R385 to R388), the fetch of a packet (R280, R281),
the plaintext (R105, R254) and the resynchronisation (R393). -/

namespace Sys2Proof.Machine

/-! ## Plaintext -/

/-- `WinWrite(b)` (R105). -/
def Decoder.emit (d : Decoder) (b : Byte) : Decoder :=
  { d with
    history := d.history.write d.lz.dataPosition.toNat b
    crc := crcUpdate d.crc b
    out := d.out ++ [b]
    lz := { d.lz with dataPosition := d.lz.dataPosition + 1#64 }
    totalOut := d.totalOut + 1#64 }

/-- `WinRead(s)` (R104). -/
def Decoder.winRead (d : Decoder) (s : Nat) : Option Byte :=
  Machine.winRead d.history d.lz.dataPosition.toNat d.dictionarySize.toNat s

/-- `repeat n times: Emit(WinRead(dist))` (R254). Where a byte is not defined, which R255 and R287 exclude, R489's
`library_error` is raised (log 11). -/
def Decoder.emitCopy (dist : Nat) : Nat → Decoder → Src Decoder Unit
  | 0, d => .ok () d
  | n + 1, d =>
      match d.winRead dist with
      | some b => Decoder.emitCopy dist n (d.emit b)
      | none => .raise .libraryError d

/-- The executing side of a packet of `n` bytes: a counter that would pass `2^64 - 1` raises `library_error` before anything is
emitted (R45, R282, R485; log 14). -/
def Decoder.execute (d : Decoder) (lz : Lzma → Lzma) (n : Nat) (emit : Decoder → Src Decoder Unit) : Src Decoder Unit :=
  if d.countersHold n then emit { d with lz := lz d.lz } else .raise .libraryError d

/-- The executing side of a rep-class packet (R283, R255): `data_error` at data position 0. -/
def Decoder.executeRep (d : Decoder) (lz : Lzma → Lzma) (n : Nat) : Src Decoder Unit :=
  if d.lz.dataPosition = 0#64 then .raise .dataError d
  else d.execute lz n fun d => Decoder.emitCopy d.lz.rep0.toNat n d

/-- The executing side of a MATCH (R271): the marker's length (R288), the distance check (R287), the copy. -/
def Decoder.executeMatch (d : Decoder) (len : Nat) (dist : Word) : Src Decoder Unit :=
  if dist = eosDistance then .raise .dataError d
  else if d.lz.dataPosition.toNat ≤ dist.toNat ∨ d.dictionarySize.toNat ≤ dist.toNat then .raise .dataError d
  else d.execute (·.afterMatch dist) len fun d => Decoder.emitCopy dist.toNat len d

/-- The executing side of the marker (R277, R288). -/
def Decoder.executeEos (d : Decoder) : Src Decoder Unit :=
  if d.rd.code ≠ 0#32 then .raise .dataError d else .ok () { d with part := .trailer }

/-! ## Fetching a packet -/

/-- The context of the decoder's next packet. -/
def Decoder.ctx (d : Decoder) : PacketCtx := packetCtx d.lz d.history d.dictionarySize.toNat

/-- The fetch of a packet step (R280, R281): with room for a packet's bytes, the packet is decoded from the range decoder;
without, the step holds. -/
def Decoder.fetch (p : Params) (d : Decoder) : Src Decoder Instr :=
  if d.hasRoom p then decPacket rangeBit d.ctx d else .hold

/-! ## Member steps -/

/-- MemberInit (R387) with the range decoder's registers as before the load (R521). -/
def Decoder.memberInit (d : Decoder) : Decoder :=
  { d with models := [], lz := .init, crc := crcInit, history := [], rd := .init }

/-- A header of dictionary byte `dd` is accepted: its six bytes are popped and the member begins (R385). -/
def Decoder.acceptHeader (d : Decoder) (dd : Byte) : Decoder :=
  Decoder.memberInit
    { d with
      inp := d.inp.drop 6
      memberPosition := 6#64
      totalIn := d.totalIn + 6#64
      memberVersion := 1#8
      dictionarySize := BitVec.ofNat 32 (dictDecode dd)
      phase := .inMember
      part := .load }

/-- The header step (R385). -/
def Decoder.headerStep (p : Params) (d : Decoder) : Src Decoder Unit :=
  if d.inp.length < 6 then
    if d.finishing then .raise (if headerStart d.inp then .unexpectedEof else .headerError) d else .hold
  else
    let dd := d.inp.getD 5 0#8
    if d.inp.take 5 ≠ headerPrefix then .raise .headerError d
    else if !dictValid dd then .raise .headerError d
    else if p.maxWindowBytes < dictDecode dd then .raise .memError d
    else if 2 ^ 64 ≤ d.totalIn.toNat + 6 then .raise .libraryError d
    else .ok () (d.acceptHeader dd)

/-- The load step (R386). -/
def Decoder.loadStep (d : Decoder) : Src Decoder Unit := d.rcLoad.bind fun _ d => .ok () { d with part := .payload }

/-- The three checks of R388 on the popped trailer, with `DEC.member_position` already counting it. -/
def Decoder.trailerMatches (d : Decoder) (t : List Byte) : Bool :=
  decide (leValue (t.take 4) = (crcFinal d.crc).toNat) && decide (leValue ((t.drop 4).take 8) = d.lz.dataPosition.toNat) &&
    decide (leValue ((t.drop 12).take 8) = d.memberPosition.toNat)

/-- The trailer step (R388). -/
def Decoder.trailerStep (d : Decoder) : Src Decoder Unit :=
  if d.inp.length < 20 then if d.finishing then .raise .unexpectedEof d else .hold
  else if !d.inputCountersHold 20 then .raise .libraryError d
  else
    let t := d.inp.take 20
    let d := { d with inp := d.inp.drop 20, memberPosition := d.memberPosition + 20#64, totalIn := d.totalIn + 20#64 }
    if d.trailerMatches t then .ok () { d with phase := .memberFinished } else .raise .dataError d

/-- Resync (R393). A counter that the discarded bytes would take past `2^64 - 1` raises `library_error` (R45; log 14). -/
def Decoder.resync (d : Decoder) : Src Decoder Unit :=
  let r := resyncSearch d.inp
  if d.totalIn.toNat + r.2 < 2 ^ 64 then .ok () (d.leaveFatalAt r.1 r.2) else .raise .libraryError d

end Sys2Proof.Machine
end

