-- ==== Sys2Proof/Machine/DecoderCommands.lean ====
section
/-! DEFINITION. The meanings of the decoder commands (R440 to R457). -/

namespace Sys2Proof.Machine

/-- A command on an open decoder channel; on any other channel it ends with `bad_argument` and changes nothing (R410). -/
def withDecoder (s : State) (c : Byte) (f : Decoder → Host.Outcome State Fault Refusal) : Host.Outcome State Fault Refusal :=
  match s.chan c with
  | .dec d => f d
  | .closed => .next s.reject
  | .enc _ => .next s.reject

/-- Put back a decoder channel and respond. -/
def State.decRespond (s : State) (c : Byte) (d : Decoder) (status : ErrorCode) (words : List Word) : State :=
  (s.setChan c (.dec d)).respond status words []

/-- An introspection command (R459): the result words, and no change of any channel. -/
def introspect (s : State) (c : Byte) (words : Decoder → List Word) : Host.Outcome State Fault Refusal :=
  withDecoder s c fun d => .next (s.respond .ok (words d) [])

/-- DEC_OPEN (R440). -/
def execDecOpen (c : Byte) (s : State) : Host.Outcome State Fault Refusal :=
  if !s.chanValid c then .next s.reject
  else
    match s.chan c with
    | .enc _ => .next s.reject
    | .dec _ => .next s.reject
    | .closed => .next (s.decRespond c .init .ok [])

/-- DEC_CLOSE (R441). -/
def execDecClose (c : Byte) (s : State) : Host.Outcome State Fault Refusal :=
  withDecoder s c fun _ => .next ((s.setChan c .closed).respond .ok [] [])

/-- DEC_WRITE_SIZE (R442). -/
def execDecWriteSize (c : Byte) (s : State) : Host.Outcome State Fault Refusal :=
  introspect s c fun d => [BitVec.ofNat 32 (d.writeSize s.params)]

/-- DEC_WRITE (R443). A command that fails answers 0 accepted (DEDUCED: log 15). -/
def execDecWrite (c : Byte) (n : Word) (bytes : List Byte) (s : State) : Host.Outcome State Fault Refusal :=
  withDecoder s c fun d =>
    if lengthNegative n then .next (s.decRespond c d.rejectArgument .badArgument [0#32])
    else if d.phase = .fatal then .next (s.respond d.errno [0#32] [])
    else if d.finishing then .next (s.decRespond c (d.enterFatal .sequenceError) .sequenceError [0#32])
    else
      let m := min bytes.length (s.params.inFifoCap - d.inp.length)
      .next (s.decRespond c { d with inp := d.inp ++ bytes.take m } .ok [BitVec.ofNat 32 m])

/-- DEC_READ (R444): after the checks and NextMemberCheck the read runs; its loop is `decoderIteration` of
Machine/Sequencer.lean, one iteration a step, and no other command is taken until it ends (log 6). -/
def execDecRead (c : Byte) (n : Word) (s : State) : Host.Outcome State Fault Refusal :=
  withDecoder s c fun d =>
    if lengthNegative n then .next (s.decRespond c d.rejectArgument .badArgument [0#32])
    else if d.phase = .fatal then .next (s.respond d.errno [0#32] [])
    else .next { s.setChan c (.dec d.nextMemberCheck) with running := some { chan := c, n := n.toNat, got := [] } }

/-- DEC_FINISH (R445). -/
def execDecFinish (c : Byte) (s : State) : Host.Outcome State Fault Refusal :=
  withDecoder s c fun d =>
    if d.phase = .fatal then .next (s.respond d.errno [] [])
    else .next (s.decRespond c (Decoder.finishedCheck { d with finishing := true }) .ok [])

/-- DEC_RESET (R446). -/
def execDecReset (c : Byte) (s : State) : Host.Outcome State Fault Refusal :=
  withDecoder s c fun d => .next (s.decRespond c d.reset .ok [])

/-- DEC_SYNC_TO_MEMBER (R447). -/
def execDecSyncToMember (c : Byte) (s : State) : Host.Outcome State Fault Refusal :=
  withDecoder s c fun d =>
    if d.phase = .fatal ∧ d.errno ≠ .headerError ∧ d.errno ≠ .dataError then .next (s.respond d.errno [] [])
    else
      match d.resync with
      | .ok _ d' => .next (s.decRespond c d' .ok [])
      | .hold => .next (s.decRespond c d .ok [])
      | .raise err d' => .next (s.decRespond c (d'.enterFatal err) err [])

/-- DEC_MEMBER_FINISHED (R448). -/
def execDecMemberFinished (c : Byte) (s : State) : Host.Outcome State Fault Refusal :=
  introspect s c fun d => [flagWord d.memberFinishedFlag]

/-- DEC_FINISHED (R449). -/
def execDecFinished (c : Byte) (s : State) : Host.Outcome State Fault Refusal :=
  introspect s c fun d => [flagWord d.finishedFlag]

/-- DEC_ERRNO (R450). -/
def execDecErrno (c : Byte) (s : State) : Host.Outcome State Fault Refusal :=
  introspect s c fun d => [errorWord d.errno]

/-- DEC_MEMBER_VERSION (R451). -/
def execDecMemberVersion (c : Byte) (s : State) : Host.Outcome State Fault Refusal :=
  introspect s c fun d => [d.memberVersion.setWidth 32]

/-- DEC_DICTIONARY_SIZE (R452). -/
def execDecDictionarySize (c : Byte) (s : State) : Host.Outcome State Fault Refusal :=
  introspect s c fun d => [d.dictionarySize]

/-- DEC_DATA_CRC (R453). -/
def execDecDataCrc (c : Byte) (s : State) : Host.Outcome State Fault Refusal :=
  introspect s c fun d => [crcFinal d.crc]

/-- DEC_DATA_POSITION (R454). -/
def execDecDataPosition (c : Byte) (s : State) : Host.Outcome State Fault Refusal :=
  introspect s c fun d => resultWords d.lz.dataPosition

/-- DEC_MEMBER_POSITION (R455). -/
def execDecMemberPosition (c : Byte) (s : State) : Host.Outcome State Fault Refusal :=
  introspect s c fun d => resultWords d.memberPosition

/-- DEC_TOTAL_IN_SIZE (R456). -/
def execDecTotalInSize (c : Byte) (s : State) : Host.Outcome State Fault Refusal :=
  introspect s c fun d => resultWords d.totalIn

/-- DEC_TOTAL_OUT_SIZE (R457). -/
def execDecTotalOutSize (c : Byte) (s : State) : Host.Outcome State Fault Refusal :=
  introspect s c fun d => resultWords d.totalOut

end Sys2Proof.Machine
end

