-- ==== Sys2Proof/Machine/MatchFinder.lean ====
section
/-! DEFINITION. The match-finder (R330 to R336): hash chains for the fast variant, binary trees for the normal one, positions
absolute (R322). The search details the spec leaves open are marked here and in log 4 and log 19. -/

namespace Sys2Proof.Machine

/-- The number of bytes, at most `limit`, at which the window agrees at `p` and at `q`. -/
def matchLength (w : Memory) (p q : Nat) : Nat → Nat
  | 0 => 0
  | limit + 1 =>
      match w.read p, w.read q with
      | some a, some b => if a = b then matchLength w (p + 1) (q + 1) limit + 1 else 0
      | _, _ => 0

/-- The pair `(len, d)` is valid at position `pos` with `avail` bytes to look at (R331). -/
def Encoder.validPair (e : Encoder) (pos avail len d : Nat) : Bool :=
  decide (2 ≤ len) && decide (len ≤ min e.matchLenLimit.toNat avail) && decide (d < pos) &&
    decide (d < e.dictionarySize.toNat) && decide (e.keepFrom ≤ pos - d - 1) &&
    decide (matchLength e.window pos (pos - d - 1) len = len)

/-- A candidate position is inside the dictionary at `pos` and not before `keep_from` (R325, R331, R332
"dictionary-reachable"). -/
def Encoder.reachable (e : Encoder) (pos cand : Nat) : Bool :=
  decide (cand < pos) && decide (pos - cand ≤ e.dictionarySize.toNat) && decide (e.keepFrom ≤ cand)

/-- The cyclic index of a position in `MF.son` (R323: `dictionary_size + 1` positions). -/
def Encoder.cyclicIndex (e : Encoder) (pos : Nat) : Nat := pos % (e.dictionarySize.toNat + 1)

/-- A pair, added to a list kept in strictly rising length with the smallest distance for each length (R333). -/
def addPair (len d : Nat) : List (Nat × Nat) → List (Nat × Nat)
  | [] => [(len, d)]
  | (len', d') :: rest =>
      if len < len' then (len, d) :: (len', d') :: rest
      else if len = len' then (len, min d d') :: rest
      else (len', d') :: addPair len d rest

/-- Add a pair if its length is a match length (R331). -/
def addMatch (len d : Nat) (pairs : List (Nat × Nat)) : List (Nat × Nat) := if 2 ≤ len then addPair len d pairs else pairs

/-- Follow a hash chain and keep the longest match (R332). DESIGN CHOICE, unsafe (log 19): the bucket's head counts among the
`fast_cycles` links, so the given number is the most positions visited; of equally long candidates the first met, which is the
most recent, is kept; an unreachable position ends the chain. -/
def Encoder.chainWalk (e : Encoder) (pos limit : Nat) : Nat → Option Nat → Nat × Nat → Nat × Nat
  | 0, _, best => best
  | _ + 1, none, best => best
  | k + 1, some c, best =>
      if e.reachable pos c then
        let len := matchLength e.window pos c limit
        e.chainWalk pos limit k (e.mf.son.get (e.cyclicIndex c)) (if best.1 < len then (len, pos - c - 1) else best)
      else best

/-- The bucket of the 4-byte key at `pos` (R332, R333), of which the view may leave fewer bytes (log 19). -/
def Encoder.bucket (p : Params) (e : Encoder) (pos avail : Nat) : Nat :=
  Config.hash4 p.hashChoice (e.window.readList pos (min 4 avail)) % p.hashSize

/-- `MF_FAST(pos)` (R332): the arrays after the insertion, and the pair found, if any. With fewer than four of the `avail` bytes
nothing is inserted and nothing found. -/
def Encoder.mfFast (p : Params) (e : Encoder) (pos avail : Nat) : MatchFinder × List (Nat × Nat) :=
  if avail < 4 then (e.mf, [])
  else
    let h := e.bucket p pos avail
    let head := e.mf.hash4.get h
    let best := e.chainWalk pos (min e.matchLenLimit.toNat avail) p.fastCycles head (0, 0)
    ({ e.mf with hash4 := e.mf.hash4.put h (some pos), son := e.mf.son.put (e.cyclicIndex pos) head },
      addMatch best.1 best.2 [])

/-- The string at `c` is smaller than the string at `pos`, which differ after `len` bytes (R334). -/
def smallerAt (w : Memory) (pos c len : Nat) : Bool :=
  decide (((w.read (c + len)).getD 0#8).toNat < ((w.read (pos + len)).getD 0#8).toNat)

/-- The walk down a binary tree (R333, R334): `left` and `right` are the child slots still to be filled with the smaller and
the larger strings; at most the given number of nodes is visited. DESIGN CHOICE, unsafe (log 19): when that number has been
visited, or a node is unreachable, both open slots are freed and what is below leaves the tree; a string equal over all the
bytes looked at is replaced also where the view makes these fewer than `match_len_limit`. -/
def Encoder.treeWalk (e : Encoder) (pos limit : Nat) :
    Nat → Option Nat → Nat → Nat → PosTable → List (Nat × Nat) → PosTable × List (Nat × Nat)
  | 0, _, left, right, son, pairs => ((son.put left none).put right none, pairs)
  | _ + 1, none, left, right, son, pairs => ((son.put left none).put right none, pairs)
  | k + 1, some c, left, right, son, pairs =>
      if e.reachable pos c then
        let len := matchLength e.window pos c limit
        let pairs := addMatch len (pos - c - 1) pairs
        let cl := 2 * e.cyclicIndex c
        let cr := cl + 1
        if limit ≤ len then ((son.put left (son.get cl)).put right (son.get cr), pairs)
        else if smallerAt e.window pos c len then
          e.treeWalk pos limit k (son.get cr) cr right (son.put left (some c)) pairs
        else e.treeWalk pos limit k (son.get cl) left cl (son.put right (some c)) pairs
      else ((son.put left none).put right none, pairs)

/-- One of the side tables (R333): the position it held for the key of `n` bytes at `pos`, and the table with `pos` in its place.
A key the view cuts short is not in it (DESIGN CHOICE, unsafe: log 19). -/
def Encoder.sideStep (e : Encoder) (hash : List Byte → Nat) (n pos avail : Nat) (t : PosTable) : Option Nat × PosTable :=
  if n ≤ avail then (t.get (hash (e.window.readList pos n)), t.put (hash (e.window.readList pos n)) (some pos)) else (none, t)

/-- The pair a side table's position gives (R333). DESIGN CHOICE, unsafe (log 19): the match is extended to the full limit, not only
to the 2 or 3 bytes of the table's key. -/
def Encoder.sidePair (e : Encoder) (pos limit : Nat) (cand : Option Nat) (pairs : List (Nat × Nat)) : List (Nat × Nat) :=
  match cand with
  | some c => if e.reachable pos c then addMatch (matchLength e.window pos c limit) (pos - c - 1) pairs else pairs
  | none => pairs

/-- `MF_NORMAL(pos)` (R333): the arrays after the insertion, and the pairs found. Where the view leaves fewer than four bytes the
position goes into the tree of the key they make (DESIGN CHOICE, unsafe: log 19). Each of the three parts of `MF.hash` has
`HASH_SIZE` buckets of its own (R323, R47; DESIGN CHOICE, unsafe: log 4). -/
def Encoder.mfNormal (p : Params) (e : Encoder) (pos avail : Nat) : MatchFinder × List (Nat × Nat) :=
  let limit := min e.matchLenLimit.toNat avail
  let s2 := e.sideStep (fun key => Config.hash2 p.hashChoice key % p.hashSize) 2 pos avail e.mf.hash2
  let s3 := e.sideStep (fun key => Config.hash3 p.hashChoice key % p.hashSize) 3 pos avail e.mf.hash3
  let h4 := e.bucket p pos avail
  let slot := 2 * e.cyclicIndex pos
  let r := e.treeWalk pos limit p.normalCycles (e.mf.hash4.get h4) slot (slot + 1) e.mf.son
    (e.sidePair pos limit s3.1 (e.sidePair pos limit s2.1 []))
  ({ e.mf with hash2 := s2.2, hash3 := s3.2, hash4 := e.mf.hash4.put h4 (some pos), son := r.1 }, r.2)

/-- Insert one position and report its pairs; `fin` is the end of the parser's view (R341). -/
def Encoder.mfInsert (p : Params) (e : Encoder) (pos fin : Nat) : MatchFinder × List (Nat × Nat) :=
  let r :=
    match e.variant with
    | .fast => e.mfFast p pos (fin - pos)
    | .normal => e.mfNormal p pos (fin - pos)
  ({ r.1 with next := pos + 1 }, r.2)

/-- The skip of R335: insert the next `n` positions, in order, without reporting. -/
def Encoder.mfSkip (p : Params) (e : Encoder) (fin : Nat) : Nat → Encoder
  | 0 => e
  | n + 1 => Encoder.mfSkip p { e with mf := (e.mfInsert p e.mf.next fin).1 } fin n

/-- Insert every position passed over and not yet inserted (R335). DESIGN CHOICE, unsafe (log 19): this happens at the next
packet step or at the close, not when the positions are covered, so that what a key holds is what the view of that step shows
and does not depend on how writes and reads interleave (R115). -/
def Encoder.mfCatchUp (p : Params) (e : Encoder) : Encoder :=
  e.mfSkip p (e.lz.dataPosition.toNat + e.view p) (e.lz.dataPosition.toNat - e.mf.next)

end Sys2Proof.Machine
end

