-- ==== Sys2Proof/Machine/Encoder.lean ====
section
/-! DEFINITION. The encoder's datapath: member start and close (R387, R394 to R397), the emission of plaintext (R290), the
legality of a packet (R291, R345) and the parser (R345, R346). -/

namespace Sys2Proof.Machine

/-! ## Members -/

/-- MemberInit (R387) with a fresh match-finder, trial buffer and cyclic index (R521): what an open and a restart share. -/
def Encoder.memberInit (e : Encoder) : Encoder :=
  { e with re := .init, lz := .init, models := [], crc := crcInit, mf := .init, trial := [], planned := [], cyclicPos := 0#32 }

/-- Push the header (R394). -/
def Encoder.pushHeader (e : Encoder) : Encoder := { e with out := e.out ++ headerBytes e.dictByte }

/-- The encoder channel an open leaves (R420, R521). -/
def Encoder.opened (dictByte : Byte) (matchLenLimit : BitVec 16) (memberSizeLimit : U64) (variant : Variant) : Encoder :=
  Encoder.pushHeader
    { phase := .inMember, errno := .ok, finishing := false, syncPending := false, resumeOnWrite := false,
      limitReached := false, dictByte := dictByte, dictionarySize := BitVec.ofNat 32 (dictDecode dictByte),
      matchLenLimit := matchLenLimit, memberSizeLimit := memberSizeLimit, variant := variant, re := .init, lz := .init,
      models := [], crc := crcInit, window := [], streamPos := 0#64, cyclicPos := 0#32, mf := .init, trial := [],
      planned := [], out := [], totalIn := 0#64, totalOut := 0#64 }

/-- MemberRestart (R397, R521): the look-ahead becomes positions `0 .. lookahead - 1` of the new member. -/
def Encoder.memberRestart (e : Encoder) : Encoder :=
  let e' := Encoder.memberInit
    { e with
      window := Memory.writeList [] 0 (e.window.readList e.lz.dataPosition.toNat e.lookahead)
      streamPos := BitVec.ofNat 64 e.lookahead
      limitReached := false
      resumeOnWrite := false
      syncPending := false
      phase := .inMember }
  e'.pushHeader

/-- The context of the encoder's next packet. -/
def Encoder.ctx (e : Encoder) : PacketCtx := packetCtx e.lz e.window e.dictionarySize.toNat

/-- The trailer of the current member (R394). -/
def Encoder.trailer (e : Encoder) : List Byte :=
  leBytes 4 (crcFinal e.crc).toNat ++ leBytes 8 e.lz.dataPosition.toNat ++ leBytes 8 (e.memberPosition + 20)

/-- The close action (R394): EOS, flush, trailer. -/
def Encoder.closeAction (e : Encoder) : Encoder :=
  let e1 := (e.encDecisions (packetDecisions e.ctx .eos)).flush
  { e1 with out := e1.out ++ e1.trailer }

/-- The status after a close, by what enabled it (R395, R396): with look-ahead left it was the size limit; otherwise a sync
flush if one is pending, else the finish (both at once: log 18). -/
def Encoder.afterClose (e : Encoder) : Encoder :=
  if 1 ≤ e.lookahead then { e with limitReached := true, phase := .memberFinished }
  else if e.syncPending then { e with syncPending := false, resumeOnWrite := true, phase := .memberFinished }
  else { e with phase := .memberFinished }

/-! ## Plaintext -/

/-- `ENC.cyclic_pos` wraps after `dictionary_size` (R46; DEDUCED: log 9). -/
def Encoder.nextCyclic (e : Encoder) : Word := if e.cyclicPos = e.dictionarySize then 0#32 else e.cyclicPos + 1#32

/-- `Emit(b)` of the encoder (R105, R290). -/
def Encoder.emit (e : Encoder) (b : Byte) : Encoder :=
  { e with crc := crcUpdate e.crc b, lz := { e.lz with dataPosition := e.lz.dataPosition + 1#64 }, cyclicPos := e.nextCyclic }

/-- `repeat n times: Emit(WinRead(dist))` (R254); none where a byte is not defined. -/
def Encoder.emitCopy (dist : Nat) : Nat → Encoder → Option Encoder
  | 0, e => some e
  | n + 1, e =>
      match winRead e.window e.lz.dataPosition.toNat e.dictionarySize.toNat dist with
      | some b => Encoder.emitCopy dist n (e.emit b)
      | none => none

/-! ## Legality of a packet (R271 to R276, R291, R345 (a)) -/

/-- A copy of `len` bytes from stored distance `d` yields the next bytes of the window. -/
def Encoder.copyAgrees (e : Encoder) (len : Nat) (d : Word) : Bool :=
  let dp := e.lz.dataPosition.toNat
  decide (d.toNat < dp) && decide (d.toNat < e.dictionarySize.toNat) &&
    decide (matchLength e.window dp (dp - d.toNat - 1) len = len)

/-- A rep packet's length and bytes (R345 (a)). -/
def Encoder.repLegal (p : Params) (e : Encoder) (len : Nat) (d : Word) : Bool :=
  decide (2 ≤ len) && decide (len ≤ min e.matchLenLimit.toNat (e.view p)) && e.copyAgrees len d

/-- The encoder may code this packet now (R345 (a), (b)). -/
def Encoder.legalPacket (p : Params) (e : Encoder) : Instr → Bool
  | .lit c =>
      decide (1 ≤ e.lookahead) && decide (e.window.read e.lz.dataPosition.toNat = some c) &&
        (decide (e.lz.state.val ≤ 6) || e.ctx.matchByte.isSome)
  | .matchDist len d => e.validPair e.lz.dataPosition.toNat (e.view p) len d.toNat
  | .shortRep => decide (1 ≤ e.lookahead) && e.copyAgrees 1 e.lz.rep0
  | .rep0 len => e.repLegal p len e.lz.rep0
  | .rep1 len => e.repLegal p len e.lz.rep1
  | .rep2 len => e.repLegal p len e.lz.rep2
  | .rep3 len => e.repLegal p len e.lz.rep3
  | _ => false

/-! ## The encoder side of a packet step -/

/-- The encoder side of packet `i` (R290): code its decision bits, update the LZMA registers, emit its plaintext. None where the
packet is not legal. -/
def Encoder.codePacket (p : Params) (e : Encoder) (i : Instr) (lz : Lzma → Lzma) (emit : Encoder → Option Encoder) :
    Option Encoder :=
  if e.legalPacket p i then
    let e1 := e.encDecisions (packetDecisions e.ctx i)
    emit { e1 with lz := lz e1.lz }
  else none

/-- The member close as an instruction (R277, R394 to R396), with the last positions inserted (R335). None where no close is
enabled (R345 (b)). -/
def Encoder.codeEos (p : Params) (e : Encoder) : Option Encoder :=
  if e.closeEnabled p then some (e.mfCatchUp p).closeAction.afterClose else none

/-! ## The parser (R345, R346) -/

/-- What the parser sees: the arguments R345 (c) lists, the view as R341 has it, and four more of the model's choice (log 2). -/
def Encoder.parserInput (p : Params) (e : Encoder) (pairs : List (Nat × Nat)) : ParserInput :=
  let dp := e.lz.dataPosition.toNat
  { dataPosition := dp
    history := e.window.readList e.keepFrom (dp - e.keepFrom)
    lookahead := e.window.readList dp (e.view p)
    atEnd := e.atEnd p
    state := e.lz.state
    rep0 := e.lz.rep0
    rep1 := e.lz.rep1
    rep2 := e.lz.rep2
    rep3 := e.lz.rep3
    models := e.models
    pairs := pairs
    dictionarySize := e.dictionarySize.toNat
    matchLenLimit := e.matchLenLimit.toNat
    variant := e.variant }

/-- The minimal parser (R346): LIT of the byte at `LZ.data_position`. -/
def Encoder.literalPacket (e : Encoder) : Instr := .lit ((e.window.read e.lz.dataPosition.toNat).getD 0#8)

/-- The minimal parser's answer. -/
def Encoder.minimalParse (e : Encoder) : ParserOutput := { packet := e.literalPacket, rest := [], trials := [] }

/-- What of a parser's answer a channel keeps: the trial buffer, within its capacity, and the packets to code in later steps are
the optimal parser's, of the normal variant only (R48, R345, R348). -/
def Encoder.planOf (e : Encoder) (r : ParserOutput) : ParserOutput :=
  match e.variant with
  | .normal => { r with trials := r.trials.take trialCapacity }
  | .fast => { r with rest := [], trials := [] }

/-- The parser's answer, kept only where its packet is legal (R345): so this is a legal parser whatever the parameter is, and
it is the parameter itself wherever that is legal (log 2). -/
def Encoder.parse (p : Params) (e : Encoder) (pairs : List (Nat × Nat)) : ParserOutput :=
  match p.parser with
  | .minimal => e.minimalParse
  | .implementation k =>
      let r := Config.parse k (e.parserInput p pairs)
      if e.legalPacket p r.packet then e.planOf r else e.minimalParse

/-- The packet this step codes: the next of the chosen path if it is legal, else the parser's (R345, R348; log 10). -/
def Encoder.choose (p : Params) (e : Encoder) (pairs : List (Nat × Nat)) : ParserOutput :=
  match e.planned with
  | q :: rest => if e.legalPacket p q then { packet := q, rest := rest, trials := e.trial } else e.parse p pairs
  | [] => e.parse p pairs

/-- The match-finder's part of a packet step (R335): the positions passed over are inserted, then the packet's own, whose pairs
are reported. -/
def Encoder.search (p : Params) (e : Encoder) : MatchFinder × List (Nat × Nat) :=
  let dp := e.lz.dataPosition.toNat
  (e.mfCatchUp p).mfInsert p dp (dp + e.view p)

/-- The fetch of an encoder packet step (R290): search the match-finder and choose a packet. -/
def Encoder.fetch (p : Params) (e : Encoder) : Instr × Encoder :=
  let r := e.search p
  let e1 := { e with mf := r.1 }
  let choice := e1.choose p r.2
  (choice.packet, { e1 with planned := choice.rest, trial := choice.trials })

end Sys2Proof.Machine
end

