-- ==== Sys2Proof/Machine/EncoderCommands.lean ====
section
/-! DEFINITION. The meanings of the encoder commands (R420 to R430). -/

namespace Sys2Proof.Machine

/-- A command on an open encoder channel; on any other channel it ends with `bad_argument` and changes nothing (R410). -/
def withEncoder (s : State) (c : Byte) (f : Encoder → Host.Outcome State Fault Refusal) : Host.Outcome State Fault Refusal :=
  match s.chan c with
  | .enc e => f e
  | .closed => .next s.reject
  | .dec _ => .next s.reject

/-- Put back an encoder channel and respond. -/
def State.encRespond (s : State) (c : Byte) (e : Encoder) (status : ErrorCode) (words : List Word) : State :=
  (s.setChan c (.enc e)).respond status words []

/-- The variant of a channel (R330): the parameter of D18. -/
def chosenVariant (p : Params) (dictionarySize matchLenLimit : Nat) : Variant :=
  match p.variantRule with
  | .suggested => if dictionarySize = 65536 ∧ matchLenLimit = 16 then .fast else .normal
  | .implementation k => Config.variant k dictionarySize matchLenLimit

/-- The operand bounds of an open (R13, R420). -/
def openOperandsOk (dictSize matchLenLimit : Word) (memberSizeLimit : U64) : Bool :=
  decide (minDictionarySize ≤ dictSize.toNat) && decide (dictSize.toNat ≤ maxDictionarySize) &&
    decide (minMatchLenLimit ≤ matchLenLimit.toNat) && decide (matchLenLimit.toNat ≤ maxMatchLenLimit) &&
    decide (minMemberSizeLimit ≤ memberSizeLimit.toNat) && decide (memberSizeLimit.toNat ≤ maxMemberSizeLimit)

/-- ENC_OPEN (R420). -/
def execEncOpen (c : Byte) (dictSize matchLenLimit : Word) (memberSizeLimit : U64) (s : State) :
    Host.Outcome State Fault Refusal :=
  if !s.chanValid c then .next s.reject
  else
    match s.chan c with
    | .enc _ => .next s.reject
    | .dec _ => .next s.reject
    | .closed =>
        if !openOperandsOk dictSize matchLenLimit memberSizeLimit then .next s.reject
        else
          let dictByte := dictEncode dictSize.toNat
          if s.params.maxWindowBytes < dictDecode dictByte + s.params.beforeSize + s.params.afterSize then
            .next (s.respond .memError [] [])
          else
            .next (s.encRespond c
              (Encoder.opened dictByte (matchLenLimit.setWidth 16) memberSizeLimit
                (chosenVariant s.params (dictDecode dictByte) matchLenLimit.toNat)) .ok [])

/-- ENC_CLOSE (R421). -/
def execEncClose (c : Byte) (s : State) : Host.Outcome State Fault Refusal :=
  withEncoder s c fun _ => .next ((s.setChan c .closed).respond .ok [] [])

/-- ENC_WRITE_SIZE (R422). -/
def execEncWriteSize (c : Byte) (s : State) : Host.Outcome State Fault Refusal :=
  withEncoder s c fun e => .next (s.respond .ok [BitVec.ofNat 32 (e.writeSize s.params)] [])

/-- The write of R423 on a channel that may take it: restart the member if a sync flush ended it, then stage what fits. -/
def Encoder.stage (p : Params) (e : Encoder) (bytes : List Byte) : Encoder × Nat :=
  let e := if e.resumeOnWrite ∧ bytes ≠ [] then e.memberRestart else e
  let m := min bytes.length (e.writeSize p)
  ({ e with
      window := e.window.writeList e.streamPos.toNat (bytes.take m)
      streamPos := e.streamPos + BitVec.ofNat 64 m
      totalIn := e.totalIn + BitVec.ofNat 64 m }, m)

/-- ENC_WRITE (R423). The data bytes are the `n` of R148. A command that fails answers 0 accepted (DEDUCED: log 15). -/
def execEncWrite (c : Byte) (n : Word) (bytes : List Byte) (s : State) : Host.Outcome State Fault Refusal :=
  withEncoder s c fun e =>
    if lengthNegative n then .next (s.encRespond c e.rejectArgument .badArgument [0#32])
    else if e.phase = .fatal then .next (s.respond e.errno [0#32] [])
    else if e.finishing then .next (s.encRespond c (e.enterFatal .sequenceError) .sequenceError [0#32])
    else
      let r := e.stage s.params bytes
      .next (s.encRespond c r.1 .ok [BitVec.ofNat 32 r.2])

/-- ENC_READ (R424): after the checks the read runs; its loop is `encoderIteration` of Machine/Sequencer.lean, one iteration a
step, and no other command is taken until it ends (log 6). -/
def execEncRead (c : Byte) (n : Word) (s : State) : Host.Outcome State Fault Refusal :=
  withEncoder s c fun e =>
    if lengthNegative n then .next (s.encRespond c e.rejectArgument .badArgument [0#32])
    else if e.phase = .fatal then .next (s.respond e.errno [0#32] [])
    else .next { s with running := some { chan := c, n := n.toNat, got := [] } }

/-- ENC_SYNC_FLUSH (R425). -/
def execEncSyncFlush (c : Byte) (s : State) : Host.Outcome State Fault Refusal :=
  withEncoder s c fun e =>
    if e.phase = .fatal then .next (s.respond e.errno [] [])
    else if e.finishing ∨ e.phase ≠ .inMember then .next (s.respond .ok [] [])
    else if e.lz.dataPosition = 0#64 ∧ e.lookahead = 0 then .next (s.respond .ok [] [])
    else .next (s.encRespond c { e with syncPending := true } .ok [])

/-- ENC_FINISH (R426). -/
def execEncFinish (c : Byte) (s : State) : Host.Outcome State Fault Refusal :=
  withEncoder s c fun e =>
    if e.phase = .fatal then .next (s.respond e.errno [] [])
    else .next (s.encRespond c (Encoder.endCheck { e with finishing := true }) .ok [])

/-- ENC_RESTART_MEMBER (R427). -/
def execEncRestartMember (c : Byte) (s : State) : Host.Outcome State Fault Refusal :=
  withEncoder s c fun e =>
    if e.phase = .fatal then .next (s.respond e.errno [] [])
    else if e.limitReached ∧ e.phase = .memberFinished ∧ e.out = [] then .next (s.encRespond c e.memberRestart .ok [])
    else .next (s.encRespond c (e.enterFatal .sequenceError) .sequenceError [])

/-- ENC_MEMBER_FINISHED (R428). -/
def execEncMemberFinished (c : Byte) (s : State) : Host.Outcome State Fault Refusal :=
  withEncoder s c fun e => .next (s.respond .ok [flagWord e.memberFinishedFlag] [])

/-- ENC_FINISHED (R429). -/
def execEncFinished (c : Byte) (s : State) : Host.Outcome State Fault Refusal :=
  withEncoder s c fun e => .next (s.respond .ok [flagWord e.finishedFlag] [])

/-- ENC_ERRNO (R430). -/
def execEncErrno (c : Byte) (s : State) : Host.Outcome State Fault Refusal :=
  withEncoder s c fun e => .next (s.respond .ok [errorWord e.errno] [])

end Sys2Proof.Machine
end

