-- ==== Sys2Proof/Machine/Packets.lean ====
section
/-! DEFINITION. The meanings of the eight packets (R270 to R277) on the channel whose read command is running: an encoder codes
the packet, a decoder executes the packet it has decoded. -/

namespace Sys2Proof.Machine

/-- A packet step on the channel of the running read (R250, R413). An error of the decoder's side enters Fatal (R484). The
executing side has no hold: the fetch has read every bit. -/
def runPacket (s : State) (onEnc : Params → Encoder → Option Encoder) (onDec : Decoder → Src Decoder Unit) :
    Host.Outcome State Fault Refusal :=
  match s.running with
  | none => .refused .noReadRunning
  | some r =>
      match s.chan r.chan with
      | .closed => .refused .noReadRunning
      | .enc e =>
          match onEnc s.params e with
          | some e' => .next (s.setChan r.chan (.enc e'))
          | none => .fault .illegalEncoderPacket
      | .dec d =>
          match onDec d with
          | .ok _ d' => .next (s.setChan r.chan (.dec d'))
          | .hold => .next s
          | .raise err d' => .next (s.setChan r.chan (.dec (d'.enterFatal err)))

/-- LIT c (R270). -/
def execLit (c : Byte) (s : State) : Host.Outcome State Fault Refusal :=
  runPacket s (fun p e => e.codePacket p (.lit c) Lzma.afterLit fun e => some (e.emit c))
    (fun d => d.execute Lzma.afterLit 1 fun d => .ok () (d.emit c))

/-- MATCH len, d (R271). -/
def execMatchDist (len : Nat) (dist : Word) (s : State) : Host.Outcome State Fault Refusal :=
  runPacket s (fun p e => e.codePacket p (.matchDist len dist) (·.afterMatch dist) (Encoder.emitCopy dist.toNat len))
    (fun d => d.executeMatch len dist)

/-- SHORTREP (R272). -/
def execShortRep (s : State) : Host.Outcome State Fault Refusal :=
  runPacket s
    (fun p e => e.codePacket p .shortRep Lzma.afterShortRep fun e => Encoder.emitCopy e.lz.rep0.toNat 1 e)
    (fun d => d.executeRep Lzma.afterShortRep 1)

/-- REP0 len (R273). -/
def execRep0 (len : Nat) (s : State) : Host.Outcome State Fault Refusal :=
  runPacket s (fun p e => e.codePacket p (.rep0 len) Lzma.afterRep0 fun e => Encoder.emitCopy e.lz.rep0.toNat len e)
    (fun d => d.executeRep Lzma.afterRep0 len)

/-- REP1 len (R274). -/
def execRep1 (len : Nat) (s : State) : Host.Outcome State Fault Refusal :=
  runPacket s (fun p e => e.codePacket p (.rep1 len) Lzma.afterRep1 fun e => Encoder.emitCopy e.lz.rep0.toNat len e)
    (fun d => d.executeRep Lzma.afterRep1 len)

/-- REP2 len (R275). -/
def execRep2 (len : Nat) (s : State) : Host.Outcome State Fault Refusal :=
  runPacket s (fun p e => e.codePacket p (.rep2 len) Lzma.afterRep2 fun e => Encoder.emitCopy e.lz.rep0.toNat len e)
    (fun d => d.executeRep Lzma.afterRep2 len)

/-- REP3 len (R276). -/
def execRep3 (len : Nat) (s : State) : Host.Outcome State Fault Refusal :=
  runPacket s (fun p e => e.codePacket p (.rep3 len) Lzma.afterRep3 fun e => Encoder.emitCopy e.lz.rep0.toNat len e)
    (fun d => d.executeRep Lzma.afterRep3 len)

/-- EOS (R277): an encoder closes its member (R394 to R396), a decoder goes to the trailer (R288). -/
def execEos (s : State) : Host.Outcome State Fault Refusal :=
  runPacket s (fun p e => e.codeEos p) (fun d => d.executeEos)

end Sys2Proof.Machine
end

