-- ==== Sys2Proof/Machine/Queries.lean ====
section
/-! DEFINITION. The meanings of the global queries (R460 to R465). They work with every channel closed and change no channel. -/

namespace Sys2Proof.Machine

/-- Q_API_VERSION (R460). -/
def execQApiVersion (s : State) : Host.Outcome State Fault Refusal := .next (s.respond .ok [apiVersion] [])

/-- Q_VERSION_STRING (R461). -/
def execQVersionString (s : State) : Host.Outcome State Fault Refusal := .next (s.respond .ok [] versionString)

/-- Q_MIN_DICTIONARY_SIZE (R462). -/
def execQMinDictionarySize (s : State) : Host.Outcome State Fault Refusal :=
  .next (s.respond .ok [BitVec.ofNat 32 minDictionarySize] [])

/-- Q_MAX_DICTIONARY_SIZE (R463). -/
def execQMaxDictionarySize (s : State) : Host.Outcome State Fault Refusal :=
  .next (s.respond .ok [BitVec.ofNat 32 maxDictionarySize] [])

/-- Q_MIN_MATCH_LEN_LIMIT (R464). -/
def execQMinMatchLenLimit (s : State) : Host.Outcome State Fault Refusal :=
  .next (s.respond .ok [BitVec.ofNat 32 minMatchLenLimit] [])

/-- Q_MAX_MATCH_LEN_LIMIT (R465). -/
def execQMaxMatchLenLimit (s : State) : Host.Outcome State Fault Refusal :=
  .next (s.respond .ok [BitVec.ofNat 32 maxMatchLenLimit] [])

end Sys2Proof.Machine
end

