-- ==== Sys2Proof/Machine/Dispatch.lean ====
section
/-! DEFINITION. One arm per instruction. -/

namespace Sys2Proof.Machine

def exec (i : Instr) (s : State) : Host.Outcome State Fault Refusal :=
  match i with
  | .lit c => Sys2Proof.Machine.execLit c s
  | .matchDist len d => Sys2Proof.Machine.execMatchDist len d s
  | .shortRep => Sys2Proof.Machine.execShortRep s
  | .rep0 len => Sys2Proof.Machine.execRep0 len s
  | .rep1 len => Sys2Proof.Machine.execRep1 len s
  | .rep2 len => Sys2Proof.Machine.execRep2 len s
  | .rep3 len => Sys2Proof.Machine.execRep3 len s
  | .eos => Sys2Proof.Machine.execEos s
  | .qApiVersion => Sys2Proof.Machine.execQApiVersion s
  | .qVersionString => Sys2Proof.Machine.execQVersionString s
  | .qMinDictionarySize => Sys2Proof.Machine.execQMinDictionarySize s
  | .qMaxDictionarySize => Sys2Proof.Machine.execQMaxDictionarySize s
  | .qMinMatchLenLimit => Sys2Proof.Machine.execQMinMatchLenLimit s
  | .qMaxMatchLenLimit => Sys2Proof.Machine.execQMaxMatchLenLimit s
  | .encOpen c ds ml lim => Sys2Proof.Machine.execEncOpen c ds ml lim s
  | .encClose c => Sys2Proof.Machine.execEncClose c s
  | .encWriteSize c => Sys2Proof.Machine.execEncWriteSize c s
  | .encWrite c n bytes => Sys2Proof.Machine.execEncWrite c n bytes s
  | .encRead c n => Sys2Proof.Machine.execEncRead c n s
  | .encSyncFlush c => Sys2Proof.Machine.execEncSyncFlush c s
  | .encFinish c => Sys2Proof.Machine.execEncFinish c s
  | .encRestartMember c => Sys2Proof.Machine.execEncRestartMember c s
  | .encMemberFinished c => Sys2Proof.Machine.execEncMemberFinished c s
  | .encFinished c => Sys2Proof.Machine.execEncFinished c s
  | .encErrno c => Sys2Proof.Machine.execEncErrno c s
  | .decOpen c => Sys2Proof.Machine.execDecOpen c s
  | .decClose c => Sys2Proof.Machine.execDecClose c s
  | .decWriteSize c => Sys2Proof.Machine.execDecWriteSize c s
  | .decWrite c n bytes => Sys2Proof.Machine.execDecWrite c n bytes s
  | .decRead c n => Sys2Proof.Machine.execDecRead c n s
  | .decFinish c => Sys2Proof.Machine.execDecFinish c s
  | .decReset c => Sys2Proof.Machine.execDecReset c s
  | .decSyncToMember c => Sys2Proof.Machine.execDecSyncToMember c s
  | .decMemberFinished c => Sys2Proof.Machine.execDecMemberFinished c s
  | .decFinished c => Sys2Proof.Machine.execDecFinished c s
  | .decErrno c => Sys2Proof.Machine.execDecErrno c s
  | .decMemberVersion c => Sys2Proof.Machine.execDecMemberVersion c s
  | .decDictionarySize c => Sys2Proof.Machine.execDecDictionarySize c s
  | .decDataCrc c => Sys2Proof.Machine.execDecDataCrc c s
  | .decDataPosition c => Sys2Proof.Machine.execDecDataPosition c s
  | .decMemberPosition c => Sys2Proof.Machine.execDecMemberPosition c s
  | .decTotalInSize c => Sys2Proof.Machine.execDecTotalInSize c s
  | .decTotalOutSize c => Sys2Proof.Machine.execDecTotalOutSize c s

end Sys2Proof.Machine
end

