-- ==== Sys2Proof/Machine/Sequencer.lean ====
section
/-! DEFINITION. The loop of a read command (R413, R424, R444): one iteration a step (log 6). Packets are fetched here and run by
`exec`. -/

namespace Sys2Proof.Machine

/-- "while m < n and output FIFO not empty: give OutPop()": how many bytes that gives. -/
def Run.take (r : Run) (fifo : List Byte) : Nat := min (r.n - r.got.length) fifo.length

/-- The bytes given are added to the read's. -/
def Run.give (r : Run) (fifo : List Byte) : Run := { r with got := r.got ++ fifo.take (r.take fifo) }

/-- The read is satisfied: `m = n`. -/
def Run.full (r : Run) : Bool := decide (r.n ≤ r.got.length)

/-- The end of a read: the response is the status, `m`, and the `m` bytes. -/
def State.endRead (s : State) (r : Run) (status : ErrorCode) : State :=
  { s.respond status [BitVec.ofNat 32 r.got.length] r.got with running := none }

/-- ENC_READ ends (R424): EncEndCheck, and the bytes given are counted. -/
def State.endEncoderRead (s : State) (r : Run) (e : Encoder) : State :=
  (s.setChan r.chan
    (.enc (Encoder.endCheck { e with totalOut := e.totalOut + BitVec.ofNat 64 r.got.length }))).endRead r .ok

/-- DEC_READ ends (R444): FinishedCheck. -/
def State.endDecoderRead (s : State) (r : Run) (d : Decoder) (status : ErrorCode) : State :=
  (s.setChan r.chan (.dec d.finishedCheck)).endRead r status

/-- The state in which a step of the running read's channel is taken. -/
def State.withRun (s : State) (r : Run) (ch : Channel) : State := { s.setChan r.chan ch with running := some r }

/-- One iteration of ENC_READ's loop (R424), with the bytes of the FIFO already given: the close, a packet step, or the end. -/
def encoderIteration (s : State) (r : Run) (e : Encoder) : Host.Outcome State Fault Refusal :=
  if r.full then .next (s.endEncoderRead r e)
  else if e.closeEnabled s.params then exec .eos (s.withRun r (.enc e))
  else if e.stepEnabled s.params then
    let f := e.fetch s.params
    exec f.1 (s.withRun r (.enc f.2))
  else .next (s.endEncoderRead r e)

/-- A member step of the decoder: done, held (the read ends), or failed (Fatal, R415). -/
def decoderStep (s : State) (r : Run) (d : Decoder) (x : Src Decoder Unit) : Host.Outcome State Fault Refusal :=
  match x with
  | .ok _ d' => .next (s.withRun r (.dec d'))
  | .hold => .next (s.endDecoderRead r d .ok)
  | .raise err d' => .next (s.withRun r (.dec (d'.enterFatal err)))

/-- A packet step of the decoder (R280, R281): the packet fetched is run by `exec`. -/
def decoderPacket (s : State) (r : Run) (d : Decoder) : Host.Outcome State Fault Refusal :=
  match d.fetch s.params with
  | .ok i d' => exec i (s.withRun r (.dec d'))
  | .hold => .next (s.endDecoderRead r d .ok)
  | .raise err d' => .next (s.withRun r (.dec (d'.enterFatal err)))

/-- One iteration of DEC_READ's loop (R444), with the bytes of the FIFO already given. A step that raised has left the channel
Fatal, and the read ends with its code (R415). -/
def decoderIteration (s : State) (r : Run) (d : Decoder) : Host.Outcome State Fault Refusal :=
  if d.phase = .fatal then .next (s.endDecoderRead r d d.errno)
  else if r.full then .next (s.endDecoderRead r d .ok)
  else
    match d.phase, d.part with
    | .idle, _ => decoderStep s r d (d.headerStep s.params)
    | .inMember, .load => decoderStep s r d d.loadStep
    | .inMember, .payload => decoderPacket s r d
    | .inMember, .trailer => decoderStep s r d d.trailerStep
    | .inMember, .header => .next (s.endDecoderRead r d .ok)
    | .memberFinished, _ => .next (s.endDecoderRead r d .ok)
    | .finished, _ => .next (s.endDecoderRead r d .ok)
    | .fatal, _ => .next (s.endDecoderRead r d d.errno)

/-- One step of a read in progress. The channel is open as long as the read runs. -/
def readStep (s : State) (r : Run) : Host.Outcome State Fault Refusal :=
  match s.chan r.chan with
  | .closed => .next (s.endRead r .badArgument)
  | .enc e => encoderIteration s (r.give e.out) { e with out := e.out.drop (r.take e.out) }
  | .dec d => decoderIteration s (r.give d.out) { d with out := d.out.drop (r.take d.out) }

/-! ## The command port (R145, R147) -/

/-- Take code from the port's lanes. -/
def State.withCode (s : State) : Code → State
  | .command words data => { s with portWords := words, portData := data }
  | .packet _ => s

/-- Take the next command: a whole command runs, a reserved encoding is rejected (R147), an incomplete one waits for the host
(log 5). -/
def commandStep (s : State) : Host.Outcome State Fault Refusal :=
  match decode (.command s.portWords s.portData) with
  | .instr i rest => exec i (s.withCode rest)
  | .reserved _ rest => .next (s.withCode rest).reject
  | .incomplete => .next s

end Sys2Proof.Machine
end

