-- ==== Sys2Proof/Machine/Probe.lean ====
section
/-! DEFINITION. Placing one instruction where the next step fetches it: the model's stand-in for a host that issues a command,
and for compressed input that holds a packet (log 21, log 22). -/

namespace Sys2Proof.Machine

/-- A command word at the head of the word lane, followed by operand words of zeros; no read is running. -/
def State.withCommandWord (s : State) (w : Nat) : State :=
  { s with portWords := BitVec.ofNat 32 w :: operandPadding, portData := [], running := none }

/-- An encoder whose data position is 1 after the byte 0, to code one packet with. -/
def probeEncoder : Encoder :=
  let e := Encoder.opened 0x14#8 273#16 0x7FFFFFFFFFFFFFFF#64 .normal
  { e with out := [], window := [(0, 0x00#8)], streamPos := 1#64, lz := { Lzma.init with dataPosition := 1#64 } }

/-- The payload of one packet from a fresh range coder (R178 to R182). -/
def probePayload (i : Instr) : List Byte := ((probeEncoder.encDecisions (packetDecisions probeEncoder.ctx i)).flush).out

/-- A decoder in the payload of a member, after the byte 0, whose next packet is `i`. -/
def probeDecoder (i : Instr) : Decoder :=
  let d : Decoder :=
    { Decoder.init with
      phase := .inMember, part := .payload, memberVersion := 1#8, dictionarySize := 0x100000#32,
      lz := { Lzma.init with dataPosition := 1#64 }, crc := crcUpdate crcInit 0x00#8, history := [(0, 0x00#8)],
      memberPosition := 6#64, totalIn := 6#64, totalOut := 1#64, finishing := true, inp := probePayload i }
  match d.rcLoad with
  | .ok _ d' => d'
  | .hold => d
  | .raise _ _ => d

/-- A packet, its first decision bit in bit 0, as the next packet of channel 0, with a read of one byte running. -/
def State.withPacketBits (s : State) (nbits w : Nat) : State :=
  match decodeTableWord nbits w with
  | some i =>
      { s with
        channels := .dec (probeDecoder i) :: s.channels.drop 1
        running := some { chan := 0#8, n := 1, got := [] } }
  | none => s

end Sys2Proof.Machine
end

