-- ==== Sys2Proof/Machine/Step.lean ====
section
/-! DEFINITION. One step of the block: an iteration of the read in progress, or the next command (R111: a command completes
before the next is taken). -/

namespace Sys2Proof.Machine

def step (s : State) : Host.Outcome State Fault Refusal :=
  match s.running with
  | some r => readStep s r
  | none => commandStep s

/-- The instruction numbered as the opcode table numbers it, placed where the next step fetches it: a command word (32 bits) at
the head of the port, a packet (any other width) in the input of a decoder channel that a read is running (log 21, log 22). -/
def State.withFetchWord (s : State) (nbits w : Nat) : State :=
  if nbits = 32 then s.withCommandWord w else s.withPacketBits nbits w

end Sys2Proof.Machine
end

