-- ==== Sys2Proof/Safety.lean ====
section
/-! DEFINITION. What a sound state of the block is: the invariants the spec derives (R38, R103, R171, R198, R255, R546), in the
terms the statements use. -/

namespace Sys2Proof.Machine

/-! ## Coding: models and range coder (R38, R171, R198) -/

/-- A probability in the range of R38. -/
def probInRange (p : Prob) : Prop := 31 ≤ p.toNat ∧ p.toNat ≤ 2017

/-- The model arrays are in canonical form and every entry is in range. -/
def Models.sound (m : Models) : Prop := m.wf ∧ ∀ e ∈ m, probInRange e.2

/-- R38 and R171 on an encoder channel. -/
def Encoder.codingSound (e : Encoder) : Prop :=
  e.models.sound ∧ 2 ^ 24 ≤ e.re.range.toNat ∧ e.re.low.toNat + e.re.range.toNat ≤ 2 ^ 33

/-- R38 on a decoder channel, and while it decodes a payload R33 and R198. -/
def Decoder.codingSound (d : Decoder) : Prop :=
  d.models.sound ∧
    (d.phase = .inMember → d.part = .payload → 2 ^ 24 ≤ d.rd.range.toNat ∧ d.rd.code.toNat < d.rd.range.toNat)

/-! ## Windows and rep distances (R103, R104, R255) -/

/-- Every rep distance names a byte of the dictionary that is written once the member has a byte (R255), and a state of 7 or
more is reached only after a byte (R242). -/
def Lzma.repsSound (lz : Lzma) (dictionarySize : Nat) : Prop :=
  (∀ r ∈ [lz.rep0, lz.rep1, lz.rep2, lz.rep3],
    r.toNat < dictionarySize ∧ (r.toNat = 0 ∨ r.toNat < lz.dataPosition.toNat)) ∧
    (7 ≤ lz.state.val → 1 ≤ lz.dataPosition.toNat)

/-- The encoder's window holds exactly the positions below `ENC.stream_pos`, in canonical form, and the encoder is not past
them. -/
def Encoder.windowSound (e : Encoder) : Prop :=
  e.window.map Prod.fst = List.range e.streamPos.toNat ∧ e.lz.dataPosition.toNat ≤ e.streamPos.toNat ∧
    e.lz.repsSound e.dictionarySize.toNat

/-- The decoder's history holds exactly the positions below `LZ.data_position`, in canonical form; within a member the rep
distances are sound. -/
def Decoder.windowSound (d : Decoder) : Prop :=
  d.history.map Prod.fst = List.range d.lz.dataPosition.toNat ∧
    (d.phase = .inMember → d.lz.repsSound d.dictionarySize.toNat)

/-! ## Search state of an encoder (R48, R335) -/

/-- The trial buffer is within its capacity, and a fast channel has neither trials nor a planned path (R48, R345, R348). -/
def planSound (variant : Variant) (planned : List Instr) (trial : List Trial) : Prop :=
  trial.length ≤ trialCapacity ∧ (variant = .fast → trial = [] ∧ planned = [])

/-- Trial buffer and path are sound; the match-finder's tables are in canonical form and, within a member, no position at or
after `LZ.data_position` is inserted yet (R335). -/
def Encoder.searchSound (e : Encoder) : Prop :=
  planSound e.variant e.planned e.trial ∧ e.mf.wf ∧ (e.phase = .inMember → e.mf.next ≤ e.lz.dataPosition.toNat)

/-! ## FIFOs (R51, R546) -/

/-- The decoder's FIFOs are within their capacities. -/
def Decoder.fifosSound (p : Params) (d : Decoder) : Prop := d.inp.length ≤ p.inFifoCap ∧ d.out.length ≤ p.outFifoCap

/-! ## Kinds of instructions -/

/-- The instruction is a packet (R251). -/
def isPacket : Instr → Bool
  | .lit _ | .matchDist _ _ | .shortRep | .rep0 _ | .rep1 _ | .rep2 _ | .rep3 _ | .eos => true
  | _ => false

/-- The packet is of rep class (R142 (c)). -/
def isRepClass : Instr → Bool
  | .shortRep | .rep0 _ | .rep1 _ | .rep2 _ | .rep3 _ => true
  | _ => false

/-- The instruction is a global query (R146). -/
def isQuery : Instr → Bool
  | .qApiVersion | .qVersionString | .qMinDictionarySize | .qMaxDictionarySize | .qMinMatchLenLimit
  | .qMaxMatchLenLimit => true
  | _ => false

/-- The channel of an encoder command other than `ENC_OPEN`. -/
def encoderChannel : Instr → Option Byte
  | .encClose c | .encWriteSize c | .encWrite c _ _ | .encRead c _ | .encSyncFlush c | .encFinish c
  | .encRestartMember c | .encMemberFinished c | .encFinished c | .encErrno c => some c
  | _ => none

/-- The channel of a decoder command other than `DEC_OPEN`. -/
def decoderChannel : Instr → Option Byte
  | .decClose c | .decWriteSize c | .decWrite c _ _ | .decRead c _ | .decFinish c | .decReset c | .decSyncToMember c
  | .decMemberFinished c | .decFinished c | .decErrno c | .decMemberVersion c | .decDictionarySize c | .decDataCrc c
  | .decDataPosition c | .decMemberPosition c | .decTotalInSize c | .decTotalOutSize c => some c
  | _ => none

/-- The channel an instruction acts on: a command's own (R145), a packet's that of the read in progress (R413). -/
def actsOn (s : State) : Instr → Option Byte
  | .encOpen c _ _ _ => some c
  | .decOpen c => some c
  | i => if isPacket i then s.running.map Run.chan else (encoderChannel i).or (decoderChannel i)

/-! ## Reading decisions -/

/-- A list of decisions as a source that gives a bit only to a reader that asks with the decision's own model (R210). -/
def checkedBit (ds : List Decision) (r : Option ModelRef) : Src (List Decision) Bool :=
  match ds with
  | d :: rest => if d.model = r then .ok d.bit rest else .hold
  | [] => .hold

/-- The range decoder asked for one bit per model, in order. -/
def readBits : List (Option ModelRef) → Decoder → Src Decoder (List Bool)
  | [], d => .ok [] d
  | m :: ms, d => (rangeBit d m).bind fun b d => (readBits ms d).bind fun bs d => .ok (b :: bs) d

/-! ## What a packet leaves -/

/-- The bytes are a copy from stored distance `dist` at data position `dp` (R254): each is the byte `dist + 1` before it, which
may be one of them (R106). -/
def isCopy (w : Memory) (dp dist : Nat) (bytes : List Byte) : Prop :=
  ∀ k, k < bytes.length → bytes[k]? = (w.writeList dp bytes).read (dp + k - dist - 1)

/-- A decoder channel after a packet that produced `bytes` and left the LZMA registers `lz` (R105, R282). -/
def Decoder.produced (d : Decoder) (lz : Lzma) (bytes : List Byte) : Decoder :=
  { d with
    lz := { lz with dataPosition := d.lz.dataPosition + BitVec.ofNat 64 bytes.length }
    history := d.history.writeList d.lz.dataPosition.toNat bytes
    crc := bytes.foldl crcUpdate d.crc
    out := d.out ++ bytes
    totalOut := d.totalOut + BitVec.ofNat 64 bytes.length }

/-- An encoder channel after a packet of decisions `ds` that covers `bytes` and left the LZMA registers `lz` (R290). -/
def Encoder.covered (e : Encoder) (ds : List Decision) (lz : Lzma) (bytes : List Byte) (cyclicPos : Word) :
    Encoder :=
  { e.encDecisions ds with
    lz := { lz with dataPosition := e.lz.dataPosition + BitVec.ofNat 64 bytes.length }
    crc := bytes.foldl crcUpdate e.crc
    cyclicPos := cyclicPos }

/-- `bytes` are the next bytes of the encoder's window (R291). -/
def Encoder.nextBytes (e : Encoder) (bytes : List Byte) : Prop :=
  ∀ k, k < bytes.length → e.window.read (e.lz.dataPosition.toNat + k) = bytes[k]?

/-- The next `n` bytes of the encoder's window are those a copy from stored distance `dist` produces (R331, R345 (a)). -/
def Encoder.copiesNext (e : Encoder) (n dist : Nat) : Prop :=
  ∀ k, k < n → ∃ b, e.window.read (e.lz.dataPosition.toNat + k) = some b ∧
    e.window.read (e.lz.dataPosition.toNat + k - dist - 1) = some b

/-! ## Resynchronisation -/

/-- Where the search of R393 stops: at a valid header, or at fewer than six bytes that begin one. -/
def resyncStop (bytes : List Byte) : Prop :=
  ∃ dd : Byte, dictValid dd = true ∧
    ((∃ rest, bytes = headerPrefix ++ dd :: rest) ∨ (bytes.length < 6 ∧ bytes <+: headerPrefix ++ [dd]))

/-! ## The block -/

/-- The constraints on every parameter of R15: those on the parameters State holds as data (`Params.wf`, which says which of them
are the model's own), and `NUM_CHANNELS >= 1` (D25) on the number of channels. -/
def State.paramsWf (s : State) : Prop := 1 ≤ s.channels.length ∧ s.params.wf

/-- What a predicate on encoders and one on decoders say of a channel. -/
def Channel.all (enc : Encoder → Prop) (dec : Decoder → Prop) : Channel → Prop
  | .closed => True
  | .enc e => enc e
  | .dec d => dec d

/-- Every channel's models and range coder are sound (R38, R171, R198). -/
def State.codingSound (s : State) : Prop := ∀ ch ∈ s.channels, ch.all Encoder.codingSound Decoder.codingSound

/-- Every channel's window and rep distances are sound (R103, R255). -/
def State.windowSound (s : State) : Prop := ∀ ch ∈ s.channels, ch.all Encoder.windowSound Decoder.windowSound

/-- Every encoder's trial buffer, planned path and match-finder are sound (R48, R335). -/
def State.searchSound (s : State) : Prop := ∀ ch ∈ s.channels, ch.all Encoder.searchSound (fun _ => True)

/-- Every decoder's FIFOs are within their capacities (R51). -/
def State.fifosSound (s : State) : Prop := ∀ ch ∈ s.channels, ch.all (fun _ => True) (Decoder.fifosSound s.params)

/-- The step goes on: it neither faults nor refuses. -/
def goesOn (s : State) : Prop := ∃ t, step s = .next t

end Sys2Proof.Machine
end

