-- ==== Sys2Proof/WellFormed.lean ====
section
/-! DEFINITION. Which instructions are well formed: the operand ranges of R251 and R137, and the data bytes of a write
(R148). Register and channel numbers need no check: their fields have exactly the widths of R145. -/

namespace Sys2Proof

/-- A packet length of R137. -/
def lenOk (len : Nat) : Bool := decide (2 ≤ len) && decide (len ≤ 273)

/-- The instruction obeys its operand constraints. A MATCH of stored distance `0xFFFFFFFF` is not one of R271's: it is the
marker (R22, R140) or the illegal value (a) of R142. -/
def Instr.wellFormed : Instr → Bool
  | .lit _ => true
  | .matchDist len d => lenOk len && decide (d ≠ 0xFFFFFFFF#32)
  | .shortRep => true
  | .rep0 len => lenOk len
  | .rep1 len => lenOk len
  | .rep2 len => lenOk len
  | .rep3 len => lenOk len
  | .eos => true
  | .qApiVersion => true
  | .qVersionString => true
  | .qMinDictionarySize => true
  | .qMaxDictionarySize => true
  | .qMinMatchLenLimit => true
  | .qMaxMatchLenLimit => true
  | .encOpen _ _ _ _ => true
  | .encClose _ => true
  | .encWriteSize _ => true
  | .encWrite _ n bytes => decide (bytes.length = dataCount n)
  | .encRead _ _ => true
  | .encSyncFlush _ => true
  | .encFinish _ => true
  | .encRestartMember _ => true
  | .encMemberFinished _ => true
  | .encFinished _ => true
  | .encErrno _ => true
  | .decOpen _ => true
  | .decClose _ => true
  | .decWriteSize _ => true
  | .decWrite _ n bytes => decide (bytes.length = dataCount n)
  | .decRead _ _ => true
  | .decFinish _ => true
  | .decReset _ => true
  | .decSyncToMember _ => true
  | .decMemberFinished _ => true
  | .decFinished _ => true
  | .decErrno _ => true
  | .decMemberVersion _ => true
  | .decDictionarySize _ => true
  | .decDataCrc _ => true
  | .decDataPosition _ => true
  | .decMemberPosition _ => true
  | .decTotalInSize _ => true
  | .decTotalOutSize _ => true

end Sys2Proof
end

