-- ==== Sys2Proof/Certificates/Slice0/Obligations.lean ====
section
/-! DEFINITION. The statements for the provers, each the rules of spec/ its docstring names. -/

open Sys2Proof Sys2Proof.Machine

/-! ## Encoding -/

/-- Words and bit sequences written out from the tables of R135 to R140 and R146 decode to what they stand for. -/
def Obligations.SampleWordsDecode : Prop :=
  decode (.command [0x01000000#32] []) = .instr .qApiVersion (.command [] []) ∧
  decode (.command [0x10010000#32, 0x00100000#32, 0x00000024#32, 0xFFFFFFFF#32, 0x7FFFFFFF#32] []) =
    .instr (.encOpen 1#8 1048576#32 36#32 0x7FFFFFFFFFFFFFFF#64) (.command [] []) ∧
  decode (.command [0x13000000#32, 0x00000003#32] [0x61#8, 0x62#8, 0x63#8]) =
    .instr (.encWrite 0#8 3#32 [0x61#8, 0x62#8, 0x63#8]) (.command [] []) ∧
  decode (.command [0x24010000#32, 0x00000064#32] []) = .instr (.decRead 1#8 100#32) (.command [] []) ∧
  decode (.command [0x27000000#32] []) = .instr (.decSyncToMember 0#8) (.command [] []) ∧
  decode (.packet [false, false, true, true, false, false, false, false, true]) = .instr (.lit 0x61#8) (.packet []) ∧
  decode (.packet [true, true, false, false]) = .instr .shortRep (.packet []) ∧
  decode (.packet [true, true, true, true, false, true, false, true, true, true]) = .instr (.rep2 17) (.packet []) ∧
  decode (.packet [true, false, false, false, true, false, false, false, false, true, false, false, true]) =
    .instr (.matchDist 4 5#32) (.packet [])

/-- DECODE OF ENCODE, commands: what follows a well-formed command's words and data bytes is left over (R145, R146, R148). -/
def Obligations.CommandRoundTrip : Prop :=
  ∀ (i : Instr) (words : List Word) (data : List Byte), i.wellFormed = true → encode i = .command words data →
    ∀ (ws : List Word) (bs : List Byte), decode (.command (words ++ ws) (data ++ bs)) = .instr i (.command ws bs)

/-- DECODE OF ENCODE, packets: in every context in which a packet can stand, a decoder that asks for the decision bits with its
own models is given each bit under the model the encoder coded it with, and reads the packet back; the bits are those of the
packet code whatever the context (R135 to R140, R210). -/
def Obligations.PacketRoundTrip : Prop :=
  (∀ (c : PacketCtx) (i : Instr) (rest : List Decision), i.wellFormed = true → isPacket i = true →
    (7 ≤ c.state → c.matchByte.isSome = true) → (c.atStart = true → isRepClass i = false) →
    decPacket checkedBit c (packetDecisions c i ++ rest) = .ok i rest) ∧
  (∀ (c : PacketCtx) (i : Instr), (packetDecisions c i).map Decision.bit = packetBits i) ∧
  (∀ (i : Instr) (rest : List Bool), i.wellFormed = true → isPacket i = true →
    decode (.packet (packetBits i ++ rest)) = .instr i (.packet rest))

/-- ENCODE OF DECODE, packets: every sequence of 48 or more decision bits begins with a packet, which is exactly the bits its
code has, and no sequence begins with the codes of two packets (R135, R139, R142). -/
def Obligations.PacketCodeComplete : Prop :=
  (∀ bits : List Bool, 48 ≤ bits.length →
    ∃ i rest, decode (.packet bits) = .instr i (.packet rest) ∧ isPacket i = true ∧ bits = packetBits i ++ rest) ∧
  (∀ (i j : Instr) (rest rest' : List Bool), i.wellFormed = true → j.wellFormed = true → isPacket i = true →
    isPacket j = true → packetBits i ++ rest = packetBits j ++ rest' → i = j)

/-- R141, with `L` and `F` written out. -/
def Obligations.PacketDecisionCounts : Prop :=
  ∀ c : PacketCtx,
    (∀ b, (packetDecisions c (.lit b)).length = 9) ∧ (packetDecisions c .shortRep).length = 4 ∧
    (packetDecisions c .eos).length = 42 ∧
    (∀ len, 2 ≤ len → len ≤ 273 →
      let l := if len ≤ 9 then 4 else if len ≤ 17 then 5 else 10
      (packetDecisions c (.rep0 len)).length = 4 + l ∧ (packetDecisions c (.rep1 len)).length = 4 + l ∧
      (packetDecisions c (.rep2 len)).length = 5 + l ∧ (packetDecisions c (.rep3 len)).length = 5 + l ∧
      ∀ d : Word,
        let slot := distSlot d.toNat
        let f := if slot < 4 then 0 else slot / 2 - 1
        (packetDecisions c (.matchDist len d)).length = 2 + l + 6 + f ∧
        (packetDecisions c (.matchDist len d)).length ≤ 48 ∧
        ((packetDecisions c (.matchDist len d)).length = 48 ↔ 18 ≤ len ∧ (slot = 62 ∨ slot = 63)) ∧
        ((packetDecisions c (.matchDist len d)).length = 48 →
          ((packetDecisions c (.matchDist len d)).filter fun x => x.model.isNone).length = 26))

/-- R147. The first three clauses are the decoder's: an unlisted opcode, a nonzero reserved field, a nonzero channel of a global
query; the last is the machine's: a channel that does not exist. A rejected command whose opcode is listed takes that opcode's
operands from the port (the model's reading of R148: log 17). -/
def Obligations.ReservedCommandsAreRejected : Prop :=
  ∀ s : State,
    (∀ w ws, s.running = none → s.portWords = w :: ws →
      (opcodeField w = 0 ∨ (7 ≤ opcodeField w ∧ opcodeField w ≤ 0x0F) ∨ (0x1B ≤ opcodeField w ∧ opcodeField w ≤ 0x1F) ∨
        0x32 ≤ opcodeField w) →
      step s = .next (State.respond { s with portWords := ws } .badArgument [] [])) ∧
    (∀ w ws i ws' bs', s.running = none → s.portWords = w :: ws →
      decode (.command ((w &&& 0xFFFF0000#32) :: ws) s.portData) = .instr i (.command ws' bs') → w &&& 0xFFFF#32 ≠ 0#32 →
      step s = .next (State.respond { s with portWords := ws', portData := bs' } .badArgument [] [])) ∧
    (∀ w ws, s.running = none → s.portWords = w :: ws → 1 ≤ opcodeField w → opcodeField w ≤ 6 → chanField w ≠ 0#8 →
      step s = .next (State.respond { s with portWords := ws } .badArgument [] [])) ∧
    (∀ i c, isPacket i = false → actsOn s i = some c → s.channels.length ≤ c.toNat →
      exec i s = .next (s.respond .badArgument [] []))

/-! ## The step -/

/-- A STEP RUNS THE DECODED COMMAND (R111, R145): with no read in progress the next command of the port runs on the state after
its words and data bytes are taken; while it is not whole nothing happens (the model's port: log 5). -/
def Obligations.StepRunsCommand : Prop :=
  ∀ s : State, s.running = none →
    (∀ i ws bs, decode (.command s.portWords s.portData) = .instr i (.command ws bs) →
      step s = exec i { s with portWords := ws, portData := bs }) ∧
    (decode (.command s.portWords s.portData) = .incomplete → step s = .next s)

/-- A STEP RUNS THE FETCHED PACKET (R413, R424, R444; R340, R342, R395; R280, R281): a read that is not satisfied by the output
FIFO takes all of it and then runs one packet, the one the range decoder reads, or on an encoder the close or the parser's. A
fetch that raises (R283, R289, R415, R484, R485) enters Fatal with its code and keeps what it did before: the coder and the
models, and the bytes it took from the head of the input, which the counters count. It raises what its first two decision bits
raise, and `data_error` when the second is 1 at data position 0, before the third is asked for.
That the size limit closes only where a packet step would have look-ahead is the model's reading of R395 (log 13). -/
def Obligations.StepRunsPacket : Prop :=
  ∀ (s : State) (r : Run), s.running = some r →
    (∀ d i d', s.chan r.chan = .dec d → r.got.length + d.out.length < r.n → d.phase = .inMember → d.part = .payload →
      Decoder.fetch s.params { d with out := [] } = .ok i d' →
      step s = exec i (s.withRun { r with got := r.got ++ d.out } (.dec d'))) ∧
    (∀ d err d', s.chan r.chan = .dec d → r.got.length + d.out.length < r.n → d.phase = .inMember → d.part = .payload →
      Decoder.fetch s.params { d with out := [] } = .raise err d' →
      step s = .next (s.withRun { r with got := r.got ++ d.out } (.dec { d' with errno := err, phase := .fatal })) ∧
      ∃ taken rd models, d.inp = taken ++ d'.inp ∧
        d' = { d with
          out := [], inp := d'.inp, rd := rd, models := models
          memberPosition := d.memberPosition + BitVec.ofNat 64 taken.length
          totalIn := d.totalIn + BitVec.ofNat 64 taken.length }) ∧
    (∀ d : Decoder, d.out.length + 273 ≤ s.params.outFifoCap →
      let first := some (ModelRef.isMatch d.lz.state.val (d.lz.dataPosition.toNat % 4))
      let second := some (ModelRef.rep d.lz.state.val)
      (∀ err d', rangeBit d first = .raise err d' → d.fetch s.params = .raise err d') ∧
      (∀ d1, rangeBit d first = .ok true d1 →
        (∀ err d', rangeBit d1 second = .raise err d' → d.fetch s.params = .raise err d') ∧
        (∀ d', rangeBit d1 second = .ok true d' → d.lz.dataPosition = 0#64 → d.fetch s.params = .raise .dataError d'))) ∧
    (∀ e, s.chan r.chan = .enc e → r.got.length + e.out.length < r.n → e.phase = .inMember →
      let e0 := { e with out := [] }
      let ending := e.finishing = true ∨ e.syncPending = true
      let view := 1 ≤ e.lookahead ∧ (s.params.afterSize ≤ e.lookahead ∨ ending)
      let limit := e.memberSizeLimit.toNat ≤ 6 + e.re.shifts.toNat + 20 + s.params.memberMargin
      (view → ¬ limit → 0 < s.params.encOutReserve →
        step s = exec (e0.fetch s.params).1 (s.withRun { r with got := r.got ++ e.out } (.enc (e0.fetch s.params).2))) ∧
      (view → limit → step s = exec .eos (s.withRun { r with got := r.got ++ e.out } (.enc e0))) ∧
      (e.lookahead = 0 → ending → step s = exec .eos (s.withRun { r with got := r.got ++ e.out } (.enc e0))))

/-- HOW A READ ENDS (R413, R424, R444, R415): satisfied, or with nothing enabled, or in Fatal, it answers the status, `m` and
the `m` bytes; an encoder's end counts them and runs EncEndCheck (R398), a decoder's runs FinishedCheck (R390). -/
def Obligations.ReadEnds : Prop :=
  ∀ (s : State) (r : Run), s.running = some r →
    (∀ e, s.chan r.chan = .enc e →
      let give := min (r.n - r.got.length) e.out.length
      let got := r.got ++ e.out.take give
      (r.n ≤ got.length ∨ e.phase ≠ .inMember ∨ (e.lookahead < s.params.afterSize ∧ e.finishing = false ∧ e.syncPending = false)) →
      let out := e.out.drop give
      let phase :=
        if e.phase = .memberFinished ∧ e.finishing = true ∧ e.lookahead = 0 ∧ out = [] then Phase.finished else e.phase
      step s = .next
        { s.setChan r.chan (.enc { e with out := out, totalOut := e.totalOut + BitVec.ofNat 64 got.length, phase := phase }) with
          responses := s.responses ++ [{ status := 0#32, words := [BitVec.ofNat 32 got.length], data := got }]
          running := none }) ∧
    (∀ d, s.chan r.chan = .dec d →
      let give := min (r.n - r.got.length) d.out.length
      let got := r.got ++ d.out.take give
      let out := d.out.drop give
      (d.phase = .fatal →
        step s = .next
          { s.setChan r.chan (.dec { d with out := out }) with
            responses := s.responses ++ [{ status := errorWord d.errno, words := [BitVec.ofNat 32 got.length], data := got }]
            running := none }) ∧
      ((d.phase ≠ .fatal ∧ r.n ≤ got.length) ∨ d.phase = .memberFinished ∨ d.phase = .finished →
        let phase :=
          if d.phase = .memberFinished ∧ out = [] ∧ d.inp = [] ∧ d.finishing = true then Phase.finished else d.phase
        step s = .next
          { s.setChan r.chan (.dec { d with out := out, phase := phase }) with
            responses := s.responses ++ [{ status := 0#32, words := [BitVec.ofNat 32 got.length], data := got }]
            running := none }))

/-! ## Bit models and tables -/

/-- R222. -/
def Obligations.BitUpdateValues : Prop :=
  ∀ p : Prob, 31 ≤ p.toNat → p.toNat ≤ 2017 →
    (bitUpdate p false).toNat = p.toNat + (2048 - p.toNat) / 2 ^ 5 ∧ (bitUpdate p true).toNat = p.toNat - p.toNat / 2 ^ 5 ∧
    (∀ b, 31 ≤ (bitUpdate p b).toNat ∧ (bitUpdate p b).toNat ≤ 2017)

/-- A coded or decoded bit replaces its own model entry by `BitUpdate` of it and leaves every other entry; a direct bit leaves
all of them (R178, R181, R194, R197, R224). -/
def Obligations.BitsUpdateOneModel : Prop :=
  (∀ (e : Encoder) (m : ModelRef) (b : Bool),
    (e.encBit m b).models.get m = bitUpdate (e.models.get m) b ∧
    (∀ m', m' ≠ m → (e.encBit m b).models.get m' = e.models.get m') ∧ (e.encDirectBit b).models = e.models) ∧
  (∀ (d d' : Decoder) (m : ModelRef) (b : Bool), d.decBit m = .ok b d' →
    d'.models.get m = bitUpdate (d.models.get m) b ∧ ∀ m', m' ≠ m → d'.models.get m' = d.models.get m') ∧
  (∀ (d d' : Decoder) (b : Bool), d.decDirectBit = .ok b d' → d'.models = d.models)

/-- R252: the table, and that EOS changes no state. -/
def Obligations.StateTransitions : Prop :=
  (List.finRange 12).map setChar = [0, 0, 0, 0, 1, 2, 3, 4, 5, 6, 4, 5] ∧
  (List.finRange 12).map setMatch = [7, 7, 7, 7, 7, 7, 7, 10, 10, 10, 10, 10] ∧
  (List.finRange 12).map setRep = [8, 8, 8, 8, 8, 8, 8, 11, 11, 11, 11, 11] ∧
  (List.finRange 12).map setShortRep = [9, 9, 9, 9, 9, 9, 9, 11, 11, 11, 11, 11] ∧
  (∀ lz : Lzma, lz.afterLit.state = setChar lz.state ∧ (∀ d, (lz.afterMatch d).state = setMatch lz.state) ∧
    lz.afterShortRep.state = setShortRep lz.state ∧ lz.afterRep0.state = setRep lz.state ∧
    lz.afterRep1.state = setRep lz.state ∧ lz.afterRep2.state = setRep lz.state ∧ lz.afterRep3.state = setRep lz.state) ∧
  (∀ d d' : Decoder, d.executeEos = .ok () d' → d'.lz = d.lz) ∧
  (∀ (p : Params) (e e' : Encoder), e.codeEos p = some e' → e'.lz = e.lz)

/-- R373. -/
def Obligations.ValidDictionaryBytes : Prop :=
  ((List.range 256).filter fun n => dictValid (BitVec.ofNat 8 n)).length = 137 ∧
  ∀ dd : Byte, dictValid dd = true ↔ dd = 0x0C#8 ∨ (13 ≤ dd.toNat % 32 ∧ dd.toNat % 32 ≤ 29)

/-- R374. -/
def Obligations.DictEncodeIsLeast : Prop :=
  ∀ size : Nat, 2 ^ 12 ≤ size → size ≤ 2 ^ 29 →
    dictValid (dictEncode size) = true ∧ size ≤ dictDecode (dictEncode size) ∧
    ∀ dd : Byte, dictValid dd = true → size ≤ dictDecode dd → dictDecode (dictEncode size) ≤ dictDecode dd

/-- R262. -/
def Obligations.DistanceSlots : Prop :=
  (∀ d : Nat, d < 4 → distSlot d = d) ∧
  (∀ d n : Nat, 4 ≤ d → 2 ^ n ≤ d → d < 2 ^ (n + 1) → distSlot d = 2 * n + d / 2 ^ (n - 1) % 2) ∧
  (∀ slot d : Nat, 4 ≤ slot → slot < 64 →
    let db := slot / 2 - 1
    let base := (2 ||| (slot &&& 1)) <<< db
    distSlot d = slot ↔ base ≤ d ∧ d ≤ base + 2 ^ db - 1)

/-- The table-driven CRC of R380 and R382 is the bit-serial one: the byte is added to the low bits and eight steps of the
polynomial follow. -/
def Obligations.CrcIsBitSerial : Prop :=
  ∀ (c : Word) (b : Byte),
    crcUpdate c b =
      Nat.repeat (fun v : Word => if v.getLsbD 0 then 0xEDB88320#32 ^^^ (v >>> 1) else v >>> 1) 8 (c ^^^ b.setWidth 32)

/-! ## Range coder -/

/-- R185. -/
def Obligations.OneShiftSuffices : Prop :=
  ∀ e : Encoder, e.models.sound → 2 ^ 24 ≤ e.re.range.toNat →
    (∀ (m : ModelRef) (b : Bool),
      let bound := e.re.range.toNat / 2 ^ 11 * (e.models.get m).toNat
      let new := if b then e.re.range.toNat - bound else bound
      2 ^ 13 * 31 ≤ new ∧ 2 ^ 17 ≤ new ∧ (new < 2 ^ 24 → 2 ^ 25 ≤ new * 2 ^ 8) ∧
      (e.encBit m b).re.range.toNat = (if new < 2 ^ 24 then new * 2 ^ 8 else new) ∧
      (e.encBit m b).re.shifts = (if new < 2 ^ 24 then e.re.shifts + 1#64 else e.re.shifts)) ∧
    (∀ b : Bool,
      let half := e.re.range.toNat / 2
      2 ^ 23 ≤ half ∧ (half < 2 ^ 24 → 2 ^ 31 ≤ half * 2 ^ 8) ∧
      (e.encDirectBit b).re.range.toNat = (if half < 2 ^ 24 then half * 2 ^ 8 else half) ∧
      (e.encDirectBit b).re.shifts = (if half < 2 ^ 24 then e.re.shifts + 1#64 else e.re.shifts))

/-- R183, for a member of fewer than `2^64 - 5` decision bits, so that no counter wraps. -/
def Obligations.ByteAccounting : Prop :=
  ∀ (e : Encoder) (ds : List Decision), e.re = RangeEnc.init → ds.length + 5 < 2 ^ 64 →
    let e1 := e.encDecisions ds
    let e2 := e1.flush
    e1.out.length + e1.re.ffCount.toNat + 1 = e.out.length + e1.re.shifts.toNat + 1 ∧
    e2.out.length = e.out.length + e2.re.shifts.toNat ∧
    e1.memberPosition = 6 + e1.re.shifts.toNat ∧ e2.memberPosition = 6 + e2.re.shifts.toNat

/-- R184. -/
def Obligations.FlushClears : Prop :=
  ∀ e : Encoder, e.flush.re.low = 0#33 ∧ e.flush.re.cache = 0#8 ∧ e.flush.re.ffCount = 0#64 ∧
    e.memberRestart.re = { low := 0#33, range := 0xFFFFFFFF#32, cache := 0#8, ffCount := 0#64, shifts := 0#64 }

/-- R198, with the counters of R191; and when a decision bit does not come (R191, R193): it waits or fails for want of a byte, or
fails with the code not below the range, or with a counter full (`library_error`: log 14). -/
def Obligations.OneByteABit : Prop :=
  ∀ (d d' : Decoder) (m : Option ModelRef),
    let takesNone := d'.inp = d.inp ∧ d'.memberPosition = d.memberPosition ∧ d'.totalIn = d.totalIn
    let takesOne :=
      ∃ x, d.inp = x :: d'.inp ∧ d'.memberPosition = d.memberPosition + 1#64 ∧ d'.totalIn = d.totalIn + 1#64
    (∀ b, d.models.sound → 2 ^ 24 ≤ d.rd.range.toNat → rangeBit d m = .ok b d' →
      2 ^ 24 ≤ d'.rd.range.toNat ∧ d'.rd.code.toNat < d'.rd.range.toNat ∧ (takesNone ∨ takesOne)) ∧
    (rangeBit d m = .hold → d.inp = [] ∧ d.finishing = false) ∧
    (∀ err, rangeBit d m = .raise err d' →
      (err = .unexpectedEof ∧ takesNone ∧ d.inp = [] ∧ d.finishing = true) ∨
      (err = .dataError ∧ (takesNone ∨ takesOne) ∧ d'.rd.range.toNat ≤ d'.rd.code.toNat) ∨
      (err = .libraryError ∧ takesNone ∧ d.inp ≠ [] ∧
        (d.memberPosition.toNat = 2 ^ 64 - 1 ∨ d.totalIn.toNat = 2 ^ 64 - 1)))

/-- THE DECODER READS BACK WHAT THE ENCODER CODED (R199, R200, R201): from the payload of any decisions a decoder with the same
models is primed, is given each bit under its model, ends with the encoder's range and models and code 0, and leaves exactly
the bytes after the payload. -/
def Obligations.PayloadDecodes : Prop :=
  ∀ (e : Encoder) (ds : List Decision) (d : Decoder) (payload rest : List Byte),
    e.re = RangeEnc.init → e.models.sound → ds.length + 5 < 2 ^ 64 →
    (e.encDecisions ds).flush.out = e.out ++ payload → d.models = e.models → d.inp = payload ++ rest →
    d.memberPosition.toNat + payload.length < 2 ^ 64 → d.totalIn.toNat + payload.length < 2 ^ 64 →
    ∃ d0 d1, d.rcLoad = .ok () d0 ∧ readBits (ds.map Decision.model) d0 = .ok (ds.map Decision.bit) d1 ∧
      d1.inp = rest ∧ d1.rd.code = 0#32 ∧ d1.rd.range = (e.encDecisions ds).re.range ∧
      d1.models = (e.encDecisions ds).models

/-! ## Member steps of the decoder -/

/-- R385, in a read that the output FIFO does not satisfy. A header whose six bytes would take `DEC.total_in_size` past `2^64 - 1` is
`library_error` (R45, R489) and, in the model's reading, takes nothing (log 14). -/
def Obligations.HeaderStep : Prop :=
  ∀ (s : State) (r : Run) (d : Decoder), s.running = some r → s.chan r.chan = .dec d → d.phase = .idle →
    r.got.length + d.out.length < r.n →
    let r' := { r with got := r.got ++ d.out }
    let fails := fun err => step s = .next (s.withRun r' (.dec { d with out := [], errno := err, phase := .fatal }))
    (d.inp.length < 6 → d.finishing = false →
      step s = .next (s.setChan r.chan (.dec { d with out := [] }) |>.endRead r' .ok)) ∧
    (d.inp.length < 6 → d.finishing = true → d.inp <+: [0x4C#8, 0x5A#8, 0x49#8, 0x50#8, 0x01#8] → fails .unexpectedEof) ∧
    (d.inp.length < 6 → d.finishing = true → ¬ d.inp <+: [0x4C#8, 0x5A#8, 0x49#8, 0x50#8, 0x01#8] → fails .headerError) ∧
    (∀ b0 b1 b2 b3 v dd rest, d.inp = b0 :: b1 :: b2 :: b3 :: v :: dd :: rest →
      ([b0, b1, b2, b3] ≠ [0x4C#8, 0x5A#8, 0x49#8, 0x50#8] ∨ v ≠ 0x01#8 ∨ dictValid dd = false → fails .headerError) ∧
      ([b0, b1, b2, b3] = [0x4C#8, 0x5A#8, 0x49#8, 0x50#8] → v = 0x01#8 → dictValid dd = true →
        (s.params.maxWindowBytes < dictDecode dd → fails .memError) ∧
        (dictDecode dd ≤ s.params.maxWindowBytes → 2 ^ 64 ≤ d.totalIn.toNat + 6 → fails .libraryError) ∧
        (dictDecode dd ≤ s.params.maxWindowBytes → d.totalIn.toNat + 6 < 2 ^ 64 →
          step s = .next (s.withRun r' (.dec
            { d with
              out := [], inp := rest, memberPosition := 6#64, totalIn := d.totalIn + 6#64, memberVersion := 1#8
              dictionarySize := BitVec.ofNat 32 (dictDecode dd), phase := .inMember, part := .load
              models := [], history := [], crc := 0xFFFFFFFF#32
              lz := { state := 0, rep0 := 0#32, rep1 := 0#32, rep2 := 0#32, rep3 := 0#32, dataPosition := 0#64 }
              rd := { code := 0#32, range := 0xFFFFFFFF#32 } })))))

/-- R190 and R386, in a read that the output FIFO does not satisfy, with room in the counters; and without room for the first
byte `library_error` (R45, R489), which in the model's reading takes nothing (log 14). -/
def Obligations.LoadStep : Prop :=
  ∀ (s : State) (r : Run) (d : Decoder), s.running = some r → s.chan r.chan = .dec d → d.phase = .inMember →
    d.part = .load → r.got.length + d.out.length < r.n →
    let r' := { r with got := r.got ++ d.out }
    (d.inp ≠ [] → d.memberPosition.toNat = 2 ^ 64 - 1 ∨ d.totalIn.toNat = 2 ^ 64 - 1 →
      ∃ rd, step s = .next (s.withRun r' (.dec { d with out := [], rd := rd, errno := .libraryError, phase := .fatal }))) ∧
    (d.memberPosition.toNat + 5 < 2 ^ 64 → d.totalIn.toNat + 5 < 2 ^ 64 →
      (∀ b rest, d.inp = b :: rest → b ≠ 0#8 →
        ∃ rd, step s = .next (s.withRun r' (.dec
          { d with out := [], inp := rest, memberPosition := d.memberPosition + 1#64, totalIn := d.totalIn + 1#64, rd := rd,
                   errno := .headerError, phase := .fatal }))) ∧
      (∀ b1 b2 b3 b4 rest, d.inp = 0#8 :: b1 :: b2 :: b3 :: b4 :: rest →
        let code : Word := b1 ++ b2 ++ b3 ++ b4
        let d5 := { d with out := [], inp := rest, memberPosition := d.memberPosition + 5#64, totalIn := d.totalIn + 5#64
                           rd := { code := code, range := 0xFFFFFFFF#32 } }
        (code ≠ 0xFFFFFFFF#32 → step s = .next (s.withRun r' (.dec { d5 with part := .payload }))) ∧
        (code = 0xFFFFFFFF#32 → step s = .next (s.withRun r' (.dec { d5 with errno := .dataError, phase := .fatal })))) ∧
      (d.inp.length < 5 → (d.inp = [] ∨ d.inp.head? = some 0#8) →
        (d.finishing = false → step s = .next (s.setChan r.chan (.dec { d with out := [] }) |>.endRead r' .ok)) ∧
        (d.finishing = true → ∃ rd, step s = .next (s.withRun r' (.dec
          { d with out := [], inp := [], memberPosition := d.memberPosition + BitVec.ofNat 64 d.inp.length
                   totalIn := d.totalIn + BitVec.ofNat 64 d.inp.length, rd := rd, errno := .unexpectedEof, phase := .fatal })))))

/-- R388, in a read that the output FIFO does not satisfy; `leValue` is the little-endian value of R107. -/
def Obligations.TrailerStep : Prop :=
  ∀ (s : State) (r : Run) (d : Decoder), s.running = some r → s.chan r.chan = .dec d → d.phase = .inMember →
    d.part = .trailer → r.got.length + d.out.length < r.n →
    let r' := { r with got := r.got ++ d.out }
    (d.inp.length < 20 → d.finishing = false →
      step s = .next (s.setChan r.chan (.dec { d with out := [] }) |>.endRead r' .ok)) ∧
    (d.inp.length < 20 → d.finishing = true →
      step s = .next (s.withRun r' (.dec { d with out := [], errno := .unexpectedEof, phase := .fatal }))) ∧
    (∀ crc size member rest, d.inp = crc ++ size ++ member ++ rest → crc.length = 4 → size.length = 8 →
      member.length = 8 → d.memberPosition.toNat + 20 < 2 ^ 64 → d.totalIn.toNat + 20 < 2 ^ 64 →
      let good := leValue crc = (d.crc ^^^ 0xFFFFFFFF#32).toNat ∧ leValue size = d.lz.dataPosition.toNat ∧
        leValue member = d.memberPosition.toNat + 20
      let d20 :=
        { d with out := [], inp := rest, memberPosition := d.memberPosition + 20#64, totalIn := d.totalIn + 20#64 }
      (good → step s = .next (s.withRun r' (.dec { d20 with phase := .memberFinished }))) ∧
      (¬ good → step s = .next (s.withRun r' (.dec { d20 with errno := .dataError, phase := .fatal }))))

/-- A PACKET STEP THAT HOLDS CHANGES NOTHING (R20, R280, R191, R541): the read ends with the channel as it was but for the bytes
given; and it holds only for want of output room, or of input that may still come. -/
def Obligations.HoldChangesNothing : Prop :=
  ∀ (s : State) (r : Run) (d : Decoder), s.running = some r → s.chan r.chan = .dec d → d.phase = .inMember →
    d.part = .payload → r.got.length + d.out.length < r.n → Decoder.fetch s.params { d with out := [] } = .hold →
    step s = .next (s.setChan r.chan (.dec { d with out := [] }) |>.endRead { r with got := r.got ++ d.out } .ok) ∧
    (s.params.outFifoCap < 273 ∨ d.finishing = false)

/-! ## Global queries and introspection -/

/-- R460 to R465: each query answers its constant, with every channel as it was and whatever the channels are; a query word with
a channel field that is not 0 is answered `bad_argument`. -/
def Obligations.GlobalQueries : Prop :=
  ∀ s : State,
    exec .qApiVersion s = .next (s.respond .ok [1013#32] []) ∧
    exec .qVersionString s = .next (s.respond .ok [] [0x31#8, 0x2E#8, 0x31#8, 0x33#8]) ∧
    exec .qMinDictionarySize s = .next (s.respond .ok [4096#32] []) ∧
    exec .qMaxDictionarySize s = .next (s.respond .ok [536870912#32] []) ∧
    exec .qMinMatchLenLimit s = .next (s.respond .ok [5#32] []) ∧
    exec .qMaxMatchLenLimit s = .next (s.respond .ok [273#32] []) ∧
    (∀ (op chan : Byte) (ws : List Word), 1 ≤ op.toNat → op.toNat ≤ 6 → chan ≠ 0#8 → s.running = none →
      s.portWords = commandWord op chan :: ws →
      step s = .next (State.respond { s with portWords := ws } .badArgument [] []))

/-- R422 and R321, R428, R429, R430, R459: what the encoder's introspection commands answer, and that they change nothing. The
clause on the free space stays away from the end of the 64-bit position space, where the model caps it (log 14). -/
def Obligations.EncoderIntrospection : Prop :=
  ∀ (s : State) (c : Byte) (e : Encoder), s.chan c = .enc e →
    (∃ free, exec (.encWriteSize c) s = .next (s.respond .ok [free] []) ∧
      (e.streamPos.toNat + 2 ^ 31 ≤ 2 ^ 64 →
        let windowSize := e.dictionarySize.toNat + s.params.beforeSize + s.params.afterSize
        let keepFrom := e.lz.dataPosition.toNat - e.dictionarySize.toNat
        (e.phase = .fatal ∨ e.finishing = true ∨ e.syncPending = true ∨ e.limitReached = true → free = 0#32) ∧
        (e.phase ≠ .fatal → e.finishing = false → e.syncPending = false → e.limitReached = false →
          free = BitVec.ofNat 32 (min (2 ^ 31 - 1)
            (if e.resumeOnWrite then windowSize - (e.streamPos.toNat - e.lz.dataPosition.toNat)
              else windowSize - (e.streamPos.toNat - keepFrom)))))) ∧
    exec (.encMemberFinished c) s = .next (s.respond .ok
      [if (e.phase = .memberFinished ∨ e.phase = .finished) ∧ e.out = [] then 1#32 else 0#32] []) ∧
    exec (.encFinished c) s = .next (s.respond .ok [if e.phase = .finished then 1#32 else 0#32] []) ∧
    exec (.encErrno c) s = .next (s.respond .ok [errorWord e.errno] [])

/-- R442, R448 to R457, R459: what the decoder's introspection commands answer, and that they change nothing; on a channel that
is no decoder each ends with `bad_argument` (R410). -/
def Obligations.DecoderIntrospection : Prop :=
  ∀ (s : State) (c : Byte),
    (∀ d, s.chan c = .dec d →
      exec (.decWriteSize c) s = .next (s.respond .ok
        [if d.phase = .fatal ∨ d.finishing = true then 0#32 else BitVec.ofNat 32 (s.params.inFifoCap - d.inp.length)] []) ∧
      exec (.decMemberFinished c) s = .next (s.respond .ok
        [if (d.phase = .memberFinished ∨ d.phase = .finished) ∧ d.out = [] then 1#32 else 0#32] []) ∧
      exec (.decFinished c) s = .next (s.respond .ok [if d.phase = .finished then 1#32 else 0#32] []) ∧
      exec (.decErrno c) s = .next (s.respond .ok [errorWord d.errno] []) ∧
      exec (.decMemberVersion c) s = .next (s.respond .ok [d.memberVersion.setWidth 32] []) ∧
      exec (.decDictionarySize c) s = .next (s.respond .ok [d.dictionarySize] []) ∧
      exec (.decDataCrc c) s = .next (s.respond .ok [d.crc ^^^ 0xFFFFFFFF#32] []) ∧
      (∀ lo hi : Word, hi ++ lo = d.lz.dataPosition → exec (.decDataPosition c) s = .next (s.respond .ok [lo, hi] [])) ∧
      (∀ lo hi : Word, hi ++ lo = d.memberPosition → exec (.decMemberPosition c) s = .next (s.respond .ok [lo, hi] [])) ∧
      (∀ lo hi : Word, hi ++ lo = d.totalIn → exec (.decTotalInSize c) s = .next (s.respond .ok [lo, hi] [])) ∧
      (∀ lo hi : Word, hi ++ lo = d.totalOut → exec (.decTotalOutSize c) s = .next (s.respond .ok [lo, hi] []))) ∧
    ((∀ d, s.chan c ≠ .dec d) →
      ∀ i ∈ [Instr.decWriteSize c, .decMemberFinished c, .decFinished c, .decErrno c, .decMemberVersion c, .decDictionarySize c,
          .decDataCrc c, .decDataPosition c, .decMemberPosition c, .decTotalInSize c, .decTotalOutSize c],
        exec i s = .next (s.respond .badArgument [] []))

/-! ## Errors and recovery -/

/-- R411, with R415, R483 and R487: a negative length ends a write or a read with `bad_argument`, recorded in `errno` unless a
code is latched; a length of 0 is legal and transfers nothing. The result word 0 of a failed command is the model's (log 15). -/
def Obligations.LengthOperands : Prop :=
  ∀ (s : State) (c : Byte) (n : Word) (bytes : List Byte),
    (∀ e, s.chan c = .enc e →
      (n.toInt < 0 →
        let e' := { e with errno := if e.phase = .fatal then e.errno else .badArgument }
        exec (.encWrite c n bytes) s = .next ((s.setChan c (.enc e')).respond .badArgument [0#32] []) ∧
        exec (.encRead c n) s = .next ((s.setChan c (.enc e')).respond .badArgument [0#32] [])) ∧
      (e.phase ≠ .fatal → e.finishing = false →
        exec (.encWrite c 0#32 []) s = .next ((s.setChan c (.enc e)).respond .ok [0#32] []))) ∧
    (∀ d, s.chan c = .dec d →
      (n.toInt < 0 →
        let d' := { d with errno := if d.phase = .fatal then d.errno else .badArgument }
        exec (.decWrite c n bytes) s = .next ((s.setChan c (.dec d')).respond .badArgument [0#32] []) ∧
        exec (.decRead c n) s = .next ((s.setChan c (.dec d')).respond .badArgument [0#32] [])) ∧
      (d.phase ≠ .fatal → d.finishing = false →
        exec (.decWrite c 0#32 []) s = .next ((s.setChan c (.dec d)).respond .ok [0#32] []))) ∧
    (∀ r d, s.running = some r → r.n = 0 → r.got = [] → s.chan r.chan = .dec d → d.phase ≠ .fatal → d.phase ≠ .memberFinished →
      step s = .next { s.setChan r.chan (.dec d) with
        responses := s.responses ++ [{ status := 0#32, words := [0#32], data := [] }], running := none })

/-- R414 and R490: on a Fatal channel writes, reads, finishes, the sync flush and the member restart end with the latched code
and change nothing (a length that is not negative: R412). -/
def Obligations.FatalLatch : Prop :=
  ∀ (s : State) (c : Byte) (n : Word) (bytes : List Byte), 0 ≤ n.toInt →
    (∀ e, s.chan c = .enc e → e.phase = .fatal →
      exec (.encWrite c n bytes) s = .next (s.respond e.errno [0#32] []) ∧
      exec (.encRead c n) s = .next (s.respond e.errno [0#32] []) ∧
      exec (.encSyncFlush c) s = .next (s.respond e.errno [] []) ∧
      exec (.encFinish c) s = .next (s.respond e.errno [] []) ∧
      exec (.encRestartMember c) s = .next (s.respond e.errno [] [])) ∧
    (∀ d, s.chan c = .dec d → d.phase = .fatal →
      exec (.decWrite c n bytes) s = .next (s.respond d.errno [0#32] []) ∧
      exec (.decRead c n) s = .next (s.respond d.errno [0#32] []) ∧
      exec (.decFinish c) s = .next (s.respond d.errno [] []))

/-- R446: the reset discards all state of the channel, whatever the phase and the error; on a channel that is no decoder it ends
with `bad_argument`. -/
def Obligations.DecoderReset : Prop :=
  ∀ (s : State) (c : Byte),
    ((∀ d, s.chan c ≠ .dec d) → exec (.decReset c) s = .next (s.respond .badArgument [] [])) ∧
    ∀ d, s.chan c = .dec d → exec (.decReset c) s = .next (State.respond (s.setChan c (.dec
      { phase := .idle, errno := .ok, finishing := false, part := .header, memberVersion := 0#8, dictionarySize := 0#32
        rd := { code := 0#32, range := 0xFFFFFFFF#32 }
        lz := { state := 0, rep0 := 0#32, rep1 := 0#32, rep2 := 0#32, rep3 := 0#32, dataPosition := 0#64 }
        models := [], crc := 0xFFFFFFFF#32, history := [], memberPosition := 0#64, totalIn := 0#64, totalOut := 0#64
        inp := [], out := [] })) .ok [] [])

/-- R393, R447 and R492: the input is searched byte by byte for the first place where a valid header stands or may still come,
the bytes before it are discarded and counted, and the channel is `Idle` and `ok` again; in Fatal of another kind the command
ends with the latched code and changes nothing. -/
def Obligations.Resynchronisation : Prop :=
  ∀ (s : State) (c : Byte) (d : Decoder), s.chan c = .dec d →
    ((d.phase ≠ .fatal ∨ d.errno = .headerError ∨ d.errno = .dataError) → d.totalIn.toNat + d.inp.length < 2 ^ 64 →
      ∃ dropped kept, d.inp = dropped ++ kept ∧ resyncStop kept ∧
        (∀ k, k < dropped.length → ¬ resyncStop (d.inp.drop k)) ∧
        exec (.decSyncToMember c) s = .next (State.respond (s.setChan c (.dec
          { d with phase := .idle, errno := .ok, part := .header, inp := kept
                   totalIn := d.totalIn + BitVec.ofNat 64 dropped.length })) .ok [] [])) ∧
    (d.phase = .fatal → d.errno ≠ .headerError → d.errno ≠ .dataError →
      exec (.decSyncToMember c) s = .next (s.respond d.errno [] []))

/-- R410: an encoder command to a channel that is not an encoder, or a decoder command to one that is not a decoder, ends with
`bad_argument` and changes nothing. -/
def Obligations.WrongChannel : Prop :=
  ∀ (s : State) (i : Instr) (c : Byte),
    (encoderChannel i = some c → (∀ e, s.chan c ≠ .enc e) → exec i s = .next (s.respond .badArgument [] [])) ∧
    (decoderChannel i = some c → (∀ d, s.chan c ≠ .dec d) → exec i s = .next (s.respond .badArgument [] []))

/-! ## Opening and closing -/

/-- R420, with R374, R375, R387, R394 and R521: an open that is accepted, and each that is not. The variant is the parameter of
R330. -/
def Obligations.EncoderOpen : Prop :=
  ∀ (s : State) (c : Byte) (ds ml : Word) (lim : U64), c.toNat < s.channels.length →
    (s.chan c ≠ .closed → exec (.encOpen c ds ml lim) s = .next (s.respond .badArgument [] [])) ∧
    (s.chan c = .closed →
      let legal := 2 ^ 12 ≤ ds.toNat ∧ ds.toNat ≤ 2 ^ 29 ∧ 5 ≤ ml.toNat ∧ ml.toNat ≤ 273 ∧ 100 ≤ lim.toNat ∧
        lim.toNat ≤ 2 ^ 63 - 1
      let dd := dictEncode ds.toNat
      let fits := dictDecode dd + s.params.beforeSize + s.params.afterSize ≤ s.params.maxWindowBytes
      (¬ legal → exec (.encOpen c ds ml lim) s = .next (s.respond .badArgument [] [])) ∧
      (legal → ¬ fits → exec (.encOpen c ds ml lim) s = .next (s.respond .memError [] [])) ∧
      (legal → fits → exec (.encOpen c ds ml lim) s = .next (State.respond (s.setChan c (.enc
        { phase := .inMember, errno := .ok, finishing := false, syncPending := false, resumeOnWrite := false
          limitReached := false, dictByte := dd, dictionarySize := BitVec.ofNat 32 (dictDecode dd)
          matchLenLimit := BitVec.ofNat 16 ml.toNat, memberSizeLimit := lim
          variant := chosenVariant s.params (dictDecode dd) ml.toNat
          re := { low := 0#33, range := 0xFFFFFFFF#32, cache := 0#8, ffCount := 0#64, shifts := 0#64 }
          lz := { state := 0, rep0 := 0#32, rep1 := 0#32, rep2 := 0#32, rep3 := 0#32, dataPosition := 0#64 }
          models := [], crc := 0xFFFFFFFF#32, window := [], streamPos := 0#64, cyclicPos := 0#32
          mf := { hash2 := [], hash3 := [], hash4 := [], son := [], next := 0 }, trial := [], planned := []
          out := [0x4C#8, 0x5A#8, 0x49#8, 0x50#8, 0x01#8, dd], totalIn := 0#64, totalOut := 0#64 })) .ok [] [])))

/-- R440, R421 and R441: opening a decoder, and closing a channel in every phase. -/
def Obligations.DecoderOpenAndCloses : Prop :=
  ∀ (s : State) (c : Byte),
    (c.toNat < s.channels.length → s.chan c ≠ .closed → exec (.decOpen c) s = .next (s.respond .badArgument [] [])) ∧
    (c.toNat < s.channels.length → s.chan c = .closed →
      exec (.decOpen c) s = .next (State.respond (s.setChan c (.dec
        { phase := .idle, errno := .ok, finishing := false, part := .header, memberVersion := 0#8, dictionarySize := 0#32
          rd := { code := 0#32, range := 0xFFFFFFFF#32 }
          lz := { state := 0, rep0 := 0#32, rep1 := 0#32, rep2 := 0#32, rep3 := 0#32, dataPosition := 0#64 }
          models := [], crc := 0xFFFFFFFF#32, history := [], memberPosition := 0#64, totalIn := 0#64, totalOut := 0#64
          inp := [], out := [] })) .ok [] [])) ∧
    (∀ e, s.chan c = .enc e → exec (.encClose c) s = .next ((s.setChan c .closed).respond .ok [] [])) ∧
    ((∀ e, s.chan c ≠ .enc e) → exec (.encClose c) s = .next (s.respond .badArgument [] [])) ∧
    (∀ d, s.chan c = .dec d → exec (.decClose c) s = .next ((s.setChan c .closed).respond .ok [] [])) ∧
    ((∀ d, s.chan c ≠ .dec d) → exec (.decClose c) s = .next (s.respond .badArgument [] []))

/-! ## Staging commands -/

/-- R423: an ENC_WRITE that is not after a sync-flush close. It stages the bytes that fit, and nothing else changes: no packet is
coded. After `finish` it is a `sequence_error`, which enters Fatal (R484). -/
def Obligations.EncoderWrite : Prop :=
  ∀ (s : State) (c : Byte) (n : Word) (bytes : List Byte) (e : Encoder), s.chan c = .enc e → 0 ≤ n.toInt →
    bytes.length = n.toNat → e.phase ≠ .fatal →
    (e.finishing = true → exec (.encWrite c n bytes) s = .next (State.respond
      (s.setChan c (.enc { e with errno := .sequenceError, phase := .fatal })) .sequenceError [0#32] [])) ∧
    (e.finishing = false → e.resumeOnWrite = false → e.windowSound →
      let m := min bytes.length (e.writeSize s.params)
      ∃ w, exec (.encWrite c n bytes) s = .next (State.respond
          (s.setChan c (.enc { e with window := w, streamPos := e.streamPos + BitVec.ofNat 64 m
                                      totalIn := e.totalIn + BitVec.ofNat 64 m })) .ok [BitVec.ofNat 32 m] []) ∧
        (∀ k, k < m → w.read (e.streamPos.toNat + k) = bytes[k]?) ∧
        (∀ pos, pos < e.streamPos.toNat → w.read pos = e.window.read pos) ∧
        (∀ pos, e.streamPos.toNat + m ≤ pos → w.read pos = none))

/-- THE MEMBER RESTART (R397, R387, R394, R521), as ENC_RESTART_MEMBER (R427) and the first ENC_WRITE with bytes after a
sync-flush close (R423) do it: header pushed, everything of the member as after open, the look-ahead moved to positions
`0 .. lookahead - 1`. -/
def Obligations.MemberRestart : Prop :=
  ∀ (s : State) (c : Byte) (e : Encoder), s.chan c = .enc e → e.windowSound → e.phase ≠ .fatal →
    (∃ e' : Encoder, (∃ w, e' =
        { e with
          phase := .inMember, syncPending := false, resumeOnWrite := false, limitReached := false
          re := { low := 0#33, range := 0xFFFFFFFF#32, cache := 0#8, ffCount := 0#64, shifts := 0#64 }
          lz := { state := 0, rep0 := 0#32, rep1 := 0#32, rep2 := 0#32, rep3 := 0#32, dataPosition := 0#64 }
          models := [], crc := 0xFFFFFFFF#32, window := w, streamPos := BitVec.ofNat 64 e.lookahead, cyclicPos := 0#32
          mf := { hash2 := [], hash3 := [], hash4 := [], son := [], next := 0 }, trial := [], planned := []
          out := e.out ++ [0x4C#8, 0x5A#8, 0x49#8, 0x50#8, 0x01#8, e.dictByte] } ∧
        (∀ k, k < e.lookahead → w.read k = e.window.read (e.lz.dataPosition.toNat + k)) ∧
        (∀ k, e.lookahead ≤ k → w.read k = none)) ∧
      (e.limitReached = true → e.phase = .memberFinished → e.out = [] →
        exec (.encRestartMember c) s = .next ((s.setChan c (.enc e')).respond .ok [] [])) ∧
      (∀ n bytes, 0 < n.toInt → bytes.length = n.toNat → e.finishing = false → e.resumeOnWrite = true →
        exec (.encWrite c n bytes) s = exec (.encWrite c n bytes) (s.setChan c (.enc e')))) ∧
    (¬ (e.limitReached = true ∧ e.phase = .memberFinished ∧ e.out = []) →
      exec (.encRestartMember c) s = .next (State.respond
        (s.setChan c (.enc { e with errno := .sequenceError, phase := .fatal })) .sequenceError [] []))

/-- R443: a DEC_WRITE appends the bytes that fit to the input FIFO, and nothing is decoded; after `finish` it is a
`sequence_error`, which enters Fatal (R484). -/
def Obligations.DecoderWrite : Prop :=
  ∀ (s : State) (c : Byte) (n : Word) (bytes : List Byte) (d : Decoder), s.chan c = .dec d → 0 ≤ n.toInt →
    bytes.length = n.toNat → d.phase ≠ .fatal →
    (d.finishing = true → exec (.decWrite c n bytes) s = .next (State.respond
      (s.setChan c (.dec { d with errno := .sequenceError, phase := .fatal })) .sequenceError [0#32] [])) ∧
    (d.finishing = false →
      let m := min n.toNat (s.params.inFifoCap - d.inp.length)
      exec (.decWrite c n bytes) s = .next (State.respond
        (s.setChan c (.dec { d with inp := d.inp ++ bytes.take m })) .ok [BitVec.ofNat 32 m] []))

/-- A READ STARTS (R424, R444): on a channel that is not Fatal a read of a length that is not negative sets the read in progress
going, after NextMemberCheck on a decoder (R390); the rest of the read is in the steps (log 6). -/
def Obligations.ReadStarts : Prop :=
  ∀ (s : State) (c : Byte) (n : Word), 0 ≤ n.toInt →
    (∀ e, s.chan c = .enc e → e.phase ≠ .fatal →
      exec (.encRead c n) s = .next { s with running := some { chan := c, n := n.toNat, got := [] } }) ∧
    (∀ d, s.chan c = .dec d → d.phase ≠ .fatal →
      let phase := if d.phase = .memberFinished ∧ d.out = [] ∧ 1 ≤ d.inp.length then Phase.idle else d.phase
      exec (.decRead c n) s = .next { s.setChan c (.dec { d with phase := phase }) with
        running := some { chan := c, n := n.toNat, got := [] } })

/-- R425. -/
def Obligations.EncoderSyncFlush : Prop :=
  ∀ (s : State) (c : Byte) (e : Encoder), s.chan c = .enc e →
    (e.phase = .fatal → exec (.encSyncFlush c) s = .next (s.respond e.errno [] [])) ∧
    (e.phase ≠ .fatal →
      (e.finishing = true ∨ e.phase ≠ .inMember ∨
        (e.lz.dataPosition = 0#64 ∧ e.streamPos.toNat - e.lz.dataPosition.toNat = 0)) →
      exec (.encSyncFlush c) s = .next (s.respond .ok [] [])) ∧
    (e.finishing = false → e.phase = .inMember →
      ¬ (e.lz.dataPosition = 0#64 ∧ e.streamPos.toNat - e.lz.dataPosition.toNat = 0) →
      exec (.encSyncFlush c) s = .next ((s.setChan c (.enc { e with syncPending := true })).respond .ok [] []))

/-- R426 with EncEndCheck (R398), and R445 with FinishedCheck (R390). -/
def Obligations.Finishes : Prop :=
  ∀ (s : State) (c : Byte),
    (∀ e, s.chan c = .enc e →
      (e.phase = .fatal → exec (.encFinish c) s = .next (s.respond e.errno [] [])) ∧
      (e.phase ≠ .fatal →
        let phase :=
          if e.phase = .memberFinished ∧ e.streamPos.toNat - e.lz.dataPosition.toNat = 0 ∧ e.out = [] then Phase.finished
          else e.phase
        exec (.encFinish c) s = .next (State.respond
          (s.setChan c (.enc { e with finishing := true, phase := phase })) .ok [] []))) ∧
    (∀ d, s.chan c = .dec d →
      (d.phase = .fatal → exec (.decFinish c) s = .next (s.respond d.errno [] [])) ∧
      (d.phase ≠ .fatal →
        let phase := if d.phase = .memberFinished ∧ d.out = [] ∧ d.inp = [] then Phase.finished else d.phase
        exec (.decFinish c) s = .next (State.respond
          (s.setChan c (.dec { d with finishing := true, phase := phase })) .ok [] [])))

/-! ## Packets -/

/-- LIT (R270): on a decoder the byte is produced, on an encoder the byte at `LZ.data_position` is coded and covered; the state
makes its `set_char` step, the rep distances stay, and nothing else changes. A counter with no room is `library_error` (R45, R282,
R489); that nothing is produced then is the model's reading (log 14). The last two clauses are the context in which an encoder
codes and a decoder reads its next packet (R226, R227, R242): `prev` is the byte before the data position, `0x00` at position 0,
and `mb` the byte at the distance of `rep0`. -/
def Obligations.LitPacket : Prop :=
  ∀ (s : State) (r : Run) (b : Byte), s.running = some r →
    (∀ d, s.chan r.chan = .dec d → d.lz.dataPosition.toNat + 1 < 2 ^ 64 → d.totalOut.toNat + 1 < 2 ^ 64 →
      exec (.lit b) s = .next (s.setChan r.chan (.dec (d.produced { d.lz with state := setChar d.lz.state } [b])))) ∧
    (∀ d, s.chan r.chan = .dec d → d.lz.dataPosition.toNat = 2 ^ 64 - 1 ∨ d.totalOut.toNat = 2 ^ 64 - 1 →
      exec (.lit b) s = .next (s.setChan r.chan (.dec { d with errno := .libraryError, phase := .fatal }))) ∧
    (∀ e, s.chan r.chan = .enc e → 1 ≤ e.lookahead → e.window.read e.lz.dataPosition.toNat = some b →
      (e.lz.state.val ≤ 6 ∨ ∃ mb, winRead e.window e.lz.dataPosition.toNat e.dictionarySize.toNat e.lz.rep0.toNat = some mb) →
      let ds := ⟨false, some (.isMatch e.lz.state.val (e.lz.dataPosition.toNat % 4))⟩ :: literalDecisions e.ctx b
      ∃ cyc, exec (.lit b) s =
        .next (s.setChan r.chan (.enc (e.covered ds { e.lz with state := setChar e.lz.state } [b] cyc)))) ∧
    (∀ (lz : Lzma) (window : Memory) (size : Word) (prev mb : Byte), 1 ≤ size.toNat →
      (lz.dataPosition.toNat = 0 → prev = 0x00#8) →
      (1 ≤ lz.dataPosition.toNat → window.read (lz.dataPosition.toNat - 1) = some prev) →
      (7 ≤ lz.state.val → lz.rep0.toNat < lz.dataPosition.toNat ∧ lz.rep0.toNat < size.toNat ∧
        window.read (lz.dataPosition.toNat - lz.rep0.toNat - 1) = some mb) →
      let ctx : PacketCtx :=
        { state := lz.state.val, posState := lz.dataPosition.toNat % 4, litState := prev.toNat / 2 ^ 5
          matchByte := if 7 ≤ lz.state.val then some mb else none, atStart := decide (lz.dataPosition.toNat = 0) }
      (∀ e : Encoder, e.lz = lz → e.window = window → e.dictionarySize = size → e.ctx = ctx) ∧
      (∀ d : Decoder, d.lz = lz → d.history = window → d.dictionarySize = size →
        d.ctx = ctx ∧ (d.out.length + 273 ≤ s.params.outFifoCap → d.fetch s.params = decPacket rangeBit ctx d)))

/-- MATCH (R271), with the checks of R287 and R288: on a decoder a copy of `len` bytes from stored distance `dist` is produced,
on an encoder a valid pair (R331) is coded and its bytes covered; the rep distances shift, the state makes its `set_match` step,
and nothing else changes. A decoded distance out of range, or the marker's distance with another length, is `data_error`. A
counter with no room for the copy is `library_error` (R45, R282, R489); that nothing is produced then is the model's reading
(log 14). -/
def Obligations.MatchPacket : Prop :=
  ∀ (s : State) (r : Run) (len : Nat) (dist : Word), s.running = some r →
    (∀ d, s.chan r.chan = .dec d →
      (dist = 0xFFFFFFFF#32 ∨ d.lz.dataPosition.toNat ≤ dist.toNat ∨ d.dictionarySize.toNat ≤ dist.toNat →
        exec (.matchDist len dist) s =
          .next (s.setChan r.chan (.dec { d with errno := .dataError, phase := .fatal }))) ∧
      (dist ≠ 0xFFFFFFFF#32 → dist.toNat < d.lz.dataPosition.toNat → dist.toNat < d.dictionarySize.toNat →
        2 ^ 64 ≤ d.lz.dataPosition.toNat + len ∨ 2 ^ 64 ≤ d.totalOut.toNat + len →
        exec (.matchDist len dist) s =
          .next (s.setChan r.chan (.dec { d with errno := .libraryError, phase := .fatal }))) ∧
      (dist ≠ 0xFFFFFFFF#32 → dist.toNat < d.lz.dataPosition.toNat → dist.toNat < d.dictionarySize.toNat → d.windowSound →
        d.lz.dataPosition.toNat + len < 2 ^ 64 → d.totalOut.toNat + len < 2 ^ 64 →
        ∃ bytes, bytes.length = len ∧ isCopy d.history d.lz.dataPosition.toNat dist.toNat bytes ∧
          exec (.matchDist len dist) s = .next (s.setChan r.chan (.dec (d.produced
            { d.lz with state := setMatch d.lz.state, rep0 := dist, rep1 := d.lz.rep0, rep2 := d.lz.rep1, rep3 := d.lz.rep2 }
            bytes))))) ∧
    (∀ e, s.chan r.chan = .enc e → 2 ≤ len → len ≤ e.matchLenLimit.toNat → len ≤ e.lookahead → len ≤ s.params.afterSize →
      dist.toNat < e.lz.dataPosition.toNat → dist.toNat < e.dictionarySize.toNat → e.copiesNext len dist.toNat →
      let ps := e.lz.dataPosition.toNat % 4
      let ds := ⟨true, some (.isMatch e.lz.state.val ps)⟩ :: ⟨false, some (.rep e.lz.state.val)⟩ ::
        (lenDecisions .matchLen ps len ++ distDecisions len dist.toNat)
      ∃ cyc bytes, bytes.length = len ∧ e.nextBytes bytes ∧
        exec (.matchDist len dist) s = .next (s.setChan r.chan (.enc (e.covered ds
          { e.lz with state := setMatch e.lz.state, rep0 := dist, rep1 := e.lz.rep0, rep2 := e.lz.rep1, rep3 := e.lz.rep2 }
          bytes cyc))))

/-- SHORTREP and REP0 to REP3 on a decoder (R272 to R276, R253, R283): at data position 0 each is `data_error`; else the rep
distances move as R253 says, the state makes its step, and the bytes produced are a copy from the distance the packet names. A
counter with no room for them is `library_error` (R45, R282, R489); that nothing is produced then is the model's reading
(log 14). -/
def Obligations.RepPacketsDecoded : Prop :=
  ∀ (s : State) (r : Run) (d : Decoder), s.running = some r → s.chan r.chan = .dec d →
    (d.lz.dataPosition = 0#64 → ∀ i, isRepClass i = true →
      exec i s = .next (s.setChan r.chan (.dec { d with errno := .dataError, phase := .fatal }))) ∧
    (d.phase = .inMember → d.windowSound → 1 ≤ d.lz.dataPosition.toNat →
      let produces := fun (i : Instr) (n : Nat) (dist : Word) (lz : Lzma) =>
        (2 ^ 64 ≤ d.lz.dataPosition.toNat + n ∨ 2 ^ 64 ≤ d.totalOut.toNat + n →
          exec i s = .next (s.setChan r.chan (.dec { d with errno := .libraryError, phase := .fatal }))) ∧
        (d.lz.dataPosition.toNat + n < 2 ^ 64 → d.totalOut.toNat + n < 2 ^ 64 →
        ∃ bytes, bytes.length = n ∧ isCopy d.history d.lz.dataPosition.toNat dist.toNat bytes ∧
          exec i s = .next (s.setChan r.chan (.dec (d.produced lz bytes))))
      produces .shortRep 1 d.lz.rep0 { d.lz with state := setShortRep d.lz.state } ∧
      ∀ len : Nat,
        produces (.rep0 len) len d.lz.rep0 { d.lz with state := setRep d.lz.state } ∧
        produces (.rep1 len) len d.lz.rep1 { d.lz with state := setRep d.lz.state, rep0 := d.lz.rep1, rep1 := d.lz.rep0 } ∧
        produces (.rep2 len) len d.lz.rep2
          { d.lz with state := setRep d.lz.state, rep0 := d.lz.rep2, rep1 := d.lz.rep0, rep2 := d.lz.rep1 } ∧
        produces (.rep3 len) len d.lz.rep3
          { d.lz with state := setRep d.lz.state, rep0 := d.lz.rep3, rep1 := d.lz.rep0, rep2 := d.lz.rep1
                      rep3 := d.lz.rep2 })

/-- SHORTREP and REP0 to REP3 on an encoder (R272 to R276, R253, R345 (a)): where the bytes at the named distance are the next
ones, the packet's decision bits are coded, its bytes covered, the rep distances and the state moved, and nothing else
changes. -/
def Obligations.RepPacketsEncoded : Prop :=
  ∀ (s : State) (r : Run) (e : Encoder), s.running = some r → s.chan r.chan = .enc e →
    let st := e.lz.state.val
    let ps := e.lz.dataPosition.toNat % 4
    let covers := fun (i : Instr) (n : Nat) (dist : Word) (ds : List Decision) (lz : Lzma) =>
      n ≤ e.lookahead → dist.toNat < e.lz.dataPosition.toNat → dist.toNat < e.dictionarySize.toNat →
      e.copiesNext n dist.toNat →
      ∃ cyc bytes, bytes.length = n ∧ e.nextBytes bytes ∧
        exec i s = .next (s.setChan r.chan (.enc (e.covered
          (⟨true, some (.isMatch st ps)⟩ :: ⟨true, some (.rep st)⟩ :: ds) lz bytes cyc)))
    covers .shortRep 1 e.lz.rep0 [⟨false, some (.rep0 st)⟩, ⟨false, some (.len st ps)⟩]
      { e.lz with state := setShortRep e.lz.state } ∧
    ∀ len : Nat, 2 ≤ len → len ≤ e.matchLenLimit.toNat → len ≤ s.params.afterSize →
      covers (.rep0 len) len e.lz.rep0
        (⟨false, some (.rep0 st)⟩ :: ⟨true, some (.len st ps)⟩ :: lenDecisions .repLen ps len)
        { e.lz with state := setRep e.lz.state } ∧
      covers (.rep1 len) len e.lz.rep1
        (⟨true, some (.rep0 st)⟩ :: ⟨false, some (.rep1 st)⟩ :: lenDecisions .repLen ps len)
        { e.lz with state := setRep e.lz.state, rep0 := e.lz.rep1, rep1 := e.lz.rep0 } ∧
      covers (.rep2 len) len e.lz.rep2
        (⟨true, some (.rep0 st)⟩ :: ⟨true, some (.rep1 st)⟩ :: ⟨false, some (.rep2 st)⟩ :: lenDecisions .repLen ps len)
        { e.lz with state := setRep e.lz.state, rep0 := e.lz.rep2, rep1 := e.lz.rep0, rep2 := e.lz.rep1 } ∧
      covers (.rep3 len) len e.lz.rep3
        (⟨true, some (.rep0 st)⟩ :: ⟨true, some (.rep1 st)⟩ :: ⟨true, some (.rep2 st)⟩ :: lenDecisions .repLen ps len)
        { e.lz with state := setRep e.lz.state, rep0 := e.lz.rep3, rep1 := e.lz.rep0, rep2 := e.lz.rep1, rep3 := e.lz.rep2 }

/-- EOS on a decoder (R277, R288): with `RD.code = 0` the payload ends, else `data_error`. -/
def Obligations.EosDecoded : Prop :=
  ∀ (s : State) (r : Run) (d : Decoder), s.running = some r → s.chan r.chan = .dec d →
    (d.rd.code = 0#32 → exec .eos s = .next (s.setChan r.chan (.dec { d with part := .trailer }))) ∧
    (d.rd.code ≠ 0#32 → exec .eos s = .next (s.setChan r.chan (.dec { d with errno := .dataError, phase := .fatal })))

/-- EOS on an encoder: the member close (R277, R342, R394, R395, R396; R140 for the bits). The marker is coded, five shifts
flush the coder, the trailer follows; then the size limit, the sync flush or the finish leaves its status. The match-finder takes
the positions passed over (R335; that it does so now is the model's choice: log 19). With a finish and a sync flush both pending
the model takes it as a sync flush's close (log 18). -/
def Obligations.MemberClose : Prop :=
  ∀ (s : State) (r : Run) (e : Encoder), s.running = some r → s.chan r.chan = .enc e → e.phase = .inMember →
    let ending := e.finishing = true ∨ e.syncPending = true
    let view := 1 ≤ e.lookahead ∧ (s.params.afterSize ≤ e.lookahead ∨ ending)
    let limit := e.memberSizeLimit.toNat ≤ 6 + e.re.shifts.toNat + 20 + s.params.memberMargin
    let ps := e.lz.dataPosition.toNat % 4
    let e1 := (e.encDecisions (⟨true, some (.isMatch e.lz.state.val ps)⟩ :: ⟨false, some (.rep e.lz.state.val)⟩ ::
      (lenDecisions .matchLen ps 2 ++ distDecisions 2 0xFFFFFFFF))).flush
    let closed := { e1 with
      phase := .memberFinished
      mf := (e.mfCatchUp s.params).mf
      out := e1.out ++ leBytes 4 (e.crc ^^^ 0xFFFFFFFF#32).toNat ++ leBytes 8 e.lz.dataPosition.toNat ++
        leBytes 8 (6 + e1.re.shifts.toNat + 20) }
    (view → limit → exec .eos s = .next (s.setChan r.chan (.enc { closed with limitReached := true }))) ∧
    (e.lookahead = 0 → e.syncPending = true →
      exec .eos s = .next (s.setChan r.chan (.enc { closed with syncPending := false, resumeOnWrite := true }))) ∧
    (e.lookahead = 0 → e.syncPending = false → e.finishing = true →
      exec .eos s = .next (s.setChan r.chan (.enc closed)))

/-! ## Match-finder and parser -/

/-- R331, R332, R333: whatever the hash functions and the tables, every pair the match-finder reports for a position is valid,
and the lengths strictly rise. -/
def Obligations.MatchFinderPairsAreValid : Prop :=
  ∀ (p : Params) (e : Encoder) (pos fin : Nat),
    (∀ len d, (len, d) ∈ (e.mfInsert p pos fin).2 →
      2 ≤ len ∧ len ≤ min e.matchLenLimit.toNat (fin - pos) ∧ d < pos ∧ d < e.dictionarySize.toNat ∧
      e.lz.dataPosition.toNat - e.dictionarySize.toNat ≤ pos - d - 1 ∧
      ∀ k, k < len → ∃ b, e.window.read (pos + k) = some b ∧ e.window.read (pos - d - 1 + k) = some b) ∧
    ((e.mfInsert p pos fin).2.map Prod.fst).Pairwise (· < ·) ∧
    (e.variant = .fast → (e.mfInsert p pos fin).2.length ≤ 1)

/-- EVERY POSITION IS INSERTED (R335, R332): after the match-finder's part of a packet step every position passed over since the
last one, and the packet's own, has its bucket filled by itself or by a later one of them, but on a fast channel those with fewer
than four bytes in view; none of them is left for a later step. When the step inserts what was passed over is the model's choice
(log 19). -/
def Obligations.EveryPositionInserted : Prop :=
  ∀ (p : Params) (e : Encoder), e.mf.next ≤ e.lz.dataPosition.toNat →
    let dp := e.lz.dataPosition.toNat
    let fin := dp + e.view p
    let key := fun q => Config.hash4 p.hashChoice (e.window.readList q (min 4 (fin - q))) % p.hashSize
    (e.fetch p).2.mf.next = dp + 1 ∧
    ∀ q, e.mf.next ≤ q → q ≤ dp → (e.variant = .fast → q + 4 ≤ fin) →
      ∃ q', (e.fetch p).2.mf.hash4.get (key q) = some q' ∧ q ≤ q' ∧ q' ≤ dp ∧ key q' = key q

/-- R345 (a), (b): whatever the parser and the planned path are, on a sound window with look-ahead the packet an encoder step
codes is LIT of the next byte, or a copy of the next bytes from a distance in the dictionary, within the length limit and the
view; it is never EOS. A rep packet copies from its own rep distance. -/
def Obligations.ChosenPacketIsLegal : Prop :=
  ∀ (p : Params) (e : Encoder), e.windowSound → 1 ≤ e.view p →
    let copies := fun (len : Nat) (dist : Word) =>
      len ≤ e.view p ∧ dist.toNat < e.lz.dataPosition.toNat ∧ dist.toNat < e.dictionarySize.toNat ∧ e.copiesNext len dist.toNat
    let limited := fun len => 2 ≤ len ∧ len ≤ e.matchLenLimit.toNat
    match (e.fetch p).1 with
    | .lit b => e.window.read e.lz.dataPosition.toNat = some b
    | .matchDist len dist => limited len ∧ copies len dist
    | .shortRep => copies 1 e.lz.rep0
    | .rep0 len => limited len ∧ copies len e.lz.rep0
    | .rep1 len => limited len ∧ copies len e.lz.rep1
    | .rep2 len => limited len ∧ copies len e.lz.rep2
    | .rep3 len => limited len ∧ copies len e.lz.rep3
    | _ => False

/-! ## The whole machine -/

/-- THE FRAME OF THE BLOCK (R30, R111, R114): an instruction changes at most the channel it acts on; no instruction changes the
parameters, the number of channels, or what the host has issued; a packet answers nothing, and only a read command starts a
read. -/
def Obligations.OtherChannelsUnchanged : Prop :=
  ∀ (i : Instr) (s t : State), exec i s = .next t →
    (∀ c, actsOn s i ≠ some c → t.chan c = s.chan c) ∧
    t.params = s.params ∧ t.channels.length = s.channels.length ∧ t.portWords = s.portWords ∧ t.portData = s.portData ∧
    (isPacket i = true → t.responses = s.responses) ∧
    ((∀ c n, i ≠ .encRead c n ∧ i ≠ .decRead c n) → t.running = s.running)

/-- Power-on (R520): every channel is closed and no command is pending; the parameters meet the constraints of R15 and the
model's own two bounds (logs 4 and 20), and the state meets the four invariants. -/
def Obligations.ResetIsSound : Prop :=
  (∀ ch ∈ State.reset.channels, ch = .closed) ∧ State.reset.running = none ∧ State.reset.portWords = [] ∧
    State.reset.paramsWf ∧ State.reset.codingSound ∧ State.reset.windowSound ∧ State.reset.searchSound ∧ State.reset.fifosSound

/-- INVARIANT (R15, R531, D17 to D26): no step changes a parameter or the number of channels, so the constraints on them, among
them `NUM_CHANNELS >= 1`, and the model's own two bounds (`HASH_SIZE >= 1`, log 4; `IN_FIFO_CAP < 2^32`, log 20) hold for as
long as the block runs. -/
def Obligations.StepKeepsParameters : Prop :=
  ∀ s t : State, step s = .next t → t.params = s.params ∧ t.channels.length = s.channels.length ∧ (s.paramsWf → t.paramsWf)

/-- INVARIANT (R48, R335, R345): every step from a sound window keeps each trial buffer within 8192 records and empty on a fast
channel, the match-finder's tables in canonical form, and no position inserted before its packet. -/
def Obligations.StepKeepsSearchSound : Prop :=
  ∀ s t : State, s.windowSound → s.searchSound → step s = .next t → t.searchSound

/-- INVARIANT (R38, R171, R198): every step keeps every model entry in [31, 2017], the model arrays in canonical form, the
encoder's interval in its bounds, and the decoder's code inside its range. -/
def Obligations.StepKeepsCodingSound : Prop :=
  ∀ s t : State, s.codingSound → step s = .next t → t.codingSound

/-- INVARIANT (R103, R104, R242, R255): every step keeps the windows exactly the bytes of their members, in canonical form, and
the rep distances inside them. -/
def Obligations.StepKeepsWindowSound : Prop :=
  ∀ s t : State, s.windowSound → step s = .next t → t.windowSound

/-- INVARIANT (R51, R280, R443): no step overfills a decoder's FIFO. -/
def Obligations.StepKeepsFifosSound : Prop :=
  ∀ s t : State, s.fifosSound → step s = .next t → t.fifosSound

/-- THE BLOCK NEVER STOPS (R291, R345, R482, R489): from every state whose windows are sound a step answers a next state,
whatever the parser, the match-finder and the input are. -/
def Obligations.StepGoesOn : Prop :=
  ∀ s : State, s.windowSound → ∃ t, step s = .next t

/-- EVERY DECODER READ ENDS (R444): from any state, a read in progress on a decoder answers within `n + 6` steps. -/
def Obligations.DecoderReadEnds : Prop :=
  ∀ (s : State) (r : Run) (d : Decoder), s.running = some r → s.chan r.chan = .dec d →
    ∃ k t, k ≤ r.n + 6 ∧ Sys2Proof.core.run k s = .next t ∧ t.running = none ∧
      t.responses.length = s.responses.length + 1

/-- EVERY ENCODER READ ENDS (R424): a read in progress on an encoder answers within `lookahead + 3` steps. -/
def Obligations.EncoderReadEnds : Prop :=
  ∀ (s : State) (r : Run) (e : Encoder), s.windowSound → s.running = some r → s.chan r.chan = .enc e →
    ∃ k t, k ≤ e.lookahead + 3 ∧ Sys2Proof.core.run k s = .next t ∧ t.running = none ∧
      t.responses.length = s.responses.length + 1
end

