-- ==== Sys2Proof/Laws/State.lean ====
section
/-! SUPPORT. One lemma per field per update of the block's state, and the channel accessors. -/

namespace Sys2Proof.Machine

variable (s : State)

@[simp] theorem State.setChan_params (c : Byte) (ch : Channel) : (s.setChan c ch).params = s.params := rfl
@[simp] theorem State.setChan_channels (c : Byte) (ch : Channel) :
    (s.setChan c ch).channels = s.channels.set c.toNat ch := rfl
@[simp] theorem State.setChan_portWords (c : Byte) (ch : Channel) : (s.setChan c ch).portWords = s.portWords := rfl
@[simp] theorem State.setChan_portData (c : Byte) (ch : Channel) : (s.setChan c ch).portData = s.portData := rfl
@[simp] theorem State.setChan_responses (c : Byte) (ch : Channel) : (s.setChan c ch).responses = s.responses := rfl
@[simp] theorem State.setChan_running (c : Byte) (ch : Channel) : (s.setChan c ch).running = s.running := rfl

@[simp] theorem State.respond_params (e : ErrorCode) (w : List Word) (d : List Byte) :
    (s.respond e w d).params = s.params := rfl
@[simp] theorem State.respond_channels (e : ErrorCode) (w : List Word) (d : List Byte) :
    (s.respond e w d).channels = s.channels := rfl
@[simp] theorem State.respond_portWords (e : ErrorCode) (w : List Word) (d : List Byte) :
    (s.respond e w d).portWords = s.portWords := rfl
@[simp] theorem State.respond_portData (e : ErrorCode) (w : List Word) (d : List Byte) :
    (s.respond e w d).portData = s.portData := rfl
@[simp] theorem State.respond_responses (e : ErrorCode) (w : List Word) (d : List Byte) :
    (s.respond e w d).responses = s.responses ++ [{ status := errorWord e, words := w, data := d }] := rfl
@[simp] theorem State.respond_running (e : ErrorCode) (w : List Word) (d : List Byte) :
    (s.respond e w d).running = s.running := rfl

@[simp] theorem State.reject_params : s.reject.params = s.params := rfl
@[simp] theorem State.reject_channels : s.reject.channels = s.channels := rfl
@[simp] theorem State.reject_running : s.reject.running = s.running := rfl

@[simp] theorem State.withCode_params (c : Code) : (s.withCode c).params = s.params := by cases c <;> rfl
@[simp] theorem State.withCode_channels (c : Code) : (s.withCode c).channels = s.channels := by cases c <;> rfl
@[simp] theorem State.withCode_responses (c : Code) : (s.withCode c).responses = s.responses := by cases c <;> rfl
@[simp] theorem State.withCode_running (c : Code) : (s.withCode c).running = s.running := by cases c <;> rfl

@[simp] theorem State.withRun_params (r : Run) (ch : Channel) : (s.withRun r ch).params = s.params := rfl
@[simp] theorem State.withRun_channels (r : Run) (ch : Channel) :
    (s.withRun r ch).channels = s.channels.set r.chan.toNat ch := rfl
@[simp] theorem State.withRun_running (r : Run) (ch : Channel) : (s.withRun r ch).running = some r := rfl

@[simp] theorem State.endRead_params (r : Run) (e : ErrorCode) : (s.endRead r e).params = s.params := rfl
@[simp] theorem State.endRead_channels (r : Run) (e : ErrorCode) : (s.endRead r e).channels = s.channels := rfl
@[simp] theorem State.endRead_running (r : Run) (e : ErrorCode) : (s.endRead r e).running = none := rfl

@[simp] theorem State.encRespond_params (c : Byte) (e : Encoder) (err : ErrorCode) (w : List Word) :
    (s.encRespond c e err w).params = s.params := rfl
@[simp] theorem State.encRespond_channels (c : Byte) (e : Encoder) (err : ErrorCode) (w : List Word) :
    (s.encRespond c e err w).channels = s.channels.set c.toNat (.enc e) := rfl
@[simp] theorem State.encRespond_running (c : Byte) (e : Encoder) (err : ErrorCode) (w : List Word) :
    (s.encRespond c e err w).running = s.running := rfl
@[simp] theorem State.decRespond_params (c : Byte) (d : Decoder) (err : ErrorCode) (w : List Word) :
    (s.decRespond c d err w).params = s.params := rfl
@[simp] theorem State.decRespond_channels (c : Byte) (d : Decoder) (err : ErrorCode) (w : List Word) :
    (s.decRespond c d err w).channels = s.channels.set c.toNat (.dec d) := rfl
@[simp] theorem State.decRespond_running (c : Byte) (d : Decoder) (err : ErrorCode) (w : List Word) :
    (s.decRespond c d err w).running = s.running := rfl

/-- A channel that is not closed is one of the list. -/
theorem State.chan_mem {c : Byte} {ch : Channel} (h : s.chan c = ch) (hc : ch ≠ .closed) : ch ∈ s.channels := by
  unfold State.chan at h
  rw [List.getD_eq_getElem?_getD] at h
  rcases hg : s.channels[c.toNat]? with _ | x
  · rw [hg] at h; exact absurd h.symm hc
  · rw [hg] at h; subst h; exact List.mem_of_getElem? hg

/-- A channel that is not closed has a valid id. -/
theorem State.chan_lt {c : Byte} (hc : s.chan c ≠ .closed) : c.toNat < s.channels.length := by
  by_contra h
  apply hc
  unfold State.chan
  rw [List.getD_eq_getElem?_getD, List.getElem?_eq_none (by omega)]
  rfl

/-- Reading the channel just written. -/
theorem State.chan_setChan_self {c : Byte} (ch : Channel) (h : c.toNat < s.channels.length) :
    (s.setChan c ch).chan c = ch := by
  unfold State.chan
  rw [List.getD_eq_getElem?_getD, State.setChan_channels, List.getElem?_set_self h]
  rfl

/-- Writing a channel leaves every other channel alone. -/
theorem State.chan_setChan_of_ne {c c' : Byte} (ch : Channel) (h : c' ≠ c) : (s.setChan c ch).chan c' = s.chan c' := by
  unfold State.chan
  rw [List.getD_eq_getElem?_getD, List.getD_eq_getElem?_getD, State.setChan_channels,
    List.getElem?_set_ne (fun h' => h (BitVec.eq_of_toNat_eq h'.symm))]

/-- What holds of every channel after one was replaced. -/
theorem forall_mem_set {P : Channel → Prop} {l : List Channel} {n : Nat} {ch : Channel} (h : ∀ x ∈ l, P x) (hc : P ch) :
    ∀ x ∈ l.set n ch, P x := by
  intro x hx
  rcases List.mem_or_eq_of_mem_set hx with h' | h'
  · exact h x h'
  · exact h' ▸ hc

end Sys2Proof.Machine
end

