-- ==== Sys2Proof/Laws/Commands.lean ====
section
/-! SUPPORT. Everything a command can do, said once: it answers a next state, changes at most the channel it acts on, in one of
the ways of `CommandEffect`, and adds one response or starts a read. -/

namespace Sys2Proof.Machine

/-- What a command can make of the channel it acts on. -/
inductive CommandEffect (p : Params) : Channel → Channel → Prop where
  | openEncoder (size : Word) (ml : BitVec 16) (lim : U64) (v : Variant) (h1 : 2 ^ 12 ≤ size.toNat) (h2 : size.toNat ≤ 2 ^ 29) :
      CommandEffect p .closed (.enc (Encoder.opened (dictEncode size.toNat) ml lim v))
  | openDecoder : CommandEffect p .closed (.dec .init)
  | close (ch : Channel) : CommandEffect p ch .closed
  /-- only status registers of an encoder change -/
  | encoderStatus (e : Encoder) (phase : Phase) (errno : ErrorCode) (finishing syncPending : Bool)
      (h : phase = e.phase ∨ phase ≠ .inMember) :
      CommandEffect p (.enc e) (.enc { e with phase := phase, errno := errno, finishing := finishing, syncPending := syncPending })
  | stage (e : Encoder) (bytes : List Byte) (h1 : e.phase ≠ .fatal) (h2 : e.finishing = false) :
      CommandEffect p (.enc e) (.enc (e.stage p bytes).1)
  | restart (e : Encoder) (h : e.limitReached = true) : CommandEffect p (.enc e) (.enc e.memberRestart)
  /-- only status registers of a decoder change -/
  | decoderStatus (d : Decoder) (phase : Phase) (errno : ErrorCode) (finishing : Bool)
      (h : phase = d.phase ∨ phase ≠ .inMember) :
      CommandEffect p (.dec d) (.dec { d with phase := phase, errno := errno, finishing := finishing })
  | push (d : Decoder) (bytes : List Byte) (h : (d.inp ++ bytes).length ≤ p.inFifoCap ∨ bytes = []) :
      CommandEffect p (.dec d) (.dec { d with inp := d.inp ++ bytes })
  | reset (d : Decoder) : CommandEffect p (.dec d) (.dec .init)
  | resync (d : Decoder) (bytes : List Byte) (n : Nat) (h : bytes.length ≤ d.inp.length) :
      CommandEffect p (.dec d) (.dec (d.leaveFatalAt bytes n))

/-- The command is a read. -/
def isRead : Instr → Bool
  | .encRead _ _ | .decRead _ _ => true
  | _ => false

/-- What a command leaves: the state with at most its channel replaced, and one response more or, if it is a read, a read
begun. -/
def State.afterCommand (s : State) (c : Option Byte) (reads : Bool) (t : State) : Prop :=
  t.params = s.params ∧ t.portWords = s.portWords ∧ t.portData = s.portData ∧
    (t.channels = s.channels ∨
      ∃ c' ch, c = some c' ∧ c'.toNat < s.channels.length ∧ CommandEffect s.params (s.chan c') ch ∧
        t.channels = s.channels.set c'.toNat ch) ∧
    ((t.running = s.running ∧ t.responses.length = s.responses.length + 1) ∨
      (reads = true ∧ (∃ c' n, c = some c' ∧ s.chan c' ≠ .closed ∧ t.running = some { chan := c', n := n, got := [] }) ∧
        t.responses = s.responses))

theorem State.afterCommand_respond (s : State) (c : Option Byte) (b : Bool) (err : ErrorCode) (w : List Word)
    (bs : List Byte) : s.afterCommand c b (s.respond err w bs) :=
  ⟨rfl, rfl, rfl, .inl rfl, .inl ⟨rfl, by simp⟩⟩

theorem State.afterCommand_set {s : State} {c : Byte} {ch : Channel} (hc : c.toNat < s.channels.length)
    (h : CommandEffect s.params (s.chan c) ch) {b : Bool} (err : ErrorCode) (w : List Word) (bs : List Byte) :
    s.afterCommand (some c) b ((s.setChan c ch).respond err w bs) :=
  ⟨rfl, rfl, rfl, .inr ⟨c, ch, rfl, hc, h, rfl⟩, .inl ⟨rfl, by simp⟩⟩

section

variable {s : State} {c : Byte}

/-- A command on an encoder channel. -/
theorem withEncoder_cases {f : Encoder → Host.Outcome State Fault Refusal} {P : State → Prop}
    (hr : P (s.respond .badArgument [] [])) (h : ∀ e, s.chan c = .enc e → ∃ t, f e = .next t ∧ P t) :
    ∃ t, withEncoder s c f = .next t ∧ P t := by
  unfold withEncoder
  split
  · exact h _ ‹_›
  · exact ⟨_, rfl, hr⟩
  · exact ⟨_, rfl, hr⟩

/-- A command on a decoder channel. -/
theorem withDecoder_cases {f : Decoder → Host.Outcome State Fault Refusal} {P : State → Prop}
    (hr : P (s.respond .badArgument [] [])) (h : ∀ d, s.chan c = .dec d → ∃ t, f d = .next t ∧ P t) :
    ∃ t, withDecoder s c f = .next t ∧ P t := by
  unfold withDecoder
  split
  · exact h _ ‹_›
  · exact ⟨_, rfl, hr⟩
  · exact ⟨_, rfl, hr⟩

theorem resyncSearch_length (bytes : List Byte) : (resyncSearch bytes).1.length ≤ bytes.length := by
  induction bytes with
  | nil => exact Nat.le_refl 0
  | cons b rest ih =>
    unfold resyncSearch
    split
    · exact Nat.le_refl _
    · exact Nat.le_succ_of_le ih


theorem State.chan_lt_enc {e : Encoder} (h : s.chan c = .enc e) : c.toNat < s.channels.length :=
  State.chan_lt s (by rw [h]; simp)

theorem State.chan_lt_dec {d : Decoder} (h : s.chan c = .dec d) : c.toNat < s.channels.length :=
  State.chan_lt s (by rw [h]; simp)

/-- An encoder channel is put back with only its status registers changed. -/
theorem State.afterCommand_encStatus {e : Encoder} (hc : s.chan c = .enc e) {e' : Encoder} (phase : Phase) (errno : ErrorCode)
    (finishing syncPending : Bool) (h : phase = e.phase ∨ phase ≠ .inMember)
    (he : e' = { e with phase := phase, errno := errno, finishing := finishing, syncPending := syncPending })
    {b : Bool} (err : ErrorCode) (w : List Word) : s.afterCommand (some c) b (s.encRespond c e' err w) :=
  State.afterCommand_set (State.chan_lt_enc hc)
    (by rw [hc, he]; exact .encoderStatus e phase errno finishing syncPending h) err w []

/-- A decoder channel is put back with only its status registers changed. -/
theorem State.afterCommand_decStatus {d : Decoder} (hc : s.chan c = .dec d) {d' : Decoder} (phase : Phase) (errno : ErrorCode)
    (finishing : Bool) (h : phase = d.phase ∨ phase ≠ .inMember)
    (hd : d' = { d with phase := phase, errno := errno, finishing := finishing })
    {b : Bool} (err : ErrorCode) (w : List Word) : s.afterCommand (some c) b (s.decRespond c d' err w) :=
  State.afterCommand_set (State.chan_lt_dec hc)
    (by rw [hc, hd]; exact .decoderStatus d phase errno finishing h) err w []

theorem execEncOpen_spec (c : Byte) (ds ml : Word) (lim : U64) (s : State) :
    ∃ t, execEncOpen c ds ml lim s = .next t ∧ s.afterCommand (some c) false t := by
  unfold execEncOpen
  split
  · exact ⟨_, rfl, State.afterCommand_respond _ _ _ _ _ _⟩
  · rename_i hv
    have hlt : c.toNat < s.channels.length := by simpa [State.chanValid] using hv
    split
    · exact ⟨_, rfl, State.afterCommand_respond _ _ _ _ _ _⟩
    · exact ⟨_, rfl, State.afterCommand_respond _ _ _ _ _ _⟩
    · rename_i hc
      split
      · exact ⟨_, rfl, State.afterCommand_respond _ _ _ _ _ _⟩
      · rename_i hok
        simp only
        split
        · exact ⟨_, rfl, State.afterCommand_respond _ _ _ _ _ _⟩
        · refine ⟨_, rfl, State.afterCommand_set hlt ?_ _ _ _⟩
          have hok' : openOperandsOk ds ml lim = true := by simpa using hok
          unfold openOperandsOk at hok'
          simp only [Bool.and_eq_true, decide_eq_true_eq] at hok'
          rw [hc]
          exact .openEncoder ds _ _ _ hok'.1.1.1.1.1 hok'.1.1.1.1.2

theorem execEncWrite_spec (c : Byte) (n : Word) (bytes : List Byte) (s : State) :
    ∃ t, execEncWrite c n bytes s = .next t ∧ s.afterCommand (some c) false t := by
  refine withEncoder_cases (State.afterCommand_respond _ _ _ _ _ _) fun e hc => ?_
  split
  · refine ⟨_, rfl, State.afterCommand_encStatus hc e.phase (if e.phase = .fatal then e.errno else .badArgument) e.finishing
      e.syncPending (.inl rfl) ?_ _ _⟩
    unfold Encoder.rejectArgument; split <;> rfl
  · split
    · exact ⟨_, rfl, State.afterCommand_respond _ _ _ _ _ _⟩
    · rename_i hp
      split
      · exact ⟨_, rfl, State.afterCommand_encStatus hc .fatal .sequenceError e.finishing e.syncPending (.inr (by simp)) rfl _ _⟩
      · rename_i hf
        exact ⟨_, rfl, State.afterCommand_set (State.chan_lt_enc hc)
          (by rw [hc]; exact .stage e bytes hp (by simpa using hf)) _ _ _⟩

theorem execEncRead_spec (c : Byte) (n : Word) (s : State) :
    ∃ t, execEncRead c n s = .next t ∧ s.afterCommand (some c) true t := by
  refine withEncoder_cases (State.afterCommand_respond _ _ _ _ _ _) fun e hc => ?_
  split
  · refine ⟨_, rfl, State.afterCommand_encStatus hc e.phase (if e.phase = .fatal then e.errno else .badArgument) e.finishing
      e.syncPending (.inl rfl) ?_ _ _⟩
    unfold Encoder.rejectArgument; split <;> rfl
  · split
    · exact ⟨_, rfl, State.afterCommand_respond _ _ _ _ _ _⟩
    · exact ⟨_, rfl, rfl, rfl, rfl, .inl rfl, .inr ⟨rfl, ⟨c, n.toNat, rfl, by rw [hc]; simp, rfl⟩, rfl⟩⟩

theorem execEncSyncFlush_spec (c : Byte) (s : State) : ∃ t, execEncSyncFlush c s = .next t ∧ s.afterCommand (some c) false t := by
  refine withEncoder_cases (State.afterCommand_respond _ _ _ _ _ _) fun e hc => ?_
  split
  · exact ⟨_, rfl, State.afterCommand_respond _ _ _ _ _ _⟩
  · split
    · exact ⟨_, rfl, State.afterCommand_respond _ _ _ _ _ _⟩
    · split
      · exact ⟨_, rfl, State.afterCommand_respond _ _ _ _ _ _⟩
      · exact ⟨_, rfl, State.afterCommand_encStatus hc e.phase e.errno e.finishing true (.inl rfl) rfl _ _⟩

theorem execEncFinish_spec (c : Byte) (s : State) : ∃ t, execEncFinish c s = .next t ∧ s.afterCommand (some c) false t := by
  refine withEncoder_cases (State.afterCommand_respond _ _ _ _ _ _) fun e hc => ?_
  split
  · exact ⟨_, rfl, State.afterCommand_respond _ _ _ _ _ _⟩
  · unfold Encoder.endCheck
    split
    · exact ⟨_, rfl, State.afterCommand_encStatus hc .finished e.errno true e.syncPending (.inr (by simp)) rfl _ _⟩
    · exact ⟨_, rfl, State.afterCommand_encStatus hc e.phase e.errno true e.syncPending (.inl rfl) rfl _ _⟩

theorem execEncRestartMember_spec (c : Byte) (s : State) :
    ∃ t, execEncRestartMember c s = .next t ∧ s.afterCommand (some c) false t := by
  refine withEncoder_cases (State.afterCommand_respond _ _ _ _ _ _) fun e hc => ?_
  split
  · exact ⟨_, rfl, State.afterCommand_respond _ _ _ _ _ _⟩
  · split
    · rename_i h
      exact ⟨_, rfl, State.afterCommand_set (State.chan_lt_enc hc) (by rw [hc]; exact .restart e h.1) _ _ _⟩
    · exact ⟨_, rfl, State.afterCommand_encStatus hc .fatal .sequenceError e.finishing e.syncPending (.inr (by simp)) rfl _ _⟩

theorem introspect_spec (s : State) (c : Byte) (words : Decoder → List Word) :
    ∃ t, introspect s c words = .next t ∧ s.afterCommand (some c) false t :=
  withDecoder_cases (State.afterCommand_respond _ _ _ _ _ _) fun _ _ => ⟨_, rfl, State.afterCommand_respond _ _ _ _ _ _⟩

theorem encoderQuery_spec (s : State) (c : Byte) (words : Encoder → List Word) :
    ∃ t, (withEncoder s c fun e => .next (s.respond .ok (words e) [])) = .next t ∧ s.afterCommand (some c) false t :=
  withEncoder_cases (State.afterCommand_respond _ _ _ _ _ _) fun _ _ => ⟨_, rfl, State.afterCommand_respond _ _ _ _ _ _⟩

theorem execDecOpen_spec (c : Byte) (s : State) : ∃ t, execDecOpen c s = .next t ∧ s.afterCommand (some c) false t := by
  unfold execDecOpen
  split
  · exact ⟨_, rfl, State.afterCommand_respond _ _ _ _ _ _⟩
  · rename_i hv
    have hlt : c.toNat < s.channels.length := by simpa [State.chanValid] using hv
    split
    · exact ⟨_, rfl, State.afterCommand_respond _ _ _ _ _ _⟩
    · exact ⟨_, rfl, State.afterCommand_respond _ _ _ _ _ _⟩
    · rename_i hc
      exact ⟨_, rfl, State.afterCommand_set hlt (by rw [hc]; exact .openDecoder) _ _ _⟩

theorem execDecWrite_spec (c : Byte) (n : Word) (bytes : List Byte) (s : State) :
    ∃ t, execDecWrite c n bytes s = .next t ∧ s.afterCommand (some c) false t := by
  refine withDecoder_cases (State.afterCommand_respond _ _ _ _ _ _) fun d hc => ?_
  split
  · refine ⟨_, rfl, State.afterCommand_decStatus hc d.phase (if d.phase = .fatal then d.errno else .badArgument) d.finishing
      (.inl rfl) ?_ _ _⟩
    unfold Decoder.rejectArgument; split <;> rfl
  · split
    · exact ⟨_, rfl, State.afterCommand_respond _ _ _ _ _ _⟩
    · split
      · exact ⟨_, rfl, State.afterCommand_decStatus hc .fatal .sequenceError d.finishing (.inr (by simp)) rfl _ _⟩
      · refine ⟨_, rfl, State.afterCommand_set (State.chan_lt_dec hc) ?_ _ _ _⟩
        rw [hc]
        refine .push d _ ?_
        by_cases h : d.inp.length ≤ s.params.inFifoCap
        · left; rw [List.length_append, List.length_take]; omega
        · right; rw [Nat.sub_eq_zero_of_le (by omega), Nat.min_zero]; rfl

theorem execDecRead_spec (c : Byte) (n : Word) (s : State) :
    ∃ t, execDecRead c n s = .next t ∧ s.afterCommand (some c) true t := by
  refine withDecoder_cases (State.afterCommand_respond _ _ _ _ _ _) fun d hc => ?_
  split
  · refine ⟨_, rfl, State.afterCommand_decStatus hc d.phase (if d.phase = .fatal then d.errno else .badArgument) d.finishing
      (.inl rfl) ?_ _ _⟩
    unfold Decoder.rejectArgument; split <;> rfl
  · split
    · exact ⟨_, rfl, State.afterCommand_respond _ _ _ _ _ _⟩
    · refine ⟨_, rfl, rfl, rfl, rfl, .inr ⟨c, _, rfl, State.chan_lt_dec hc, ?_, rfl⟩,
        .inr ⟨rfl, ⟨c, n.toNat, rfl, by rw [hc]; simp, rfl⟩, rfl⟩⟩
      rw [hc]
      unfold Decoder.nextMemberCheck
      split
      · exact .decoderStatus d .idle d.errno d.finishing (.inr (by simp))
      · exact .decoderStatus d d.phase d.errno d.finishing (.inl rfl)

theorem execDecFinish_spec (c : Byte) (s : State) : ∃ t, execDecFinish c s = .next t ∧ s.afterCommand (some c) false t := by
  refine withDecoder_cases (State.afterCommand_respond _ _ _ _ _ _) fun d hc => ?_
  split
  · exact ⟨_, rfl, State.afterCommand_respond _ _ _ _ _ _⟩
  · unfold Decoder.finishedCheck
    split
    · exact ⟨_, rfl, State.afterCommand_decStatus hc .finished d.errno true (.inr (by simp)) rfl _ _⟩
    · exact ⟨_, rfl, State.afterCommand_decStatus hc d.phase d.errno true (.inl rfl) rfl _ _⟩

theorem execDecSyncToMember_spec (c : Byte) (s : State) :
    ∃ t, execDecSyncToMember c s = .next t ∧ s.afterCommand (some c) false t := by
  refine withDecoder_cases (State.afterCommand_respond _ _ _ _ _ _) fun d hc => ?_
  split
  · exact ⟨_, rfl, State.afterCommand_respond _ _ _ _ _ _⟩
  · unfold Decoder.resync
    simp only
    split
    · rename_i d' h
      split at h
      · cases h
        exact ⟨_, rfl, State.afterCommand_set (State.chan_lt_dec hc)
          (by rw [hc]; exact .resync d _ _ (resyncSearch_length _)) _ _ _⟩
      · cases h
    · rename_i h
      split at h <;> cases h
    · rename_i err d' h
      split at h
      · cases h
      · cases h
        exact ⟨_, rfl, State.afterCommand_decStatus hc .fatal .libraryError d.finishing (.inr (by simp)) rfl _ _⟩

end

/-- EVERYTHING A COMMAND CAN DO. -/
theorem exec_command (i : Instr) (s : State) (h : isPacket i = false) :
    ∃ t, exec i s = .next t ∧ s.afterCommand (actsOn s i) (isRead i) t := by
  cases i
  case qApiVersion => exact ⟨_, rfl, State.afterCommand_respond _ _ _ _ _ _⟩
  case qVersionString => exact ⟨_, rfl, State.afterCommand_respond _ _ _ _ _ _⟩
  case qMinDictionarySize => exact ⟨_, rfl, State.afterCommand_respond _ _ _ _ _ _⟩
  case qMaxDictionarySize => exact ⟨_, rfl, State.afterCommand_respond _ _ _ _ _ _⟩
  case qMinMatchLenLimit => exact ⟨_, rfl, State.afterCommand_respond _ _ _ _ _ _⟩
  case qMaxMatchLenLimit => exact ⟨_, rfl, State.afterCommand_respond _ _ _ _ _ _⟩
  case encOpen c ds ml lim => exact execEncOpen_spec c ds ml lim s
  case encClose c =>
    exact withEncoder_cases (State.afterCommand_respond _ _ _ _ _ _) fun e hc =>
      ⟨_, rfl, State.afterCommand_set (State.chan_lt_enc hc) (.close _) _ _ _⟩
  case encWriteSize c => exact encoderQuery_spec s c fun e => [BitVec.ofNat 32 (e.writeSize s.params)]
  case encWrite c n bytes => exact execEncWrite_spec c n bytes s
  case encRead c n => exact execEncRead_spec c n s
  case encSyncFlush c => exact execEncSyncFlush_spec c s
  case encFinish c => exact execEncFinish_spec c s
  case encRestartMember c => exact execEncRestartMember_spec c s
  case encMemberFinished c => exact encoderQuery_spec s c fun e => [flagWord e.memberFinishedFlag]
  case encFinished c => exact encoderQuery_spec s c fun e => [flagWord e.finishedFlag]
  case encErrno c => exact encoderQuery_spec s c fun e => [errorWord e.errno]
  case decOpen c => exact execDecOpen_spec c s
  case decClose c =>
    exact withDecoder_cases (State.afterCommand_respond _ _ _ _ _ _) fun d hc =>
      ⟨_, rfl, State.afterCommand_set (State.chan_lt_dec hc) (.close _) _ _ _⟩
  case decWrite c n bytes => exact execDecWrite_spec c n bytes s
  case decRead c n => exact execDecRead_spec c n s
  case decFinish c => exact execDecFinish_spec c s
  case decReset c =>
    exact withDecoder_cases (State.afterCommand_respond _ _ _ _ _ _) fun d hc =>
      ⟨_, rfl, State.afterCommand_set (State.chan_lt_dec hc) (by rw [hc]; exact .reset d) _ _ _⟩
  case decSyncToMember c => exact execDecSyncToMember_spec c s
  case decWriteSize c => exact introspect_spec s c _
  case decMemberFinished c => exact introspect_spec s c _
  case decFinished c => exact introspect_spec s c _
  case decErrno c => exact introspect_spec s c _
  case decMemberVersion c => exact introspect_spec s c _
  case decDictionarySize c => exact introspect_spec s c _
  case decDataCrc c => exact introspect_spec s c _
  case decDataPosition c => exact introspect_spec s c _
  case decMemberPosition c => exact introspect_spec s c _
  case decTotalInSize c => exact introspect_spec s c _
  case decTotalOutSize c => exact introspect_spec s c _
  all_goals exact absurd h (by simp [isPacket])

end Sys2Proof.Machine
end

