-- ==== Sys2Proof/Laws/Decode.lean ====
section
/-! SUPPORT. Decoding and encoding: the fields of a command word; and that reading a packet from any source which gives the
decisions of its encoding, each under its own model, reads that packet. -/

namespace Sys2Proof

/-! ## Command words -/

@[simp] theorem chanField_commandWord (op chan : Byte) : chanField (commandWord op chan) = chan := by
  unfold chanField commandWord
  ext i hi
  rw [BitVec.getElem_extractLsb', BitVec.getLsbD_append, BitVec.getLsbD_append]
  rw [if_neg (by omega), if_pos (by omega), BitVec.getLsbD_eq_getElem (by omega)]
  congr 1; omega

@[simp] theorem opcodeField_commandWord (op chan : Byte) : opcodeField (commandWord op chan) = op.toNat := by
  unfold opcodeField commandWord
  congr 1
  ext i hi
  rw [BitVec.getElem_extractLsb', BitVec.getLsbD_append, BitVec.getLsbD_append]
  rw [if_neg (by omega), if_neg (by omega), BitVec.getLsbD_eq_getElem (by omega)]
  congr 1; omega

@[simp] theorem reservedField_commandWord (op chan : Byte) : reservedField (commandWord op chan) = 0#16 := by
  unfold reservedField commandWord
  ext i hi
  rw [BitVec.getElem_extractLsb', BitVec.getLsbD_append, if_pos (by omega)]
  simp

@[simp] theorem highWord_append_lowWord (v : U64) : highWord v ++ lowWord v = v := by
  unfold highWord lowWord
  ext i hi
  rw [BitVec.getElem_append]
  split
  · rw [BitVec.getElem_extractLsb', BitVec.getLsbD_eq_getElem (by omega)]; congr 1; omega
  · rw [BitVec.getElem_extractLsb', BitVec.getLsbD_eq_getElem (by omega)]; congr 1; omega

/-- A word without a reserved bit, not a global query on another channel than 0: the opcode map decides. -/
theorem decode_commandWord (op chan : Byte) (ws : List Word) (bs : List Byte) (h : 6 < op.toNat ∨ chan = 0#8) :
    decode (.command (commandWord op chan :: ws) bs) = decodeOpcode op.toNat chan ws bs := by
  simp only [decode, decodeCommand, chanField_commandWord, opcodeField_commandWord]
  unfold checkFields
  split
  · rename_i i rest hd
    rw [if_neg (by simp), opcodeField_commandWord, chanField_commandWord, if_neg, hd]
    rintro ⟨h1, h2⟩
    rcases h with h | h
    · omega
    · exact h2 h
  · rename_i hd; exact hd.symm
  · rename_i hd; exact hd.symm

/-! ## Distances (R262) -/

theorem distSlot_base {slot r : Nat} (h4 : 4 ≤ slot) (hr : r < 2 ^ slotBits slot) : distSlot (slotBase slot + r) = slot := by
  unfold slotBase
  unfold slotBits at *
  obtain ⟨db, hdb⟩ : ∃ db, slot / 2 - 1 = db := ⟨_, rfl⟩
  rw [hdb] at hr ⊢
  have hdb1 : 1 ≤ db := by omega
  have hs : slot = 2 * (db + 1) + slot % 2 := by omega
  generalize hf : slot % 2 = f at *
  have hf2 : f < 2 := by omega
  have hpow : 2 ^ (db + 1) = 2 * 2 ^ db := by ring
  have hpow2 : 2 ^ (db + 1 + 1) = 4 * 2 ^ db := by ring
  have hge : 2 ^ (db + 1) ≤ (2 + f) * 2 ^ db + r := by nlinarith
  have hlt : (2 + f) * 2 ^ db + r < 2 ^ (db + 1 + 1) := by
    have : (2 + f) * 2 ^ db ≤ 3 * 2 ^ db := Nat.mul_le_mul_right _ (by omega)
    omega
  have hlog : ((2 + f) * 2 ^ db + r).log2 = db + 1 := by
    rw [Nat.log2_eq_iff (by have := Nat.two_pow_pos (db + 1); omega)]
    exact ⟨hge, hlt⟩
  have h4' : ¬ (2 + f) * 2 ^ db + r < 4 := by
    have : 2 ^ 1 ≤ 2 ^ db := Nat.pow_le_pow_right (by omega) hdb1
    have h2 : 2 * 2 ^ db ≤ (2 + f) * 2 ^ db := Nat.mul_le_mul_right _ (by omega)
    omega
  unfold distSlot
  rw [if_neg h4', hlog, Nat.add_sub_cancel]
  have hbit : ((2 + f) * 2 ^ db + r).testBit db = decide (f = 1) := by
    rw [Nat.testBit_eq_decide_div_mod_eq, Nat.mul_comm, Nat.mul_add_div (Nat.two_pow_pos db), Nat.div_eq_of_lt hr]
    congr 1
    simp; omega
  rw [hbit]
  by_cases h1 : f = 1
  · subst h1; simp; omega
  · have : f = 0 := by omega
    subst this; simp; omega

theorem distSlot_lt {d : Nat} (h : d < 2 ^ 32) : distSlot d < 64 := by
  unfold distSlot
  split
  · omega
  · have h0 : d ≠ 0 := by omega
    have hl : d.log2 < 32 := (Nat.log2_lt h0).2 h
    have := Bool.toNat_le (d.testBit (d.log2 - 1))
    omega

theorem distSlot_four {d : Nat} (h : 4 ≤ d) : 4 ≤ distSlot d := by
  have h0 : d ≠ 0 := by omega
  have hl : 2 ≤ d.log2 := (Nat.le_log2 h0).2 (by omega)
  unfold distSlot
  rw [if_neg (by omega)]
  omega

/-- A distance lies in the range of its slot. -/
theorem slotBase_distSlot {d : Nat} (h : 4 ≤ d) :
    slotBase (distSlot d) ≤ d ∧ d < slotBase (distSlot d) + 2 ^ slotBits (distSlot d) := by
  have h0 : d ≠ 0 := by omega
  obtain ⟨n, hn⟩ : ∃ n, d.log2 = n + 2 := ⟨d.log2 - 2, by have := (Nat.le_log2 (k := 2) h0).2 (by omega); omega⟩
  obtain ⟨hlo, hhi⟩ := (Nat.log2_eq_iff h0).1 hn
  unfold slotBase slotBits distSlot
  rw [if_neg (by omega), hn]
  have hdb : n + 2 - 1 = n + 1 := by omega
  rw [hdb]
  have p1 : 2 ^ (n + 2) = 2 * 2 ^ (n + 1) := by ring
  have p2 : 2 ^ (n + 2 + 1) = 4 * 2 ^ (n + 1) := by ring
  have hdiv : d / 2 ^ (n + 1) = 2 ∨ d / 2 ^ (n + 1) = 3 := by
    have a := Nat.div_lt_of_lt_mul (m := d) (n := 2 ^ (n + 1)) (k := 4) (by omega)
    have b : 2 ≤ d / 2 ^ (n + 1) := (Nat.le_div_iff_mul_le (Nat.two_pow_pos _)).2 (by omega)
    omega
  have hmod := Nat.div_add_mod d (2 ^ (n + 1))
  have hpos := Nat.two_pow_pos (n + 1)
  have hlt := Nat.mod_lt d (Nat.two_pow_pos (n + 1))
  rcases hdiv with h2 | h3
  · have hb : d.testBit (n + 1) = false := by rw [Nat.testBit_eq_decide_div_mod_eq, h2]; rfl
    rw [h2] at hmod
    rw [hb]
    have e1 : (2 * (n + 2) + Bool.toNat false) / 2 - 1 = n + 1 := by simp
    have e2 : (2 * (n + 2) + Bool.toNat false) % 2 = 0 := by simp
    rw [e1, e2]
    generalize 2 ^ (n + 1) = q at *
    constructor <;> omega
  · have hb : d.testBit (n + 1) = true := by rw [Nat.testBit_eq_decide_div_mod_eq, h3]; rfl
    rw [h3] at hmod
    rw [hb]
    have e1 : (2 * (n + 2) + Bool.toNat true) / 2 - 1 = n + 1 := by simp; omega
    have e2 : (2 * (n + 2) + Bool.toNat true) % 2 = 1 := by simp
    rw [e1, e2]
    generalize 2 ^ (n + 1) = q at *
    constructor <;> omega

/-! ## Reading what was encoded -/

section Gives

variable {σ : Type} {bit : σ → Option ModelRef → Src σ Bool} {R : List Decision → σ → Prop}

/-- The source gives the decisions it stands for: `R ds st` says that `ds` come next from `st`. -/
def Gives (bit : σ → Option ModelRef → Src σ Bool) (R : List Decision → σ → Prop) : Prop :=
  ∀ d ds st, R (d :: ds) st → ∃ st', bit st d.model = .ok d.bit st' ∧ R ds st'

theorem testBit_step (symbol m k : Nat) :
    (2 * m + (symbol.testBit k).toNat) * 2 ^ k + symbol % 2 ^ k = m * 2 ^ (k + 1) + symbol % 2 ^ (k + 1) := by
  have e : symbol % 2 ^ (k + 1) = symbol % 2 ^ k + 2 ^ k * (symbol / 2 ^ k % 2) := by rw [Nat.pow_succ, Nat.mod_mul]
  have hb : (symbol.testBit k).toNat = symbol / 2 ^ k % 2 := by
    rw [Nat.testBit_eq_decide_div_mod_eq]
    rcases Nat.mod_two_eq_zero_or_one (symbol / 2 ^ k) with h | h <;> rw [h] <;> rfl
  rw [e, hb]; ring

theorem decTree_gives (hb : Gives bit R) (base : Nat → ModelRef) (symbol k m : Nat) (rest : List Decision) (st : σ)
    (h : R (treeDecisions base symbol k m ++ rest) st) :
    ∃ st', decTree bit base k m st = .ok (m * 2 ^ k + symbol % 2 ^ k) st' ∧ R rest st' := by
  induction k generalizing m st with
  | zero => exact ⟨st, by simp [decTree, Nat.mod_one], h⟩
  | succ k ih =>
    obtain ⟨st1, h1, hR1⟩ := hb _ _ _ h
    obtain ⟨st2, h2, hR2⟩ := ih _ st1 hR1
    refine ⟨st2, ?_, hR2⟩
    rw [decTree, h1]
    simp only [Src.bind]
    rw [h2, testBit_step]

theorem decSymbol_gives (hb : Gives bit R) (base : Nat → ModelRef) {symbol n : Nat} (hs : symbol < 2 ^ n)
    (rest : List Decision) (st : σ) (h : R (treeDecisions base symbol n 1 ++ rest) st) :
    ∃ st', decSymbol bit base n st = .ok symbol st' ∧ R rest st' := by
  obtain ⟨st1, h1, hR⟩ := decTree_gives hb base symbol n 1 rest st h
  refine ⟨st1, ?_, hR⟩
  rw [decSymbol, h1]
  simp only [Src.bind, one_mul, Nat.mod_eq_of_lt hs, Nat.add_sub_cancel_left]

theorem decTreeRev_gives (hb : Gives bit R) (base : Nat → ModelRef) (symbol k m i sym : Nat) (rest : List Decision) (st : σ)
    (h : R (treeRevDecisions base symbol k m i ++ rest) st) :
    ∃ st', decTreeRev bit base k m i sym st = .ok (sym + symbol / 2 ^ i % 2 ^ k * 2 ^ i) st' ∧ R rest st' := by
  induction k generalizing m i sym st with
  | zero => exact ⟨st, by simp [decTreeRev, Nat.mod_one], h⟩
  | succ k ih =>
    obtain ⟨st1, h1, hR1⟩ := hb _ _ _ h
    obtain ⟨st2, h2, hR2⟩ := ih _ _ (sym + (symbol.testBit i).toNat * 2 ^ i) st1 hR1
    refine ⟨st2, ?_, hR2⟩
    rw [decTreeRev, h1]
    simp only [Src.bind]
    rw [h2]
    congr 1
    have e1 : symbol / 2 ^ i % 2 ^ (k + 1) = (symbol.testBit i).toNat + 2 * (symbol / 2 ^ (i + 1) % 2 ^ k) := by
      rw [Nat.testBit_eq_decide_div_mod_eq, Nat.pow_succ, Nat.pow_succ, ← Nat.div_div_eq_div_mul, Nat.mul_comm (2 ^ k) 2,
        Nat.mod_mul]
      congr 1
      rcases Nat.mod_two_eq_zero_or_one (symbol / 2 ^ i) with h | h <;> rw [h] <;> rfl
    rw [e1]; ring

theorem decDirect_gives (hb : Gives bit R) (value k v : Nat) (rest : List Decision) (st : σ)
    (h : R (directDecisions value k ++ rest) st) :
    ∃ st', decDirect bit k v st = .ok (v * 2 ^ k + value % 2 ^ k) st' ∧ R rest st' := by
  induction k generalizing v st with
  | zero => exact ⟨st, by simp [decDirect, Nat.mod_one], h⟩
  | succ k ih =>
    obtain ⟨st1, h1, hR1⟩ := hb _ _ _ h
    obtain ⟨st2, h2, hR2⟩ := ih (2 * v + (value.testBit k).toNat) st1 hR1
    refine ⟨st2, ?_, hR2⟩
    rw [decDirect, h1]
    simp only [Src.bind]
    rw [h2, testBit_step]

theorem decMatched_gives (hb : Gives bit R) (ctx : Nat) (mb c : Byte) (k node : Nat) (matched : Bool) (rest : List Decision)
    (st : σ) (h : R (matchedDecisions ctx mb c k node matched ++ rest) st) :
    ∃ st', decMatched bit ctx mb k node matched st = .ok (node * 2 ^ k + c.toNat % 2 ^ k) st' ∧ R rest st' := by
  induction k generalizing node matched st with
  | zero => exact ⟨st, by simp [decMatched, Nat.mod_one], h⟩
  | succ k ih =>
    obtain ⟨st1, h1, hR1⟩ := hb _ _ _ h
    obtain ⟨st2, h2, hR2⟩ := ih (2 * node + (c.getLsbD k).toNat) (matched && (mb.getLsbD k == c.getLsbD k)) st1 hR1
    refine ⟨st2, ?_, hR2⟩
    rw [decMatched]
    simp only at h1 ⊢
    rw [h1]
    simp only [Src.bind]
    rw [h2, ← testBit_step]
    rfl

theorem decLiteral_gives (hb : Gives bit R) (c : PacketCtx) (b : Byte) (hc : 7 ≤ c.state → c.matchByte.isSome = true)
    (rest : List Decision) (st : σ) (h : R (literalDecisions c b ++ rest) st) :
    ∃ st', decLiteral bit c st = .ok b st' ∧ R rest st' := by
  have hlt : b.toNat < 2 ^ 8 := b.isLt
  by_cases hs : c.state ≤ 6
  · rw [literalDecisions, decide_eq_true hs] at h
    obtain ⟨st1, h1, hR⟩ := decSymbol_gives hb _ hlt rest st h
    refine ⟨st1, ?_, hR⟩
    rw [decLiteral, if_pos hs, h1]
    simp [Src.bind]
  · obtain ⟨mb, hmb⟩ := Option.isSome_iff_exists.1 (hc (by omega))
    rw [literalDecisions, decide_eq_false hs, hmb] at h
    obtain ⟨st1, h1, hR⟩ := decMatched_gives hb _ _ _ _ _ _ rest st h
    refine ⟨st1, ?_, hR⟩
    rw [decLiteral, if_neg hs, hmb]
    simp only [h1, Src.bind, Nat.mod_eq_of_lt hlt]
    simp

theorem decLen_gives (hb : Gives bit R) (l : LenModel) (ps : Nat) {len : Nat} (h2 : 2 ≤ len) (h273 : len ≤ 273)
    (rest : List Decision) (st : σ) (h : R (lenDecisions l ps len ++ rest) st) :
    ∃ st', decLen bit l ps st = .ok len st' ∧ R rest st' := by
  unfold lenDecisions at h
  simp only at h
  unfold decLen
  split at h
  · obtain ⟨st1, h1, hR1⟩ := hb _ _ _ h
    obtain ⟨st2, h2', hR2⟩ := decSymbol_gives hb _ (n := 3) (by omega) rest st1 hR1
    simp only at h1
    refine ⟨st2, ?_, hR2⟩
    simp only [h1, Src.bind, Bool.false_eq_true, if_false, h2']
    congr 1; omega
  · split at h
    · obtain ⟨st1, h1, hR1⟩ := hb _ _ _ h
      obtain ⟨st2, h2', hR2⟩ := hb _ _ _ hR1
      obtain ⟨st3, h3, hR3⟩ := decSymbol_gives hb _ (by omega) rest st2 hR2
      refine ⟨st3, ?_, hR3⟩
      simp only at h1 h2'
      simp only [h1, Src.bind, Bool.false_eq_true, if_false, h2', if_true, h3]
      congr 1; omega
    · obtain ⟨st1, h1, hR1⟩ := hb _ _ _ h
      obtain ⟨st2, h2', hR2⟩ := hb _ _ _ hR1
      obtain ⟨st3, h3, hR3⟩ := decSymbol_gives hb _ (n := 8) (by omega) rest st2 hR2
      refine ⟨st3, ?_, hR3⟩
      simp only at h1 h2'
      simp only [h1, Src.bind, h2', if_true, h3]
      congr 1; omega

theorem decDist_gives (hb : Gives bit R) (len : Nat) (d : Word) (rest : List Decision) (st : σ)
    (h : R (distDecisions len d.toNat ++ rest) st) : ∃ st', decDist bit len st = .ok d st' ∧ R rest st' := by
  have hslot : distSlot d.toNat < 2 ^ 6 := distSlot_lt d.isLt
  unfold distDecisions at h
  rw [List.append_assoc] at h
  obtain ⟨st1, h1, hR1⟩ := decSymbol_gives hb _ hslot _ st h
  unfold decDist
  simp only [h1, Src.bind]
  unfold footerDecisions at hR1
  simp only at hR1
  by_cases h4 : d.toNat < 4
  · have : distSlot d.toNat = d.toNat := by rw [distSlot, if_pos h4]
    rw [if_pos (by omega)] at hR1
    refine ⟨st1, ?_, hR1⟩
    rw [if_pos (by omega), this]
    simp
  · have hs4 : 4 ≤ distSlot d.toNat := distSlot_four (by omega)
    obtain ⟨hlo, hhi⟩ := slotBase_distSlot (d := d.toNat) (by omega)
    generalize hsl : distSlot d.toNat = slot at *
    rw [if_neg (by omega)] at hR1
    rw [if_neg (by omega)]
    by_cases h14 : slot < 14
    · rw [if_pos h14] at hR1
      obtain ⟨st2, h2, hR2⟩ := decTreeRev_gives hb _ _ _ _ _ 0 rest st1 hR1
      refine ⟨st2, ?_, hR2⟩
      rw [if_pos h14]
      simp only [h2, pow_zero, Nat.div_one, mul_one, zero_add]
      rw [Nat.mod_eq_of_lt (by omega), Nat.add_sub_cancel' hlo]
      simp
    · rw [if_neg h14, List.append_assoc] at hR1
      rw [if_neg h14]
      obtain ⟨st2, h2, hR2⟩ := decDirect_gives hb _ _ 0 _ st1 hR1
      obtain ⟨st3, h3, hR3⟩ := decTreeRev_gives hb _ _ _ _ _ 0 rest st2 hR2
      refine ⟨st3, ?_, hR3⟩
      simp only [h2, h3, pow_zero, Nat.div_one, mul_one, zero_add, zero_mul]
      have hdb : slotBits slot = (slotBits slot - 4) + 4 := by
        have : 6 ≤ slotBits slot := by unfold slotBits; omega
        omega
      have hr : (d.toNat - slotBase slot) / 16 < 2 ^ (slotBits slot - 4) := by
        rw [Nat.div_lt_iff_lt_mul (by omega)]
        have : 2 ^ slotBits slot = 2 ^ (slotBits slot - 4) * 16 := by rw [hdb, pow_add]; rfl
        omega
      rw [Nat.mod_eq_of_lt hr]
      have e : slotBase slot + (d.toNat - slotBase slot) / 16 * 16 + (d.toNat - slotBase slot) % 16 % 2 ^ 4 = d.toNat := by
        omega
      rw [e]
      simp

theorem matchPacket_eq (len : Nat) {d : Word} (h : d ≠ eosDistance) : matchPacket len d = .matchDist len d := by
  rw [matchPacket, if_neg (fun hh => h hh.1)]

/-- A source that gives the decisions of a well-formed packet is read as that packet. -/
theorem decPacket_gives (hb : Gives bit R) (c : PacketCtx) (i : Instr) (hw : i.wellFormed = true)
    (hi : Machine.isPacket i = true) (hc : 7 ≤ c.state → c.matchByte.isSome = true)
    (hs : c.atStart = true → Machine.isRepClass i = false) (rest : List Decision) (st : σ)
    (h : R (packetDecisions c i ++ rest) st) : ∃ st', decPacket bit c st = .ok i st' ∧ R rest st' := by
  have hlen : ∀ {len : Nat}, lenOk len = true → 2 ≤ len ∧ len ≤ 273 := fun h => by simpa [lenOk] using h
  have hstart : Machine.isRepClass i = true → c.atStart = false := fun h => by
    cases hh : c.atStart with
    | false => rfl
    | true => rw [hs hh] at h; exact absurd h (by simp)
  have matchForm : ∀ (len : Nat) (d : Word), 2 ≤ len → len ≤ 273 →
      R ((⟨true, some (.isMatch c.state c.posState)⟩ :: ⟨false, some (.rep c.state)⟩ ::
        (lenDecisions .matchLen c.posState len ++ distDecisions len d.toNat)) ++ rest) st →
      ∃ st', decPacket bit c st = .ok (matchPacket len d) st' ∧ R rest st' := by
    intro len d h2 h273 h
    obtain ⟨st1, h1, hR1⟩ := hb _ _ _ h
    obtain ⟨st2, h2', hR2⟩ := hb _ _ _ hR1
    rw [List.append_eq, List.append_assoc] at hR2
    obtain ⟨st3, h3, hR3⟩ := decLen_gives hb _ _ h2 h273 _ st2 hR2
    obtain ⟨st4, h4, hR4⟩ := decDist_gives hb len d rest st3 hR3
    refine ⟨st4, ?_, hR4⟩
    simp only at h1 h2'
    simp [decPacket, h1, h2', h3, h4, Src.bind]
  cases i with
  | lit b =>
    obtain ⟨st1, h1, hR1⟩ := hb _ _ _ h
    obtain ⟨st2, h2, hR2⟩ := decLiteral_gives hb c b hc rest st1 hR1
    refine ⟨st2, ?_, hR2⟩
    simp only at h1
    simp [decPacket, h1, h2, Src.bind]
  | matchDist len d =>
    simp only [Instr.wellFormed, Bool.and_eq_true, decide_eq_true_eq] at hw
    obtain ⟨st', h1, h2⟩ := matchForm len d (hlen hw.1).1 (hlen hw.1).2 h
    exact ⟨st', by rw [h1, matchPacket_eq len (by simpa [eosDistance] using hw.2)], h2⟩
  | eos =>
    obtain ⟨st', h1, h2⟩ := matchForm 2 eosDistance (by omega) (by omega) h
    exact ⟨st', h1, h2⟩
  | shortRep =>
    have hst := hstart rfl
    obtain ⟨st1, h1, hR1⟩ := hb _ _ _ h
    obtain ⟨st2, h2, hR2⟩ := hb _ _ _ hR1
    obtain ⟨st3, h3, hR3⟩ := hb _ _ _ hR2
    obtain ⟨st4, h4, hR4⟩ := hb _ _ _ hR3
    refine ⟨st4, ?_, hR4⟩
    simp only at h1 h2 h3 h4
    simp [decPacket, hst, h1, h2, h3, h4, Src.bind]
  | rep0 len =>
    have hst := hstart rfl
    obtain ⟨hl2, hl273⟩ := hlen hw
    obtain ⟨st1, h1, hR1⟩ := hb _ _ _ h
    obtain ⟨st2, h2, hR2⟩ := hb _ _ _ hR1
    obtain ⟨st3, h3, hR3⟩ := hb _ _ _ hR2
    obtain ⟨st4, h4, hR4⟩ := hb _ _ _ hR3
    obtain ⟨st5, h5, hR5⟩ := decLen_gives hb _ _ hl2 hl273 rest st4 hR4
    refine ⟨st5, ?_, hR5⟩
    simp only at h1 h2 h3 h4
    simp [decPacket, hst, h1, h2, h3, h4, h5, Src.bind]
  | rep1 len =>
    have hst := hstart rfl
    obtain ⟨hl2, hl273⟩ := hlen hw
    obtain ⟨st1, h1, hR1⟩ := hb _ _ _ h
    obtain ⟨st2, h2, hR2⟩ := hb _ _ _ hR1
    obtain ⟨st3, h3, hR3⟩ := hb _ _ _ hR2
    obtain ⟨st4, h4, hR4⟩ := hb _ _ _ hR3
    obtain ⟨st5, h5, hR5⟩ := decLen_gives hb _ _ hl2 hl273 rest st4 hR4
    refine ⟨st5, ?_, hR5⟩
    simp only at h1 h2 h3 h4
    simp [decPacket, hst, h1, h2, h3, h4, h5, Src.bind]
  | rep2 len =>
    have hst := hstart rfl
    obtain ⟨hl2, hl273⟩ := hlen hw
    obtain ⟨st1, h1, hR1⟩ := hb _ _ _ h
    obtain ⟨st2, h2, hR2⟩ := hb _ _ _ hR1
    obtain ⟨st3, h3, hR3⟩ := hb _ _ _ hR2
    obtain ⟨st4, h4, hR4⟩ := hb _ _ _ hR3
    obtain ⟨st5, h5, hR5⟩ := hb _ _ _ hR4
    obtain ⟨st6, h6, hR6⟩ := decLen_gives hb _ _ hl2 hl273 rest st5 hR5
    refine ⟨st6, ?_, hR6⟩
    simp only at h1 h2 h3 h4 h5
    simp [decPacket, hst, h1, h2, h3, h4, h5, h6, Src.bind]
  | rep3 len =>
    have hst := hstart rfl
    obtain ⟨hl2, hl273⟩ := hlen hw
    obtain ⟨st1, h1, hR1⟩ := hb _ _ _ h
    obtain ⟨st2, h2, hR2⟩ := hb _ _ _ hR1
    obtain ⟨st3, h3, hR3⟩ := hb _ _ _ hR2
    obtain ⟨st4, h4, hR4⟩ := hb _ _ _ hR3
    obtain ⟨st5, h5, hR5⟩ := hb _ _ _ hR4
    obtain ⟨st6, h6, hR6⟩ := decLen_gives hb _ _ hl2 hl273 rest st5 hR5
    refine ⟨st6, ?_, hR6⟩
    simp only at h1 h2 h3 h4 h5
    simp [decPacket, hst, h1, h2, h3, h4, h5, h6, Src.bind]
  | _ => exact absurd hi (by simp [Machine.isPacket])

end Gives

/-- The checked list of decisions gives its decisions. -/
theorem checkedBit_gives : Gives Machine.checkedBit (fun ds st => st = ds) := by
  rintro d ds _ rfl
  exact ⟨ds, by simp [Machine.checkedBit], rfl⟩

end Sys2Proof
end

