-- ==== Sys2Proof/Laws/Tables.lean ====
section
/-! SUPPORT. The laws of tables in canonical form: read after write, and that every operation keeps the form; then the same for
windows and model arrays. -/

namespace Sys2Proof.Machine

section Table

variable {κ β : Type} [DecidableEq κ]

theorem tableGet_put_self (lt : κ → κ → Prop) [DecidableRel lt] (m : List (κ × β)) (k : κ) (v : β) :
    tableGet (tablePut lt m k v) k = some v := by
  induction m with
  | nil => simp [tablePut, tableGet]
  | cons a m ih =>
    obtain ⟨k', v'⟩ := a
    by_cases h : k' = k
    · simp [tablePut, tableGet, h]
    · by_cases h2 : lt k k' <;> simp [tablePut, tableGet, h, h2, ih]

theorem tableGet_put_ne (lt : κ → κ → Prop) [DecidableRel lt] (m : List (κ × β)) {k k' : κ} (v : β) (hne : k' ≠ k) :
    tableGet (tablePut lt m k v) k' = tableGet m k' := by
  induction m with
  | nil => simp [tablePut, tableGet, hne.symm]
  | cons a m ih =>
    obtain ⟨k₀, v₀⟩ := a
    by_cases h : k₀ = k
    · subst h; simp [tablePut, tableGet, hne.symm]
    · by_cases h3 : k₀ = k'
      · subst h3; by_cases h2 : lt k k₀ <;> simp [tablePut, tableGet, h, h2, hne.symm]
      · by_cases h2 : lt k k₀ <;> simp [tablePut, tableGet, h, h2, h3, ih, hne.symm]

theorem tableGet_erase_self (m : List (κ × β)) (k : κ) : tableGet (tableErase m k) k = none := by
  induction m with
  | nil => rfl
  | cons a m ih =>
    obtain ⟨k', v'⟩ := a
    by_cases h : k' = k <;> simp [tableErase, tableGet, h, ih]

theorem tableGet_erase_ne (m : List (κ × β)) {k k' : κ} (hne : k' ≠ k) : tableGet (tableErase m k) k' = tableGet m k' := by
  induction m with
  | nil => rfl
  | cons a m ih =>
    obtain ⟨k₀, v₀⟩ := a
    by_cases h : k₀ = k
    · subst h; simp [tableErase, tableGet, ih, hne.symm]
    · by_cases h3 : k₀ = k'
      · subst h3; simp [tableErase, tableGet, h]
      · simp [tableErase, tableGet, h, h3, ih]

/-- A key that is read is listed. -/
theorem mem_of_tableGet {m : List (κ × β)} {k : κ} {v : β} (h : tableGet m k = some v) : (k, v) ∈ m := by
  induction m with
  | nil => simp [tableGet] at h
  | cons a m ih =>
    obtain ⟨k', v'⟩ := a
    by_cases hk : k' = k
    · subst hk; simp [tableGet] at h; simp [h]
    · simp [tableGet, hk] at h; exact List.mem_cons_of_mem _ (ih h)

/-- The entries after a write are the entries before it and the new one. -/
theorem mem_tablePut {lt : κ → κ → Prop} [DecidableRel lt] {m : List (κ × β)} {k : κ} {v : β} {e : κ × β}
    (h : e ∈ tablePut lt m k v) : e ∈ m ∨ e = (k, v) := by
  induction m with
  | nil => simpa [tablePut] using h
  | cons a m ih =>
    obtain ⟨k', v'⟩ := a
    by_cases hk : k' = k
    · simp [tablePut, hk] at h; rcases h with h | h <;> simp [h]
    · by_cases h2 : lt k k'
      · simp [tablePut, hk, h2] at h; rcases h with h | h | h <;> simp [h]
      · simp [tablePut, hk, h2] at h
        rcases h with h | h
        · simp [h]
        · rcases ih h with h | h <;> simp [h]

theorem mem_tableErase {m : List (κ × β)} {k : κ} {e : κ × β} (h : e ∈ tableErase m k) : e ∈ m := by
  induction m with
  | nil => simp [tableErase] at h
  | cons a m ih =>
    obtain ⟨k', v'⟩ := a
    by_cases hk : k' = k
    · simp [tableErase, hk] at h; exact List.mem_cons_of_mem _ (ih h)
    · simp [tableErase, hk] at h
      rcases h with h | h
      · simp [h]
      · exact List.mem_cons_of_mem _ (ih h)

theorem tablePut_sorted {lt : κ → κ → Prop} [DecidableRel lt] (trans : ∀ a b c, lt a b → lt b c → lt a c)
    (total : ∀ a b, a ≠ b → lt a b ∨ lt b a) {m : List (κ × β)} (k : κ) (v : β) (h : (m.map Prod.fst).Pairwise lt) :
    ((tablePut lt m k v).map Prod.fst).Pairwise lt := by
  induction m with
  | nil => simp [tablePut]
  | cons a m ih =>
    obtain ⟨k', v'⟩ := a
    rw [List.map_cons, List.pairwise_cons] at h
    by_cases hk : k' = k
    · subst hk; simp only [tablePut, if_pos, List.map_cons, List.pairwise_cons]; exact h
    · by_cases h2 : lt k k'
      · simp only [tablePut, if_neg hk, if_pos h2, List.map_cons, List.pairwise_cons]
        refine ⟨?_, h⟩
        intro x hx
        rcases List.mem_cons.1 hx with rfl | hx
        · exact h2
        · exact trans _ _ _ h2 (h.1 x hx)
      · simp only [tablePut, if_neg hk, if_neg h2, List.map_cons, List.pairwise_cons]
        refine ⟨?_, ih h.2⟩
        intro x hx
        obtain ⟨e, he, rfl⟩ := List.mem_map.1 hx
        rcases mem_tablePut he with he | rfl
        · exact h.1 _ (List.mem_map_of_mem he)
        · exact (total _ _ hk).resolve_right h2

theorem tableErase_sorted {lt : κ → κ → Prop} {m : List (κ × β)} (k : κ) (h : (m.map Prod.fst).Pairwise lt) :
    ((tableErase m k).map Prod.fst).Pairwise lt := by
  induction m with
  | nil => simp [tableErase]
  | cons a m ih =>
    obtain ⟨k', v'⟩ := a
    rw [List.map_cons, List.pairwise_cons] at h
    by_cases hk : k' = k
    · simp only [tableErase, if_pos hk]; exact ih h.2
    · simp only [tableErase, if_neg hk, List.map_cons, List.pairwise_cons]
      refine ⟨?_, ih h.2⟩
      intro x hx
      obtain ⟨e, he, rfl⟩ := List.mem_map.1 hx
      exact h.1 _ (List.mem_map_of_mem (mem_tableErase he))

end Table

/-! ## Windows -/

@[simp] theorem Memory.read_write_self (m : Memory) (pos : Nat) (b : Byte) : (m.write pos b).read pos = some b :=
  tableGet_put_self _ m pos b

theorem Memory.read_write_ne (m : Memory) {pos pos' : Nat} (b : Byte) (h : pos' ≠ pos) :
    (m.write pos b).read pos' = m.read pos' := tableGet_put_ne _ m b h

theorem Memory.write_wf {m : Memory} (pos : Nat) (b : Byte) (h : m.wf) : (m.write pos b).wf :=
  tablePut_sorted (lt := fun a b : Nat => a < b) (fun _ _ _ => Nat.lt_trans) (fun _ _ => Nat.lt_or_gt_of_ne) pos b h

theorem Memory.writeList_wf {m : Memory} (pos : Nat) (bytes : List Byte) (h : m.wf) : (m.writeList pos bytes).wf := by
  induction bytes generalizing m pos with
  | nil => exact h
  | cons b rest ih => exact ih (pos + 1) (Memory.write_wf pos b h)

/-- A write at the end of a window that holds exactly the positions below `n`. -/
theorem Memory.write_end {m : Memory} {n : Nat} (b : Byte) (h : m.map Prod.fst = List.range n) :
    (m.write n b).map Prod.fst = List.range (n + 1) := by
  have key : ∀ (l : Memory), (∀ x ∈ l.map Prod.fst, x < n) → (l.write n b).map Prod.fst = l.map Prod.fst ++ [n] := by
    intro l hl
    induction l with
    | nil => rfl
    | cons a l ih =>
      obtain ⟨k, v⟩ := a
      have hk : k < n := hl k (by simp)
      have ih' := ih (fun x hx => hl x (by simp only [List.map_cons, List.mem_cons]; exact Or.inr hx))
      unfold Memory.write at ih' ⊢
      simp only [tablePut, if_neg (Nat.ne_of_lt hk), if_neg (Nat.not_lt.2 (Nat.le_of_lt hk)), List.map_cons, List.cons_append]
      rw [ih']
  rw [key m (by rw [h]; exact fun x hx => List.mem_range.1 hx), h, List.range_succ]

theorem Memory.writeList_end {m : Memory} {n : Nat} (bytes : List Byte) (h : m.map Prod.fst = List.range n) :
    (m.writeList n bytes).map Prod.fst = List.range (n + bytes.length) := by
  induction bytes generalizing m n with
  | nil => exact h
  | cons b rest ih =>
    have := ih (Memory.write_end b h)
    simpa [Memory.writeList, Nat.add_assoc, Nat.add_comm 1] using this

/-- A position below `n` is readable in a window that holds exactly those. -/
theorem Memory.read_isSome {m : Memory} {n pos : Nat} (h : m.map Prod.fst = List.range n) (hp : pos < n) :
    ∃ b, m.read pos = some b := by
  have hm : pos ∈ m.map Prod.fst := by rw [h]; exact List.mem_range.2 hp
  clear h
  unfold Memory.read
  induction m with
  | nil => simp at hm
  | cons a m ih =>
    obtain ⟨k, v⟩ := a
    by_cases hk : k = pos
    · exact ⟨v, by simp [tableGet, hk]⟩
    · obtain ⟨b, hb⟩ := ih (by simpa [Ne.symm hk] using hm)
      exact ⟨b, by simpa [tableGet, hk] using hb⟩

/-- A position not below `n` holds no byte in a window that holds exactly those. -/
theorem Memory.read_eq_none {m : Memory} {n pos : Nat} (h : m.map Prod.fst = List.range n) (hp : n ≤ pos) :
    m.read pos = none := by
  rcases hr : m.read pos with _ | b
  · rfl
  · have : pos ∈ m.map Prod.fst := List.mem_map_of_mem (f := Prod.fst) (mem_of_tableGet hr)
    rw [h, List.mem_range] at this
    omega

/-- What a window holds after a write of several bytes. -/
theorem Memory.read_writeList (m : Memory) (pos : Nat) (bytes : List Byte) (k : Nat) :
    (m.writeList pos bytes).read k =
      if pos ≤ k ∧ k < pos + bytes.length then bytes[k - pos]? else m.read k := by
  induction bytes generalizing m pos with
  | nil => simp [Memory.writeList]
  | cons b rest ih =>
    rw [Memory.writeList, ih]
    by_cases hk : k = pos
    · subst hk; simp
    · rw [Memory.read_write_ne m b hk]
      by_cases h1 : pos + 1 ≤ k ∧ k < pos + 1 + rest.length
      · have h2 : pos ≤ k ∧ k < pos + (b :: rest).length := ⟨by omega, by simp only [List.length_cons]; omega⟩
        rw [if_pos h1, if_pos h2]
        obtain ⟨j, hj⟩ : ∃ j, k = pos + 1 + j := ⟨k - (pos + 1), by omega⟩
        subst hj
        simp [show pos + 1 + j - pos = j + 1 by omega]
      · have h2 : ¬ (pos ≤ k ∧ k < pos + (b :: rest).length) := by simp only [List.length_cons]; omega
        rw [if_neg h1, if_neg h2]

/-- Reading several positions that all hold a byte. -/
theorem Memory.readList_spec {m : Memory} {n : Nat} (h : m.map Prod.fst = List.range n) (pos len : Nat) (hl : pos + len ≤ n) :
    (m.readList pos len).length = len ∧ ∀ k, k < len → (m.readList pos len)[k]? = m.read (pos + k) := by
  induction len generalizing pos with
  | zero => exact ⟨rfl, fun k hk => absurd hk (Nat.not_lt_zero k)⟩
  | succ len ih =>
    obtain ⟨b, hb⟩ := Memory.read_isSome h (show pos < n by omega)
    obtain ⟨h1, h2⟩ := ih (pos + 1) (by omega)
    simp only [Memory.readList, hb]
    refine ⟨by rw [List.length_cons, h1], fun k hk => ?_⟩
    cases k with
    | zero => exact hb.symm
    | succ k => rw [List.getElem?_cons_succ, h2 k (by omega)]; congr 1; omega

theorem winRead_isSome {m : Memory} {dp ds s n : Nat} (h : m.map Prod.fst = List.range n) (hn : dp ≤ n) (hs : s < dp)
    (hd : s < ds) : ∃ b, winRead m dp ds s = some b := by
  unfold winRead
  rw [if_pos ⟨hs, hd⟩]
  exact Memory.read_isSome h (by omega)

/-! ## Tables of positions -/

theorem PosTable.put_wf {t : PosTable} (k : Nat) (pos : Option Nat) (h : t.wf) : (t.put k pos).wf := by
  cases pos with
  | some p =>
    exact tablePut_sorted (lt := fun a b : Nat => a < b) (fun _ _ _ => Nat.lt_trans) (fun _ _ => Nat.lt_or_gt_of_ne) k p h
  | none => exact tableErase_sorted k h

theorem PosTable.get_put_self (t : PosTable) (k : Nat) (pos : Option Nat) : (t.put k pos).get k = pos := by
  cases pos with
  | some p => exact tableGet_put_self _ t k p
  | none => exact tableGet_erase_self t k

theorem PosTable.get_put_ne (t : PosTable) {k k' : Nat} (pos : Option Nat) (h : k' ≠ k) : (t.put k pos).get k' = t.get k' := by
  cases pos with
  | some p => exact tableGet_put_ne _ t p h
  | none => exact tableGet_erase_ne t h

/-! ## Model arrays -/

theorem modelKey_injective {a b : ModelRef} (h : modelKey a = modelKey b) : a = b := by
  rcases a with ⟨a1, a2⟩ | ⟨a1, a2⟩ | a1 | a1 | a1 | a1 | ⟨a1, a2⟩ | ⟨a1, a2⟩ | a1 | a1 | la | la | ⟨la, a1, a2⟩ |
      ⟨la, a1, a2⟩ | ⟨la, a1⟩ <;>
    rcases b with ⟨b1, b2⟩ | ⟨b1, b2⟩ | b1 | b1 | b1 | b1 | ⟨b1, b2⟩ | ⟨b1, b2⟩ | b1 | b1 | lb | lb | ⟨lb, b1, b2⟩ |
      ⟨lb, b1, b2⟩ | ⟨lb, b1⟩ <;>
    (try cases la) <;> (try cases lb) <;> simp_all [modelKey]

theorem modelLt_trans (a b c : ModelRef) (h1 : modelLt a b) (h2 : modelLt b c) : modelLt a c := by
  unfold modelLt at *; omega

theorem modelLt_total (a b : ModelRef) (h : a ≠ b) : modelLt a b ∨ modelLt b a := by
  by_contra hc
  apply h
  apply modelKey_injective
  unfold modelLt at hc
  have h1 : (modelKey a).1 = (modelKey b).1 := by omega
  have h2 : (modelKey a).2.1 = (modelKey b).2.1 := by omega
  have h3 : (modelKey a).2.2 = (modelKey b).2.2 := by omega
  exact Prod.ext h1 (Prod.ext h2 h3)

theorem Models.get_set_self (m : Models) (r : ModelRef) (p : Prob) : (m.set r p).get r = p := by
  unfold Models.set Models.get
  by_cases h : p = initialProb
  · simp [tableGet_erase_self, h]
  · simp [h, tableGet_put_self]

theorem Models.get_set_ne (m : Models) {r r' : ModelRef} (p : Prob) (h : r' ≠ r) : (m.set r p).get r' = m.get r' := by
  unfold Models.set Models.get
  by_cases hp : p = initialProb
  · rw [if_pos hp, tableGet_erase_ne m h]
  · rw [if_neg hp, tableGet_put_ne _ m p h]

theorem Models.set_wf {m : Models} (r : ModelRef) (p : Prob) (h : m.wf) : (m.set r p).wf := by
  unfold Models.set
  by_cases hp : p = initialProb
  · rw [if_pos hp]
    exact ⟨tableErase_sorted r h.1, fun e he => h.2 e (mem_tableErase he)⟩
  · rw [if_neg hp]
    refine ⟨tablePut_sorted modelLt_trans modelLt_total r p h.1, fun e he => ?_⟩
    rcases mem_tablePut he with he | rfl
    · exact h.2 e he
    · exact hp

theorem Models.nil_sound : Models.sound [] := by
  refine ⟨⟨by simp, by simp⟩, by simp⟩

theorem Models.set_sound {m : Models} (r : ModelRef) {p : Prob} (h : m.sound) (hp : probInRange p) : (m.set r p).sound := by
  refine ⟨Models.set_wf r p h.1, fun e he => ?_⟩
  unfold Models.set at he
  split at he
  · exact h.2 e (mem_tableErase he)
  · rcases mem_tablePut he with he | rfl
    · exact h.2 e he
    · exact hp

theorem Models.get_inRange {m : Models} (h : m.sound) (r : ModelRef) : probInRange (m.get r) := by
  unfold Models.get
  rcases hg : tableGet m r with _ | p
  · show probInRange initialProb
    unfold probInRange; decide
  · exact h.2 _ (mem_of_tableGet hg)

end Sys2Proof.Machine
end

