-- ==== Sys2Proof/Laws/MatchFinder.lean ====
section
/-! SUPPORT. The match-finder: what a match length says of the window, what an insertion can report, and that its tables keep
their canonical form. -/

namespace Sys2Proof.Machine

/-! ## Match lengths -/

theorem matchLength_le (w : Memory) (p q limit : Nat) : matchLength w p q limit ≤ limit := by
  induction limit generalizing p q with
  | zero => exact Nat.le_refl 0
  | succ n ih =>
    unfold matchLength
    split
    · split
      · exact Nat.succ_le_succ (ih (p + 1) (q + 1))
      · exact Nat.zero_le _
    · exact Nat.zero_le _

/-- The window agrees at every position inside a match length. -/
theorem matchLength_agrees {w : Memory} {p q limit k : Nat} (hk : k < matchLength w p q limit) :
    ∃ b, w.read (p + k) = some b ∧ w.read (q + k) = some b := by
  induction limit generalizing p q k with
  | zero => exact absurd hk (Nat.not_lt_zero k)
  | succ n ih =>
    unfold matchLength at hk
    split at hk
    · rename_i a b ha hb
      split at hk
      · rename_i hab
        subst hab
        cases k with
        | zero => exact ⟨a, ha, hb⟩
        | succ k =>
          obtain ⟨x, h1, h2⟩ := ih (p := p + 1) (q := q + 1) (Nat.lt_of_succ_lt_succ hk)
          exact ⟨x, by rw [← h1]; congr 1; omega, by rw [← h2]; congr 1; omega⟩
      · exact absurd hk (Nat.not_lt_zero k)
    · exact absurd hk (Nat.not_lt_zero k)

/-- The match length is the whole limit exactly where the window agrees throughout. -/
theorem matchLength_eq_iff {w : Memory} {p q limit : Nat} :
    matchLength w p q limit = limit ↔ ∀ k, k < limit → ∃ b, w.read (p + k) = some b ∧ w.read (q + k) = some b := by
  constructor
  · intro h k hk
    exact matchLength_agrees (limit := limit) (by rw [h]; exact hk)
  · intro h
    induction limit generalizing p q with
    | zero => rfl
    | succ n ih =>
      obtain ⟨b, h1, h2⟩ := h 0 (Nat.succ_pos n)
      have h1 : w.read p = some b := h1
      have h2 : w.read q = some b := h2
      unfold matchLength
      rw [h1, h2]
      simp only [if_true]
      rw [ih fun k hk => ?_]
      obtain ⟨x, h3, h4⟩ := h (k + 1) (Nat.succ_lt_succ hk)
      exact ⟨x, by rw [← h3]; congr 1; omega, by rw [← h4]; congr 1; omega⟩

/-! ## Canonical form of the tables -/

theorem MatchFinder.init_wf : MatchFinder.init.wf := by
  refine ⟨?_, ?_, ?_, ?_⟩ <;> exact List.Pairwise.nil

theorem PosTable.put_none_wf {t : PosTable} (a b : Nat) (h : t.wf) : ((t.put a none).put b none).wf :=
  PosTable.put_wf b none (PosTable.put_wf a none h)

theorem Encoder.treeWalk_wf (e : Encoder) (pos limit k : Nat) (cand : Option Nat) (left right : Nat) {son : PosTable}
    (pairs : List (Nat × Nat)) (h : son.wf) : (e.treeWalk pos limit k cand left right son pairs).1.wf := by
  induction k generalizing cand left right son pairs with
  | zero => unfold Encoder.treeWalk; simp only; exact PosTable.put_none_wf left right h
  | succ k ih =>
    cases cand with
    | none => unfold Encoder.treeWalk; simp only; exact PosTable.put_none_wf left right h
    | some c =>
      unfold Encoder.treeWalk
      split
      · simp only
        split
        · exact PosTable.put_wf _ _ (PosTable.put_wf _ _ h)
        · split
          · exact ih _ _ _ _ (PosTable.put_wf _ _ h)
          · exact ih _ _ _ _ (PosTable.put_wf _ _ h)
      · simp only; exact PosTable.put_none_wf left right h

theorem Encoder.sideStep_wf (e : Encoder) (hash : List Byte → Nat) (n pos avail : Nat) {t : PosTable} (h : t.wf) :
    (e.sideStep hash n pos avail t).2.wf := by
  unfold Encoder.sideStep
  split
  · exact PosTable.put_wf (hash (e.window.readList pos n)) (some pos) h
  · exact h

/-- An insertion keeps the canonical form. -/
theorem Encoder.mfInsert_wf (p : Params) {e : Encoder} (pos fin : Nat) (h : e.mf.wf) : (e.mfInsert p pos fin).1.wf := by
  obtain ⟨h2, h3, h4, hs⟩ := h
  unfold Encoder.mfInsert
  simp only
  cases e.variant with
  | fast =>
    simp only [Encoder.mfFast]
    split
    · exact ⟨h2, h3, h4, hs⟩
    · exact ⟨h2, h3, PosTable.put_wf _ (some pos) h4, PosTable.put_wf _ (e.mf.hash4.get _) hs⟩
  | normal =>
    exact ⟨Encoder.sideStep_wf e _ 2 pos _ h2, Encoder.sideStep_wf e _ 3 pos _ h3, PosTable.put_wf _ (some pos) h4,
      Encoder.treeWalk_wf _ _ _ _ _ _ _ _ hs⟩

/-! ## What an insertion and a skip do (R335) -/

/-- `pos` is a position the variant inserts: any with a byte in view, on a fast channel one with four (R332). -/
def Encoder.inserts (e : Encoder) (pos fin : Nat) : Prop := e.variant = .fast → 4 ≤ fin - pos

@[simp] theorem Encoder.mfInsert_next (p : Params) (e : Encoder) (pos fin : Nat) : (e.mfInsert p pos fin).1.next = pos + 1 := rfl

/-- An insertion puts the position in its bucket, and only there. -/
theorem Encoder.mfInsert_hash4 (p : Params) (e : Encoder) (pos fin : Nat) :
    (e.mfInsert p pos fin).1.hash4 = e.mf.hash4 ∧ ¬ e.inserts pos fin ∨
      (e.mfInsert p pos fin).1.hash4 = e.mf.hash4.put (e.bucket p pos (fin - pos)) (some pos) := by
  unfold Encoder.mfInsert Encoder.inserts
  cases h : e.variant with
  | fast =>
    simp only [Encoder.mfFast]
    split
    · exact .inl ⟨rfl, fun hi => by have := hi trivial; omega⟩
    · exact .inr rfl
  | normal => exact .inr rfl

/-- Every position from `first` to before `last` that the variant inserts has its bucket filled by itself or a later one of
them. -/
def Encoder.listed (p : Params) (e : Encoder) (first last fin : Nat) : Prop :=
  ∀ q, first ≤ q → q < last → e.inserts q fin →
    ∃ q', e.mf.hash4.get (e.bucket p q (fin - q)) = some q' ∧ q ≤ q' ∧ q' < last ∧
      e.bucket p q' (fin - q') = e.bucket p q (fin - q)

theorem Encoder.listed_insert {p : Params} {e : Encoder} {first last fin : Nat} (h : e.listed p first last fin) :
    Encoder.listed p { e with mf := (e.mfInsert p last fin).1 } first (last + 1) fin := by
  intro q h1 h2 hi
  show ∃ q', (e.mfInsert p last fin).1.hash4.get (e.bucket p q (fin - q)) = some q' ∧ _
  by_cases hq : q = last
  · subst hq
    rcases e.mfInsert_hash4 p q fin with h' | h'
    · exact absurd hi h'.2
    · exact ⟨q, by rw [h', PosTable.get_put_self], Nat.le_refl q, Nat.lt_succ_self q, rfl⟩
  · obtain ⟨q', g1, g2, g3, g4⟩ := h q h1 (by omega) hi
    rcases e.mfInsert_hash4 p last fin with h' | h'
    · exact ⟨q', by rw [h'.1]; exact g1, g2, by omega, g4⟩
    · by_cases hb : e.bucket p q (fin - q) = e.bucket p last (fin - last)
      · exact ⟨last, by rw [h', hb, PosTable.get_put_self], by omega, Nat.lt_succ_self last, hb.symm⟩
      · exact ⟨q', by rw [h', PosTable.get_put_ne _ _ hb]; exact g1, g2, by omega, g4⟩

/-- EVERYTHING A SKIP DOES: only the match-finder changes, its tables stay canonical, `next` moves past the positions skipped,
and they are listed. -/
theorem Encoder.mfSkip_spec (p : Params) (e : Encoder) (fin n : Nat) :
    ∃ mf, e.mfSkip p fin n = { e with mf := mf } ∧ mf.next = e.mf.next + n ∧ (e.mf.wf → mf.wf) ∧
      ∀ first, e.listed p first e.mf.next fin → Encoder.listed p { e with mf := mf } first (e.mf.next + n) fin := by
  induction n generalizing e with
  | zero => exact ⟨e.mf, rfl, rfl, id, fun _ h => h⟩
  | succ n ih =>
    obtain ⟨mf, h1, h2, h3, h4⟩ := ih { e with mf := (e.mfInsert p e.mf.next fin).1 }
    refine ⟨mf, h1, ?_, fun h => h3 (Encoder.mfInsert_wf p _ _ h), fun first h => ?_⟩
    · rw [h2, Encoder.mfInsert_next]; omega
    · have := h4 first (by rw [Encoder.mfInsert_next]; exact Encoder.listed_insert h)
      rw [Encoder.mfInsert_next] at this
      rwa [show e.mf.next + (n + 1) = e.mf.next + 1 + n by omega]

/-- EVERYTHING THE CATCH-UP DOES. -/
theorem Encoder.mfCatchUp_spec (p : Params) (e : Encoder) :
    ∃ mf, e.mfCatchUp p = { e with mf := mf } ∧ (e.mf.wf → mf.wf) ∧
      (e.mf.next ≤ e.lz.dataPosition.toNat → mf.next = e.lz.dataPosition.toNat ∧
        Encoder.listed p { e with mf := mf } e.mf.next e.lz.dataPosition.toNat (e.lz.dataPosition.toNat + e.view p)) := by
  obtain ⟨mf, h1, h2, h3, h4⟩ := e.mfSkip_spec p (e.lz.dataPosition.toNat + e.view p) (e.lz.dataPosition.toNat - e.mf.next)
  refine ⟨mf, h1, h3, fun h => ⟨by omega, ?_⟩⟩
  have := h4 e.mf.next fun q h1 h2 _ => absurd h1 (by omega)
  rwa [Nat.add_sub_cancel' h] at this

/-- EVERYTHING THE SEARCH DOES TO THE TABLES. -/
theorem Encoder.search_spec (p : Params) (e : Encoder) :
    (e.search p).1.next = e.lz.dataPosition.toNat + 1 ∧ (e.mf.wf → (e.search p).1.wf) ∧
      (e.mf.next ≤ e.lz.dataPosition.toNat →
        Encoder.listed p { e with mf := (e.search p).1 } e.mf.next (e.lz.dataPosition.toNat + 1)
          (e.lz.dataPosition.toNat + e.view p)) := by
  obtain ⟨mf, h1, h2, h3⟩ := e.mfCatchUp_spec p
  unfold Encoder.search
  rw [h1]
  exact ⟨rfl, fun h => Encoder.mfInsert_wf p _ _ (h2 h), fun h => Encoder.listed_insert (h3 h).2⟩

end Sys2Proof.Machine
end

