-- ==== Sys2Proof/Laws/Source.lean ====
section
/-! SUPPORT. What reading a packet from any source of decision bits can do: a property of the source that every bit keeps is kept
by the whole packet, and the packet read is one of the eight, with its length in range. -/

namespace Sys2Proof

/-- Every way a reading can end: with a value satisfying `V` and a source satisfying `P`, with an error and a source satisfying
`Q`, or, where `H` holds, with a hold. -/
def Src.Sat {σ α : Type} (V : α → Prop) (P Q : σ → Prop) (x : Src σ α) (H : Prop := True) : Prop :=
  match x with
  | .ok a st => V a ∧ P st
  | .hold => H
  | .raise _ st => Q st

theorem Src.Sat.mono {σ α : Type} {V V' : α → Prop} {P P' Q Q' : σ → Prop} {H : Prop} {x : Src σ α}
    (h : x.Sat V P Q H) (hV : ∀ a, V a → V' a) (hP : ∀ s, P s → P' s) (hQ : ∀ s, Q s → Q' s) : x.Sat V' P' Q' H := by
  cases x with
  | ok a st => exact ⟨hV a h.1, hP st h.2⟩
  | hold => exact h
  | raise e st => exact hQ st h

theorem Src.Sat.bind {σ α β : Type} {V : α → Prop} {W : β → Prop} {P P' Q : σ → Prop} {H : Prop} {x : Src σ α}
    {f : α → σ → Src σ β} (hx : x.Sat V P Q H) (hf : ∀ a st, V a → P st → (f a st).Sat W P' Q H) :
    (x.bind f).Sat W P' Q H := by
  cases x with
  | ok a st => exact hf a st hx.1 hx.2
  | hold => exact hx
  | raise e st => exact hx

section

variable {σ : Type} {bit : σ → Option ModelRef → Src σ Bool} {P Q : σ → Prop} {H : Prop}

theorem decTree_sat (hb : ∀ st r, P st → (bit st r).Sat (fun _ => True) P Q H) (base : Nat → ModelRef) (k m : Nat) (st : σ)
    (hst : P st) : (decTree bit base k m st).Sat (fun v => m * 2 ^ k ≤ v ∧ v < (m + 1) * 2 ^ k) P Q H := by
  induction k generalizing m st with
  | zero => exact ⟨by omega, hst⟩
  | succ k ih =>
    refine (hb st _ hst).bind fun b st' _ hst' => (ih (2 * m + b.toNat) st' hst').mono ?_ (fun _ h => h) (fun _ h => h)
    intro v ⟨h1, h2⟩
    have hb2 : b.toNat ≤ 1 := Bool.toNat_le b
    constructor
    · calc m * 2 ^ (k + 1) = (2 * m) * 2 ^ k := by ring
        _ ≤ (2 * m + b.toNat) * 2 ^ k := Nat.mul_le_mul_right _ (by omega)
        _ ≤ v := h1
    · calc v < (2 * m + b.toNat + 1) * 2 ^ k := h2
        _ ≤ (2 * (m + 1)) * 2 ^ k := Nat.mul_le_mul_right _ (by omega)
        _ = (m + 1) * 2 ^ (k + 1) := by ring

theorem decSymbol_sat (hb : ∀ st r, P st → (bit st r).Sat (fun _ => True) P Q H) (base : Nat → ModelRef) (nbits : Nat) (st : σ)
    (hst : P st) : (decSymbol bit base nbits st).Sat (fun v => v < 2 ^ nbits) P Q H :=
  (decTree_sat hb base nbits 1 st hst).bind fun v st' hv hst' => ⟨by
    have : (1 + 1) * 2 ^ nbits = 2 ^ nbits + 2 ^ nbits := by ring
    omega, hst'⟩

theorem decTreeRev_sat (hb : ∀ st r, P st → (bit st r).Sat (fun _ => True) P Q H) (base : Nat → ModelRef) (k m i sym : Nat)
    (st : σ) (hst : P st) : (decTreeRev bit base k m i sym st).Sat (fun _ => True) P Q H := by
  induction k generalizing m i sym st with
  | zero => exact ⟨trivial, hst⟩
  | succ k ih => exact (hb st _ hst).bind fun b st' _ hst' => ih _ _ _ st' hst'

theorem decDirect_sat (hb : ∀ st r, P st → (bit st r).Sat (fun _ => True) P Q H) (k v : Nat) (st : σ) (hst : P st) :
    (decDirect bit k v st).Sat (fun _ => True) P Q H := by
  induction k generalizing v st with
  | zero => exact ⟨trivial, hst⟩
  | succ k ih => exact (hb st _ hst).bind fun b st' _ hst' => ih _ st' hst'

theorem decMatched_sat (hb : ∀ st r, P st → (bit st r).Sat (fun _ => True) P Q H) (ctx : Nat) (mb : Byte) (k node : Nat)
    (matched : Bool) (st : σ) (hst : P st) : (decMatched bit ctx mb k node matched st).Sat (fun _ => True) P Q H := by
  induction k generalizing node matched st with
  | zero => exact ⟨trivial, hst⟩
  | succ k ih => exact (hb st _ hst).bind fun b st' _ hst' => ih _ _ st' hst'

theorem decLiteral_sat (hb : ∀ st r, P st → (bit st r).Sat (fun _ => True) P Q H) (hPQ : ∀ st, P st → Q st) (c : PacketCtx)
    (st : σ) (hst : P st) : (decLiteral bit c st).Sat (fun _ => True) P Q H := by
  unfold decLiteral
  split
  · exact (decSymbol_sat hb _ 8 st hst).bind fun v st' _ h => ⟨trivial, h⟩
  · split
    · exact (decMatched_sat hb _ _ 8 1 true st hst).bind fun v st' _ h => ⟨trivial, h⟩
    · exact hPQ st hst

/-- A length read is in range (R137). -/
theorem decLen_sat (hb : ∀ st r, P st → (bit st r).Sat (fun _ => True) P Q H) (l : LenModel) (ps : Nat) (st : σ) (hst : P st) :
    (decLen bit l ps st).Sat (fun len => 2 ≤ len ∧ len ≤ 273) P Q H := by
  unfold decLen
  refine (hb st _ hst).bind fun far st _ hst => ?_
  cases far with
  | false => exact (decSymbol_sat hb _ 3 st hst).bind fun v st' hv h => ⟨by omega, h⟩
  | true =>
    refine (hb st _ hst).bind fun high st _ hst => ?_
    cases high with
    | false => exact (decSymbol_sat hb _ 3 st hst).bind fun v st' hv h => ⟨by omega, h⟩
    | true => exact (decSymbol_sat hb _ 8 st hst).bind fun v st' hv h => ⟨by omega, h⟩

theorem decDist_sat (hb : ∀ st r, P st → (bit st r).Sat (fun _ => True) P Q H) (len : Nat) (st : σ) (hst : P st) :
    (decDist bit len st).Sat (fun _ => True) P Q H := by
  unfold decDist
  refine (decSymbol_sat hb _ 6 st hst).bind fun slot st _ hst => ?_
  split
  · exact ⟨trivial, hst⟩
  · split
    · exact (decTreeRev_sat hb _ _ _ _ _ st hst).bind fun r st' _ h => ⟨trivial, h⟩
    · exact (decDirect_sat hb _ _ st hst).bind fun h st' _ hst' =>
        (decTreeRev_sat hb _ _ _ _ _ st' hst').bind fun r st'' _ h => ⟨trivial, h⟩

/-- A packet, with its length in range: what a decoder can read (R142). -/
def Instr.decodedPacket : Instr → Prop
  | .lit _ => True
  | .matchDist len _ => 2 ≤ len ∧ len ≤ 273
  | .shortRep => True
  | .rep0 len => 2 ≤ len ∧ len ≤ 273
  | .rep1 len => 2 ≤ len ∧ len ≤ 273
  | .rep2 len => 2 ≤ len ∧ len ≤ 273
  | .rep3 len => 2 ≤ len ∧ len ≤ 273
  | .eos => True
  | _ => False

/-- What reading a packet can do: each bit read keeps `P`, errors leave `Q`, and the packet is one a decoder can read. -/
theorem decPacket_sat (hb : ∀ st r, P st → (bit st r).Sat (fun _ => True) P Q H) (hPQ : ∀ st, P st → Q st) (c : PacketCtx)
    (st : σ) (hst : P st) : (decPacket bit c st).Sat Instr.decodedPacket P Q H := by
  unfold decPacket
  refine (hb st _ hst).bind fun isMatch st _ hst => ?_
  cases isMatch with
  | false => exact (decLiteral_sat hb hPQ c st hst).bind fun b st _ h => ⟨trivial, h⟩
  | true =>
    refine (hb st _ hst).bind fun isRep st _ hst => ?_
    cases isRep with
    | false =>
      refine (decLen_sat hb _ _ st hst).bind fun len st hlen hst => ?_
      refine (decDist_sat hb len st hst).bind fun d st _ hst => ⟨?_, hst⟩
      unfold matchPacket
      split
      · trivial
      · exact hlen
    | true =>
      simp only [Bool.not_true, Bool.false_eq_true, if_false]
      split
      · exact hPQ st hst
      · refine (hb st _ hst).bind fun notRep0 st _ hst => ?_
        cases notRep0 with
        | false =>
          refine (hb st _ hst).bind fun long st _ hst => ?_
          cases long with
          | false => exact ⟨trivial, hst⟩
          | true => exact (decLen_sat hb _ _ st hst).bind fun len st hlen hst => ⟨hlen, hst⟩
        | true =>
          refine (hb st _ hst).bind fun notRep1 st _ hst => ?_
          cases notRep1 with
          | false => exact (decLen_sat hb _ _ st hst).bind fun len st hlen hst => ⟨hlen, hst⟩
          | true =>
            refine (hb st _ hst).bind fun notRep2 st _ hst => ?_
            exact (decLen_sat hb _ _ st hst).bind fun len st hlen hst => ⟨by cases notRep2 <;> exact hlen, hst⟩

end

end Sys2Proof
end

