-- ==== Sys2Proof/Laws/RangeCoder.lean ====
section
/-! SUPPORT. The range coder: what each primitive changes, and that it keeps the ranges of R38, R171 and R198. -/

namespace Sys2Proof.Machine

/-! ## Bit models (R222, R223) -/

theorem bitUpdate_one (p : Prob) : (bitUpdate p true).toNat = p.toNat - p.toNat / 32 := by
  have h := p.isLt
  simp only [bitUpdate, if_true, BitVec.toNat_sub, BitVec.toNat_ushiftRight, Nat.shiftRight_eq_div_pow]
  omega

theorem bitUpdate_zero (p : Prob) (h : 1 ≤ p.toNat) : (bitUpdate p false).toNat = p.toNat + (2048 - p.toNat) / 32 := by
  have h' := p.isLt
  simp only [bitUpdate, Bool.false_eq_true, if_false, BitVec.toNat_add, BitVec.toNat_ofNat]
  omega

theorem bitUpdate_inRange {p : Prob} (h : probInRange p) (b : Bool) : probInRange (bitUpdate p b) := by
  obtain ⟨h1, h2⟩ := h
  cases b with
  | true => rw [probInRange, bitUpdate_one]; omega
  | false => rw [probInRange, bitUpdate_zero p (by omega)]; omega

/-! ## The bound of a decision bit (R178, R185) -/

theorem rangeBound_toNat (range : Word) (p : Prob) : (rangeBound range p).toNat = range.toNat / 2048 * p.toNat := by
  have hr := range.isLt
  have hp := p.isLt
  have h1 : range.toNat / 2048 < 2 ^ 21 := by omega
  have h2 : range.toNat / 2048 * p.toNat < 2 ^ 21 * 2 ^ 11 := Nat.mul_lt_mul'' h1 hp
  simp only [rangeBound, BitVec.toNat_mul, BitVec.toNat_ushiftRight, Nat.shiftRight_eq_div_pow, BitVec.toNat_setWidth]
  rw [Nat.mod_eq_of_lt (a := p.toNat) (by omega), Nat.mod_eq_of_lt (by simpa using h2)]

/-- Neither side of the interval is empty, and each side is at least `2^13 * 31` (R178, R185). -/
theorem rangeBound_bounds {range : Word} {p : Prob} (hr : 2 ^ 24 ≤ range.toNat) (hp : probInRange p) :
    2 ^ 13 * 31 ≤ (rangeBound range p).toNat ∧ (rangeBound range p).toNat + 2 ^ 13 * 31 ≤ range.toNat := by
  obtain ⟨h1, h2⟩ := hp
  rw [rangeBound_toNat]
  have hq : 2 ^ 13 ≤ range.toNat / 2048 := by omega
  generalize hg : range.toNat / 2048 = q at *
  constructor
  · exact Nat.mul_le_mul hq h1
  · have h3 : q * p.toNat ≤ q * 2017 := Nat.mul_le_mul_left q h2
    omega

/-! ## Encoder primitives: frame -/

/-- What coding can change of an encoder channel: the range coder, the models, and bytes appended to the output FIFO. -/
def Encoder.coded (e e' : Encoder) : Prop :=
  ∃ re models bytes, e' = { e with re := re, models := models, out := e.out ++ bytes }

theorem Encoder.coded_refl (e : Encoder) : e.coded e := ⟨e.re, e.models, [], by simp⟩

theorem Encoder.coded_trans {e e' e'' : Encoder} (h1 : e.coded e') (h2 : e'.coded e'') : e.coded e'' := by
  obtain ⟨re, m, bs, rfl⟩ := h1
  obtain ⟨re', m', bs', rfl⟩ := h2
  exact ⟨re', m', bs ++ bs', by simp [List.append_assoc]⟩

theorem Encoder.shiftLow_coded (e : Encoder) : e.coded e.shiftLow := ⟨e.re.shift, e.models, e.re.shiftBytes, rfl⟩

theorem Encoder.normalize_coded (e : Encoder) : e.coded e.normalize := by
  unfold Encoder.normalize
  split
  · exact Encoder.coded_trans ⟨_, e.models, [], by simp; rfl⟩ (Encoder.shiftLow_coded _)
  · exact Encoder.coded_refl e

/-- Normalising after a change of the range coder and the models. -/
theorem Encoder.normalize_coded_of (e : Encoder) (re : RangeEnc) (models : Models) :
    e.coded (Encoder.normalize { e with re := re, models := models }) :=
  Encoder.coded_trans ⟨re, models, [], by rw [List.append_nil]⟩ (Encoder.normalize_coded _)

theorem Encoder.encBit_coded (e : Encoder) (r : ModelRef) (b : Bool) : e.coded (e.encBit r b) :=
  Encoder.normalize_coded_of e _ _

theorem Encoder.encDirectBit_coded (e : Encoder) (b : Bool) : e.coded (e.encDirectBit b) :=
  Encoder.normalize_coded_of e _ e.models

theorem Encoder.encDecision_coded (e : Encoder) (d : Decision) : e.coded (e.encDecision d) := by
  unfold Encoder.encDecision
  split
  · exact Encoder.encBit_coded e _ _
  · exact Encoder.encDirectBit_coded e _

theorem Encoder.encDecisions_coded (e : Encoder) (ds : List Decision) : e.coded (e.encDecisions ds) := by
  induction ds generalizing e with
  | nil => exact Encoder.coded_refl e
  | cons d ds ih => exact Encoder.coded_trans (Encoder.encDecision_coded e d) (ih (e.encDecision d))

theorem Encoder.flush_coded (e : Encoder) : e.coded e.flush := by
  unfold Encoder.flush
  exact Encoder.coded_trans (Encoder.shiftLow_coded _) <| Encoder.coded_trans (Encoder.shiftLow_coded _) <|
    Encoder.coded_trans (Encoder.shiftLow_coded _) <| Encoder.coded_trans (Encoder.shiftLow_coded _)
      (Encoder.shiftLow_coded _)

/-! ## Encoder primitives: R38 and R171 -/

theorem RangeEnc.shift_low (r : RangeEnc) : r.shift.low.toNat = r.low.toNat % 2 ^ 24 * 2 ^ 8 := by
  have : r.low.toNat % 2 ^ 24 * 2 ^ 8 < 2 ^ 33 := by omega
  simp only [RangeEnc.shift, BitVec.toNat_ofNat, Nat.mod_eq_of_lt this]

theorem Encoder.shiftLow_sound {e : Encoder} (h : e.codingSound) : e.shiftLow.codingSound := by
  refine ⟨h.1, h.2.1, ?_⟩
  show e.re.shift.low.toNat + e.re.range.toNat ≤ 2 ^ 33
  rw [RangeEnc.shift_low]
  have := e.re.range.isLt
  omega

theorem Word.shiftLeft8_toNat {v : Word} (h : v.toNat < 2 ^ 24) : (v <<< 8).toNat = v.toNat * 2 ^ 8 := by
  simp only [BitVec.toNat_shiftLeft, Nat.shiftLeft_eq]
  omega

/-- Normalising restores R171 from a range of at least `2^16` (R185). -/
theorem Encoder.normalize_sound {e : Encoder} (hm : e.models.sound) (hr : 2 ^ 16 ≤ e.re.range.toNat)
    (hl : e.re.low.toNat + e.re.range.toNat ≤ 2 ^ 33) : e.normalize.codingSound := by
  unfold Encoder.normalize
  split
  · rename_i ht
    have ht' : e.re.range.toNat < 2 ^ 24 := ht
    have hs : (e.re.range <<< 8).toNat = e.re.range.toNat * 2 ^ 8 := Word.shiftLeft8_toNat ht'
    refine ⟨hm, ?_, ?_⟩
    · show 2 ^ 24 ≤ (e.re.range <<< 8).toNat
      omega
    · show (RangeEnc.shift { e.re with range := e.re.range <<< 8 }).low.toNat + (e.re.range <<< 8).toNat ≤ 2 ^ 33
      rw [RangeEnc.shift_low]
      have := (e.re.range <<< 8).isLt
      omega
  · rename_i ht
    have ht' : ¬ e.re.range.toNat < 2 ^ 24 := ht
    exact ⟨hm, by omega, hl⟩

theorem Encoder.encBit_sound {e : Encoder} (h : e.codingSound) (r : ModelRef) (b : Bool) : (e.encBit r b).codingSound := by
  obtain ⟨hm, hr, hl⟩ := h
  have hp := Models.get_inRange hm r
  obtain ⟨hb1, hb2⟩ := rangeBound_bounds hr hp
  unfold Encoder.encBit
  refine Encoder.normalize_sound (Models.set_sound r hm (bitUpdate_inRange hp b)) ?_ ?_
  · cases b with
    | false => show 2 ^ 16 ≤ (rangeBound e.re.range (e.models.get r)).toNat; omega
    | true =>
      show 2 ^ 16 ≤ (e.re.range - rangeBound e.re.range (e.models.get r)).toNat
      rw [BitVec.toNat_sub_of_le (by rw [BitVec.le_def]; omega)]; omega
  · cases b with
    | false =>
      show e.re.low.toNat + (rangeBound e.re.range (e.models.get r)).toNat ≤ 2 ^ 33
      omega
    | true =>
      show (e.re.low + (rangeBound e.re.range (e.models.get r)).setWidth 33).toNat +
        (e.re.range - rangeBound e.re.range (e.models.get r)).toNat ≤ 2 ^ 33
      rw [BitVec.toNat_sub_of_le (by rw [BitVec.le_def]; omega), BitVec.toNat_add, BitVec.toNat_setWidth]
      omega

theorem Encoder.encDirectBit_sound {e : Encoder} (h : e.codingSound) (b : Bool) : (e.encDirectBit b).codingSound := by
  obtain ⟨hm, hr, hl⟩ := h
  have hh : (e.re.range >>> 1).toNat = e.re.range.toNat / 2 := by simp [Nat.shiftRight_eq_div_pow]
  unfold Encoder.encDirectBit
  refine Encoder.normalize_sound hm ?_ ?_
  · show 2 ^ 16 ≤ (e.re.range >>> 1).toNat
    omega
  · cases b with
    | false =>
      show e.re.low.toNat + (e.re.range >>> 1).toNat ≤ 2 ^ 33
      omega
    | true =>
      show (e.re.low + (e.re.range >>> 1).setWidth 33).toNat + (e.re.range >>> 1).toNat ≤ 2 ^ 33
      rw [BitVec.toNat_add, BitVec.toNat_setWidth]
      omega

theorem Encoder.encDecisions_sound {e : Encoder} (h : e.codingSound) (ds : List Decision) :
    (e.encDecisions ds).codingSound := by
  induction ds generalizing e with
  | nil => exact h
  | cons d ds ih =>
    refine ih (e := e.encDecision d) ?_
    unfold Encoder.encDecision
    split
    · exact Encoder.encBit_sound h _ _
    · exact Encoder.encDirectBit_sound h _

theorem Encoder.flush_sound {e : Encoder} (h : e.codingSound) : e.flush.codingSound := by
  unfold Encoder.flush
  exact Encoder.shiftLow_sound (Encoder.shiftLow_sound (Encoder.shiftLow_sound (Encoder.shiftLow_sound
    (Encoder.shiftLow_sound h))))

/-! ## Decoder primitives: frame -/

/-- What fetching can change of a decoder channel: the range decoder, the models, and the input FIFO, from whose head bytes are
taken that both input counters count. -/
def Decoder.fetched (d d' : Decoder) : Prop :=
  ∃ rd models bytes, d.inp = bytes ++ d'.inp ∧
    d' = { d with
      rd := rd, models := models, inp := d'.inp
      memberPosition := d.memberPosition + BitVec.ofNat 64 bytes.length
      totalIn := d.totalIn + BitVec.ofNat 64 bytes.length }

theorem Decoder.fetched_coder (d : Decoder) (rd : RangeDec) (models : Models) :
    d.fetched { d with rd := rd, models := models } :=
  ⟨rd, models, [], rfl, by rw [List.length_nil, BitVec.add_zero, BitVec.add_zero]⟩

theorem Decoder.fetched_refl (d : Decoder) : d.fetched d := Decoder.fetched_coder d d.rd d.models

theorem Decoder.fetched_trans {d d' d'' : Decoder} (h1 : d.fetched d') (h2 : d'.fetched d'') : d.fetched d'' := by
  obtain ⟨rd, m, bs, h, he⟩ := h1
  obtain ⟨rd', m', bs', h', he'⟩ := h2
  refine ⟨rd', m', bs ++ bs', by rw [h, h', List.append_assoc], ?_⟩
  rw [he', he]
  simp only [List.length_append, BitVec.ofNat_add, BitVec.add_assoc]

theorem Decoder.rdByte_fetched (d : Decoder) : d.rdByte.Sat (fun _ => True) d.fetched d.fetched := by
  unfold Decoder.rdByte
  split
  · split
    · exact Decoder.fetched_refl d
    · trivial
  · rename_i b rest hinp
    split
    · exact ⟨trivial, d.rd, d.models, [b], by rw [hinp]; rfl, rfl⟩
    · exact Decoder.fetched_refl d

theorem Decoder.check_fetched (d : Decoder) : d.check.Sat (fun _ => True) d.fetched d.fetched := by
  unfold Decoder.check
  split
  · exact ⟨trivial, Decoder.fetched_refl d⟩
  · exact Decoder.fetched_refl d

/-- Two fetching operations in a row. -/
theorem Decoder.fetched_bind {α β : Type} {d : Decoder} {V : α → Prop} {W : β → Prop} {x : Src Decoder α}
    {f : α → Decoder → Src Decoder β} (hx : x.Sat V d.fetched d.fetched)
    (hf : ∀ a d', V a → (f a d').Sat W d'.fetched d'.fetched) : (x.bind f).Sat W d.fetched d.fetched :=
  hx.bind fun a d' hv hd => (hf a d' hv).mono (fun _ h => h) (fun _ h => Decoder.fetched_trans hd h)
    (fun _ h => Decoder.fetched_trans hd h)

/-- A fetching operation after a change of the coder. -/
theorem Decoder.fetched_of_coder {α : Type} {V : α → Prop} {d : Decoder} {rd : RangeDec} {models : Models} {x : Src Decoder α}
    (hx : x.Sat V (Decoder.fetched { d with rd := rd, models := models })
      (Decoder.fetched { d with rd := rd, models := models })) : x.Sat V d.fetched d.fetched :=
  hx.mono (fun _ h => h) (fun _ h => Decoder.fetched_trans (Decoder.fetched_coder d rd models) h)
    (fun _ h => Decoder.fetched_trans (Decoder.fetched_coder d rd models) h)

theorem Decoder.normalize_fetched (d : Decoder) : d.normalize.Sat (fun _ => True) d.fetched d.fetched := by
  unfold Decoder.normalize
  split
  · exact Decoder.fetched_of_coder (models := d.models) (Decoder.fetched_bind (Decoder.rdByte_fetched _) fun b d' _ =>
      Decoder.fetched_of_coder (models := d'.models) (Decoder.check_fetched _))
  · exact Decoder.check_fetched d

theorem rangeBit_fetched (d : Decoder) (r : Option ModelRef) : (rangeBit d r).Sat (fun _ => True) d.fetched d.fetched := by
  unfold rangeBit
  split
  · exact Decoder.fetched_of_coder (Decoder.fetched_bind (Decoder.normalize_fetched _) fun _ d' _ =>
      ⟨trivial, Decoder.fetched_refl d'⟩)
  · exact Decoder.fetched_of_coder (models := d.models) (Decoder.fetched_bind (Decoder.normalize_fetched _) fun _ d' _ =>
      ⟨trivial, Decoder.fetched_refl d'⟩)

/-- What the fetch of a packet can do: only fetch, and read a packet. -/
theorem Decoder.fetch_fetched (p : Params) (d : Decoder) : (d.fetch p).Sat Instr.decodedPacket d.fetched d.fetched := by
  unfold Decoder.fetch
  split
  · refine decPacket_sat (P := d.fetched) (Q := d.fetched) (fun d' r h => ?_) (fun _ h => h) d.ctx d (Decoder.fetched_refl d)
    exact (rangeBit_fetched d' r).mono (fun _ h => h) (fun _ h' => Decoder.fetched_trans h h')
      (fun _ h' => Decoder.fetched_trans h h')
  · trivial

theorem Decoder.rcLoad_fetched (d : Decoder) : d.rcLoad.Sat (fun _ => True) d.fetched d.fetched := by
  have hload : ∀ d : Decoder, d.loadByte.Sat (fun _ => True) d.fetched d.fetched := fun d =>
    Decoder.fetched_bind (Decoder.rdByte_fetched d) fun b d' _ => ⟨trivial, Decoder.fetched_coder d' _ d'.models⟩
  unfold Decoder.rcLoad
  refine Decoder.fetched_of_coder (models := d.models) (Decoder.fetched_bind (Decoder.rdByte_fetched _) fun b d' _ => ?_)
  split
  · exact Decoder.fetched_refl d'
  · exact Decoder.fetched_bind (hload d') fun _ d' _ => Decoder.fetched_bind (hload d') fun _ d' _ =>
      Decoder.fetched_bind (hload d') fun _ d' _ => Decoder.fetched_bind (hload d') fun _ d' _ => Decoder.check_fetched d'

/-! ## Holds (R20, R191): the decoder waits for a byte only while `finish` has not been given -/

section

variable {f : Bool} {d : Decoder}

theorem Decoder.rdByte_hold (hd : d.finishing = f) :
    d.rdByte.Sat (fun _ => True) (·.finishing = f) (·.finishing = f) (f = false) := by
  unfold Decoder.rdByte
  split
  · split
    · exact hd
    · rename_i hf
      show f = false
      rw [← hd]; simpa using hf
  · split
    · exact ⟨trivial, hd⟩
    · exact hd

theorem Decoder.check_hold (hd : d.finishing = f) :
    d.check.Sat (fun _ => True) (·.finishing = f) (·.finishing = f) (f = false) := by
  unfold Decoder.check
  split
  · exact ⟨trivial, hd⟩
  · exact hd

theorem Decoder.normalize_hold (hd : d.finishing = f) :
    d.normalize.Sat (fun _ => True) (·.finishing = f) (·.finishing = f) (f = false) := by
  unfold Decoder.normalize
  split
  · exact Src.Sat.bind (V := fun _ => True) (P := (·.finishing = f)) (Decoder.rdByte_hold (by exact hd))
      fun b d' _ h => Decoder.check_hold (by exact h)
  · exact Decoder.check_hold hd

theorem rangeBit_hold (hd : d.finishing = f) (r : Option ModelRef) :
    (rangeBit d r).Sat (fun _ => True) (·.finishing = f) (·.finishing = f) (f = false) := by
  unfold rangeBit
  split <;> exact Src.Sat.bind (V := fun _ => True) (P := (·.finishing = f)) (Decoder.normalize_hold (by exact hd)) fun _ d' _ h => And.intro trivial h

/-- A packet step holds for want of output room, or of input that may still come. -/
theorem Decoder.fetch_hold {p : Params} (h : d.fetch p = .hold) : d.hasRoom p = false ∨ d.finishing = false := by
  unfold Decoder.fetch at h
  split at h
  · have := decPacket_sat (P := (·.finishing = d.finishing)) (Q := (·.finishing = d.finishing)) (H := d.finishing = false)
      (fun d' r hd => rangeBit_hold hd r) (fun _ h => h) d.ctx d rfl
    rw [h] at this
    exact .inr this
  · rename_i hr
    exact .inl (by simpa using hr)

end

/-! ## Decoder primitives: R38 and R198 -/

/-- The decoder's models and range decoder are sound, as in a payload. -/
def Decoder.decoding (d : Decoder) : Prop :=
  d.models.sound ∧ 2 ^ 24 ≤ d.rd.range.toNat ∧ d.rd.code.toNat < d.rd.range.toNat

theorem Decoder.check_decoding {d : Decoder} (hm : d.models.sound) (hr : 2 ^ 24 ≤ d.rd.range.toNat) :
    d.check.Sat (fun _ => True) Decoder.decoding (fun d => d.models.sound) := by
  unfold Decoder.check
  split
  · rename_i hc; exact ⟨trivial, hm, hr, hc⟩
  · exact hm

theorem Decoder.normalize_decoding {d : Decoder} (hm : d.models.sound) (hr : 2 ^ 16 ≤ d.rd.range.toNat) :
    d.normalize.Sat (fun _ => True) Decoder.decoding (fun d => d.models.sound) := by
  unfold Decoder.normalize
  split
  · rename_i ht
    have ht' : d.rd.range.toNat < 2 ^ 24 := ht
    have hrd : (Decoder.rdByte { d with rd := { d.rd with range := d.rd.range <<< 8 } }).Sat (fun _ => True)
        (fun d' => d'.models = d.models ∧ d'.rd.range = d.rd.range <<< 8)
        (fun d' => d'.models = d.models ∧ d'.rd.range = d.rd.range <<< 8) := by
      unfold Decoder.rdByte
      split
      · split
        · exact ⟨rfl, rfl⟩
        · trivial
      · split
        · exact ⟨trivial, rfl, rfl⟩
        · exact ⟨rfl, rfl⟩
    refine (hrd.mono (fun _ h => h) (fun _ h => h) (fun d' h => by rw [h.1]; exact hm)).bind fun b d' _ h => ?_
    refine Decoder.check_decoding (by rw [h.1]; exact hm) ?_
    show 2 ^ 24 ≤ d'.rd.range.toNat
    rw [h.2, Word.shiftLeft8_toNat ht']
    omega
  · rename_i ht
    have ht' : ¬ d.rd.range.toNat < 2 ^ 24 := ht
    exact Decoder.check_decoding hm (by omega)

theorem rangeBit_decoding {d : Decoder} (h : d.decoding) (r : Option ModelRef) :
    (rangeBit d r).Sat (fun _ => True) Decoder.decoding (fun d => d.models.sound) := by
  obtain ⟨hm, hr, hc⟩ := h
  unfold rangeBit
  split
  · rename_i r
    have hp := Models.get_inRange hm r
    obtain ⟨hb1, hb2⟩ := rangeBound_bounds hr hp
    refine (Decoder.normalize_decoding (Models.set_sound r hm (bitUpdate_inRange hp _)) ?_).bind
      fun _ d' _ h => ⟨trivial, h⟩
    show 2 ^ 16 ≤ (RangeDec.range (if _ then _ else _)).toNat
    split
    · show 2 ^ 16 ≤ (d.rd.range - rangeBound d.rd.range (d.models.get r)).toNat
      rw [BitVec.toNat_sub_of_le (by rw [BitVec.le_def]; omega)]; omega
    · show 2 ^ 16 ≤ (rangeBound d.rd.range (d.models.get r)).toNat
      omega
  · have hh : (d.rd.range >>> 1).toNat = d.rd.range.toNat / 2 := by simp [Nat.shiftRight_eq_div_pow]
    refine Src.Sat.bind (V := fun _ => True) (P := Decoder.decoding) (Decoder.normalize_decoding hm ?_)
      fun _ d' _ h => ⟨trivial, h⟩
    show 2 ^ 16 ≤ (d.rd.range >>> 1).toNat
    simp only [BitVec.toNat_ushiftRight, Nat.shiftRight_eq_div_pow]
    omega

theorem Decoder.fetch_decoding {d : Decoder} (p : Params) (h : d.decoding) :
    (d.fetch p).Sat Instr.decodedPacket Decoder.decoding (fun d => d.models.sound) := by
  unfold Decoder.fetch
  split
  · exact decPacket_sat (fun d' r h => rangeBit_decoding h r) (fun _ h => h.1) d.ctx d h
  · trivial

end Sys2Proof.Machine
end

