-- ==== Sys2Proof/Laws/Packets.lean ====
section
/-! SUPPORT. What a packet can do: the copies of both sides, the decoder's execution of a packet, and the encoder's coding of
one. -/

namespace Sys2Proof.Machine

/-! ## Decoder -/

theorem U64.add_ofNat_succ (v : U64) (n : Nat) : v + 1#64 + BitVec.ofNat 64 n = v + BitVec.ofNat 64 (n + 1) := by
  apply BitVec.eq_of_toNat_eq
  simp only [BitVec.toNat_add, BitVec.toNat_ofNat]
  omega

theorem U64.toNat_add_one {v : U64} (h : v.toNat + 1 < 2 ^ 64) : (v + 1#64).toNat = v.toNat + 1 := by
  simp only [BitVec.toNat_add, BitVec.toNat_ofNat]
  omega

theorem Decoder.produced_emit {d : Decoder} (b : Byte) (bytes : List Byte) (h : d.lz.dataPosition.toNat + 1 < 2 ^ 64) :
    (d.emit b).produced (d.emit b).lz bytes = d.produced d.lz (b :: bytes) := by
  unfold Decoder.produced Decoder.emit
  simp only [U64.add_ofNat_succ, Memory.writeList, List.length_cons, List.foldl_cons, List.append_assoc, List.singleton_append,
    U64.toNat_add_one h]

/-- A copy from a distance inside the dictionary succeeds and produces its bytes (R254). -/
theorem Decoder.emitCopy_spec (dist n : Nat) (d : Decoder) (hw : d.history.map Prod.fst = List.range d.lz.dataPosition.toNat)
    (hd : dist < d.lz.dataPosition.toNat) (hs : dist < d.dictionarySize.toNat) (hn : d.lz.dataPosition.toNat + n < 2 ^ 64) :
    ∃ bytes, bytes.length = n ∧ isCopy d.history d.lz.dataPosition.toNat dist bytes ∧
      Decoder.emitCopy dist n d = .ok () (d.produced d.lz bytes) := by
  induction n generalizing d with
  | zero =>
    refine ⟨[], rfl, fun k hk => absurd hk (Nat.not_lt_zero k), ?_⟩
    simp [Decoder.emitCopy, Decoder.produced, Memory.writeList]
  | succ n ih =>
    obtain ⟨b, hb⟩ := winRead_isSome hw (Nat.le_refl _) hd hs
    have hdp : (d.emit b).lz.dataPosition.toNat = d.lz.dataPosition.toNat + 1 := U64.toNat_add_one (by omega)
    have hw' : (d.emit b).history.map Prod.fst = List.range (d.emit b).lz.dataPosition.toNat := by
      rw [hdp]; exact Memory.write_end b hw
    obtain ⟨bytes, hl, hc, he⟩ := ih (d.emit b) hw' (by rw [hdp]; omega) hs (by rw [hdp]; omega)
    have hb' : d.history.read (d.lz.dataPosition.toNat - dist - 1) = some b := by
      unfold Machine.winRead at hb; rwa [if_pos ⟨hd, hs⟩] at hb
    refine ⟨b :: bytes, by rw [List.length_cons, hl], fun k hk => ?_, ?_⟩
    · cases k with
      | zero =>
        rw [Memory.read_writeList, if_neg (by omega)]
        exact hb'.symm
      | succ k =>
        rw [List.getElem?_cons_succ, hc k (by simpa using hk), hdp, Memory.writeList]
        show ((d.history.write _ b).writeList _ bytes).read _ = _
        congr 1
        omega
    · rw [← Decoder.produced_emit b bytes (by omega), ← he]
      simp only [Decoder.emitCopy, Decoder.winRead, hb]

/-- The executing side of a packet whose bytes its emission produces. -/
theorem Decoder.execute_copy {d : Decoder} {n dist : Nat} {lz : Lzma → Lzma}
    (hlz : (lz d.lz).dataPosition = d.lz.dataPosition)
    (hw : d.history.map Prod.fst = List.range d.lz.dataPosition.toNat) (hd : dist < d.lz.dataPosition.toNat)
    (hs : dist < d.dictionarySize.toNat) (hn : d.lz.dataPosition.toNat + n < 2 ^ 64) (ht : d.totalOut.toNat + n < 2 ^ 64) :
    ∃ bytes, bytes.length = n ∧ isCopy d.history d.lz.dataPosition.toNat dist bytes ∧
      d.execute lz n (Decoder.emitCopy dist n) = .ok () (d.produced (lz d.lz) bytes) := by
  obtain ⟨bytes, h1, h2, h3⟩ := Decoder.emitCopy_spec dist n { d with lz := lz d.lz } (by simpa [hlz] using hw)
    (by simpa [hlz] using hd) hs (by simpa [hlz] using hn)
  refine ⟨bytes, h1, by simpa [hlz] using h2, ?_⟩
  unfold Decoder.execute
  rw [if_pos (by unfold Decoder.countersHold; rw [Bool.and_eq_true]; exact ⟨decide_eq_true hn, decide_eq_true ht⟩), h3]
  unfold Decoder.produced
  simp only [hlz]

/-- What the executing side of a packet of `n` bytes can change of a decoder channel: the LZMA registers, the history, the CRC
and the output counter; it appends at most `n` bytes to the output FIFO; the marker moves the part. -/
def Decoder.executed (n : Nat) (d d' : Decoder) : Prop :=
  ∃ lz history crc bytes totalOut part, bytes.length ≤ n ∧
    d' = { d with lz := lz, history := history, crc := crc, out := d.out ++ bytes, totalOut := totalOut, part := part }

/-- The same, when the packet succeeds: all its bytes. -/
def Decoder.completed (n : Nat) (d d' : Decoder) : Prop :=
  ∃ lz history crc bytes totalOut, bytes.length = n ∧
    d' = { d with lz := lz, history := history, crc := crc, out := d.out ++ bytes, totalOut := totalOut }

theorem Decoder.executed_refl (n : Nat) (d : Decoder) : d.executed n d :=
  ⟨d.lz, d.history, d.crc, [], d.totalOut, d.part, Nat.zero_le n, by simp⟩

theorem Decoder.emitCopy_frame (dist n : Nat) (d : Decoder) :
    (Decoder.emitCopy dist n d).Sat (fun _ => True) (d.completed n) (d.executed n) False := by
  induction n generalizing d with
  | zero => exact ⟨trivial, d.lz, d.history, d.crc, [], d.totalOut, rfl, by simp⟩
  | succ n ih =>
    unfold Decoder.emitCopy
    split
    · rename_i b hb
      refine (ih (d.emit b)).mono (fun _ h => h) (fun d' h => ?_) (fun d' h => ?_)
      · obtain ⟨lz, history, crc, bytes, total, hl, he⟩ := h
        exact ⟨lz, history, crc, b :: bytes, total, by rw [List.length_cons, hl], by rw [he]; simp [Decoder.emit]⟩
      · obtain ⟨lz, history, crc, bytes, total, part, hl, he⟩ := h
        exact ⟨lz, history, crc, b :: bytes, total, part, by rw [List.length_cons]; omega, by rw [he]; simp [Decoder.emit]⟩
    · exact Decoder.executed_refl _ d

theorem Decoder.execute_frame {d : Decoder} {lz : Lzma → Lzma} {n : Nat} {emit : Decoder → Src Decoder Unit}
    (h : ∀ d, (emit d).Sat (fun _ => True) (d.completed n) (d.executed n) False) :
    (d.execute lz n emit).Sat (fun _ => True) (d.completed n) (d.executed n) False := by
  unfold Decoder.execute
  split
  · exact h _
  · exact Decoder.executed_refl n d

theorem Decoder.executeRep_frame (d : Decoder) (lz : Lzma → Lzma) (n : Nat) :
    (d.executeRep lz n).Sat (fun _ => True) (d.completed n) (d.executed n) False := by
  unfold Decoder.executeRep
  split
  · exact Decoder.executed_refl n d
  · exact Decoder.execute_frame fun d => Decoder.emitCopy_frame _ n d

theorem Decoder.executeMatch_frame (d : Decoder) (len : Nat) (dist : Word) :
    (d.executeMatch len dist).Sat (fun _ => True) (d.completed len) (d.executed len) False := by
  unfold Decoder.executeMatch
  split
  · exact Decoder.executed_refl len d
  · split
    · exact Decoder.executed_refl len d
    · exact Decoder.execute_frame fun d => Decoder.emitCopy_frame _ len d

/-- The number of plaintext bytes a packet stands for (R280). -/
def packetLength : Instr → Nat
  | .lit _ => 1
  | .matchDist len _ => len
  | .shortRep => 1
  | .rep0 len => len
  | .rep1 len => len
  | .rep2 len => len
  | .rep3 len => len
  | _ => 0

/-- EVERYTHING A PACKET CAN DO on a decoder channel: it completes, the marker ends the payload, or it fails and the channel is
Fatal. -/
theorem exec_packet_decoder {s : State} {r : Run} {d : Decoder} {i : Instr} (hr : s.running = some r)
    (hc : s.chan r.chan = .dec d) (hi : isPacket i = true) :
    ∃ d', exec i s = .next (s.setChan r.chan (.dec d')) ∧
      ((i ≠ .eos ∧ d.completed (packetLength i) d') ∨ (i = .eos ∧ d' = { d with part := .trailer }) ∨
        ∃ err d1, d.executed (packetLength i) d1 ∧ d' = d1.enterFatal err) := by
  have key : ∀ (onEnc : Params → Encoder → Option Encoder) (onDec : Decoder → Src Decoder Unit) (n : Nat),
      (onDec d).Sat (fun _ => True) (d.completed n) (d.executed n) False →
      ∃ d', runPacket s onEnc onDec = .next (s.setChan r.chan (.dec d')) ∧
        (d.completed n d' ∨ ∃ err d1, d.executed n d1 ∧ d' = d1.enterFatal err) := by
    intro onEnc onDec n h
    unfold runPacket
    simp only [hr, hc]
    cases hx : onDec d with
    | ok u d' => rw [hx] at h; exact ⟨d', rfl, .inl h.2⟩
    | hold => rw [hx] at h; exact h.elim
    | raise err d1 => rw [hx] at h; exact ⟨_, rfl, .inr ⟨err, d1, h, rfl⟩⟩
  have use : ∀ (onEnc : Params → Encoder → Option Encoder) (onDec : Decoder → Src Decoder Unit), i ≠ .eos →
      exec i s = runPacket s onEnc onDec →
      (onDec d).Sat (fun _ => True) (d.completed (packetLength i)) (d.executed (packetLength i)) False →
      ∃ d', exec i s = .next (s.setChan r.chan (.dec d')) ∧
        ((i ≠ .eos ∧ d.completed (packetLength i) d') ∨ (i = .eos ∧ d' = { d with part := .trailer }) ∨
          ∃ err d1, d.executed (packetLength i) d1 ∧ d' = d1.enterFatal err) := by
    intro onEnc onDec hne hx h
    obtain ⟨d', h1, h2⟩ := key onEnc onDec (packetLength i) h
    exact ⟨d', by rw [hx, h1], h2.imp (fun h => ⟨hne, h⟩) .inr⟩
  cases i
  case lit c =>
    refine use _ _ (by simp) (show execLit c s = _ from rfl) (Decoder.execute_frame fun d => ?_)
    exact ⟨trivial, _, _, _, [c], _, rfl, rfl⟩
  case matchDist len dist =>
    exact use _ _ (by simp) (show execMatchDist len dist s = _ from rfl) (Decoder.executeMatch_frame d len dist)
  case shortRep => exact use _ _ (by simp) (show execShortRep s = _ from rfl) (Decoder.executeRep_frame d _ 1)
  case rep0 len => exact use _ _ (by simp) (show execRep0 len s = _ from rfl) (Decoder.executeRep_frame d _ len)
  case rep1 len => exact use _ _ (by simp) (show execRep1 len s = _ from rfl) (Decoder.executeRep_frame d _ len)
  case rep2 len => exact use _ _ (by simp) (show execRep2 len s = _ from rfl) (Decoder.executeRep_frame d _ len)
  case rep3 len => exact use _ _ (by simp) (show execRep3 len s = _ from rfl) (Decoder.executeRep_frame d _ len)
  case eos =>
    have hx : exec .eos s = _ := show execEos s = runPacket s _ _ from rfl
    by_cases h : d.rd.code = 0#32
    · refine ⟨{ d with part := .trailer }, ?_, .inr (.inl ⟨rfl, rfl⟩)⟩
      rw [hx]
      unfold runPacket Decoder.executeEos
      simp only [hr, hc, h, ne_eq, not_true_eq_false, if_false]
    · refine ⟨d.enterFatal .dataError, ?_, .inr (.inr ⟨_, d, Decoder.executed_refl _ d, rfl⟩)⟩
      rw [hx]
      unfold runPacket Decoder.executeEos
      simp only [hr, hc, h, ne_eq, not_false_eq_true, if_true]
  all_goals exact absurd hi (by simp [isPacket])

/-! ## Encoder -/

/-- A copy of the next bytes succeeds and covers them (R254, R291). -/
theorem Encoder.emitCopy_spec (dist n : Nat) (e : Encoder) (hc : e.copiesNext n dist) (hd : dist < e.lz.dataPosition.toNat)
    (hs : dist < e.dictionarySize.toNat) (hn : e.lz.dataPosition.toNat + n < 2 ^ 64) :
    ∃ cyc bytes, bytes.length = n ∧ e.nextBytes bytes ∧ Encoder.emitCopy dist n e = some { e with
      crc := bytes.foldl crcUpdate e.crc
      lz := { e.lz with dataPosition := e.lz.dataPosition + BitVec.ofNat 64 n }
      cyclicPos := cyc } := by
  induction n generalizing e with
  | zero =>
    refine ⟨e.cyclicPos, [], rfl, fun k hk => absurd hk (Nat.not_lt_zero k), ?_⟩
    simp [Encoder.emitCopy]
  | succ n ih =>
    obtain ⟨b, hb1, hb2⟩ := hc 0 (Nat.succ_pos n)
    have hdp : (e.emit b).lz.dataPosition.toNat = e.lz.dataPosition.toNat + 1 := U64.toNat_add_one (by omega)
    have hc' : (e.emit b).copiesNext n dist := fun k hk => by
      obtain ⟨x, h1, h2⟩ := hc (k + 1) (by omega)
      refine ⟨x, ?_, ?_⟩
      · rw [hdp, ← h1]; show e.window.read _ = _; congr 1; omega
      · rw [hdp, ← h2]; show e.window.read _ = _; congr 1; omega
    obtain ⟨cyc, bytes, hl, hb, he⟩ := ih (e.emit b) hc' (by rw [hdp]; omega) hs (by rw [hdp]; omega)
    have hr : winRead e.window e.lz.dataPosition.toNat e.dictionarySize.toNat dist = some b := by
      unfold Machine.winRead; rw [if_pos ⟨hd, hs⟩]; exact hb2
    refine ⟨cyc, b :: bytes, by rw [List.length_cons, hl], fun k hk => ?_, ?_⟩
    · cases k with
      | zero => exact hb1
      | succ k =>
        rw [List.getElem?_cons_succ, ← hb k (by simpa using hk), hdp]
        show e.window.read _ = e.window.read _
        congr 1; omega
    · simp only [Encoder.emitCopy, hr, he, Option.some.injEq]
      simp [Encoder.emit, U64.add_ofNat_succ]

/-- Coding decisions leaves the LZMA registers, the window and what else a packet needs. -/
theorem Encoder.encDecisions_frame (e : Encoder) (ds : List Decision) :
    ∃ re models bytes, e.encDecisions ds = { e with re := re, models := models, out := e.out ++ bytes } :=
  Encoder.encDecisions_coded e ds

/-- The encoder side of a legal packet whose bytes its emission covers (R290). -/
theorem Encoder.codePacket_spec {p : Params} {e : Encoder} {i : Instr} {lz : Lzma → Lzma}
    {emit : Encoder → Option Encoder} {bytes : List Byte}
    (hl : e.legalPacket p i = true) (hlz : ∀ x, (lz x).dataPosition = x.dataPosition)
    (hemit : ∀ e1 : Encoder, e1.window = e.window → e1.lz = lz e.lz → e1.dictionarySize = e.dictionarySize →
      ∃ cyc, emit e1 = some { e1 with
        crc := bytes.foldl crcUpdate e1.crc
        lz := { e1.lz with dataPosition := e1.lz.dataPosition + BitVec.ofNat 64 bytes.length }
        cyclicPos := cyc }) :
    ∃ cyc, e.codePacket p i lz emit = some (e.covered (packetDecisions e.ctx i) (lz e.lz) bytes cyc) := by
  obtain ⟨re, models, more, hd⟩ := Encoder.encDecisions_frame e (packetDecisions e.ctx i)
  unfold Encoder.codePacket
  rw [if_pos hl]
  simp only
  obtain ⟨cyc, he⟩ := hemit { e.encDecisions (packetDecisions e.ctx i) with
    lz := lz (e.encDecisions (packetDecisions e.ctx i)).lz } (by rw [hd]) (by rw [hd]) (by rw [hd])
  refine ⟨cyc, ?_⟩
  rw [he]
  unfold Encoder.covered
  rw [hd]
  simp only [hlz]

/-- An encoder's copies, from its own window. -/
theorem Encoder.copiesNext_of_matchLength {e : Encoder} {n dist : Nat} (hd : dist < e.lz.dataPosition.toNat)
    (h : matchLength e.window e.lz.dataPosition.toNat (e.lz.dataPosition.toNat - dist - 1) n = n) : e.copiesNext n dist := by
  intro k hk
  obtain ⟨b, h1, h2⟩ := matchLength_eq_iff.1 h k hk
  exact ⟨b, h1, by rw [← h2]; congr 1; omega⟩

theorem Encoder.matchLength_of_copiesNext {e : Encoder} {n dist : Nat} (hd : dist < e.lz.dataPosition.toNat)
    (h : e.copiesNext n dist) :
    matchLength e.window e.lz.dataPosition.toNat (e.lz.dataPosition.toNat - dist - 1) n = n := by
  rw [matchLength_eq_iff]
  intro k hk
  obtain ⟨b, h1, h2⟩ := h k hk
  exact ⟨b, h1, by rw [← h2]; congr 1; omega⟩

theorem Encoder.copyAgrees_iff {e : Encoder} {n : Nat} {dist : Word} :
    e.copyAgrees n dist = true ↔
      dist.toNat < e.lz.dataPosition.toNat ∧ dist.toNat < e.dictionarySize.toNat ∧ e.copiesNext n dist.toNat := by
  unfold Encoder.copyAgrees
  simp only [Bool.and_eq_true, decide_eq_true_eq]
  constructor
  · rintro ⟨⟨h1, h2⟩, h3⟩
    exact ⟨h1, h2, Encoder.copiesNext_of_matchLength h1 h3⟩
  · rintro ⟨h1, h2, h3⟩
    exact ⟨⟨h1, h2⟩, Encoder.matchLength_of_copiesNext h1 h3⟩

/-- The bytes of a copy are determined by the window. -/
theorem Encoder.nextBytes_unique {e : Encoder} {a b : List Byte} (ha : e.nextBytes a) (hb : e.nextBytes b)
    (h : a.length = b.length) : a = b := by
  apply List.ext_getElem?
  intro k
  by_cases hk : k < a.length
  · rw [← ha k hk, ← hb k (by omega)]
  · rw [List.getElem?_eq_none (by omega), List.getElem?_eq_none (by omega)]

/-- The encoder side of a legal packet that copies (R271 to R276, R290). -/
theorem Encoder.codePacket_copy {p : Params} {e : Encoder} {i : Instr} {lz : Lzma → Lzma} {n : Nat} {dist : Encoder → Word}
    {dw : Word} (hl : e.legalPacket p i = true) (hlz : ∀ x, (lz x).dataPosition = x.dataPosition)
    (hdist : ∀ e1 : Encoder, e1.lz = lz e.lz → dist e1 = dw) (hd : dw.toNat < e.lz.dataPosition.toNat)
    (hs : dw.toNat < e.dictionarySize.toNat) (hc : e.copiesNext n dw.toNat) (hla : n ≤ e.lookahead) :
    ∃ cyc bytes, bytes.length = n ∧ e.nextBytes bytes ∧
      e.codePacket p i lz (fun e => Encoder.emitCopy (dist e).toNat n e) =
        some (e.covered (packetDecisions e.ctx i) (lz e.lz) bytes cyc) := by
  have hlt : e.lz.dataPosition.toNat + n < 2 ^ 64 := by
    have := e.streamPos.isLt
    unfold Encoder.lookahead at hla
    have := e.lz.dataPosition.isLt
    omega
  have main : ∀ e1 : Encoder, e1.window = e.window → e1.lz = lz e.lz → e1.dictionarySize = e.dictionarySize →
      ∃ cyc bytes, bytes.length = n ∧ e.nextBytes bytes ∧ Encoder.emitCopy dw.toNat n e1 = some { e1 with
        crc := bytes.foldl crcUpdate e1.crc
        lz := { e1.lz with dataPosition := e1.lz.dataPosition + BitVec.ofNat 64 n }
        cyclicPos := cyc } := by
    intro e1 h1 h2 h3
    have hdp : e1.lz.dataPosition = e.lz.dataPosition := by rw [h2, hlz]
    obtain ⟨cyc, bytes, hb, hn, he⟩ := Encoder.emitCopy_spec dw.toNat n e1 (fun k hk => by rw [h1, hdp]; exact hc k hk)
      (by rw [hdp]; exact hd) (by rw [h3]; exact hs) (by rw [hdp]; exact hlt)
    exact ⟨cyc, bytes, hb, fun k hk => by have := hn k hk; rwa [h1, hdp] at this, he⟩
  obtain ⟨_, bytes, hb, hn, _⟩ := main { e with lz := lz e.lz } rfl rfl rfl
  obtain ⟨cyc, h⟩ := Encoder.codePacket_spec (p := p) (bytes := bytes) (lz := lz)
    (emit := fun e => Encoder.emitCopy (dist e).toNat n e) hl hlz fun e1 h1 h2 h3 => by
      obtain ⟨cyc, bytes', hb', hn', he⟩ := main e1 h1 h2 h3
      rw [Encoder.nextBytes_unique hn' hn (by omega)] at he
      exact ⟨cyc, by rw [hdist e1 h2, hb]; exact he⟩
  exact ⟨cyc, bytes, hb, hn, h⟩

/-- The LZMA registers a packet can leave: the data position as it was, each rep distance an old one or a distance the packet
names. -/
def Lzma.moved (lz lz' : Lzma) (new : Word → Prop) : Prop :=
  lz'.dataPosition = lz.dataPosition ∧
    ∀ r ∈ [lz'.rep0, lz'.rep1, lz'.rep2, lz'.rep3], r ∈ [lz.rep0, lz.rep1, lz.rep2, lz.rep3] ∨ new r

theorem Lzma.moved_cases (lz : Lzma) (new : Word → Prop) :
    lz.moved lz.afterLit new ∧ lz.moved lz.afterShortRep new ∧ lz.moved lz.afterRep0 new ∧ lz.moved lz.afterRep1 new ∧
      lz.moved lz.afterRep2 new ∧ lz.moved lz.afterRep3 new ∧ ∀ d, new d → lz.moved (lz.afterMatch d) new := by
  refine ⟨?_, ?_, ?_, ?_, ?_, ?_, fun d hd => ?_⟩ <;>
    simp [Lzma.moved, Lzma.afterLit, Lzma.afterShortRep, Lzma.afterRep0, Lzma.afterRep1, Lzma.afterRep2, Lzma.afterRep3,
      Lzma.afterMatch]
  exact .inr hd

/-- EVERYTHING A LEGAL PACKET CAN DO on an encoder channel: it goes on, its bits are coded and its bytes covered. -/
theorem exec_packet_encoder {s : State} {r : Run} {e : Encoder} {i : Instr} (hr : s.running = some r)
    (hc : s.chan r.chan = .enc e) (hl : e.legalPacket s.params i = true) :
    ∃ lz bytes cyc, bytes.length = packetLength i ∧ 1 ≤ packetLength i ∧ packetLength i ≤ e.lookahead ∧
      e.lz.moved lz (fun w => w.toNat < e.lz.dataPosition.toNat ∧ w.toNat < e.dictionarySize.toNat) ∧
      exec i s = .next (s.setChan r.chan (.enc (e.covered (packetDecisions e.ctx i) lz bytes cyc))) := by
  have hm := Lzma.moved_cases e.lz (fun w => w.toNat < e.lz.dataPosition.toNat ∧ w.toNat < e.dictionarySize.toNat)
  have run : ∀ (onEnc : Params → Encoder → Option Encoder) (onDec : Decoder → Src Decoder Unit) (e' : Encoder)
      (o : Host.Outcome State Fault Refusal), o = runPacket s onEnc onDec → onEnc s.params e = some e' →
      o = .next (s.setChan r.chan (.enc e')) := by
    intro onEnc onDec e' o ho h
    rw [ho]
    unfold runPacket
    simp only [hr, hc, h]
  have rep : ∀ (len : Nat) (lz : Lzma → Lzma) (dw : Word) (j : Instr), packetLength j = len →
      e.legalPacket s.params j = true → e.repLegal s.params len dw = true → (∀ x, (lz x).dataPosition = x.dataPosition) →
      (lz e.lz).rep0 = dw →
      ∃ cyc bytes, bytes.length = len ∧ 1 ≤ len ∧ len ≤ e.lookahead ∧
        e.codePacket s.params j lz (fun e => Encoder.emitCopy e.lz.rep0.toNat len e) =
          some (e.covered (packetDecisions e.ctx j) (lz e.lz) bytes cyc) := by
    intro len lz dw j _ hj hrep hlz hdw
    unfold Encoder.repLegal at hrep
    simp only [Bool.and_eq_true, decide_eq_true_eq] at hrep
    obtain ⟨⟨h2, hv⟩, ha⟩ := hrep
    obtain ⟨h3, h4, h5⟩ := Encoder.copyAgrees_iff.1 ha
    have hla : len ≤ e.lookahead := by unfold Encoder.view at hv; omega
    obtain ⟨cyc, bytes, hb, _, h⟩ := Encoder.codePacket_copy (dist := fun e => e.lz.rep0) hj hlz
      (fun e1 he => by rw [he, hdw]) h3 h4 h5 hla
    exact ⟨cyc, bytes, hb, by omega, hla, h⟩
  have hl' := hl
  cases i <;>
    simp only [Encoder.legalPacket, Bool.and_eq_true, decide_eq_true_eq, Bool.or_eq_true, Bool.false_eq_true] at hl'
  case lit c =>
    obtain ⟨cyc, h⟩ := Encoder.codePacket_spec (bytes := [c]) (lz := Lzma.afterLit)
      (emit := fun e => some (e.emit c)) hl (fun _ => rfl) (fun e1 _ _ _ => ⟨e1.nextCyclic, rfl⟩)
    exact ⟨_, _, cyc, rfl, Nat.le_refl 1, hl'.1.1, hm.1, run _ _ _ _ (show execLit c s = _ from rfl) h⟩
  case matchDist len dist =>
    unfold Encoder.validPair at hl'
    simp only [Bool.and_eq_true, decide_eq_true_eq] at hl'
    obtain ⟨⟨⟨⟨⟨h2, hv⟩, h3⟩, h4⟩, h5⟩, h6⟩ := hl'
    have hla : len ≤ e.lookahead := by unfold Encoder.view at hv; omega
    obtain ⟨cyc, bytes, hb, _, h⟩ := Encoder.codePacket_copy (n := len) (lz := (·.afterMatch dist)) (dist := fun _ => dist)
      hl (fun _ => rfl) (fun _ _ => rfl) h3 h4 (Encoder.copiesNext_of_matchLength h3 h6) hla
    exact ⟨_, bytes, cyc, hb, by show 1 ≤ len; omega, hla, hm.2.2.2.2.2.2 dist ⟨h3, h4⟩, run _ _ _ _ (show execMatchDist len dist s = _ from rfl) h⟩
  case shortRep =>
    obtain ⟨h3, h4, h5⟩ := Encoder.copyAgrees_iff.1 hl'.2
    obtain ⟨cyc, bytes, hb, _, h⟩ := Encoder.codePacket_copy (n := 1) (lz := Lzma.afterShortRep)
      (dist := fun e => e.lz.rep0) hl (fun _ => rfl) (fun e1 he => by rw [he]; rfl) h3 h4 h5 hl'.1
    exact ⟨_, bytes, cyc, hb, Nat.le_refl 1, hl'.1, hm.2.1, run _ _ _ _ (show execShortRep s = _ from rfl) h⟩
  case rep0 len =>
    obtain ⟨cyc, bytes, hb, h1, h2, h⟩ := rep len Lzma.afterRep0 e.lz.rep0 _ rfl hl hl' (fun _ => rfl) rfl
    exact ⟨_, bytes, cyc, hb, h1, h2, hm.2.2.1, run _ _ _ _ (show execRep0 len s = _ from rfl) h⟩
  case rep1 len =>
    obtain ⟨cyc, bytes, hb, h1, h2, h⟩ := rep len Lzma.afterRep1 e.lz.rep1 _ rfl hl hl' (fun _ => rfl) rfl
    exact ⟨_, bytes, cyc, hb, h1, h2, hm.2.2.2.1, run _ _ _ _ (show execRep1 len s = _ from rfl) h⟩
  case rep2 len =>
    obtain ⟨cyc, bytes, hb, h1, h2, h⟩ := rep len Lzma.afterRep2 e.lz.rep2 _ rfl hl hl' (fun _ => rfl) rfl
    exact ⟨_, bytes, cyc, hb, h1, h2, hm.2.2.2.2.1, run _ _ _ _ (show execRep2 len s = _ from rfl) h⟩
  case rep3 len =>
    obtain ⟨cyc, bytes, hb, h1, h2, h⟩ := rep len Lzma.afterRep3 e.lz.rep3 _ rfl hl hl' (fun _ => rfl) rfl
    exact ⟨_, bytes, cyc, hb, h1, h2, hm.2.2.2.2.2.1, run _ _ _ _ (show execRep3 len s = _ from rfl) h⟩

/-- Coding does not look at the match-finder. -/
theorem Encoder.encDecisions_mf (e : Encoder) (mf : MatchFinder) (ds : List Decision) :
    Encoder.encDecisions { e with mf := mf } ds = { e.encDecisions ds with mf := mf } := by
  have norm : ∀ e : Encoder, Encoder.normalize { e with mf := mf } = { e.normalize with mf := mf } := by
    intro e
    unfold Encoder.normalize
    by_cases h : e.re.range.toNat < top
    · rw [if_pos h, if_pos h]; rfl
    · rw [if_neg h, if_neg h]
  induction ds generalizing e with
  | nil => rfl
  | cons d ds ih =>
    have hd : Encoder.encDecision { e with mf := mf } d = { e.encDecision d with mf := mf } := by
      unfold Encoder.encDecision
      cases d.model with
      | none => simp only [Encoder.encDirectBit]; exact norm { e with re := _ }
      | some r => simp only [Encoder.encBit]; exact norm { e with re := _, models := _ }
    show Encoder.encDecisions (Encoder.encDecision { e with mf := mf } d) ds = _
    rw [hd]
    exact ih (e.encDecision d)

/-- Nor does a close. -/
theorem Encoder.close_mf (e : Encoder) (mf : MatchFinder) :
    (Encoder.closeAction { e with mf := mf }).afterClose = { e.closeAction.afterClose with mf := mf } := by
  have after : ∀ e : Encoder, Encoder.afterClose { e with mf := mf } = { e.afterClose with mf := mf } := by
    intro e
    unfold Encoder.afterClose
    by_cases h1 : 1 ≤ e.lookahead
    · rw [if_pos h1, if_pos (show 1 ≤ Encoder.lookahead { e with mf := mf } from h1)]
    · rw [if_neg h1, if_neg (show ¬ 1 ≤ Encoder.lookahead { e with mf := mf } from h1)]
      by_cases h2 : e.syncPending = true
      · rw [if_pos h2, if_pos h2]
      · rw [if_neg h2, if_neg h2]
  have shift : ∀ e : Encoder, Encoder.shiftLow { e with mf := mf } = { e.shiftLow with mf := mf } := fun _ => rfl
  have flush : ∀ e : Encoder, Encoder.flush { e with mf := mf } = { e.flush with mf := mf } := by
    intro e
    unfold Encoder.flush
    rw [shift, shift, shift, shift, shift]
  rw [← after]
  unfold Encoder.closeAction
  rw [show packetDecisions (Encoder.ctx { e with mf := mf }) .eos = packetDecisions e.ctx .eos from rfl, Encoder.encDecisions_mf]
  generalize e.encDecisions (packetDecisions e.ctx .eos) = e1
  rw [flush]
  generalize e1.flush = e2
  rfl

/-- The marker on an encoder channel: the close where one is enabled, with the positions passed over inserted. -/
theorem exec_eos_encoder {s : State} {r : Run} {e : Encoder} (hr : s.running = some r) (hc : s.chan r.chan = .enc e)
    (h : e.closeEnabled s.params = true) :
    exec .eos s = .next (s.setChan r.chan (.enc { e.closeAction.afterClose with mf := (e.mfCatchUp s.params).mf })) := by
  obtain ⟨mf, hm, _⟩ := e.mfCatchUp_spec s.params
  show execEos s = _
  unfold execEos runPacket
  simp only [hr, hc, Encoder.codeEos, h, if_true, hm, Encoder.close_mf]

/-- Every packet on an encoder channel is the marker at an enabled close, a legal packet, or a fault (log 11). -/
theorem exec_packet_encoder_cases {s : State} {r : Run} {e : Encoder} {i : Instr} (hr : s.running = some r)
    (hc : s.chan r.chan = .enc e) (hi : isPacket i = true) :
    (i = .eos ∧ e.closeEnabled s.params = true) ∨ e.legalPacket s.params i = true ∨
      exec i s = .fault .illegalEncoderPacket := by
  have key : ∀ (j : Instr) (lz : Lzma → Lzma) (emit : Encoder → Option Encoder)
      (onDec : Decoder → Src Decoder Unit), e.legalPacket s.params j = false →
      runPacket s (fun p e => e.codePacket p j lz emit) onDec = .fault .illegalEncoderPacket := by
    intro j lz emit onDec hj
    unfold runPacket Encoder.codePacket
    simp only [hr, hc, hj, Bool.false_eq_true, if_false]
  by_cases hl : e.legalPacket s.params i = true
  · exact .inr (.inl hl)
  · have hl : e.legalPacket s.params i = false := by simpa using hl
    cases i
    case lit c => exact .inr (.inr (key _ _ _ _ hl))
    case matchDist len dist => exact .inr (.inr (key _ _ _ _ hl))
    case shortRep => exact .inr (.inr (key _ _ _ _ hl))
    case rep0 len => exact .inr (.inr (key _ _ _ _ hl))
    case rep1 len => exact .inr (.inr (key _ _ _ _ hl))
    case rep2 len => exact .inr (.inr (key _ _ _ _ hl))
    case rep3 len => exact .inr (.inr (key _ _ _ _ hl))
    case eos =>
      by_cases h : e.closeEnabled s.params = true
      · exact .inl ⟨rfl, h⟩
      · right; right
        show execEos s = _
        unfold execEos runPacket Encoder.codeEos
        simp only [hr, hc]
        rw [if_neg h]
    all_goals exact absurd hi (by simp [isPacket])

/-- The close action codes the marker and appends the trailer: only the coder and the output FIFO change (R394). -/
theorem Encoder.closeAction_coded (e : Encoder) : e.coded e.closeAction := by
  have h : e.coded (e.encDecisions (packetDecisions e.ctx .eos)).flush :=
    Encoder.coded_trans (Encoder.encDecisions_coded e _) (Encoder.flush_coded _)
  unfold Encoder.closeAction
  generalize (e.encDecisions (packetDecisions e.ctx .eos)).flush = e1 at h ⊢
  obtain ⟨re, models, bytes, rfl⟩ := h
  exact ⟨re, models, bytes ++ _, by rw [← List.append_assoc]⟩

theorem Encoder.closeAction_sound {e : Encoder} (h : e.codingSound) : e.closeAction.codingSound := by
  have h : (e.encDecisions (packetDecisions e.ctx .eos)).flush.codingSound :=
    Encoder.flush_sound (Encoder.encDecisions_sound h _)
  unfold Encoder.closeAction
  generalize (e.encDecisions (packetDecisions e.ctx .eos)).flush = e1 at h ⊢
  exact h

/-- What follows a close changes only status registers (R395, R396). -/
theorem Encoder.afterClose_frame (e : Encoder) : ∃ syncPending resumeOnWrite limitReached, e.afterClose =
    { e with phase := .memberFinished, syncPending := syncPending, resumeOnWrite := resumeOnWrite, limitReached := limitReached } := by
  unfold Encoder.afterClose
  split
  · exact ⟨_, _, _, rfl⟩
  · split
    · exact ⟨_, _, _, rfl⟩
    · exact ⟨_, _, _, rfl⟩

/-- On a sound window with look-ahead the literal is legal (R346). -/
theorem Encoder.minimalParse_legal {p : Params} {e : Encoder} (hw : e.windowSound) (hl : 1 ≤ e.lookahead) :
    e.legalPacket p e.minimalParse.packet = true := by
  obtain ⟨b, hb⟩ := Memory.read_isSome hw.1
    (show e.lz.dataPosition.toNat < e.streamPos.toNat by unfold Encoder.lookahead at hl; omega)
  unfold Encoder.minimalParse Encoder.literalPacket
  rw [hb]
  unfold Encoder.legalPacket
  simp only [Bool.and_eq_true, decide_eq_true_eq, Bool.or_eq_true, Option.getD_some]
  refine ⟨⟨hl, hb⟩, ?_⟩
  by_cases h6 : e.lz.state.val ≤ 6
  · exact .inl h6
  · right
    unfold Encoder.ctx packetCtx
    simp only
    rw [if_pos (by omega)]
    have h1 := hw.2.2.2 (by omega)
    have h0 := hw.2.2.1 e.lz.rep0 (by simp)
    obtain ⟨x, hx⟩ := winRead_isSome hw.1 hw.2.1 (s := e.lz.rep0.toNat) (by omega) h0.1
    rw [hx]
    rfl

@[simp] theorem Encoder.planOf_packet (e : Encoder) (r : ParserOutput) : (e.planOf r).packet = r.packet := by
  unfold Encoder.planOf
  cases e.variant <;> rfl

/-- Whatever the parser is, the packet chosen is legal (R345). -/
theorem Encoder.choose_legal {p : Params} {e : Encoder} (pairs : List (Nat × Nat)) (hw : e.windowSound)
    (hl : 1 ≤ e.lookahead) : e.legalPacket p (e.choose p pairs).packet = true := by
  have hparse : e.legalPacket p (e.parse p pairs).packet = true := by
    unfold Encoder.parse
    split
    · exact Encoder.minimalParse_legal hw hl
    · simp only
      split
      · rwa [Encoder.planOf_packet]
      · exact Encoder.minimalParse_legal hw hl
  unfold Encoder.choose
  split
  · split
    · assumption
    · exact hparse
  · exact hparse

/-- What is chosen is always a packet. -/
theorem Encoder.fetch_isPacket (p : Params) (e : Encoder) : isPacket (e.fetch p).1 = true := by
  have legal : ∀ (e : Encoder) (i : Instr), e.legalPacket p i = true → isPacket i = true := by
    intro e i h
    cases i <;> first
      | rfl
      | exact absurd h (by simp [Encoder.legalPacket])
  have hparse : ∀ (e : Encoder) pairs, isPacket (e.parse p pairs).packet = true := by
    intro e pairs
    unfold Encoder.parse
    split
    · rfl
    · simp only
      split
      · rw [Encoder.planOf_packet]; exact legal _ _ ‹_›
      · rfl
  unfold Encoder.fetch Encoder.choose
  simp only
  split
  · split
    · exact legal _ _ ‹_›
    · exact hparse _ _
  · exact hparse _ _

/-- The search changes only the match-finder, so a packet is legal after it as before it. -/
theorem Encoder.legalPacket_search (p : Params) (e : Encoder) (mf : MatchFinder) (planned : List Instr) (trial : List Trial)
    (i : Instr) : Encoder.legalPacket p { e with mf := mf, planned := planned, trial := trial } i = e.legalPacket p i := by
  cases i <;> rfl

/-- The fetch of an encoder step changes only the match-finder, the planned path and the trial buffer. -/
theorem Encoder.fetch_frame (p : Params) (e : Encoder) :
    ∃ planned trial, (e.fetch p).2 = { e with mf := (e.search p).1, planned := planned, trial := trial } := ⟨_, _, rfl⟩

/-- The packet fetched on a sound window with look-ahead is legal in the state the fetch leaves. -/
theorem Encoder.fetch_legal {p : Params} {e : Encoder} (hw : e.windowSound) (hl : 1 ≤ e.lookahead) :
    (e.fetch p).2.legalPacket p (e.fetch p).1 = true :=
  (Encoder.legalPacket_search p _ _ _ _ _).trans
    (Encoder.choose_legal (p := p) (e := { e with mf := (e.search p).1 }) (e.search p).2 hw hl)

/-! ## Trial buffer and planned path (R48, R345) -/

theorem Encoder.planOf_sound (e : Encoder) (r : ParserOutput) :
    planSound e.variant (e.planOf r).rest (e.planOf r).trials := by
  unfold Encoder.planOf
  cases e.variant with
  | fast => exact ⟨Nat.zero_le _, fun _ => ⟨rfl, rfl⟩⟩
  | normal => exact ⟨by simp only [List.length_take]; omega, nofun⟩

theorem Encoder.parse_sound (p : Params) (e : Encoder) (pairs : List (Nat × Nat)) :
    planSound e.variant (e.parse p pairs).rest (e.parse p pairs).trials := by
  unfold Encoder.parse
  split
  · exact ⟨Nat.zero_le _, fun _ => ⟨rfl, rfl⟩⟩
  · simp only
    split
    · exact Encoder.planOf_sound e _
    · exact ⟨Nat.zero_le _, fun _ => ⟨rfl, rfl⟩⟩

/-- A fetch keeps the trial buffer and the path within R48. -/
theorem Encoder.fetch_plan {p : Params} {e : Encoder} (h : planSound e.variant e.planned e.trial) :
    planSound e.variant (e.fetch p).2.planned (e.fetch p).2.trial := by
  unfold Encoder.fetch Encoder.choose
  simp only
  split
  · rename_i q rest hq
    split
    · exact ⟨h.1, fun hf => absurd ((h.2 hf).2.symm.trans hq) (by simp)⟩
    · exact Encoder.parse_sound p _ _
  · exact Encoder.parse_sound p _ _

end Sys2Proof.Machine
end

