-- ==== Sys2Proof/Laws/Sequencer.lean ====
section
/-! SUPPORT. The loop of a read: what one step of it is, by the phase and the part of its channel (R424, R444). -/

namespace Sys2Proof.Machine

/-! ## Giving bytes -/

theorem Run.give_all {r : Run} {fifo : List Byte} (h : r.got.length + fifo.length < r.n) :
    r.give fifo = { r with got := r.got ++ fifo } ∧ fifo.drop (r.take fifo) = [] := by
  have ht : r.take fifo = fifo.length := by unfold Run.take; omega
  exact ⟨by rw [Run.give, ht, List.take_length], by rw [ht, List.drop_length]⟩

theorem Run.full_iff (r : Run) : r.full = true ↔ r.n ≤ r.got.length := by simp [Run.full]

theorem Run.not_full {r : Run} {bytes : List Byte} (h : r.got.length + bytes.length < r.n) :
    Run.full { r with got := r.got ++ bytes } = false := by simp [Run.full]; omega

@[simp] theorem Run.give_chan (r : Run) (fifo : List Byte) : (r.give fifo).chan = r.chan := rfl
@[simp] theorem Run.give_n (r : Run) (fifo : List Byte) : (r.give fifo).n = r.n := rfl

/-- A read that its FIFO does not satisfy takes all of it. -/
theorem step_decoder {s : State} {r : Run} {d : Decoder} (hr : s.running = some r) (hc : s.chan r.chan = .dec d)
    (h : r.got.length + d.out.length < r.n) :
    step s = decoderIteration s { r with got := r.got ++ d.out } { d with out := [] } := by
  simp only [step, hr, readStep, hc, (Run.give_all h).1, (Run.give_all h).2]

theorem step_encoder {s : State} {r : Run} {e : Encoder} (hr : s.running = some r) (hc : s.chan r.chan = .enc e)
    (h : r.got.length + e.out.length < r.n) :
    step s = encoderIteration s { r with got := r.got ++ e.out } { e with out := [] } := by
  simp only [step, hr, readStep, hc, (Run.give_all h).1, (Run.give_all h).2]

/-! ## One iteration of DEC_READ, by phase and part -/

section

variable {s : State} {r : Run} {d : Decoder}

theorem decoderIteration_fatal (hp : d.phase = .fatal) :
    decoderIteration s r d = .next (s.endDecoderRead r d d.errno) := by
  unfold decoderIteration; rw [if_pos hp]

theorem decoderIteration_full (hp : d.phase ≠ .fatal) (hf : r.full = true) :
    decoderIteration s r d = .next (s.endDecoderRead r d .ok) := by
  unfold decoderIteration; rw [if_neg hp, if_pos hf]

theorem decoderIteration_idle (hp : d.phase = .idle) (hf : r.full = false) :
    decoderIteration s r d = decoderStep s r d (d.headerStep s.params) := by
  unfold decoderIteration
  rw [if_neg (by simp [hp]), if_neg (by simp [hf])]
  split <;> simp_all

theorem decoderIteration_load (hp : d.phase = .inMember) (hpt : d.part = .load) (hf : r.full = false) :
    decoderIteration s r d = decoderStep s r d d.loadStep := by
  unfold decoderIteration
  rw [if_neg (by simp [hp]), if_neg (by simp [hf])]
  split <;> simp_all

theorem decoderIteration_payload (hp : d.phase = .inMember) (hpt : d.part = .payload) (hf : r.full = false) :
    decoderIteration s r d = decoderPacket s r d := by
  unfold decoderIteration
  rw [if_neg (by simp [hp]), if_neg (by simp [hf])]
  split <;> simp_all

theorem decoderIteration_trailer (hp : d.phase = .inMember) (hpt : d.part = .trailer) (hf : r.full = false) :
    decoderIteration s r d = decoderStep s r d d.trailerStep := by
  unfold decoderIteration
  rw [if_neg (by simp [hp]), if_neg (by simp [hf])]
  split <;> simp_all

theorem decoderIteration_done (hp : d.phase = .memberFinished ∨ d.phase = .finished) :
    decoderIteration s r d = .next (s.endDecoderRead r d .ok) := by
  unfold decoderIteration
  rw [if_neg (by rcases hp with h | h <;> simp [h])]
  split
  · rfl
  · split <;> simp_all

/-- Every iteration of DEC_READ is one of these. -/
theorem decoderIteration_cases :
    (∃ err, decoderIteration s r d = .next (s.endDecoderRead r d err)) ∨
      (d.phase = .idle ∧ r.full = false ∧ decoderIteration s r d = decoderStep s r d (d.headerStep s.params)) ∨
      (d.phase = .inMember ∧ d.part = .load ∧ r.full = false ∧ decoderIteration s r d = decoderStep s r d d.loadStep) ∨
      (d.phase = .inMember ∧ d.part = .payload ∧ r.full = false ∧ decoderIteration s r d = decoderPacket s r d) ∨
      (d.phase = .inMember ∧ d.part = .trailer ∧ r.full = false ∧
        decoderIteration s r d = decoderStep s r d d.trailerStep) := by
  by_cases hfa : d.phase = .fatal
  · exact .inl ⟨_, decoderIteration_fatal hfa⟩
  · by_cases hf : r.full = true
    · exact .inl ⟨_, decoderIteration_full hfa hf⟩
    · have hf : r.full = false := by simpa using hf
      cases hp : d.phase
      case idle => exact .inr (.inl ⟨rfl, hf, decoderIteration_idle hp hf⟩)
      case fatal => exact absurd hp hfa
      case memberFinished => exact .inl ⟨_, decoderIteration_done (.inl hp)⟩
      case finished => exact .inl ⟨_, decoderIteration_done (.inr hp)⟩
      case inMember =>
        cases hpt : d.part
        case load => exact .inr (.inr (.inl ⟨rfl, rfl, hf, decoderIteration_load hp hpt hf⟩))
        case payload => exact .inr (.inr (.inr (.inl ⟨rfl, rfl, hf, decoderIteration_payload hp hpt hf⟩)))
        case trailer => exact .inr (.inr (.inr (.inr ⟨rfl, rfl, hf, decoderIteration_trailer hp hpt hf⟩)))
        case header =>
          refine .inl ⟨.ok, ?_⟩
          unfold decoderIteration
          rw [if_neg hfa, if_neg (by simp [hf])]
          split <;> simp_all

/-- Every iteration of ENC_READ is one of these. -/
theorem encoderIteration_cases {e : Encoder} :
    encoderIteration s r e = .next (s.endEncoderRead r e) ∨
      (r.full = false ∧ e.closeEnabled s.params = true ∧ encoderIteration s r e = exec .eos (s.withRun r (.enc e))) ∨
      (r.full = false ∧ e.closeEnabled s.params = false ∧ e.stepEnabled s.params = true ∧
        encoderIteration s r e = exec (e.fetch s.params).1 (s.withRun r (.enc (e.fetch s.params).2))) := by
  unfold encoderIteration
  cases hf : r.full
  · cases hc : e.closeEnabled s.params
    · cases hs : e.stepEnabled s.params
      · exact .inl rfl
      · exact .inr (.inr ⟨rfl, rfl, rfl, rfl⟩)
    · exact .inr (.inl ⟨rfl, rfl, rfl⟩)
  · exact .inl rfl

end

end Sys2Proof.Machine
end

