-- ==== Sys2Proof/Laws/Step.lean ====
section
/-! SUPPORT. What the port can do in a step: it waits, rejects a reserved encoding, or runs a command. -/

namespace Sys2Proof.Machine

/-- The port decodes to commands only, and what follows is the port again. -/
theorem decodeOpcode_command {op : Nat} {chan : Byte} {words : List Word} {data : List Byte} {i : Instr} {rest : Code}
    (h : decodeOpcode op chan words data = .instr i rest) : isPacket i = false ∧ ∃ ws bs, rest = .command ws bs := by
  have no : ∀ j, isPacket j = false → noOperands j words data = .instr i rest →
      isPacket i = false ∧ ∃ ws bs, rest = .command ws bs := by
    intro j hj h
    unfold noOperands at h
    cases h
    exact ⟨hj, _, _, rfl⟩
  have len : ∀ f : Word → Instr, (∀ n, isPacket (f n) = false) → lengthOperand f words data = .instr i rest →
      isPacket i = false ∧ ∃ ws bs, rest = .command ws bs := by
    intro f hf h
    unfold lengthOperand at h
    split at h <;> cases h
    exact ⟨hf _, _, _, rfl⟩
  have dat : ∀ f : Word → List Byte → Instr, (∀ n b, isPacket (f n b) = false) → dataOperands f words data = .instr i rest →
      isPacket i = false ∧ ∃ ws bs, rest = .command ws bs := by
    intro f hf h
    unfold dataOperands at h
    split at h
    · split at h <;> cases h
      exact ⟨hf _ _, _, _, rfl⟩
    · cases h
  unfold decodeOpcode at h
  split at h <;> first
    | exact no _ rfl h
    | exact len _ (fun _ => rfl) h
    | exact dat _ (fun _ _ => rfl) h
    | (unfold openOperands at h; split at h <;> cases h; exact ⟨rfl, _, _, rfl⟩)
    | cases h

theorem decodeOpcode_reserved {op : Nat} {chan : Byte} {words : List Word} {data : List Byte} {why : Reserved} {rest : Code}
    (h : decodeOpcode op chan words data = .reserved why rest) : rest = .command words data := by
  unfold decodeOpcode at h
  split at h <;> first
    | (unfold noOperands at h; cases h)
    | (unfold lengthOperand at h; split at h <;> cases h)
    | (unfold dataOperands at h; split at h; · split at h <;> cases h
       · cases h)
    | (unfold openOperands at h; split at h <;> cases h)
    | (cases h; rfl)

theorem decode_command {words : List Word} {data : List Byte} {i : Instr} {rest : Code}
    (h : decode (.command words data) = .instr i rest) : isPacket i = false ∧ ∃ ws bs, rest = .command ws bs := by
  replace h : decodeCommand words data = _ := h
  unfold decodeCommand at h
  split at h
  · cases h
  · unfold checkFields at h
    split at h
    · rename_i hd
      split at h
      · cases h
      · split at h
        · cases h
        · cases h; exact decodeOpcode_command hd
    · cases h
    · cases h

theorem decode_reserved {words : List Word} {data : List Byte} {why : Reserved} {rest : Code}
    (h : decode (.command words data) = .reserved why rest) : ∃ ws bs, rest = .command ws bs := by
  replace h : decodeCommand words data = _ := h
  unfold decodeCommand at h
  split at h
  · cases h
  · unfold checkFields at h
    split at h
    · rename_i hd
      split at h
      · cases h; exact (decodeOpcode_command hd).2
      · split at h
        · cases h; exact (decodeOpcode_command hd).2
        · cases h
    · rename_i hd; cases h; exact ⟨_, _, decodeOpcode_reserved hd⟩
    · cases h

/-- EVERYTHING THE PORT CAN DO in a step. -/
theorem step_port {s : State} (hr : s.running = none) :
    step s = .next s ∨ ∃ ws bs, step s = .next (State.respond { s with portWords := ws, portData := bs } .badArgument [] []) ∨
      ∃ i t, isPacket i = false ∧ step s = .next t ∧
        State.afterCommand { s with portWords := ws, portData := bs } (actsOn { s with portWords := ws, portData := bs } i)
          (isRead i) t := by
  have hs : step s = commandStep s := by simp only [step, hr]
  rw [hs]
  unfold commandStep
  split
  · rename_i i rest hd
    obtain ⟨hi, ws, bs, rfl⟩ := decode_command hd
    obtain ⟨t, h1, h2⟩ := exec_command i { s with portWords := ws, portData := bs } hi
    exact .inr ⟨ws, bs, .inr ⟨i, t, hi, h1, h2⟩⟩
  · rename_i why rest hd
    obtain ⟨ws, bs, rfl⟩ := decode_reserved hd
    exact .inr ⟨ws, bs, .inl rfl⟩
  · exact .inl rfl

/-- A run of one step more. -/
theorem core_run_succ {s t : State} (k : Nat) (h : step s = .next t) :
    Sys2Proof.core.run (k + 1) s = Sys2Proof.core.run k t := by
  have hs : Sys2Proof.core.step s = .next t := h
  simp only [Host.Core.run, hs]

theorem core_run_zero (s : State) : Sys2Proof.core.run 0 s = .next s := rfl

end Sys2Proof.Machine
end

