-- ==== Sys2Proof/Tests/Slice0.lean ====
section
/-! SUPPORT. Tests of the model against the spec's tables and the vectors of spec/95_test_vectors.md, and for every statement with
hypotheses a state that meets them. -/

namespace Sys2Proof.Tests

open Sys2Proof.Machine

/-! ## Well-formedness: what it refuses and what it lets pass -/

theorem test_wellFormed_lengths :
    [Instr.matchDist 1 0#32, .matchDist 274 0#32, .rep0 1, .rep0 274, .rep1 1, .rep1 274, .rep2 1, .rep2 274, .rep3 1,
      .rep3 274].map Instr.wellFormed = List.replicate 10 false ∧
    [Instr.matchDist 2 0#32, .matchDist 273 0#32, .rep0 2, .rep0 273, .rep1 2, .rep1 273, .rep2 2, .rep2 273, .rep3 2,
      .rep3 273].map Instr.wellFormed = List.replicate 10 true := by decide

theorem test_wellFormed_marker_distance :
    (Instr.matchDist 2 0xFFFFFFFF#32).wellFormed = false ∧ (Instr.matchDist 2 0xFFFFFFFE#32).wellFormed = true := by decide

theorem test_wellFormed_data_bytes :
    (Instr.encWrite 0#8 2#32 [0x61#8]).wellFormed = false ∧ (Instr.encWrite 0#8 1#32 [0x61#8]).wellFormed = true ∧
    (Instr.encWrite 0#8 0xFFFFFFFF#32 [0x61#8]).wellFormed = false ∧ (Instr.decWrite 0#8 0#32 [0x61#8]).wellFormed = false ∧
    (Instr.decWrite 0#8 0xFFFFFFFF#32 []).wellFormed = true := by decide

/-! ## Decoding: words and bits written out from R135 to R140, R145 and R146 -/

/-- Decision bits written as digits. -/
def bits (digits : List Nat) : List Bool := digits.map (· == 1)

/-- What a sequence of decision bits decodes to, if it is one packet and nothing more. -/
def packetOf (digits : List Nat) : Option Instr :=
  match decode (.packet (bits digits)) with
  | .instr i (.packet []) => some i
  | _ => none

/-- What words and bytes decode to, if they are one command and nothing more. -/
def commandOf (words : List Word) (data : List Byte) : Option Instr :=
  match decode (.command words data) with
  | .instr i (.command [] []) => some i
  | _ => none

theorem test_decode_packets_short :
    packetOf [0, 0,1,1,0,0,0,0,1] = some (.lit 0x61#8) ∧ packetOf [1,1,0,0] = some .shortRep ∧
    packetOf [1,1,0,1, 0, 0,0,1] = some (.rep0 3) ∧ packetOf [1,1,1,0, 1,0, 0,0,0] = some (.rep1 10) ∧
    packetOf [1,1,1,1,0, 1,0, 1,1,1] = some (.rep2 17) ∧
    packetOf [1,1,1,1,1, 1,1, 1,1,1,1,1,1,1,1] = some (.rep3 273) := by decide

/-- The slots of spec/95 section 2.6: no footer, a reverse tree, and direct bits with an align tree; and the marker. -/
theorem test_decode_packets_long :
    packetOf [1,0, 0,0,0,0, 0,0,0,0,1,1] = some (.matchDist 2 3#32) ∧
    packetOf [1,0, 0,0,1,1, 0,0,0,1,0,0, 1] = some (.matchDist 5 5#32) ∧
    packetOf [1,0, 1,1,0,0,0,0,0,0,0,0, 0,0,1,1,1,1, 0,0, 0,0,0,1] = some (.matchDist 18 200#32) ∧
    packetOf ([1,0, 0,0,0,0, 1,1,1,1,1,1] ++ List.replicate 30 1) = some .eos ∧
    packetOf ([1,0, 0,0,0,1, 1,1,1,1,1,1] ++ List.replicate 30 1) = some (.matchDist 3 0xFFFFFFFF#32) := by decide

theorem test_decode_queries :
    commandOf [0x01000000#32] [] = some .qApiVersion ∧ commandOf [0x02000000#32] [] = some .qVersionString ∧
    commandOf [0x03000000#32] [] = some .qMinDictionarySize ∧ commandOf [0x04000000#32] [] = some .qMaxDictionarySize ∧
    commandOf [0x05000000#32] [] = some .qMinMatchLenLimit ∧ commandOf [0x06000000#32] [] = some .qMaxMatchLenLimit := by
  decide

theorem test_decode_encoder_commands :
    commandOf [0x10000000#32, 0x00100000#32, 0x00000024#32, 0xFFFFFFFF#32, 0x7FFFFFFF#32] [] =
      some (.encOpen 0#8 1048576#32 36#32 0x7FFFFFFFFFFFFFFF#64) ∧
    commandOf [0x11010000#32] [] = some (.encClose 1#8) ∧ commandOf [0x12010000#32] [] = some (.encWriteSize 1#8) ∧
    commandOf [0x13010000#32, 2#32] [0x61#8, 0x62#8] = some (.encWrite 1#8 2#32 [0x61#8, 0x62#8]) ∧
    commandOf [0x14010000#32, 0x40#32] [] = some (.encRead 1#8 64#32) ∧
    commandOf [0x15010000#32] [] = some (.encSyncFlush 1#8) ∧ commandOf [0x16010000#32] [] = some (.encFinish 1#8) ∧
    commandOf [0x17010000#32] [] = some (.encRestartMember 1#8) ∧
    commandOf [0x18010000#32] [] = some (.encMemberFinished 1#8) ∧ commandOf [0x19010000#32] [] = some (.encFinished 1#8) ∧
    commandOf [0x1A010000#32] [] = some (.encErrno 1#8) := by decide

theorem test_decode_decoder_commands :
    commandOf [0x20010000#32] [] = some (.decOpen 1#8) ∧ commandOf [0x21010000#32] [] = some (.decClose 1#8) ∧
    commandOf [0x22010000#32] [] = some (.decWriteSize 1#8) ∧
    commandOf [0x23010000#32, 1#32] [0x4C#8] = some (.decWrite 1#8 1#32 [0x4C#8]) ∧
    commandOf [0x24010000#32, 0xFFFFFFFF#32] [] = some (.decRead 1#8 0xFFFFFFFF#32) ∧
    commandOf [0x25010000#32] [] = some (.decFinish 1#8) ∧ commandOf [0x26010000#32] [] = some (.decReset 1#8) ∧
    commandOf [0x27010000#32] [] = some (.decSyncToMember 1#8) ∧
    commandOf [0x28010000#32] [] = some (.decMemberFinished 1#8) ∧ commandOf [0x29010000#32] [] = some (.decFinished 1#8) ∧
    commandOf [0x2A010000#32] [] = some (.decErrno 1#8) := by decide

theorem test_decode_decoder_introspection :
    commandOf [0x2B010000#32] [] = some (.decMemberVersion 1#8) ∧
    commandOf [0x2C010000#32] [] = some (.decDictionarySize 1#8) ∧ commandOf [0x2D010000#32] [] = some (.decDataCrc 1#8) ∧
    commandOf [0x2E010000#32] [] = some (.decDataPosition 1#8) ∧
    commandOf [0x2F010000#32] [] = some (.decMemberPosition 1#8) ∧
    commandOf [0x30010000#32] [] = some (.decTotalInSize 1#8) ∧
    commandOf [0x31010000#32] [] = some (.decTotalOutSize 1#8) := by decide

/-- Words that are refused (R147) and commands that are not whole (R148). -/
theorem test_decode_refuses :
    decode (.command [0x07000000#32] []) = .reserved .opcode (.command [] []) ∧
    decode (.command [0x1B000000#32] []) = .reserved .opcode (.command [] []) ∧
    decode (.command [0x01000001#32] []) = .reserved .field (.command [] []) ∧
    decode (.command [0x01010000#32] []) = .reserved .channel (.command [] []) ∧
    decode (.command [0x24000000#32] []) = .incomplete ∧
    decode (.command [0x23000000#32, 2#32] [0x61#8]) = .incomplete ∧ decode (.packet [true, true, false]) = .incomplete := by
  decide

/-- The rows of the opcode table as the host numbers them, and the step that runs them. -/
theorem test_table_words :
    decodeTableWord 32 0x01000000 = some .qApiVersion ∧
    decodeTableWord 32 0x10000000 = some (.encOpen 0#8 0#32 0#32 0#64) ∧ decodeTableWord 32 0 = none ∧
    decodeTableWord 8 0x3 = some .shortRep := by decide

/-! ## Models of the decision bits (spec/95 section 2.4 and 2.7) -/

theorem test_literal_models :
    packetDecisions .plain (.lit 0x61#8) =
      [⟨false, some (.isMatch 0 0)⟩, ⟨false, some (.literal 0 0x001)⟩, ⟨true, some (.literal 0 0x002)⟩,
        ⟨true, some (.literal 0 0x005)⟩, ⟨false, some (.literal 0 0x00B)⟩, ⟨false, some (.literal 0 0x016)⟩,
        ⟨false, some (.literal 0 0x02C)⟩, ⟨false, some (.literal 0 0x058)⟩, ⟨true, some (.literal 0 0x0B0)⟩] := by decide

theorem test_matched_literal_models :
    packetDecisions { state := 9, posState := 2, litState := 3, matchByte := some 0x61#8, atStart := false } (.lit 0x62#8) =
      [⟨false, some (.isMatch 9 2)⟩, ⟨false, some (.literal 3 0x101)⟩, ⟨true, some (.literal 3 0x202)⟩,
        ⟨true, some (.literal 3 0x205)⟩, ⟨false, some (.literal 3 0x10B)⟩, ⟨false, some (.literal 3 0x116)⟩,
        ⟨false, some (.literal 3 0x12C)⟩, ⟨true, some (.literal 3 0x158)⟩, ⟨false, some (.literal 3 0x0B1)⟩] := by decide

theorem test_match_models :
    (packetDecisions { state := 7, posState := 2, litState := 3, matchByte := none, atStart := false }
        (.matchDist 2 1#32)).map Decision.model =
      [some (.isMatch 7 2), some (.rep 7), some (.choice1 .matchLen), some (.low .matchLen 2 1), some (.low .matchLen 2 2),
        some (.low .matchLen 2 4), some (.disSlot 0 1), some (.disSlot 0 2), some (.disSlot 0 4), some (.disSlot 0 8),
        some (.disSlot 0 16), some (.disSlot 0 32)] ∧
    (distDecisions 5 127).map Decision.model =
      [some (.disSlot 3 1), some (.disSlot 3 2), some (.disSlot 3 4), some (.disSlot 3 9), some (.disSlot 3 19),
        some (.disSlot 3 38), some (.dis 84), some (.dis 86), some (.dis 90), some (.dis 98), some (.dis 114)] := by decide

/-! ## Shared operations (spec/95 sections 2.1, 2.2, 2.10, 2.11) -/

theorem test_bitUpdate :
    bitUpdate 1024#11 false = 1056#11 ∧ bitUpdate 1056#11 false = 1087#11 ∧ bitUpdate 1087#11 true = 1054#11 ∧
    bitUpdate 2017#11 false = 2017#11 ∧ bitUpdate 31#11 true = 31#11 := by decide

/-- `RC_SHIFT_LOW`: with a carry and two pending bytes, deferring, and without a carry. -/
theorem test_shift :
    let r1 : RangeEnc := { low := 0x123456789#33, range := 0#32, cache := 0x7F#8, ffCount := 2#64, shifts := 0#64 }
    let r2 : RangeEnc := { low := 0x0FF123456#33, range := 0#32, cache := 0x7F#8, ffCount := 0#64, shifts := 0#64 }
    let r3 : RangeEnc := { low := 0x0AB123456#33, range := 0#32, cache := 0x7F#8, ffCount := 1#64, shifts := 0#64 }
    r1.shiftBytes = [0x80#8, 0x00#8, 0x00#8] ∧
    r1.shift = { low := 0x45678900#33, range := 0#32, cache := 0x23#8, ffCount := 0#64, shifts := 1#64 } ∧
    r2.shiftBytes = [] ∧
    r2.shift = { low := 0x12345600#33, range := 0#32, cache := 0x7F#8, ffCount := 1#64, shifts := 1#64 } ∧
    r3.shiftBytes = [0x7F#8, 0xFF#8] ∧
    r3.shift = { low := 0x12345600#33, range := 0#32, cache := 0xAB#8, ffCount := 0#64, shifts := 1#64 } := by decide

theorem test_dictionary_bytes :
    dictDecode 0x0C#8 = 4096 ∧ dictDecode 0xED#8 = 4608 ∧ dictDecode 0x3D#8 = 503316480 ∧ dictValid 0x2C#8 = false ∧
    dictValid 0x0B#8 = false ∧ dictValid 0x1E#8 = false ∧ dictValid 0xFD#8 = true ∧ dictEncode 4097 = 0xED#8 ∧
    dictEncode 5000 = 0xCD#8 ∧ dictEncode 1572864 = 0x95#8 ∧ dictEncode 536870911 = 0x1D#8 := by
  decide +kernel

theorem test_crc :
    crcFinal ([0x61#8, 0x62#8, 0x63#8].foldl crcUpdate crcInit) = 0x352441C2#32 ∧
    crcFinal (crcUpdate crcInit 0x00#8) = 0xD202EF8D#32 := by decide +kernel

/-- The entries R230 prints. -/
theorem test_price_table :
    [0, 1, 2, 3, 255, 256, 511].map priceEntry = [640, 539, 492, 461, 65, 64, 1] := by decide +kernel

theorem test_winRead :
    winRead [(0, 0x61#8), (1, 0x62#8)] 2 4096 0 = some 0x62#8 ∧ winRead [(0, 0x61#8), (1, 0x62#8)] 2 4096 1 = some 0x61#8 ∧
    winRead [(0, 0x61#8), (1, 0x62#8)] 2 4096 2 = none ∧ winRead [(0, 0x61#8), (1, 0x62#8)] 2 1 1 = none := by decide

/-! ## One step of each instruction -/

/-- What holds of the next state, if there is one. -/
def nextHas (o : Host.Outcome State Fault Refusal) (f : State → Bool) : Bool :=
  match o with
  | .next t => f t
  | .fault _ => false
  | .refused _ => false

/-- What holds of the encoder or decoder of channel 0 in the next state. -/
def nextEnc (o : Host.Outcome State Fault Refusal) (f : Encoder → Bool) : Bool :=
  nextHas o fun t => match t.chan 0#8 with
    | .enc e => f e
    | .dec _ => false
    | .closed => false

def nextDec (o : Host.Outcome State Fault Refusal) (f : Decoder → Bool) : Bool :=
  nextHas o fun t => match t.chan 0#8 with
    | .dec d => f d
    | .enc _ => false
    | .closed => false

/-- The last response of the next state. -/
def answers (o : Host.Outcome State Fault Refusal) (status : Word) (words : List Word) (data : List Byte) : Bool :=
  nextHas o fun t => decide (t.responses = [{ status := status, words := words, data := data }])

/-- After power-on, but for channel 0. -/
def idle (ch : Channel) : State := { State.reset with channels := [ch, .closed] }

/-- A read of `n` bytes running on channel 0. -/
def reading (ch : Channel) (n : Nat) : State := { idle ch with running := some { chan := 0#8, n := n, got := [] } }

/-- The encoder of the spec's fixtures (D48) after its open, with plaintext staged, of which the first `dp` bytes are coded. -/
def encAt (text : List Byte) (dp : Nat) (lz : Lzma) : Encoder :=
  let e := Encoder.opened 0x14#8 36#16 0x7FFFFFFFFFFFFFFF#64 .normal
  { e with window := Memory.writeList [] 0 text, streamPos := BitVec.ofNat 64 text.length
           lz := { lz with dataPosition := BitVec.ofNat 64 dp } }

/-- A decoder in the payload of a member that has produced this plaintext. -/
def decAt (text : List Byte) (lz : Lzma) : Decoder :=
  { Decoder.init with
    phase := .inMember, part := .payload, memberVersion := 1#8, dictionarySize := 0x100000#32
    history := Memory.writeList [] 0 text, crc := text.foldl crcUpdate crcInit
    lz := { lz with dataPosition := BitVec.ofNat 64 text.length } }

/-- `LZ.state` and the rep distances. -/
def reps (state : Fin 12) (r0 r1 r2 r3 : Word) : Lzma :=
  { state := state, rep0 := r0, rep1 := r1, rep2 := r2, rep3 := r3, dataPosition := 0#64 }

/-- The LZMA registers, as a test compares them. -/
def lzIs (lz : Lzma) (state : Fin 12) (r0 r1 r2 r3 : Word) (dp : U64) : Bool :=
  decide (lz = { state := state, rep0 := r0, rep1 := r1, rep2 := r2, rep3 := r3, dataPosition := dp })

/-- "abcdab", the plaintext of spec/95 section 2.7 and its prefixes. -/
def abcd : List Byte := [0x61#8, 0x62#8, 0x63#8, 0x64#8]
def abcdab : List Byte := abcd ++ [0x61#8, 0x62#8]
def abcdabab : List Byte := abcdab ++ [0x61#8, 0x62#8]
def abcdababab : List Byte := abcdabab ++ [0x61#8, 0x62#8]
def abcdabababbb : List Byte := abcdababab ++ [0x62#8, 0x62#8]

-- The packets of spec/95 section 2.7 on a decoder.

theorem test_lit_decoder :
    nextDec (exec (.lit 0x62#8) (reading (.dec (decAt [0x61#8, 0x61#8] (reps 9 0#32 0#32 0#32 0#32))) 9))
      (fun d => lzIs d.lz 6 0#32 0#32 0#32 0#32 3#64 && decide (d.out = [0x62#8]) &&
        decide (d.history.read 2 = some 0x62#8) && decide (d.totalOut = 1#64)) = true := by decide

theorem test_match_decoder :
    nextDec (exec (.matchDist 2 3#32) (reading (.dec (decAt abcd (reps 0 0#32 0#32 0#32 0#32))) 9))
      (fun d => lzIs d.lz 7 3#32 0#32 0#32 0#32 6#64 && decide (d.out = [0x61#8, 0x62#8])) = true ∧
    nextDec (exec (.matchDist 2 1#32) (reading (.dec (decAt [0x61#8] (reps 0 0#32 0#32 0#32 0#32))) 9))
      (fun d => decide (d.errno = .dataError ∧ d.phase = .fatal ∧ d.out = [] ∧ d.lz.dataPosition = 1#64)) = true := by decide

/-- A copy longer than its distance (R106). -/
theorem test_match_overlaps :
    nextDec (exec (.matchDist 6 1#32) (reading (.dec (decAt [0x61#8, 0x62#8] (reps 0 0#32 0#32 0#32 0#32))) 9))
      (fun d => decide (d.out = [0x61#8, 0x62#8, 0x61#8, 0x62#8, 0x61#8, 0x62#8]) &&
        decide (crcFinal d.crc = 0x52830FE8#32)) = true := by decide +kernel

theorem test_shortRep_decoder :
    nextDec (exec .shortRep (reading (.dec (decAt [0x61#8] (reps 0 0#32 0#32 0#32 0#32))) 9))
      (fun d => lzIs d.lz 9 0#32 0#32 0#32 0#32 2#64 && decide (d.out = [0x61#8])) = true ∧
    nextDec (exec .shortRep (reading (.dec (decAt [] (reps 0 0#32 0#32 0#32 0#32))) 9))
      (fun d => decide (d.errno = .dataError ∧ d.phase = .fatal)) = true := by decide

theorem test_rep0_decoder :
    nextDec (exec (.rep0 3) (reading (.dec (decAt [0x61#8, 0x61#8, 0x62#8] (reps 6 0#32 0#32 0#32 0#32))) 9))
      (fun d => lzIs d.lz 8 0#32 0#32 0#32 0#32 6#64 && decide (d.out = [0x62#8, 0x62#8, 0x62#8])) = true := by decide

theorem test_rep1_decoder :
    nextDec (exec (.rep1 2) (reading (.dec (decAt abcdabab (reps 10 1#32 3#32 0#32 0#32))) 9))
      (fun d => lzIs d.lz 11 3#32 1#32 0#32 0#32 10#64 && decide (d.out = [0x61#8, 0x62#8])) = true := by decide

theorem test_rep2_decoder :
    nextDec (exec (.rep2 2) (reading (.dec (decAt abcdababab (reps 11 3#32 1#32 0#32 0#32))) 9))
      (fun d => lzIs d.lz 11 0#32 3#32 1#32 0#32 12#64 && decide (d.out = [0x62#8, 0x62#8])) = true := by decide

theorem test_rep3_decoder :
    nextDec (exec (.rep3 2) (reading (.dec (decAt abcdabababbb (reps 11 0#32 3#32 1#32 0#32))) 9))
      (fun d => lzIs d.lz 11 0#32 0#32 3#32 1#32 14#64 && decide (d.out = [0x62#8, 0x62#8])) = true := by decide

theorem test_eos_decoder :
    nextDec (exec .eos (reading (.dec (decAt abcd (reps 0 0#32 0#32 0#32 0#32))) 9))
      (fun d => decide (d.part = .trailer ∧ d.phase = .inMember)) = true ∧
    nextDec (exec .eos (reading (.dec { decAt abcd (reps 0 0#32 0#32 0#32 0#32) with
        rd := { code := 1#32, range := 0xFFFFFFFF#32 } }) 9))
      (fun d => decide (d.errno = .dataError ∧ d.phase = .fatal)) = true := by decide

-- The same packets on an encoder: the registers, and the number of decision bits by the shifts and the range they leave.

theorem test_lit_encoder :
    nextEnc (exec (.lit 0x61#8) (reading (.enc (encAt [0x61#8, 0x62#8] 0 (reps 0 0#32 0#32 0#32 0#32))) 9))
      (fun e => lzIs e.lz 0 0#32 0#32 0#32 0#32 1#64 && decide (crcFinal e.crc = 0xE8B7BE43#32) &&
        decide (e.models.get (.isMatch 0 0) = 1056#11) && decide (e.models.get (.literal 0 1) = 1056#11) &&
        decide (e.models.get (.literal 0 2) = 992#11) && decide (e.models.get (.literal 0 0xB0) = 992#11) &&
        decide (e.models.get (.literal 0 3) = 1024#11)) = true := by decide

theorem test_match_encoder :
    nextEnc (exec (.matchDist 2 3#32) (reading (.enc (encAt abcdab 4 (reps 0 0#32 0#32 0#32 0#32))) 9))
      (fun e => lzIs e.lz 7 3#32 0#32 0#32 0#32 6#64 && decide (e.models.get (.disSlot 0 16) = 992#11) &&
        decide (e.models.get (.disSlot 0 33) = 992#11) && decide (e.models.get (.rep 0) = 1056#11)) = true := by
  decide +kernel

theorem test_shortRep_encoder :
    nextEnc (exec .shortRep (reading (.enc (encAt [0x61#8, 0x61#8] 1 (reps 0 0#32 0#32 0#32 0#32))) 9))
      (fun e => lzIs e.lz 9 0#32 0#32 0#32 0#32 2#64 && decide (e.models.get (.isMatch 0 1) = 992#11) &&
        decide (e.models.get (.rep 0) = 992#11) && decide (e.models.get (.rep0 0) = 1056#11) &&
        decide (e.models.get (.len 0 1) = 1056#11)) = true := by decide

theorem test_reps_encoder :
    nextEnc (exec (.rep0 3)
        (reading (.enc (encAt [0x61#8, 0x61#8, 0x62#8, 0x62#8, 0x62#8, 0x62#8] 3 (reps 6 0#32 0#32 0#32 0#32))) 9))
      (fun e => lzIs e.lz 8 0#32 0#32 0#32 0#32 6#64 && decide (e.models.get (.low .repLen 3 4) = 992#11)) = true ∧
    nextEnc (exec (.rep1 2) (reading (.enc (encAt abcdababab 8 (reps 10 1#32 3#32 0#32 0#32))) 9))
      (fun e => lzIs e.lz 11 3#32 1#32 0#32 0#32 10#64 && decide (e.models.get (.rep1 10) = 1056#11)) = true ∧
    nextEnc (exec (.rep2 2) (reading (.enc (encAt abcdabababbb 10 (reps 11 3#32 1#32 0#32 0#32))) 9))
      (fun e => lzIs e.lz 11 0#32 3#32 1#32 0#32 12#64 && decide (e.models.get (.rep2 11) = 1056#11)) = true ∧
    nextEnc (exec (.rep3 2) (reading (.enc (encAt (abcdabababbb ++ [0x62#8, 0x62#8]) 12 (reps 11 0#32 3#32 1#32 0#32))) 9))
      (fun e => lzIs e.lz 11 0#32 0#32 3#32 1#32 14#64 && decide (e.models.get (.rep2 11) = 992#11)) = true := by decide

/-- The empty member of spec/95 section 1.1: header, payload and trailer after the close. -/
theorem test_eos_encoder :
    nextEnc (exec .eos (reading (.enc { encAt [] 0 Lzma.init with finishing := true }) 100))
      (fun e => decide (e.phase = .memberFinished ∧ e.out =
        [0x4C#8, 0x5A#8, 0x49#8, 0x50#8, 0x01#8, 0x14#8, 0x00#8, 0x83#8, 0xFF#8, 0xFB#8, 0xFF#8, 0xFF#8, 0xC0#8, 0x00#8,
          0x00#8, 0x00#8] ++ List.replicate 12 0x00#8 ++ [0x24#8] ++ List.replicate 7 0x00#8)) = true := by decide +kernel

/-- An illegal packet is no step of an encoder, and no packet runs without a read. -/
theorem test_packet_stops :
    (match exec (.lit 0x62#8) (reading (.enc (encAt [0x61#8] 0 Lzma.init)) 9) with
      | .fault f => decide (f = .illegalEncoderPacket)
      | _ => false) = true ∧
    (match exec (.lit 0x62#8) State.reset with
      | .refused r => decide (r = .noReadRunning)
      | _ => false) = true := by decide

-- Commands, with the responses of spec/95 section 3.

theorem test_queries :
    answers (exec .qApiVersion State.reset) 0#32 [0x3F5#32] [] = true ∧
    answers (exec .qVersionString State.reset) 0#32 [] [0x31#8, 0x2E#8, 0x31#8, 0x33#8] = true ∧
    answers (exec .qMinDictionarySize State.reset) 0#32 [0x1000#32] [] = true ∧
    answers (exec .qMaxDictionarySize State.reset) 0#32 [0x20000000#32] [] = true ∧
    answers (exec .qMinMatchLenLimit State.reset) 0#32 [5#32] [] = true ∧
    answers (exec .qMaxMatchLenLimit State.reset) 0#32 [0x111#32] [] = true := by decide

theorem test_encOpen :
    nextEnc (exec (.encOpen 0#8 4096#32 5#32 100#64) State.reset)
      (fun e => decide (e.dictByte = 0x0C#8 ∧ e.phase = .inMember ∧ e.writeSize Params.default = 4369)) = true ∧
    answers (exec (.encOpen 0#8 4095#32 36#32 0x7FFFFFFFFFFFFFFF#64) State.reset) 1#32 [] [] = true := by decide +kernel

theorem test_decOpen :
    nextDec (exec (.decOpen 0#8) State.reset) (fun d => decide (d = Decoder.init)) = true ∧
    answers (exec (.decOpen 2#8) State.reset) 1#32 [] [] = true := by decide

theorem test_closes :
    nextHas (exec (.encClose 0#8) (idle (.enc (encAt [] 0 Lzma.init)))) (fun t => decide (t.channels = [.closed, .closed])) =
      true ∧
    nextHas (exec (.decClose 0#8) (idle (.dec Decoder.init))) (fun t => decide (t.channels = [.closed, .closed])) = true ∧
    answers (exec (.encClose 0#8) (idle (.dec Decoder.init))) 1#32 [] [] = true := by decide

theorem test_encWrite :
    nextEnc (exec (.encWrite 0#8 3#32 [0x61#8, 0x62#8, 0x63#8]) (idle (.enc (encAt [] 0 Lzma.init))))
      (fun e => decide (e.streamPos = 3#64 ∧ e.window.read 2 = some 0x63#8 ∧ e.totalIn = 3#64)) = true ∧
    answers (exec (.encWrite 0#8 1#32 [0x78#8]) (idle (.enc { encAt [] 0 Lzma.init with finishing := true }))) 3#32 [0#32] [] =
      true := by decide

theorem test_encoder_introspection :
    answers (exec (.encWriteSize 0#8) (idle (.enc (encAt [0x61#8, 0x62#8, 0x63#8] 0 Lzma.init)))) 0#32 [0x10010E#32] [] =
      true ∧
    answers (exec (.encMemberFinished 0#8) (idle (.enc { encAt [] 0 Lzma.init with phase := .memberFinished, out := [] })))
      0#32 [1#32] [] = true ∧
    answers (exec (.encFinished 0#8) (idle (.enc { encAt [] 0 Lzma.init with phase := .finished }))) 0#32 [1#32] [] = true ∧
    answers (exec (.encErrno 0#8) (idle (.enc { encAt [] 0 Lzma.init with errno := .sequenceError }))) 0#32 [3#32] [] =
      true := by decide

theorem test_encRead :
    nextHas (exec (.encRead 0#8 64#32) (idle (.enc (encAt [] 0 Lzma.init))))
      (fun t => decide (t.running = some { chan := 0#8, n := 64, got := [] })) = true ∧
    answers (exec (.encRead 0#8 0#32) State.reset) 1#32 [] [] = true := by decide

theorem test_encSyncFlush :
    nextEnc (exec (.encSyncFlush 0#8) (idle (.enc (encAt [0x61#8] 0 Lzma.init)))) (fun e => e.syncPending) = true ∧
    nextEnc (exec (.encSyncFlush 0#8) (idle (.enc (encAt [] 0 Lzma.init)))) (fun e => !e.syncPending) = true := by decide

theorem test_encFinish :
    nextEnc (exec (.encFinish 0#8) (idle (.enc (encAt [0x61#8] 0 Lzma.init)))) (fun e => e.finishing) = true := by decide

/-- After a size-limit close the bytes not yet coded are the new member's first; a member not finished is not restarted. -/
theorem test_encRestartMember :
    nextEnc (exec (.encRestartMember 0#8)
        (idle (.enc { encAt abcd 3 Lzma.init with phase := .memberFinished, limitReached := true, out := [] })))
      (fun e => decide (e.window = [(0, 0x64#8)] ∧ e.streamPos = 1#64 ∧ e.phase = .inMember ∧ e.limitReached = false ∧
        e.out = [0x4C#8, 0x5A#8, 0x49#8, 0x50#8, 0x01#8, 0x14#8])) = true ∧
    nextEnc (exec (.encRestartMember 0#8) (idle (.enc (encAt [] 0 Lzma.init))))
      (fun e => decide (e.phase = .fatal ∧ e.errno = .sequenceError)) = true := by decide

theorem test_decWrite :
    nextDec (exec (.decWrite 0#8 1#32 [0x4C#8]) (idle (.dec { Decoder.init with inp := List.replicate 63 0x00#8 })))
      (fun d => decide (d.inp = List.replicate 63 0x00#8 ++ [0x4C#8])) = true ∧
    answers (exec (.decWrite 0#8 1#32 [0x4C#8]) (idle (.dec { Decoder.init with finishing := true }))) 3#32 [0#32] [] = true := by
  decide

theorem test_decRead :
    answers (exec (.decRead 0#8 0xFFFFFFFF#32) (idle (.dec Decoder.init))) 1#32 [0#32] [] = true ∧
    nextDec (exec (.decRead 0#8 16#32) (idle (.dec { Decoder.init with phase := .memberFinished, inp := [0x19#8] })))
      (fun d => decide (d.phase = .idle)) = true := by decide

theorem test_decFinish :
    nextDec (exec (.decFinish 0#8) (idle (.dec { Decoder.init with phase := .memberFinished })))
      (fun d => decide (d.phase = .finished ∧ d.finishing = true)) = true := by decide

theorem test_decReset :
    nextDec (exec (.decReset 0#8) (idle (.dec { decAt abcd Lzma.init with phase := .fatal, errno := .sequenceError })))
      (fun d => decide (d = Decoder.init)) = true := by decide

/-- Three junk bytes are discarded and counted (spec/95 section 3.5). -/
theorem test_decSyncToMember :
    nextDec (exec (.decSyncToMember 0#8) (idle (.dec { Decoder.init with
        phase := .fatal, errno := .headerError
        inp := [0x00#8, 0x01#8, 0x02#8, 0x4C#8, 0x5A#8, 0x49#8, 0x50#8, 0x01#8, 0x14#8] })))
      (fun d => decide (d.inp = [0x4C#8, 0x5A#8, 0x49#8, 0x50#8, 0x01#8, 0x14#8] ∧ d.totalIn = 3#64 ∧ d.phase = .idle ∧
        d.errno = .ok)) = true ∧
    answers (exec (.decSyncToMember 0#8) (idle (.dec { Decoder.init with phase := .fatal, errno := .sequenceError }))) 3#32 [] [] =
      true := by decide

theorem test_decoder_status :
    answers (exec (.decWriteSize 0#8) (idle (.dec { Decoder.init with inp := [0x4C#8] }))) 0#32 [63#32] [] = true ∧
    answers (exec (.decMemberFinished 0#8) (idle (.dec { Decoder.init with phase := .memberFinished }))) 0#32 [1#32] [] = true ∧
    answers (exec (.decFinished 0#8) (idle (.dec { Decoder.init with phase := .finished }))) 0#32 [1#32] [] = true ∧
    answers (exec (.decErrno 0#8) (idle (.dec { Decoder.init with errno := .headerError }))) 0#32 [4#32] [] = true := by decide

theorem test_decoder_counters :
    let d : Decoder :=
      { Decoder.init with
        memberVersion := 1#8, dictionarySize := 0x100000#32, crc := 0x13B53C2F#32, memberPosition := 0x32#64, totalIn := 0x4E#64
        totalOut := 0x100000006#64, lz := { Lzma.init with dataPosition := 13#64 } }
    answers (exec (.decMemberVersion 0#8) (idle (.dec d))) 0#32 [1#32] [] = true ∧
    answers (exec (.decDictionarySize 0#8) (idle (.dec d))) 0#32 [0x100000#32] [] = true ∧
    answers (exec (.decDataCrc 0#8) (idle (.dec d))) 0#32 [0xEC4AC3D0#32] [] = true ∧
    answers (exec (.decDataPosition 0#8) (idle (.dec d))) 0#32 [13#32, 0#32] [] = true ∧
    answers (exec (.decMemberPosition 0#8) (idle (.dec d))) 0#32 [0x32#32, 0#32] [] = true ∧
    answers (exec (.decTotalInSize 0#8) (idle (.dec d))) 0#32 [0x4E#32, 0#32] [] = true ∧
    answers (exec (.decTotalOutSize 0#8) (idle (.dec d))) 0#32 [6#32, 1#32] [] = true := by decide

-- The steps around `exec`.

/-- The rows of the opcode table run as the first instruction after reset. -/
theorem test_step_runs_table_words :
    answers (step (State.reset.withFetchWord 32 0x01000000)) 0#32 [0x3F5#32] [] = true ∧
    nextDec (step (State.reset.withFetchWord 32 0x20000000)) (fun d => decide (d = Decoder.init)) = true ∧
    nextDec (step (State.reset.withFetchWord 8 0x3)) (fun d => decide (d.lz.state = 9 ∧ d.out = [0x00#8])) = true := by
  decide +kernel

/-- Five errors of spec/95 sections 1.3 and 2.13, one decoder step each. -/
theorem test_decoder_errors :
    nextDec (step (reading (.dec { Decoder.init with
        inp := [0x4C#8, 0x5A#8, 0x49#8, 0x50#8, 0x01#8, 0x2C#8] }) 10))
      (fun d => decide (d.errno = .headerError ∧ d.phase = .fatal ∧ d.inp.length = 6 ∧ d.totalIn = 0#64)) = true ∧
    nextDec (step (reading (.dec { Decoder.init with
        inp := [0x4C#8, 0x5A#8, 0x49#8, 0x50#8, 0x01#8, 0x14#8] }) 10))
      (fun d => decide (d.phase = .inMember ∧ d.part = .load ∧ d.dictionarySize = 0x100000#32 ∧ d.memberPosition = 6#64)) =
      true ∧
    nextDec (step (reading (.dec { decAt [] Lzma.init with part := .load, memberPosition := 6#64, inp := [0x01#8] }) 10))
      (fun d => decide (d.errno = .headerError ∧ d.memberPosition = 7#64)) = true ∧
    nextDec (step (reading (.dec { decAt [] Lzma.init with
        part := .load, memberPosition := 6#64, inp := [0x00#8, 0xFF#8, 0xFF#8, 0xFF#8, 0xFF#8] }) 10))
      (fun d => decide (d.errno = .dataError ∧ d.memberPosition = 11#64)) = true ∧
    nextDec (step (reading (.dec { decAt [] Lzma.init with
        rd := { code := 0xBFFFFC00#32, range := 0xFFFFFFFF#32 }, memberPosition := 11#64 }) 10))
      (fun d => decide (d.errno = .dataError ∧ d.phase = .fatal ∧ d.memberPosition = 11#64)) = true := by decide


/-! ## Witnesses: states and operands that meet the hypotheses of the statements, clause by clause -/

/-- An encoder that has coded "ab" of "abcdab", and one with nothing staged that is finishing. -/
def encMid : Encoder := encAt abcdab 4 (reps 7 3#32 0#32 0#32 0#32)
def encEnd : Encoder := { encAt abcd 4 (reps 0 0#32 0#32 0#32 0#32) with finishing := true }

/-- A decoder that has produced "abcd". -/
def decMid : Decoder := decAt abcd (reps 7 3#32 0#32 0#32 0#32)

/-- The rep distances of both are inside a dictionary of `2^20` bytes and below data position 4. -/
theorem reps_inside (n : Nat) (h : n = 0x100000) (r : Word) (hr : r ∈ [3#32, 0#32, 0#32, 0#32]) :
    r.toNat < n ∧ (r.toNat = 0 ∨ r.toNat < 4) := by
  subst h
  simp only [List.mem_cons, List.not_mem_nil, or_false] at hr
  rcases hr with rfl | rfl | rfl | rfl <;> exact ⟨by decide, by decide⟩

theorem encMid_windowSound : encMid.windowSound :=
  ⟨by decide, by decide, reps_inside _ rfl, by decide⟩

theorem decMid_windowSound : decMid.windowSound :=
  ⟨by decide, fun _ => ⟨reps_inside _ rfl, by decide⟩⟩

theorem models_sound_nil : Models.sound [] := ⟨by decide, by simp⟩

/-- The channels of these states are the one given and a closed one. -/
theorem reading_channels {ch c : Channel} {n : Nat} (h : c ∈ (reading ch n).channels) : c = ch ∨ c = .closed := by
  rcases List.mem_cons.1 h with h | h
  · exact .inl h
  · exact .inr (List.mem_singleton.1 h)

theorem reading_windowSound {ch : Channel} (n : Nat) (h : ch.all Encoder.windowSound Decoder.windowSound) :
    (reading ch n).windowSound := by
  intro c hc
  rcases reading_channels hc with rfl | rfl
  · exact h
  · trivial

-- Encoding.

theorem witness_CommandRoundTrip :
    (Instr.encWrite 0#8 3#32 [0x61#8, 0x62#8, 0x63#8]).wellFormed = true ∧
    encode (.encWrite 0#8 3#32 [0x61#8, 0x62#8, 0x63#8]) = .command [0x13000000#32, 3#32] [0x61#8, 0x62#8, 0x63#8] ∧
    (Instr.encWrite 0xFF#8 0x80000000#32 []).wellFormed = true ∧
    encode (.encWrite 0xFF#8 0x80000000#32 []) = .command [0x13FF0000#32, 0x80000000#32] [] := by decide +kernel

theorem witness_PacketRoundTrip :
    let c : PacketCtx := { state := 11, posState := 3, litState := 7, matchByte := some 0xFF#8, atStart := false }
    ((Instr.rep3 273).wellFormed = true ∧ isPacket (.rep3 273) = true ∧ (7 ≤ c.state → c.matchByte.isSome = true) ∧
      (c.atStart = true → isRepClass (.rep3 273) = false)) ∧
    let c0 : PacketCtx := { state := 0, posState := 0, litState := 0, matchByte := none, atStart := true }
    ((Instr.lit 0#8).wellFormed = true ∧ isPacket (.lit 0#8) = true ∧ (7 ≤ c0.state → c0.matchByte.isSome = true) ∧
      (c0.atStart = true → isRepClass (.lit 0#8) = false)) := by decide

theorem witness_PacketCodeComplete :
    48 ≤ (List.replicate 48 true).length ∧ Instr.shortRep.wellFormed = true ∧ isPacket .shortRep = true ∧
    packetBits .shortRep ++ [true] = packetBits .shortRep ++ [true] := by decide

/-- The length classes meet at 9, 10, 17 and 18, and a MATCH of 48 decision bits exists. -/
theorem witness_PacketDecisionCounts :
    (2 ≤ 2 ∧ 2 ≤ 273 ∧ 2 ≤ 9) ∧ (2 ≤ 9 ∧ 9 ≤ 273) ∧ (2 ≤ 10 ∧ 10 ≤ 273 ∧ 10 ≤ 17) ∧ (2 ≤ 18 ∧ 18 ≤ 273) ∧
    (2 ≤ 273 ∧ 273 ≤ 273) ∧ distSlot 3 < 4 ∧ ¬ distSlot 4 < 4 ∧ distSlot 0x80000000 = 62 ∧ distSlot 0xFFFFFFFF = 63 ∧
    (packetDecisions .plain (.matchDist 18 0x80000000#32)).length = 48 ∧
    (packetDecisions .plain (.matchDist 17 0xFFFFFFFE#32)).length = 43 := by decide

theorem witness_ReservedCommandsAreRejected :
    let port (w : Word) : State := { State.reset with portWords := [w] }
    ((port 0#32).running = none ∧ opcodeField 0#32 = 0 ∧ 7 ≤ opcodeField 0x07000000#32 ∧ opcodeField 0x0F000000#32 ≤ 0x0F ∧
      0x1B ≤ opcodeField 0x1B000000#32 ∧ opcodeField 0x1F000000#32 ≤ 0x1F ∧ 0x32 ≤ opcodeField 0x32000000#32) ∧
    (decode (.command [0x01000001#32 &&& 0xFFFF0000#32] []) = .instr .qApiVersion (.command [] []) ∧
      0x01000001#32 &&& 0xFFFF#32 ≠ 0#32) ∧
    (1 ≤ opcodeField 0x01010000#32 ∧ opcodeField 0x06010000#32 ≤ 6 ∧ chanField 0x01010000#32 ≠ 0#8) ∧
    (isPacket (.decOpen 2#8) = false ∧ actsOn State.reset (.decOpen 2#8) = some 2#8 ∧
      State.reset.channels.length ≤ (2#8 : Byte).toNat) := by decide

-- The step.

theorem witness_StepRunsCommand :
    State.reset.running = none ∧
    decode (.command [0x24010000#32, 0x10#32, 0x01000000#32] []) = .instr (.decRead 1#8 16#32) (.command [0x01000000#32] []) ∧
    decode (.command State.reset.portWords State.reset.portData) = .incomplete := by decide

/-- A source that answered a value. -/
def gives {σ α : Type} (x : Src σ α) : Bool :=
  match x with
  | .ok _ _ => true
  | .hold => false
  | .raise _ _ => false

theorem gives_iff {σ α : Type} (x : Src σ α) : gives x = true ↔ ∃ a st, x = .ok a st := by
  cases x <;> simp [gives]

/-- An outcome that is a next state. -/
theorem next_of_nextHas {o : Host.Outcome State Fault Refusal} (h : nextHas o (fun _ => true) = true) : ∃ t, o = .next t :=
  match o, h with
  | .next t, _ => ⟨t, rfl⟩
  | .fault _, h => Bool.noConfusion h
  | .refused _, h => Bool.noConfusion h

/-- A decoder whose input holds one more packet, and one whose input ends within it. -/
def decFed : Decoder :=
  { decMid with rd := { code := 0#32, range := 0xFFFFFFFF#32 }, finishing := true, inp := List.replicate 8 0#8 }
def decHeld : Decoder := { decMid with rd := { code := 0#32, range := 0x01000000#32 } }

theorem witness_StepRunsPacket_decoder :
    (reading (.dec decFed) 9).running = some { chan := 0#8, n := 9, got := [] } ∧
    (reading (.dec decFed) 9).chan 0#8 = .dec decFed ∧ decFed.out.length < 9 ∧ decFed.phase = .inMember ∧
    decFed.part = .payload ∧ ∃ i d', Decoder.fetch (reading (.dec decFed) 9).params { decFed with out := [] } = .ok i d' :=
  ⟨rfl, rfl, by decide, rfl, rfl, (gives_iff _).1 (by decide +kernel)⟩

/-- A source that failed with this code, or that gave this bit. -/
def raises {σ α : Type} (x : Src σ α) (err : ErrorCode) : Bool :=
  match x with
  | .ok _ _ => false
  | .hold => false
  | .raise e _ => decide (e = err)

theorem raises_iff {σ α : Type} (x : Src σ α) (err : ErrorCode) : raises x err = true ↔ ∃ st, x = .raise err st := by
  cases x <;> simp [raises]

/-- A decoder at data position 0: with this code the first two decision bits are 1 and take no byte; with code 0 the first is 0 and
asks for a byte. -/
def decStart (code range : Word) : Decoder :=
  { decAt [] Lzma.init with finishing := true, inp := [], rd := { code := code, range := range } }

theorem witness_StepRunsPacket_raise :
    let p := (reading (.dec (decStart 0#32 0x01000000#32)) 9).params
    (decStart 0#32 0x01000000#32).out.length + 273 ≤ p.outFifoCap ∧
    (∃ d', Decoder.fetch p { decStart 0#32 0x01000000#32 with out := [] } = .raise .unexpectedEof d') ∧
    (∃ d', rangeBit (decStart 0#32 0x01000000#32) (some (.isMatch 0 0)) = .raise .unexpectedEof d') ∧
    (∃ d1, rangeBit (decStart 0xFFFFFFFE#32 0xFFFFFFFF#32) (some (.isMatch 0 0)) = .ok true d1 ∧
      ∃ d', rangeBit d1 (some (.rep 0)) = .ok true d') ∧
    (∃ d1, rangeBit (decStart 0x01FFFFFE#32 0x01FFFFFF#32) (some (.isMatch 0 0)) = .ok true d1 ∧
      ∃ d', rangeBit d1 (some (.rep 0)) = .raise .unexpectedEof d') ∧
    (decStart 0xFFFFFFFE#32 0xFFFFFFFF#32).lz.dataPosition = 0#64 :=
  ⟨by decide, (raises_iff _ _).1 (by decide +kernel), (raises_iff _ _).1 (by decide +kernel),
    ⟨_, by rfl, ⟨_, by rfl⟩⟩, ⟨_, by rfl, ⟨_, by rfl⟩⟩, rfl⟩

/-- The three ways an encoder's read goes on, each at its boundary: enough look-ahead below the limit, at the limit, and none
left when finishing. -/
theorem witness_StepRunsPacket_encoder :
    let s := reading (.enc { encMid with finishing := true, out := [] }) 9
    let e := { encMid with finishing := true, out := [], memberSizeLimit := 43#64 }
    (0 < 9 ∧ encMid.phase = .inMember ∧ 1 ≤ encMid.lookahead ∧ encMid.lookahead ≤ s.params.afterSize ∧
      ¬ e.memberSizeLimit.toNat ≤ 6 + e.re.shifts.toNat + 20 + s.params.memberMargin ∧ 0 < s.params.encOutReserve) ∧
    (42#64 : U64).toNat ≤ 6 + e.re.shifts.toNat + 20 + s.params.memberMargin ∧
    encEnd.lookahead = 0 ∧ encEnd.finishing = true ∧ encEnd.phase = .inMember := by decide

/-- A read that is exactly satisfied, one with nothing enabled, and one past the member; on a decoder also in Fatal. -/
theorem witness_ReadEnds :
    (reading (.enc { encMid with out := [1#8] }) 1).chan 0#8 = .enc { encMid with out := [1#8] } ∧
    1 ≤ (([] : List Byte) ++ [1#8].take (min (1 - 0) 1)).length ∧
    (encMid.lookahead < Params.default.afterSize ∧ encMid.finishing = false ∧ encMid.syncPending = false) ∧
    { encMid with phase := .memberFinished }.phase ≠ .inMember ∧
    (reading (.dec { decMid with phase := .fatal }) 1).chan 0#8 = .dec { decMid with phase := .fatal } ∧
    (decMid.phase ≠ .fatal ∧ 0 ≤ ([] : List Byte).length) ∧ { decMid with phase := .finished }.phase = .finished :=
  ⟨rfl, by decide, by decide, by decide, rfl, by decide, rfl⟩

-- Models, tables and the range coder.

theorem witness_BitUpdateValues :
    (31 ≤ (31#11 : Prob).toNat ∧ (31#11 : Prob).toNat ≤ 2017) ∧ (31 ≤ (2017#11 : Prob).toNat ∧ (2017#11 : Prob).toNat ≤ 2017) := by
  decide

theorem witness_BitsUpdateOneModel :
    (∃ b d', decFed.decBit (.isMatch 7 0) = .ok b d') ∧ (∃ b d', decFed.decDirectBit = .ok b d') ∧
    ModelRef.isMatch 0 1 ≠ .isMatch 0 0 :=
  ⟨(gives_iff _).1 (by decide +kernel), (gives_iff _).1 (by decide +kernel), by decide⟩

theorem witness_StateTransitions :
    (∃ d', decMid.executeEos = .ok () d') ∧ ∃ e', encEnd.codeEos Params.default = some e' :=
  ⟨⟨_, rfl⟩, ⟨_, rfl⟩⟩

theorem witness_DictEncodeIsLeast :
    (2 ^ 12 ≤ 2 ^ 12 ∧ 2 ^ 12 ≤ 2 ^ 29) ∧ dictValid 0x0C#8 = true ∧ 2 ^ 12 ≤ dictDecode 0x0C#8 ∧ dictValid 0x1D#8 = true ∧
    2 ^ 29 ≤ dictDecode 0x1D#8 := by decide

theorem witness_DistanceSlots :
    3 < 4 ∧ (4 ≤ 4 ∧ 2 ^ 2 ≤ 4 ∧ 4 < 2 ^ (2 + 1)) ∧ (4 ≤ 0xFFFFFFFF ∧ 2 ^ 31 ≤ 0xFFFFFFFF ∧ 0xFFFFFFFF < 2 ^ (31 + 1)) ∧
    (4 ≤ 63 ∧ 63 < 64) := by decide

/-- The least range the coder keeps. -/
theorem witness_OneShiftSuffices :
    { encMid with re := { RangeEnc.init with range := 0x01000000#32 } }.models.sound ∧
    2 ^ 24 ≤ { encMid with re := { RangeEnc.init with range := 0x01000000#32 } }.re.range.toNat :=
  ⟨models_sound_nil, by decide⟩

theorem witness_ByteAccounting :
    encMid.re = RangeEnc.init ∧ (packetDecisions .plain .eos).length + 5 < 2 ^ 64 := by decide

/-- A bit that waits, and the three ways one fails. -/
theorem witness_OneByteABit_fails :
    (rangeBit { decHeld with inp := [] } none = .hold) ∧
    (∃ d', rangeBit (decStart 0#32 0x01000000#32) none = .raise .unexpectedEof d') ∧
    (∃ d', rangeBit (decStart 0xFFFFFFFF#32 0xFFFFFFFF#32) none = .raise .dataError d') ∧
    (∃ d', rangeBit { decStart 0#32 0x01000000#32 with inp := [0#8], totalIn := 0xFFFFFFFFFFFFFFFF#64 } none =
      .raise .libraryError d') :=
  ⟨by decide +kernel, (raises_iff _ _).1 (by decide +kernel), (raises_iff _ _).1 (by decide +kernel),
    (raises_iff _ _).1 (by decide +kernel)⟩

/-- A bit read without a byte of input, and one read with a byte. -/
theorem witness_OneByteABit :
    decFed.models.sound ∧ 2 ^ 24 ≤ decFed.rd.range.toNat ∧ (∃ b d', rangeBit decFed none = .ok b d') ∧
    2 ^ 24 ≤ decHeld.rd.range.toNat ∧ ∃ b d', rangeBit { decHeld with inp := [0#8] } none = .ok b d' :=
  ⟨models_sound_nil, by decide, (gives_iff _).1 (by decide +kernel), by decide, (gives_iff _).1 (by decide +kernel)⟩

/-- The marker's payload, as spec/95 section 1.1 prints it. -/
theorem witness_PayloadDecodes :
    let e := encAt [] 0 Lzma.init
    let payload : List Byte := [0x00#8, 0x83#8, 0xFF#8, 0xFB#8, 0xFF#8, 0xFF#8, 0xC0#8, 0x00#8, 0x00#8, 0x00#8]
    e.re = RangeEnc.init ∧ (packetDecisions e.ctx .eos).length + 5 < 2 ^ 64 ∧
    (e.encDecisions (packetDecisions e.ctx .eos)).flush.out = e.out ++ payload ∧
    (decAt [] Lzma.init).models = e.models ∧ 0 + payload.length < 2 ^ 64 := by decide +kernel

-- The decoder's member steps.

def magic : List Byte := [0x4C#8, 0x5A#8, 0x49#8, 0x50#8, 0x01#8]

theorem witness_HeaderStep :
    let s (d : Decoder) := reading (.dec d) 9
    ((s Decoder.init).chan 0#8 = .dec Decoder.init ∧ Decoder.init.phase = .idle ∧ 0 + Decoder.init.out.length < 9 ∧
      magic.length < 6 ∧ magic <+: magic ∧ ¬ [0x58#8, 0x59#8] <+: magic) ∧
    (dictValid 0x2C#8 = false ∧ dictValid 0x1D#8 = true ∧ (s Decoder.init).params.maxWindowBytes = 2 ^ 30 ∧
      dictDecode 0x1D#8 ≤ 2 ^ 30 ∧ (2 ^ 20 < dictDecode 0x15#8 ∧ dictValid 0x15#8 = true) ∧
      Decoder.init.totalIn.toNat + 6 < 2 ^ 64 ∧
      2 ^ 64 ≤ { Decoder.init with totalIn := 0xFFFFFFFFFFFFFFFA#64 }.totalIn.toNat + 6) := by
  refine ⟨⟨rfl, ?_⟩, ?_⟩ <;> decide

theorem witness_LoadStep :
    let d := { decMid with part := .load, memberPosition := 6#64, totalIn := 6#64 }
    (reading (.dec d) 9).chan 0#8 = .dec d ∧ d.phase = .inMember ∧ d.part = .load ∧ 0 + d.out.length < 9 ∧
    d.memberPosition.toNat + 5 < 2 ^ 64 ∧ d.totalIn.toNat + 5 < 2 ^ 64 ∧ (0x01#8 : Byte) ≠ 0#8 ∧
    ((0xFF#8 ++ 0xFF#8 ++ 0xFF#8 ++ 0xFE#8 : Word) ≠ 0xFFFFFFFF#32 ∧ (0xFF#8 ++ 0xFF#8 ++ 0xFF#8 ++ 0xFF#8 : Word) = 0xFFFFFFFF#32) ∧
    ([0#8, 0#8, 0#8, 0#8] : List Byte).length < 5 ∧ ([0#8, 0#8, 0#8, 0#8] : List Byte).head? = some 0#8 ∧
    d.finishing = false ∧ { d with totalIn := 0xFFFFFFFFFFFFFFFF#64 }.totalIn.toNat = 2 ^ 64 - 1 ∧
    { d with inp := [0#8] }.inp ≠ [] := by
  refine ⟨rfl, ?_⟩; decide

/-- The trailer of the empty member, whole, one byte short, and with its last byte changed. -/
theorem witness_TrailerStep :
    let d := { decAt [] Lzma.init with part := .trailer, memberPosition := 16#64, totalIn := 16#64 }
    let size : List Byte := List.replicate 8 0#8
    let member : List Byte := 0x24#8 :: List.replicate 7 0#8
    (reading (.dec d) 9).chan 0#8 = .dec d ∧ d.phase = .inMember ∧ d.part = .trailer ∧ 0 + d.out.length < 9 ∧
    d.memberPosition.toNat + 20 < 2 ^ 64 ∧ d.totalIn.toNat + 20 < 2 ^ 64 ∧ (List.replicate 19 (0#8 : Byte)).length < 20 ∧
    size.length = 8 ∧ member.length = 8 ∧
    (leValue [0#8, 0#8, 0#8, 0#8] = (d.crc ^^^ 0xFFFFFFFF#32).toNat ∧ leValue size = d.lz.dataPosition.toNat ∧
      leValue member = d.memberPosition.toNat + 20) ∧
    leValue size ≠ d.memberPosition.toNat + 20 := by
  refine ⟨rfl, ?_⟩; decide

theorem witness_HoldChangesNothing :
    (reading (.dec decHeld) 9).chan 0#8 = .dec decHeld ∧ decHeld.phase = .inMember ∧ decHeld.part = .payload ∧
    0 + decHeld.out.length < 9 ∧ Decoder.fetch (reading (.dec decHeld) 9).params { decHeld with out := [] } = .hold := by
  refine ⟨rfl, by decide, by decide, by decide, rfl⟩

-- Introspection, errors and recovery.

theorem witness_GlobalQueries :
    let s : State := { State.reset with portWords := [0x06FF0000#32] }
    (1 ≤ (1#8 : Byte).toNat ∧ (6#8 : Byte).toNat ≤ 6) ∧ (0xFF#8 : Byte) ≠ 0#8 ∧ s.running = none ∧
    s.portWords = commandWord 6#8 0xFF#8 :: [] := by decide

/-- Free space in a member, after a sync-flush close, and none in each of the four cases. -/
theorem witness_EncoderIntrospection :
    (idle (.enc encMid)).chan 0#8 = .enc encMid ∧ encMid.streamPos.toNat + 2 ^ 31 ≤ 2 ^ 64 ∧
    (encMid.phase ≠ .fatal ∧ encMid.finishing = false ∧ encMid.syncPending = false ∧ encMid.limitReached = false) ∧
    encEnd.finishing = true := by
  refine ⟨rfl, ?_⟩; decide

theorem witness_DecoderIntrospection :
    (∀ d, (idle (.enc encMid)).chan 0#8 ≠ .dec d) ∧ (idle (.dec decMid)).chan 0#8 = .dec decMid ∧ (0#32 ++ 4#32 : U64) = decMid.lz.dataPosition ∧
    (0#32 ++ 0#32 : U64) = decMid.memberPosition ∧ (0#32 ++ 0#32 : U64) = decMid.totalIn ∧
    (0#32 ++ 0#32 : U64) = decMid.totalOut := by
  refine ⟨fun _ h => Channel.noConfusion h, rfl, ?_⟩; decide

theorem witness_LengthOperands :
    (idle (.enc encMid)).chan 0#8 = .enc encMid ∧ (idle (.dec decMid)).chan 0#8 = .dec decMid ∧
    (0x80000000#32 : Word).toInt < 0 ∧ (0xFFFFFFFF#32 : Word).toInt < 0 ∧ ¬ (0x7FFFFFFF#32 : Word).toInt < 0 ∧
    encMid.phase ≠ .fatal ∧ encMid.finishing = false ∧ decMid.phase ≠ .fatal ∧ decMid.finishing = false ∧
    decMid.phase ≠ .memberFinished ∧
    (reading (.dec decMid) 0).running = some { chan := 0#8, n := 0, got := [] } ∧
    (reading (.dec decMid) 0).chan 0#8 = .dec decMid := by
  refine ⟨rfl, rfl, by decide, by decide, by decide, by decide, by decide, by decide, by decide, by decide, rfl, rfl⟩

theorem witness_FatalLatch :
    let e := { encMid with phase := .fatal, errno := .sequenceError }
    let d := { decMid with phase := .fatal, errno := .dataError }
    0 ≤ (0#32 : Word).toInt ∧ 0 ≤ (0x7FFFFFFF#32 : Word).toInt ∧ (idle (.enc e)).chan 0#8 = .enc e ∧ e.phase = .fatal ∧
    (idle (.dec d)).chan 0#8 = .dec d ∧ d.phase = .fatal :=
  ⟨by decide, by decide, rfl, rfl, rfl, rfl⟩

theorem witness_DecoderReset :
    (idle (.dec decMid)).chan 0#8 = .dec decMid ∧ ∀ d, State.reset.chan 0#8 ≠ .dec d :=
  ⟨rfl, fun _ h => Channel.noConfusion h⟩

theorem witness_Resynchronisation :
    (idle (.dec decMid)).chan 0#8 = .dec decMid ∧ decMid.phase ≠ .fatal ∧ decMid.totalIn.toNat + decMid.inp.length < 2 ^ 64 ∧
    { decMid with phase := .fatal, errno := .headerError }.errno = .headerError ∧
    { decMid with phase := .fatal, errno := .sequenceError }.phase = .fatal ∧ ErrorCode.sequenceError ≠ .headerError ∧
    ErrorCode.sequenceError ≠ .dataError :=
  ⟨rfl, by decide, by decide, rfl, rfl, by decide, by decide⟩

theorem witness_WrongChannel :
    encoderChannel (.encFinish 0#8) = some 0#8 ∧ (∀ e, (idle (.dec decMid)).chan 0#8 ≠ .enc e) ∧
    decoderChannel (.decReset 0#8) = some 0#8 ∧ (∀ d, (idle (.enc encMid)).chan 0#8 ≠ .dec d) ∧
    (∀ e, State.reset.chan 0xFF#8 ≠ .enc e) := by
  refine ⟨rfl, ?_, rfl, ?_, ?_⟩ <;> intro x h <;> simp [State.chan, idle, State.reset] at h

-- Opening, closing and staging.

/-- The least and the greatest legal operands, each just past a bound, and a window that does not fit. -/
theorem witness_EncoderOpen :
    let legal (ds ml : Word) (lim : U64) : Prop := 2 ^ 12 ≤ ds.toNat ∧ ds.toNat ≤ 2 ^ 29 ∧ 5 ≤ ml.toNat ∧ ml.toNat ≤ 273 ∧
      100 ≤ lim.toNat ∧ lim.toNat ≤ 2 ^ 63 - 1
    (0#8 : Byte).toNat < State.reset.channels.length ∧ State.reset.chan 0#8 = .closed ∧
    (idle (.enc encMid)).chan 0#8 ≠ .closed ∧ legal 4096#32 5#32 100#64 ∧
    legal 0x20000000#32 273#32 0x7FFFFFFFFFFFFFFF#64 ∧ ¬ legal 4095#32 5#32 100#64 ∧ ¬ legal 4096#32 4#32 100#64 ∧
    ¬ legal 4096#32 274#32 100#64 ∧ ¬ legal 4096#32 5#32 99#64 ∧ ¬ legal 4096#32 5#32 0x8000000000000000#64 ∧
    dictDecode (dictEncode 0x20000000) + 0 + 273 ≤ State.reset.params.maxWindowBytes ∧
    ¬ dictDecode (dictEncode 0x20000000) + 0 + 273 ≤ 2 ^ 29 := by decide +kernel

theorem witness_DecoderOpenAndCloses :
    (1#8 : Byte).toNat < State.reset.channels.length ∧ State.reset.chan 1#8 = .closed ∧ (idle (.dec decMid)).chan 0#8 ≠ .closed ∧
    (idle (.enc encMid)).chan 0#8 = .enc encMid ∧ (idle (.dec decMid)).chan 0#8 = .dec decMid ∧
    (∀ e, State.reset.chan 0#8 ≠ .enc e) ∧ ∀ d, (idle (.enc encMid)).chan 0#8 ≠ .dec d :=
  ⟨by decide, rfl, by decide, rfl, rfl, fun _ h => Channel.noConfusion h, fun _ h => Channel.noConfusion h⟩

theorem witness_EncoderWrite :
    (idle (.enc encMid)).chan 0#8 = .enc encMid ∧ 0 ≤ (1#32 : Word).toInt ∧ [0x78#8].length = (1#32 : Word).toNat ∧
    encMid.phase ≠ .fatal ∧ encEnd.finishing = true ∧ encMid.finishing = false ∧ encMid.resumeOnWrite = false ∧
    encMid.windowSound :=
  ⟨rfl, by decide, by decide, by decide, rfl, rfl, rfl, encMid_windowSound⟩

theorem witness_MemberRestart :
    let e := { encMid with phase := .memberFinished, limitReached := true, out := [] }
    (idle (.enc e)).chan 0#8 = .enc e ∧ e.windowSound ∧ e.phase ≠ .fatal ∧
    (e.limitReached = true ∧ e.phase = .memberFinished ∧ e.out = []) ∧
    (0 < (1#32 : Word).toInt ∧ [0x78#8].length = (1#32 : Word).toNat ∧
      { encMid with resumeOnWrite := true, phase := .memberFinished }.finishing = false) ∧
    ¬ (encMid.limitReached = true ∧ encMid.phase = .memberFinished ∧ encMid.out = []) :=
  ⟨rfl, encMid_windowSound, by decide, by decide, by decide, by decide⟩

theorem witness_DecoderWrite :
    (idle (.dec decMid)).chan 0#8 = .dec decMid ∧ 0 ≤ (1#32 : Word).toInt ∧ [0x78#8].length = (1#32 : Word).toNat ∧
    decMid.phase ≠ .fatal ∧ decMid.finishing = false ∧ decFed.finishing = true :=
  ⟨rfl, by decide, by decide, by decide, rfl, rfl⟩

theorem witness_ReadStarts :
    0 ≤ (0#32 : Word).toInt ∧ 0 ≤ (0x7FFFFFFF#32 : Word).toInt ∧ (idle (.enc encMid)).chan 0#8 = .enc encMid ∧
    encMid.phase ≠ .fatal ∧ (idle (.dec decMid)).chan 0#8 = .dec decMid ∧ decMid.phase ≠ .fatal :=
  ⟨by decide, by decide, rfl, by decide, rfl, by decide⟩

theorem witness_EncoderSyncFlush :
    (idle (.enc encMid)).chan 0#8 = .enc encMid ∧ encMid.phase ≠ .fatal ∧ encEnd.finishing = true ∧
    (encMid.finishing = false ∧ encMid.phase = .inMember ∧
      ¬ (encMid.lz.dataPosition = 0#64 ∧ encMid.streamPos.toNat - encMid.lz.dataPosition.toNat = 0)) ∧
    ((encAt [] 0 Lzma.init).lz.dataPosition = 0#64 ∧ (encAt [] 0 Lzma.init).streamPos.toNat = 0) ∧
    { encMid with phase := .fatal }.phase = .fatal :=
  ⟨rfl, by decide, rfl, by decide, by decide, rfl⟩

theorem witness_Finishes :
    (idle (.enc encMid)).chan 0#8 = .enc encMid ∧ encMid.phase ≠ .fatal ∧ (idle (.dec decMid)).chan 0#8 = .dec decMid ∧
    decMid.phase ≠ .fatal ∧ { encMid with phase := .fatal }.phase = .fatal ∧ { decMid with phase := .fatal }.phase = .fatal :=
  ⟨rfl, by decide, rfl, by decide, rfl, rfl⟩

-- Packets.

/-- A counter at its end, and the contexts of a first packet and of one after a match. -/
theorem witness_LitPacket_context :
    { decMid with totalOut := 0xFFFFFFFFFFFFFFFF#64 }.totalOut.toNat = 2 ^ 64 - 1 ∧
    (1 ≤ (0x100000#32 : Word).toNat ∧ Lzma.init.dataPosition.toNat = 0 ∧ Lzma.init.state.val < 7) ∧
    (1 ≤ encMid.lz.dataPosition.toNat ∧ encMid.window.read (encMid.lz.dataPosition.toNat - 1) = some 0x64#8 ∧
      7 ≤ encMid.lz.state.val ∧ encMid.lz.rep0.toNat < encMid.lz.dataPosition.toNat ∧
      encMid.lz.rep0.toNat < encMid.dictionarySize.toNat ∧
      encMid.window.read (encMid.lz.dataPosition.toNat - encMid.lz.rep0.toNat - 1) = some 0x61#8) := by
  refine ⟨?_, ?_, ?_⟩ <;> decide +kernel

theorem witness_LitPacket :
    (reading (.dec decMid) 9).running = some { chan := 0#8, n := 9, got := [] } ∧
    (reading (.dec decMid) 9).chan 0#8 = .dec decMid ∧ decMid.lz.dataPosition.toNat + 1 < 2 ^ 64 ∧
    decMid.totalOut.toNat + 1 < 2 ^ 64 ∧ (reading (.enc encMid) 9).chan 0#8 = .enc encMid ∧ 1 ≤ encMid.lookahead ∧
    encMid.window.read encMid.lz.dataPosition.toNat = some 0x61#8 ∧
    winRead encMid.window encMid.lz.dataPosition.toNat encMid.dictionarySize.toNat encMid.lz.rep0.toNat = some 0x61#8 ∧
    (encAt abcd 0 Lzma.init).lz.state.val ≤ 6 := by
  refine ⟨rfl, rfl, ?_, ?_, rfl, ?_⟩ <;> decide +kernel

/-- The next bytes of `encMid` are those four bytes back. -/
theorem encMid_copies : encMid.copiesNext 2 3 := by
  intro k hk
  match k, hk with
  | 0, _ => exact ⟨0x61#8, by decide +kernel⟩
  | 1, _ => exact ⟨0x62#8, by decide +kernel⟩

/-- The greatest distance the decoder takes and the least it does not; and a pair the encoder may code. -/
theorem witness_MatchPacket :
    (3#32 ≠ 0xFFFFFFFF#32 ∧ (3#32 : Word).toNat < decMid.lz.dataPosition.toNat ∧
      (3#32 : Word).toNat < decMid.dictionarySize.toNat ∧ decMid.lz.dataPosition.toNat + 273 < 2 ^ 64 ∧
      decMid.totalOut.toNat + 273 < 2 ^ 64) ∧ decMid.windowSound ∧
    decMid.lz.dataPosition.toNat ≤ (4#32 : Word).toNat ∧
    (2 ≤ 2 ∧ 2 ≤ encMid.matchLenLimit.toNat ∧ 2 ≤ encMid.lookahead ∧ 2 ≤ (reading (.enc encMid) 9).params.afterSize ∧
      (3#32 : Word).toNat < encMid.lz.dataPosition.toNat ∧ (3#32 : Word).toNat < encMid.dictionarySize.toNat) ∧
    encMid.copiesNext 2 (3#32 : Word).toNat :=
  ⟨by decide, decMid_windowSound, by decide, by decide, encMid_copies⟩

/-- Counters with no room for the least copy: a MATCH and the five rep packets. -/
theorem witness_packets_overflow :
    let d := { decMid with totalOut := 0xFFFFFFFFFFFFFFFF#64 }
    2 ^ 64 ≤ d.totalOut.toNat + 1 ∧ 2 ^ 64 ≤ d.totalOut.toNat + 2 ∧ (3#32 : Word) ≠ 0xFFFFFFFF#32 ∧
    (3#32 : Word).toNat < d.lz.dataPosition.toNat ∧ (3#32 : Word).toNat < d.dictionarySize.toNat ∧ d.phase = .inMember ∧
    1 ≤ d.lz.dataPosition.toNat ∧ d.windowSound :=
  ⟨by decide, by decide, by decide, by decide, by decide, rfl, by decide, decMid_windowSound⟩

theorem witness_RepPacketsDecoded :
    (reading (.dec decMid) 9).running = some { chan := 0#8, n := 9, got := [] } ∧
    (reading (.dec decMid) 9).chan 0#8 = .dec decMid ∧ (decAt [] Lzma.init).lz.dataPosition = 0#64 ∧
    isRepClass .shortRep = true ∧ decMid.phase = .inMember ∧ decMid.windowSound ∧ 1 ≤ decMid.lz.dataPosition.toNat ∧
    decMid.lz.dataPosition.toNat + 273 < 2 ^ 64 ∧ decMid.totalOut.toNat + 273 < 2 ^ 64 :=
  ⟨rfl, rfl, rfl, rfl, rfl, decMid_windowSound, by decide, by decide, by decide⟩

/-- `rep0` of `encMid` is 3, as in `encMid_copies`; with its four registers all 3, each rep packet is legal. -/
theorem witness_RepPacketsEncoded :
    let e := { encMid with lz := { encMid.lz with rep0 := 3#32, rep1 := 3#32, rep2 := 3#32, rep3 := 3#32 } }
    (reading (.enc e) 9).chan 0#8 = .enc e ∧ (2 ≤ 2 ∧ 2 ≤ e.matchLenLimit.toNat ∧ 2 ≤ (reading (.enc e) 9).params.afterSize) ∧
    2 ≤ e.lookahead ∧ e.lz.rep3.toNat < e.lz.dataPosition.toNat ∧ e.lz.rep3.toNat < e.dictionarySize.toNat ∧
    e.copiesNext 2 e.lz.rep0.toNat ∧ e.copiesNext 2 e.lz.rep3.toNat :=
  ⟨rfl, by decide, by decide, by decide, by decide, encMid_copies, encMid_copies⟩

theorem witness_EosDecoded :
    (reading (.dec decMid) 9).chan 0#8 = .dec decMid ∧ decMid.rd.code = 0#32 ∧
    { decMid with rd := { code := 1#32, range := 0xFFFFFFFF#32 } }.rd.code ≠ 0#32 :=
  ⟨rfl, rfl, by decide⟩

/-- The limit at its boundary, a sync flush, and a finish. -/
theorem witness_MemberClose :
    let e := { encMid with finishing := true, memberSizeLimit := 42#64 }
    ((reading (.enc e) 9).chan 0#8 = .enc e ∧ e.phase = .inMember ∧ 1 ≤ e.lookahead ∧
      e.memberSizeLimit.toNat ≤ 6 + e.re.shifts.toNat + 20 + (reading (.enc e) 9).params.memberMargin) ∧
    (encEnd.lookahead = 0 ∧ { encEnd with syncPending := true }.syncPending = true) ∧
    (encEnd.syncPending = false ∧ encEnd.finishing = true ∧ encEnd.phase = .inMember) := by
  refine ⟨⟨rfl, ?_⟩, ?_⟩ <;> decide

/-- With one hash bucket a pair is found whatever the hash functions are: four bytes back, the same four bytes. -/
theorem witness_MatchFinderPairsAreValid :
    let e := { encAt (abcd ++ abcd) 4 Lzma.init with
      variant := .fast, mf := { MatchFinder.init with hash4 := [(0, 0)] } }
    e.lz.dataPosition.toNat ≤ 4 ∧ (4, 3) ∈ (e.mfInsert { Params.default with hashSize := 1 } 4 8).2 ∧ e.variant = .fast := by
  refine ⟨by decide, ?_, rfl⟩
  simp only [Encoder.mfInsert, Encoder.mfFast, Encoder.bucket, Nat.mod_one]
  decide +kernel

/-- Positions 1 to 3 were passed over; all four bytes of the packet's own position are in view. -/
theorem witness_EveryPositionInserted :
    let e := { encAt (abcd ++ abcd) 4 Lzma.init with variant := .fast, mf := { MatchFinder.init with next := 1 } }
    e.mf.next ≤ e.lz.dataPosition.toNat ∧ 4 + 4 ≤ e.lz.dataPosition.toNat + e.view Params.default ∧ e.variant = .fast := by
  refine ⟨by decide, by decide, rfl⟩

/-- R335: with one hash bucket the chain then holds 4, 3, 2, 1, whatever the hash function is. -/
theorem test_skip_inserts_in_order :
    let e := { encAt (abcd ++ abcd) 4 Lzma.init with variant := .fast, mf := { MatchFinder.init with next := 1 } }
    let m := (e.search { Params.default with hashSize := 1 }).1
    m.hash4 = [(0, 4)] ∧ m.son = [(2, 1), (3, 2), (4, 3)] := by
  show ((Encoder.mfSkip _ _ 8 3).mfInsert _ 4 8).1.hash4 = _ ∧ ((Encoder.mfSkip _ _ 8 3).mfInsert _ 4 8).1.son = _
  simp only [Encoder.mfSkip, Encoder.mfInsert, Encoder.mfFast, Encoder.bucket, Nat.mod_one]
  decide +kernel

/-- R192: the range is shifted before the byte that is not there is asked for. -/
theorem test_normalize_shifts_before_the_read :
    let d := { decMid with finishing := true, inp := [], rd := { code := 5#32, range := 0x00800000#32 } }
    d.normalize = .raise .unexpectedEof { d with rd := { code := 5#32, range := 0x80000000#32 } } := by
  decide +kernel

theorem witness_ChosenPacketIsLegal : encMid.windowSound ∧ 1 ≤ encMid.view Params.default :=
  ⟨encMid_windowSound, by decide⟩

-- The whole machine.

theorem witness_OtherChannelsUnchanged :
    (∃ t, exec .shortRep (reading (.dec decMid) 9) = .next t) ∧ isPacket .shortRep = true ∧
    actsOn (reading (.dec decMid) 9) .shortRep ≠ some 1#8 ∧ (∃ t, exec (.decReset 0#8) (idle (.dec decMid)) = .next t) ∧
    (∀ c n, Instr.decReset 0#8 ≠ .encRead c n ∧ Instr.decReset 0#8 ≠ .decRead c n) :=
  ⟨⟨_, rfl⟩, rfl, by decide, ⟨_, rfl⟩, by simp⟩

theorem witness_StepKeepsCodingSound :
    (reading (.dec decMid) 9).codingSound ∧ ∃ t, step (reading (.dec decMid) 9) = .next t := by
  refine ⟨?_, next_of_nextHas (by decide +kernel)⟩
  intro c hc
  rcases reading_channels hc with rfl | rfl
  · exact ⟨models_sound_nil, fun _ _ => by decide⟩
  · trivial

theorem witness_StepKeepsWindowSound :
    (reading (.enc encMid) 9).windowSound ∧ ∃ t, step (reading (.enc encMid) 9) = .next t :=
  ⟨reading_windowSound 9 encMid_windowSound, next_of_nextHas (by decide +kernel)⟩

theorem witness_StepKeepsParameters : State.reset.paramsWf ∧ ∃ t, step State.reset = .next t :=
  ⟨⟨by decide, by unfold Params.wf; decide⟩, _, rfl⟩

theorem witness_StepKeepsSearchSound :
    (reading (.enc encMid) 9).windowSound ∧ (reading (.enc encMid) 9).searchSound ∧
      ∃ t, step (reading (.enc encMid) 9) = .next t := by
  refine ⟨reading_windowSound 9 encMid_windowSound, fun c hc => ?_, next_of_nextHas (by decide +kernel)⟩
  rcases reading_channels hc with rfl | rfl
  · exact ⟨⟨Nat.zero_le _, fun _ => ⟨rfl, rfl⟩⟩, ⟨.nil, .nil, .nil, .nil⟩, fun _ => Nat.zero_le _⟩
  · trivial

theorem witness_StepKeepsFifosSound :
    (reading (.dec decMid) 9).fifosSound ∧ ∃ t, step (reading (.dec decMid) 9) = .next t := by
  refine ⟨?_, next_of_nextHas (by decide +kernel)⟩
  intro c hc
  rcases reading_channels hc with rfl | rfl
  · exact ⟨by decide, by decide⟩
  · trivial

theorem witness_StepGoesOn : (reading (.dec decMid) 9).windowSound := reading_windowSound 9 decMid_windowSound

theorem witness_DecoderReadEnds :
    (reading (.dec decMid) 0x7FFFFFFF).running = some { chan := 0#8, n := 0x7FFFFFFF, got := [] } ∧
    (reading (.dec decMid) 0x7FFFFFFF).chan 0#8 = .dec decMid :=
  ⟨rfl, rfl⟩

theorem witness_EncoderReadEnds :
    (reading (.enc encMid) 9).windowSound ∧ (reading (.enc encMid) 9).running = some { chan := 0#8, n := 9, got := [] } ∧
    (reading (.enc encMid) 9).chan 0#8 = .enc encMid :=
  ⟨reading_windowSound 9 encMid_windowSound, rfl, rfl⟩

end Sys2Proof.Tests
end

section
/-! PROOFS. Family 00, scope: a packet step that holds (R20, R280), and the parameters of the block (R15). -/

namespace Sys2Proof.Machine

/-! ## A held packet step -/

/-- FinishedCheck acts on a finished member only (R390). -/
theorem Decoder.finishedCheck_of_ne {d : Decoder} (h : d.phase ≠ .memberFinished) : d.finishedCheck = d := by
  unfold Decoder.finishedCheck
  exact if_neg fun hf => h hf.1

/-- A fetch that holds ends the read with the decoder as it was (R20, R444). -/
theorem decoderPacket_hold {s : State} {r : Run} {d : Decoder} (hp : d.phase ≠ .memberFinished)
    (h : d.fetch s.params = .hold) :
    decoderPacket s r d = .next ((s.setChan r.chan (.dec d)).endRead r .ok) := by
  simp only [decoderPacket, h, State.endDecoderRead, Decoder.finishedCheck_of_ne hp]

/-- With the output FIFO empty, room is short only if the FIFO is smaller than the longest packet (R280). -/
theorem Decoder.hasRoom_empty {p : Params} {d : Decoder} (h : Decoder.hasRoom p { d with out := [] } = false) :
    p.outFifoCap < 273 := by
  simpa [Decoder.hasRoom, maxPacketBytes] using h

/-! ## The parameters and the number of channels -/

/-- The two states have the same parameters and the same number of channels (R15). -/
def State.sameConfig (s t : State) : Prop := t.params = s.params ∧ t.channels.length = s.channels.length

theorem State.sameConfig_refl (s : State) : s.sameConfig s := ⟨rfl, rfl⟩

theorem State.sameConfig.trans {s t u : State} (h1 : s.sameConfig t) (h2 : t.sameConfig u) : s.sameConfig u :=
  ⟨h2.1.trans h1.1, h2.2.trans h1.2⟩

theorem State.sameConfig.paramsWf {s t : State} (h : s.sameConfig t) (hs : s.paramsWf) : t.paramsWf := by
  unfold State.paramsWf
  rw [h.1, h.2]
  exact hs

theorem State.sameConfig_setChan (s : State) (c : Byte) (ch : Channel) : s.sameConfig (s.setChan c ch) :=
  ⟨rfl, List.length_set⟩

theorem State.sameConfig_withRun (s : State) (r : Run) (ch : Channel) : s.sameConfig (s.withRun r ch) :=
  ⟨rfl, List.length_set⟩

theorem State.sameConfig_endEncoderRead (s : State) (r : Run) (e : Encoder) : s.sameConfig (s.endEncoderRead r e) :=
  ⟨rfl, List.length_set⟩

theorem State.sameConfig_endDecoderRead (s : State) (r : Run) (d : Decoder) (err : ErrorCode) :
    s.sameConfig (s.endDecoderRead r d err) :=
  ⟨rfl, List.length_set⟩

theorem State.afterCommand.sameConfig {s t : State} {c : Option Byte} {reads : Bool} (h : s.afterCommand c reads t) :
    s.sameConfig t := by
  obtain ⟨hp, -, -, hch, -⟩ := h
  refine ⟨hp, ?_⟩
  rcases hch with hch | ⟨c', ch, -, -, -, hch⟩
  · rw [hch]
  · rw [hch, List.length_set]

/-- A packet that goes on replaces at most one channel, whatever its two sides do. -/
theorem runPacket_next {s t : State} {onEnc : Params → Encoder → Option Encoder} {onDec : Decoder → Src Decoder Unit}
    (h : runPacket s onEnc onDec = .next t) : t = s ∨ ∃ c ch, t = s.setChan c ch := by
  unfold runPacket at h
  split at h
  · cases h
  · split at h
    · cases h
    · split at h <;> cases h
      exact .inr ⟨_, _, rfl⟩
    · split at h <;> cases h
      · exact .inr ⟨_, _, rfl⟩
      · exact .inl rfl
      · exact .inr ⟨_, _, rfl⟩

/-- Every packet is run by `runPacket` (R250). -/
theorem exec_eq_runPacket {i : Instr} (hi : isPacket i = true) (s : State) :
    ∃ onEnc onDec, exec i s = runPacket s onEnc onDec := by
  cases i
  case lit | matchDist | shortRep | rep0 | rep1 | rep2 | rep3 | eos =>
    simp only [exec, execLit, execMatchDist, execShortRep, execRep0, execRep1, execRep2, execRep3, execEos]
    exact ⟨_, _, rfl⟩
  all_goals exact absurd hi Bool.false_ne_true

/-- An instruction that goes on, packet or command, keeps the parameters and the number of channels. -/
theorem exec_sameConfig {i : Instr} {s t : State} (h : exec i s = .next t) : s.sameConfig t := by
  cases hi : isPacket i
  · obtain ⟨t', ht', hafter⟩ := exec_command i s hi
    obtain rfl : t' = t := Host.Outcome.next.inj (ht'.symm.trans h)
    exact hafter.sameConfig
  · obtain ⟨onEnc, onDec, hrun⟩ := exec_eq_runPacket hi s
    rcases runPacket_next (hrun.symm.trans h) with rfl | ⟨c, ch, rfl⟩
    · exact State.sameConfig_refl t
    · exact State.sameConfig_setChan s c ch

section

variable {s t : State} {r : Run} {d : Decoder}

/-- The same for an instruction that a running read has fetched. -/
theorem exec_withRun_sameConfig {i : Instr} {ch : Channel} (h : exec i (s.withRun r ch) = .next t) : s.sameConfig t :=
  (State.sameConfig_withRun s r ch).trans (exec_sameConfig h)

theorem decoderStep_sameConfig {x : Src Decoder Unit} (h : decoderStep s r d x = .next t) : s.sameConfig t := by
  cases x <;> cases h
  case ok => exact State.sameConfig_withRun s r _
  case hold => exact State.sameConfig_endDecoderRead s r d .ok
  case raise => exact State.sameConfig_withRun s r _

theorem decoderPacket_sameConfig (h : decoderPacket s r d = .next t) : s.sameConfig t := by
  unfold decoderPacket at h
  split at h
  · exact exec_withRun_sameConfig h
  · cases h; exact State.sameConfig_endDecoderRead s r d .ok
  · cases h; exact State.sameConfig_withRun s r _

theorem decoderIteration_sameConfig (h : decoderIteration s r d = .next t) : s.sameConfig t := by
  rcases decoderIteration_cases (s := s) (r := r) (d := d) with
    ⟨err, hi⟩ | ⟨-, -, hi⟩ | ⟨-, -, -, hi⟩ | ⟨-, -, -, hi⟩ | ⟨-, -, -, hi⟩ <;> rw [hi] at h
  · cases h; exact State.sameConfig_endDecoderRead s r d err
  · exact decoderStep_sameConfig h
  · exact decoderStep_sameConfig h
  · exact decoderPacket_sameConfig h
  · exact decoderStep_sameConfig h

theorem encoderIteration_sameConfig {e : Encoder} (h : encoderIteration s r e = .next t) : s.sameConfig t := by
  rcases encoderIteration_cases (s := s) (r := r) (e := e) with hi | ⟨-, -, hi⟩ | ⟨-, -, -, hi⟩ <;> rw [hi] at h
  · cases h; exact State.sameConfig_endEncoderRead s r e
  · exact exec_withRun_sameConfig h
  · exact exec_withRun_sameConfig h

theorem readStep_sameConfig (h : readStep s r = .next t) : s.sameConfig t := by
  unfold readStep at h
  split at h
  · cases h; exact ⟨rfl, rfl⟩
  · exact encoderIteration_sameConfig h
  · exact decoderIteration_sameConfig h

theorem commandStep_sameConfig (h : commandStep s = .next t) : s.sameConfig t := by
  unfold commandStep at h
  split at h
  · rename_i i rest _
    have hcode : s.sameConfig (s.withCode rest) :=
      ⟨State.withCode_params s rest, congrArg List.length (State.withCode_channels s rest)⟩
    exact hcode.trans (exec_sameConfig h)
  · cases h; exact ⟨by simp, by simp⟩
  · cases h; exact State.sameConfig_refl s

/-- INVARIANT (R15): a step keeps the parameters and the number of channels. -/
theorem step_sameConfig (h : step s = .next t) : s.sameConfig t := by
  unfold step at h
  split at h
  · exact readStep_sameConfig h
  · exact commandStep_sameConfig h

end

end Sys2Proof.Machine

open Sys2Proof.Machine

/-- Settles O25: the read takes the FIFO's bytes, the held fetch ends it with nothing else changed, and a fetch holds only
for want of room or of input that may still come (`Decoder.fetch_hold`). -/
theorem holdChangesNothing : Obligations.HoldChangesNothing := by
  intro s r d hr hc hp hpart hlen hfetch
  constructor
  · rw [step_decoder hr hc hlen, decoderIteration_payload (by exact hp) (by exact hpart) (Run.not_full hlen),
      decoderPacket_hold (by simp [hp]) hfetch]
  · exact (Decoder.fetch_hold hfetch).imp Decoder.hasRoom_empty id

/-- Settles O53: `step_sameConfig`, which the constraints on the parameters follow. -/
theorem stepKeepsParameters : Obligations.StepKeepsParameters := by
  intro s t h
  have hsame := step_sameConfig h
  exact ⟨hsame.1, hsame.2, hsame.paramsWf⟩
end

section
/-! PROOFS. Family 10, state: what an instruction leaves unchanged (R30, R111, R114), and the invariants every step keeps: the
decoders' FIFOs (R51), the models and the range coders (R38, R171, R198), the trial buffers and the match-finders (R48, R335). -/

namespace Sys2Proof

theorem Src.Sat.of_ok {σ α : Type} {V : α → Prop} {P Q : σ → Prop} {H : Prop} {x : Src σ α} {a : α} {st : σ}
    (h : x.Sat V P Q H) (hx : x = .ok a st) : V a ∧ P st := by subst hx; exact h

theorem Src.Sat.of_raise {σ α : Type} {V : α → Prop} {P Q : σ → Prop} {H : Prop} {x : Src σ α} {err : ErrorCode} {st : σ}
    (h : x.Sat V P Q H) (hx : x = .raise err st) : Q st := by subst hx; exact h

end Sys2Proof

namespace Sys2Proof.Machine

/-! ## What an instruction leaves unchanged -/

/-- The channels of two states agree wherever the one list is the other with an entry replaced elsewhere. -/
theorem State.chan_eq_of_channels_set {s t : State} {c c' : Byte} {ch : Channel}
    (h : t.channels = s.channels.set c.toNat ch) (hne : c' ≠ c) : t.chan c' = s.chan c' :=
  (congrArg (·.getD c'.toNat .closed) h).trans (s.chan_setChan_of_ne ch hne)

/-- A command leaves every channel but the one it acts on. -/
theorem State.afterCommand.chan_eq {s t : State} {c : Option Byte} {reads : Bool} (h : s.afterCommand c reads t) {c' : Byte}
    (hc : c ≠ some c') : t.chan c' = s.chan c' := by
  obtain ⟨-, -, -, hch, -⟩ := h
  rcases hch with hch | ⟨c₁, ch, rfl, -, -, hch⟩
  · exact congrArg (·.getD c'.toNat .closed) hch
  · exact State.chan_eq_of_channels_set hch fun hne => hc (congrArg some hne.symm)

/-- A packet acts on the channel of the read in progress (R413). -/
theorem actsOn_packet {i : Instr} (hi : isPacket i = true) (s : State) : actsOn s i = s.running.map Run.chan := by
  cases i
  case lit | matchDist | shortRep | rep0 | rep1 | rep2 | rep3 | eos => rfl
  all_goals exact absurd hi Bool.false_ne_true

/-- A packet that goes on replaces at most the channel of the read in progress. -/
theorem runPacket_setChan {s t : State} {onEnc : Params → Encoder → Option Encoder} {onDec : Decoder → Src Decoder Unit}
    (h : runPacket s onEnc onDec = .next t) : t = s ∨ ∃ r ch, s.running = some r ∧ t = s.setChan r.chan ch := by
  unfold runPacket at h
  split at h
  · cases h
  · rename_i r hr
    split at h
    · cases h
    · split at h <;> cases h
      exact .inr ⟨r, _, hr, rfl⟩
    · split at h <;> cases h
      · exact .inr ⟨r, _, hr, rfl⟩
      · exact .inl rfl
      · exact .inr ⟨r, _, hr, rfl⟩

theorem exec_packet_setChan {i : Instr} (hi : isPacket i = true) {s t : State} (h : exec i s = .next t) :
    t = s ∨ ∃ r ch, s.running = some r ∧ t = s.setChan r.chan ch := by
  obtain ⟨onEnc, onDec, hrun⟩ := exec_eq_runPacket hi s
  exact runPacket_setChan (hrun.symm.trans h)

theorem isRead_eq_false {i : Instr} (h : ∀ c n, i ≠ .encRead c n ∧ i ≠ .decRead c n) : isRead i = false := by
  unfold isRead
  split
  · exact absurd rfl (h _ _).1
  · exact absurd rfl (h _ _).2
  · rfl

/-- What a decoder can read is a packet (R142). -/
theorem isPacket_of_decodedPacket {i : Instr} (h : i.decodedPacket) : isPacket i = true := by
  cases i
  case lit | matchDist | shortRep | rep0 | rep1 | rep2 | rep3 | eos => rfl
  all_goals exact h.elim

/-! ## What a step can make of a channel -/

/-- The channel once the first `n` bytes of its output FIFO are given to the host. -/
def Channel.give (n : Nat) : Channel → Channel
  | .closed => .closed
  | .enc e => .enc { e with out := e.out.drop n }
  | .dec d => .dec { d with out := d.out.drop n }

/-- The decoder a member step leaves: the one it ends with, or, where it raises, that one Fatal (R415, R484). -/
def stepLeaves (x : Src Decoder Unit) (d' : Decoder) : Prop :=
  match x with
  | .ok _ d1 => d' = d1
  | .hold => False
  | .raise err d1 => d' = d1.enterFatal err

/-- A property that a member step's end has, and that entering Fatal gives. -/
theorem stepLeaves_of_sat {x : Src Decoder Unit} {d' : Decoder} {V : Unit → Prop} {P Q R : Decoder → Prop}
    (h : stepLeaves x d') (hx : x.Sat V P Q) (hP : ∀ d, P d → R d) (hQ : ∀ d err, Q d → R (d.enterFatal err)) : R d' := by
  cases x with
  | ok _ d1 => subst h; exact hP _ hx.2
  | hold => exact h.elim
  | raise err d1 => subst h; exact hQ _ err hx

/-- What one iteration of a read can make of its channel, the bytes of the output FIFO already given (R424, R444). -/
inductive ReadEffect (p : Params) : Channel → Channel → Prop where
  | encoderEnds (e : Encoder) (phase : Phase) (totalOut : U64) (h : phase = e.phase ∨ phase ≠ .inMember) :
      ReadEffect p (.enc e) (.enc { e with phase := phase, totalOut := totalOut })
  | encoderCloses (e : Encoder) :
      ReadEffect p (.enc e) (.enc { e.closeAction.afterClose with mf := (e.mfCatchUp p).mf })
  | encoderCodes (e : Encoder) (ds : List Decision) (lz : Lzma) (bytes : List Byte) (cyclicPos : Word)
      (h1 : 1 ≤ bytes.length) (h2 : bytes.length ≤ e.lookahead) :
      ReadEffect p (.enc e) (.enc ((e.fetch p).2.covered ds lz bytes cyclicPos))
  | decoderEnds (d : Decoder) (phase : Phase) (h : phase = d.phase ∨ phase ≠ .inMember) :
      ReadEffect p (.dec d) (.dec { d with phase := phase })
  | header (d d' : Decoder) (h : stepLeaves (d.headerStep p) d') : ReadEffect p (.dec d) (.dec d')
  | load (d d' : Decoder) (h : stepLeaves d.loadStep d') : ReadEffect p (.dec d) (.dec d')
  | trailer (d d' : Decoder) (h : stepLeaves d.trailerStep d') : ReadEffect p (.dec d) (.dec d')
  | fetchFails (d d1 : Decoder) (err : ErrorCode) (hp : d.phase = .inMember) (hpt : d.part = .payload)
      (hf : d.fetch p = .raise err d1) : ReadEffect p (.dec d) (.dec (d1.enterFatal err))
  | packet (d d1 d' : Decoder) (i : Instr) (hp : d.phase = .inMember) (hpt : d.part = .payload) (hf : d.fetch p = .ok i d1)
      (h : d1.completed (packetLength i) d') : ReadEffect p (.dec d) (.dec d')
  | marker (d d1 : Decoder) (hp : d.phase = .inMember) (hpt : d.part = .payload) (hf : d.fetch p = .ok .eos d1) :
      ReadEffect p (.dec d) (.dec { d1 with part := .trailer })
  | packetFails (d d1 d2 : Decoder) (i : Instr) (err : ErrorCode) (hp : d.phase = .inMember) (hpt : d.part = .payload)
      (hf : d.fetch p = .ok i d1) (h : d1.executed (packetLength i) d2) : ReadEffect p (.dec d) (.dec (d2.enterFatal err))

/-- A phase that only a member's end or an error has changed is still in the member only where it was. -/
theorem Phase.eq_inMember {phase phase' : Phase} (h : phase' = phase ∨ phase' ≠ .inMember) (hin : phase' = .inMember) :
    phase = .inMember := h.elim (·.symm.trans hin) (absurd hin)

theorem Encoder.endCheck_phase (e : Encoder) :
    ∃ phase, (phase = e.phase ∨ phase ≠ .inMember) ∧ e.endCheck = { e with phase := phase } := by
  unfold Encoder.endCheck
  split
  · exact ⟨.finished, .inr (by decide), rfl⟩
  · exact ⟨e.phase, .inl rfl, rfl⟩

theorem Decoder.finishedCheck_phase (d : Decoder) :
    ∃ phase, (phase = d.phase ∨ phase ≠ .inMember) ∧ d.finishedCheck = { d with phase := phase } := by
  unfold Decoder.finishedCheck
  split
  · exact ⟨.finished, .inr (by decide), rfl⟩
  · exact ⟨d.phase, .inl rfl, rfl⟩

/-- From `s` to `t` one channel was replaced, in one of the ways `R` allows from the channel `ch`. -/
def State.replaces (s : State) (c : Byte) (R : Channel → Prop) (t : State) : Prop :=
  ∃ ch, R ch ∧ t.channels = s.channels.set c.toNat ch

section

variable {s t : State} {r : Run}

/-- A packet fetched by a running read replaces the read's channel again. -/
theorem State.setChan_withRun_channels (s : State) (r : Run) (ch ch' : Channel) :
    ((s.withRun r ch).setChan r.chan ch').channels = s.channels.set r.chan.toNat ch' := by
  simp

theorem State.endEncoderRead_replaces (s : State) (r : Run) (e : Encoder) :
    s.replaces r.chan (ReadEffect s.params (.enc e)) (s.endEncoderRead r e) := by
  obtain ⟨phase, hph, he⟩ :=
    Encoder.endCheck_phase { e with totalOut := e.totalOut + BitVec.ofNat 64 r.got.length }
  refine ⟨_, .encoderEnds e phase (e.totalOut + BitVec.ofNat 64 r.got.length) hph, ?_⟩
  unfold State.endEncoderRead
  rw [he]
  rfl

theorem State.endDecoderRead_replaces (s : State) (r : Run) (d : Decoder) (err : ErrorCode) :
    s.replaces r.chan (ReadEffect s.params (.dec d)) (s.endDecoderRead r d err) := by
  obtain ⟨phase, hph, hd⟩ := d.finishedCheck_phase
  refine ⟨_, .decoderEnds d phase hph, ?_⟩
  unfold State.endDecoderRead
  rw [hd]
  rfl

theorem decoderStep_replaces {d : Decoder} {x : Src Decoder Unit}
    (hx : ∀ d', stepLeaves x d' → ReadEffect s.params (.dec d) (.dec d')) (h : decoderStep s r d x = .next t) :
    s.replaces r.chan (ReadEffect s.params (.dec d)) t := by
  cases x <;> cases h
  case ok d' => exact ⟨_, hx d' rfl, rfl⟩
  case hold => exact State.endDecoderRead_replaces s r d .ok
  case raise err d' => exact ⟨_, hx (d'.enterFatal err) rfl, rfl⟩

variable (hlt : r.chan.toNat < s.channels.length)
include hlt

/-- The channel that a running read's packet acts on is the one put back for it. -/
theorem State.chan_withRun (ch : Channel) : (s.withRun r ch).chan r.chan = ch := State.chan_setChan_self s ch hlt

theorem decoderPacket_replaces {d : Decoder} (hp : d.phase = .inMember) (hpt : d.part = .payload)
    (h : decoderPacket s r d = .next t) : s.replaces r.chan (ReadEffect s.params (.dec d)) t := by
  unfold decoderPacket at h
  split at h
  · rename_i i d1 hf
    have hi : isPacket i = true := isPacket_of_decodedPacket ((d.fetch_fetched s.params).of_ok hf).1
    obtain ⟨d', hx, hd'⟩ := exec_packet_decoder (State.withRun_running s r _) (State.chan_withRun hlt _) hi
    cases hx.symm.trans h
    refine ⟨.dec d', ?_, State.setChan_withRun_channels s r _ _⟩
    rcases hd' with ⟨-, hd'⟩ | ⟨rfl, rfl⟩ | ⟨err, d2, hd2, rfl⟩
    · exact .packet d d1 d' i hp hpt hf hd'
    · exact .marker d d1 hp hpt hf
    · exact .packetFails d d1 d2 i err hp hpt hf hd2
  · cases h; exact State.endDecoderRead_replaces s r d .ok
  · rename_i err d1 hf
    cases h
    exact ⟨_, .fetchFails d d1 err hp hpt hf, rfl⟩

theorem decoderIteration_replaces {d : Decoder} (h : decoderIteration s r d = .next t) :
    s.replaces r.chan (ReadEffect s.params (.dec d)) t := by
  rcases decoderIteration_cases (s := s) (r := r) (d := d) with
    ⟨err, hi⟩ | ⟨-, -, hi⟩ | ⟨-, -, -, hi⟩ | ⟨hp, hpt, -, hi⟩ | ⟨-, -, -, hi⟩ <;> rw [hi] at h
  · cases h; exact State.endDecoderRead_replaces s r d err
  · exact decoderStep_replaces (fun d' => .header d d') h
  · exact decoderStep_replaces (fun d' => .load d d') h
  · exact decoderPacket_replaces hlt hp hpt h
  · exact decoderStep_replaces (fun d' => .trailer d d') h

theorem encoderIteration_replaces {e : Encoder} (h : encoderIteration s r e = .next t) :
    s.replaces r.chan (ReadEffect s.params (.enc e)) t := by
  rcases encoderIteration_cases (s := s) (r := r) (e := e) with hi | ⟨-, hcl, hi⟩ | ⟨-, hcl, -, hi⟩ <;> rw [hi] at h
  · cases h; exact State.endEncoderRead_replaces s r e
  · have hx := exec_eos_encoder (State.withRun_running s r (.enc e)) (State.chan_withRun hlt _) hcl
    cases hx.symm.trans h
    exact ⟨_, .encoderCloses e, State.setChan_withRun_channels s r _ _⟩
  · have hr := State.withRun_running s r (.enc (e.fetch s.params).2)
    have hc := State.chan_withRun hlt (.enc (e.fetch s.params).2)
    rcases exec_packet_encoder_cases hr hc (e.fetch_isPacket s.params) with ⟨-, hen⟩ | hlegal | hfault
    · -- no close is enabled, before the search or after it
      exact absurd (hcl.symm.trans hen) Bool.false_ne_true
    · obtain ⟨lz, bytes, cyc, hlen, h1, h2, -, hx⟩ := exec_packet_encoder hr hc hlegal
      cases hx.symm.trans h
      exact ⟨_, .encoderCodes e _ lz bytes cyc (hlen ▸ h1) (hlen ▸ h2), State.setChan_withRun_channels s r _ _⟩
    · cases hfault.symm.trans h

end

/-- EVERYTHING A STEP CAN DO to the channels: nothing, or it replaces one, by a command or by an iteration of its read. -/
theorem step_channels {s t : State} (h : step s = .next t) :
    t.channels = s.channels ∨ ∃ c, s.replaces c (CommandEffect s.params (s.chan c)) t ∨
      ∃ n, s.replaces c (ReadEffect s.params ((s.chan c).give n)) t := by
  cases hr : s.running with
  | none =>
    rcases step_port hr with hs | ⟨ws, bs, hs | ⟨i, u, -, hs, hafter⟩⟩ <;> cases hs.symm.trans h
    · exact .inl rfl
    · exact .inl rfl
    · obtain ⟨-, -, -, hch, -⟩ := hafter
      rcases hch with hch | ⟨c, ch, -, -, heff, hch⟩
      · exact .inl hch
      · exact .inr ⟨c, .inl ⟨ch, heff, hch⟩⟩
  | some r =>
    rw [step, hr] at h
    dsimp only [readStep] at h
    split at h
    · cases h; exact .inl rfl
    · rename_i e hc
      exact .inr ⟨r.chan, .inr ⟨r.take e.out, hc ▸ encoderIteration_replaces (r := r.give e.out) (State.chan_lt_enc hc) h⟩⟩
    · rename_i d hc
      exact .inr ⟨r.chan, .inr ⟨r.take d.out, hc ▸ decoderIteration_replaces (r := r.give d.out) (State.chan_lt_dec hc) h⟩⟩

/-- INDUCTION OVER A STEP: a property of channels that a closed one has, that giving bytes keeps, and that every command and
every iteration of a read keeps, is kept by every step. -/
theorem step_forall_channels {P : Channel → Prop} {s t : State} (hclosed : P .closed)
    (hgive : ∀ n ch, P ch → P (ch.give n)) (hcommand : ∀ ch ch', CommandEffect s.params ch ch' → P ch → P ch')
    (hread : ∀ ch ch', ReadEffect s.params ch ch' → P ch → P ch') (hs : ∀ ch ∈ s.channels, P ch) (h : step s = .next t) :
    ∀ ch ∈ t.channels, P ch := by
  have hchan : ∀ c, P (s.chan c) := fun c => by
    by_cases hc : s.chan c = .closed
    · exact hc ▸ hclosed
    · exact hs _ (s.chan_mem rfl hc)
  rcases step_channels h with heq | ⟨c, ⟨ch, heff, heq⟩ | ⟨n, ch, heff, heq⟩⟩ <;> rw [heq]
  · exact hs
  · exact forall_mem_set hs (hcommand _ _ heff (hchan c))
  · exact forall_mem_set hs (hread _ _ heff (hgive n _ (hchan c)))

/-! ## What the operations of an encoder change -/

/-- A write changes the window and two counters, of the channel as it was or of the member it restarts (R423). -/
theorem Encoder.stage_frame (p : Params) (e : Encoder) (bytes : List Byte) :
    ∃ e' window streamPos totalIn, (e' = e ∨ e' = e.memberRestart) ∧
      (e.stage p bytes).1 = { e' with window := window, streamPos := streamPos, totalIn := totalIn } := by
  unfold Encoder.stage
  split
  · exact ⟨_, _, _, _, .inr rfl, rfl⟩
  · exact ⟨_, _, _, _, .inl rfl, rfl⟩

/-- A close changes the coder, the output FIFO and status registers, and the member is finished (R394 to R396). -/
theorem Encoder.close_frame (e : Encoder) : ∃ re models out syncPending resumeOnWrite limitReached,
    e.closeAction.afterClose = { e with
      re := re, models := models, out := out, phase := .memberFinished, syncPending := syncPending,
      resumeOnWrite := resumeOnWrite, limitReached := limitReached } := by
  obtain ⟨re, models, bytes, hcode⟩ := e.closeAction_coded
  obtain ⟨sync, resume, limit, hafter⟩ := e.closeAction.afterClose_frame
  exact ⟨re, models, e.out ++ bytes, sync, resume, limit, by rw [hafter, hcode]⟩

/-- A packet changes the coder, the LZMA registers, the CRC, the cyclic position and the output FIFO (R290). -/
theorem Encoder.covered_frame (e : Encoder) (ds : List Decision) (lz : Lzma) (bytes : List Byte) (cyclicPos : Word) :
    ∃ re models crc out, e.covered ds lz bytes cyclicPos = { e with
      re := re, models := models, crc := crc, out := out, cyclicPos := cyclicPos
      lz := { lz with dataPosition := e.lz.dataPosition + BitVec.ofNat 64 bytes.length } } := by
  obtain ⟨re, models, more, hcode⟩ := e.encDecisions_coded ds
  exact ⟨re, models, _, e.out ++ more, by rw [Encoder.covered, hcode]⟩

/-! ## What the member steps of a decoder change -/

/-- A header step accepts the header or raises with the decoder as it was (R385). -/
theorem Decoder.headerStep_frame (p : Params) (d : Decoder) :
    (d.headerStep p).Sat (fun _ => True) (fun d' => ∃ dd, d' = d.acceptHeader dd) (· = d) := by
  unfold Decoder.headerStep
  split
  · split
    · rfl
    · trivial
  · dsimp only
    split
    · rfl
    · split
      · rfl
      · split
        · rfl
        · split
          · rfl
          · exact ⟨trivial, _, rfl⟩

/-- A trailer step pops the trailer and finishes the member; where it raises it may have popped it (R388). -/
theorem Decoder.trailerStep_frame (d : Decoder) :
    d.trailerStep.Sat (fun _ => True)
      (fun d' => ∃ memberPosition totalIn, d' = { d with
        inp := d.inp.drop 20, memberPosition := memberPosition, totalIn := totalIn, phase := .memberFinished })
      (fun d' => ∃ n memberPosition totalIn, d' = { d with
        inp := d.inp.drop n, memberPosition := memberPosition, totalIn := totalIn }) := by
  unfold Decoder.trailerStep
  split
  · split
    · exact ⟨0, _, _, rfl⟩
    · trivial
  · split
    · exact ⟨0, _, _, rfl⟩
    · dsimp only
      split
      · exact ⟨trivial, _, _, rfl⟩
      · exact ⟨20, _, _, rfl⟩

/-! ## The search state (R48, R335) -/

/-- A member starts with nothing planned and nothing inserted. -/
theorem Encoder.memberRestart_searchSound (e : Encoder) : e.memberRestart.searchSound :=
  ⟨⟨Nat.zero_le _, fun _ => ⟨rfl, rfl⟩⟩, MatchFinder.init_wf, fun _ => Nat.zero_le _⟩

theorem Encoder.opened_searchSound (dictByte : Byte) (ml : BitVec 16) (lim : U64) (v : Variant) :
    (Encoder.opened dictByte ml lim v).searchSound :=
  ⟨⟨Nat.zero_le _, fun _ => ⟨rfl, rfl⟩⟩, MatchFinder.init_wf, fun _ => Nat.zero_le _⟩

theorem Encoder.stage_searchSound {e : Encoder} (p : Params) (bytes : List Byte) (h : e.searchSound) :
    (e.stage p bytes).1.searchSound := by
  obtain ⟨e', window, streamPos, totalIn, rfl | rfl, hst⟩ := e.stage_frame p bytes <;> rw [hst]
  · exact h
  · exact e.memberRestart_searchSound

/-- The data position after a packet's bytes, which the look-ahead holds. -/
theorem Encoder.dataPosition_add {e : Encoder} {n : Nat} (h : n ≤ e.lookahead) (h1 : 1 ≤ n) :
    (e.lz.dataPosition + BitVec.ofNat 64 n).toNat = e.lz.dataPosition.toNat + n := by
  have hs := e.streamPos.isLt
  unfold Encoder.lookahead at h
  rw [BitVec.toNat_add, BitVec.toNat_ofNat]
  omega

/-- A packet of at least one byte moves the data position past the position its fetch inserted. -/
theorem Encoder.packet_searchSound {p : Params} {e : Encoder} (ds : List Decision) (lz : Lzma) {bytes : List Byte}
    (cyclicPos : Word) (h1 : 1 ≤ bytes.length) (h2 : bytes.length ≤ e.lookahead) (h : e.searchSound) :
    ((e.fetch p).2.covered ds lz bytes cyclicPos).searchSound := by
  obtain ⟨hplan, hwf, -⟩ := h
  obtain ⟨hnext, hsearch, -⟩ := e.search_spec p
  obtain ⟨re, models, crc, out, hcov⟩ := (e.fetch p).2.covered_frame ds lz bytes cyclicPos
  rw [hcov]
  refine ⟨Encoder.fetch_plan hplan, hsearch hwf, fun _ => ?_⟩
  show (e.search p).1.next ≤ (e.lz.dataPosition + BitVec.ofNat 64 bytes.length).toNat
  rw [hnext, Encoder.dataPosition_add h2 h1]
  omega

/-- A close inserts what was passed over; the member is finished. -/
theorem Encoder.close_searchSound (p : Params) {e : Encoder} (h : e.searchSound) :
    Encoder.searchSound { e.closeAction.afterClose with mf := (e.mfCatchUp p).mf } := by
  obtain ⟨hplan, hwf, -⟩ := h
  obtain ⟨mf, hmf, hmfwf, -⟩ := e.mfCatchUp_spec p
  obtain ⟨re, models, out, sync, resume, limit, hclose⟩ := e.close_frame
  rw [hclose, hmf]
  exact ⟨hplan, hmfwf hwf, nofun⟩

theorem Encoder.searchSound.with_phase {e : Encoder} {phase : Phase} (hp : phase = e.phase ∨ phase ≠ .inMember)
    (h : e.searchSound) : Encoder.searchSound { e with phase := phase } := by
  obtain ⟨hplan, hwf, hnext⟩ := h
  exact ⟨hplan, hwf, fun hin => hnext (Phase.eq_inMember hp hin)⟩

theorem CommandEffect.searchSound {p : Params} {ch ch' : Channel} (heff : CommandEffect p ch ch')
    (h : ch.all Encoder.searchSound fun _ => True) : ch'.all Encoder.searchSound fun _ => True := by
  cases heff with
  | openEncoder => exact Encoder.opened_searchSound _ _ _ _
  | encoderStatus e phase _ _ _ hp => exact Encoder.searchSound.with_phase hp h
  | stage e bytes => exact Encoder.stage_searchSound p bytes h
  | restart e => exact e.memberRestart_searchSound
  | close | openDecoder | decoderStatus | push | reset | resync => trivial

theorem ReadEffect.searchSound {p : Params} {ch ch' : Channel} (heff : ReadEffect p ch ch')
    (h : ch.all Encoder.searchSound fun _ => True) : ch'.all Encoder.searchSound fun _ => True := by
  cases heff with
  | encoderEnds e phase _ hp => exact Encoder.searchSound.with_phase hp h
  | encoderCloses e => exact Encoder.close_searchSound p h
  | encoderCodes e ds lz bytes cyc h1 h2 => exact Encoder.packet_searchSound ds lz cyc h1 h2 h
  | decoderEnds | header | load | trailer | fetchFails | packet | marker | packetFails => trivial

/-! ## Models and range coders (R38, R171, R198) -/

theorem RangeEnc.init_sound : 2 ^ 24 ≤ RangeEnc.init.range.toNat ∧
    RangeEnc.init.low.toNat + RangeEnc.init.range.toNat ≤ 2 ^ 33 := by decide

theorem Encoder.memberRestart_codingSound (e : Encoder) : e.memberRestart.codingSound :=
  ⟨Models.nil_sound, RangeEnc.init_sound⟩

theorem Encoder.stage_codingSound {e : Encoder} (p : Params) (bytes : List Byte) (h : e.codingSound) :
    (e.stage p bytes).1.codingSound := by
  obtain ⟨e', window, streamPos, totalIn, rfl | rfl, hst⟩ := e.stage_frame p bytes <;> rw [hst]
  · exact h
  · exact e.memberRestart_codingSound

theorem Encoder.afterClose_codingSound {e : Encoder} (h : e.codingSound) : e.afterClose.codingSound := by
  obtain ⟨sync, resume, limit, hafter⟩ := e.afterClose_frame
  rw [hafter]
  exact h

/-- A close codes the marker and flushes (R394); its match-finder plays no part. -/
theorem Encoder.close_codingSound {e : Encoder} (mf : MatchFinder) (h : e.codingSound) :
    Encoder.codingSound { e.closeAction.afterClose with mf := mf } := by
  have hclose := Encoder.afterClose_codingSound (Encoder.closeAction_sound h)
  generalize e.closeAction.afterClose = e' at hclose ⊢
  exact hclose

theorem Encoder.fetch_codingSound (p : Params) {e : Encoder} (h : e.codingSound) : (e.fetch p).2.codingSound := by
  obtain ⟨planned, trial, hf⟩ := e.fetch_frame p
  rw [hf]
  exact h

theorem Encoder.covered_codingSound {e : Encoder} (ds : List Decision) (lz : Lzma) (bytes : List Byte) (cyclicPos : Word)
    (h : e.codingSound) : (e.covered ds lz bytes cyclicPos).codingSound := Encoder.encDecisions_sound h ds

/-- Outside a payload only the models count. -/
theorem Decoder.codingSound_of_not_payload {d : Decoder} (hm : d.models.sound) (h : d.phase = .inMember → d.part ≠ .payload) :
    d.codingSound := ⟨hm, fun hp hpt => absurd hpt (h hp)⟩

theorem Decoder.enterFatal_codingSound {d : Decoder} (err : ErrorCode) (hm : d.models.sound) : (d.enterFatal err).codingSound :=
  Decoder.codingSound_of_not_payload hm nofun

theorem Decoder.codingSound.with_phase {d : Decoder} {phase : Phase} (hp : phase = d.phase ∨ phase ≠ .inMember)
    (h : d.codingSound) : Decoder.codingSound { d with phase := phase } := by
  obtain ⟨hm, hrc⟩ := h
  exact ⟨hm, fun hin => hrc (Phase.eq_inMember hp hin)⟩

theorem Decoder.decoding.codingSound {d : Decoder} (h : d.decoding) : d.codingSound := ⟨h.1, fun _ _ => h.2⟩

theorem Decoder.headerStep_coding {d : Decoder} (p : Params) (hm : d.models.sound) :
    (d.headerStep p).Sat (fun _ => True) Decoder.codingSound (·.models.sound) :=
  (d.headerStep_frame p).mono (fun _ hv => hv)
    (fun _ ⟨_, hd'⟩ => hd' ▸ Decoder.codingSound_of_not_payload Models.nil_sound fun _ => nofun) fun _ hd' => hd' ▸ hm

/-- Taking a byte leaves the models and the range decoder (R191). -/
theorem Decoder.rdByte_coder (d : Decoder) : d.rdByte.Sat (fun _ => True) (fun d' => d'.models = d.models ∧ d'.rd = d.rd)
    (fun d' => d'.models = d.models ∧ d'.rd = d.rd) := by
  unfold Decoder.rdByte
  split
  · split
    · exact ⟨rfl, rfl⟩
    · trivial
  · split
    · exact ⟨trivial, rfl, rfl⟩
    · exact ⟨rfl, rfl⟩

/-- The models are sound and the range is the whole one of R190, as while the code is loaded. -/
def Decoder.loading (d : Decoder) : Prop := d.models.sound ∧ d.rd.range = RangeDec.init.range

theorem Decoder.rdByte_loading {d : Decoder} (h : d.loading) :
    d.rdByte.Sat (fun _ => True) Decoder.loading (·.models.sound) :=
  d.rdByte_coder.mono (fun _ h => h) (fun d' hd => by unfold Decoder.loading; rw [hd.1, hd.2]; exact h)
    (fun d' hd => by rw [hd.1]; exact h.1)

theorem Decoder.loadByte_loading {d : Decoder} (h : d.loading) :
    d.loadByte.Sat (fun _ => True) Decoder.loading (·.models.sound) :=
  (Decoder.rdByte_loading h).bind fun _ _ _ hd => ⟨trivial, hd⟩

/-- The load ends with the code inside the whole range (R190, R193, R198). -/
theorem Decoder.rcLoad_decoding {d : Decoder} (hm : d.models.sound) :
    d.rcLoad.Sat (fun _ => True) Decoder.decoding (·.models.sound) := by
  unfold Decoder.rcLoad
  have hinit : Decoder.loading { d with rd := .init } := ⟨hm, rfl⟩
  refine (Decoder.rdByte_loading hinit).bind fun b d0 _ h0 => ?_
  split
  · exact h0.1
  · refine (Decoder.loadByte_loading h0).bind fun _ d1 _ h1 => (Decoder.loadByte_loading h1).bind fun _ d2 _ h2 =>
      (Decoder.loadByte_loading h2).bind fun _ d3 _ h3 => (Decoder.loadByte_loading h3).bind fun _ d4 _ h4 => ?_
    exact Decoder.check_decoding h4.1 (by rw [h4.2]; decide)

theorem Decoder.loadStep_coding {d : Decoder} (hm : d.models.sound) :
    d.loadStep.Sat (fun _ => True) Decoder.codingSound (·.models.sound) :=
  (Decoder.rcLoad_decoding hm).bind fun _ _ _ hd => ⟨trivial, hd.1, fun _ _ => hd.2⟩

theorem Decoder.trailerStep_coding {d : Decoder} (hm : d.models.sound) :
    d.trailerStep.Sat (fun _ => True) Decoder.codingSound (·.models.sound) :=
  d.trailerStep_frame.mono (fun _ hv => hv)
    (fun _ ⟨_, _, hd'⟩ => hd' ▸ Decoder.codingSound_of_not_payload hm nofun) fun _ ⟨_, _, _, hd'⟩ => hd' ▸ hm

theorem CommandEffect.codingSound {p : Params} {ch ch' : Channel} (heff : CommandEffect p ch ch')
    (h : ch.all Encoder.codingSound Decoder.codingSound) : ch'.all Encoder.codingSound Decoder.codingSound := by
  cases heff with
  | openEncoder => exact ⟨Models.nil_sound, RangeEnc.init_sound⟩
  | openDecoder | reset => exact Decoder.codingSound_of_not_payload Models.nil_sound nofun
  | close => trivial
  | encoderStatus => exact h
  | stage e bytes => exact Encoder.stage_codingSound p bytes h
  | restart e => exact e.memberRestart_codingSound
  | decoderStatus d phase _ _ hp => exact Decoder.codingSound.with_phase hp h
  | push => exact h
  | resync d => exact Decoder.codingSound_of_not_payload h.1 nofun

theorem ReadEffect.codingSound {p : Params} {ch ch' : Channel} (heff : ReadEffect p ch ch')
    (h : ch.all Encoder.codingSound Decoder.codingSound) : ch'.all Encoder.codingSound Decoder.codingSound := by
  have fetched : ∀ (d : Decoder), d.codingSound → d.phase = .inMember → d.part = .payload →
      (d.fetch p).Sat Instr.decodedPacket Decoder.decoding (·.models.sound) := fun d hd hp hpt =>
    Decoder.fetch_decoding p ⟨hd.1, hd.2 hp hpt⟩
  have leaves : ∀ (x : Src Decoder Unit) (d' : Decoder), stepLeaves x d' →
      x.Sat (fun _ => True) Decoder.codingSound (·.models.sound) → d'.codingSound := fun x d' hx hsat =>
    stepLeaves_of_sat hx hsat (fun _ hd => hd) fun _ err hd => Decoder.enterFatal_codingSound err hd
  cases heff with
  | encoderEnds => exact h
  | encoderCloses e => exact Encoder.close_codingSound _ h
  | encoderCodes e ds lz bytes cyc => exact Encoder.covered_codingSound ds lz bytes cyc (Encoder.fetch_codingSound p h)
  | decoderEnds d phase hp => exact Decoder.codingSound.with_phase hp h
  | header d d' hx => exact leaves _ d' hx (Decoder.headerStep_coding p h.1)
  | load d d' hx => exact leaves _ d' hx (Decoder.loadStep_coding h.1)
  | trailer d d' hx => exact leaves _ d' hx (Decoder.trailerStep_coding h.1)
  | fetchFails d d1 err hp hpt hf =>
    exact Decoder.enterFatal_codingSound err ((fetched d h hp hpt).of_raise hf)
  | packet d d1 d' i hp hpt hf hrun =>
    have hd := (fetched d h hp hpt).of_ok hf
    obtain ⟨lz, history, crc, bytes, totalOut, -, rfl⟩ := hrun
    exact hd.2.codingSound
  | marker d d1 hp hpt hf =>
    have hd := (fetched d h hp hpt).of_ok hf
    exact Decoder.codingSound_of_not_payload hd.2.1 fun _ => nofun
  | packetFails d d1 d2 i err hp hpt hf hrun =>
    have hd := (fetched d h hp hpt).of_ok hf
    obtain ⟨lz, history, crc, bytes, totalOut, part, -, rfl⟩ := hrun
    exact Decoder.enterFatal_codingSound err hd.2.1

/-! ## FIFOs (R51) -/

theorem packetLength_le {i : Instr} (h : i.decodedPacket) : packetLength i ≤ 273 := by
  cases i
  case matchDist | rep0 | rep1 | rep2 | rep3 => exact h.2
  all_goals simp [packetLength]

/-- Fetching only takes from the input FIFO. -/
theorem Decoder.fetched.fifos {d d' : Decoder} (h : d.fetched d') : d'.inp.length ≤ d.inp.length ∧ d'.out = d.out := by
  obtain ⟨rd, models, bytes, hinp, hd⟩ := h
  refine ⟨?_, by rw [hd]⟩
  rw [hinp, List.length_append]
  omega

/-- A fetch has room for the longest packet (R280). -/
theorem Decoder.fetch_room {p : Params} {d d1 : Decoder} {i : Instr} (hf : d.fetch p = .ok i d1) :
    d.out.length + 273 ≤ p.outFifoCap := by
  unfold Decoder.fetch at hf
  split at hf
  · rename_i hroom
    exact of_decide_eq_true hroom
  · cases hf

/-- After a fetch, the bytes of the packet fetched fit the output FIFO. -/
theorem Decoder.fetch_fifos {p : Params} {d d1 : Decoder} {i : Instr} (hf : d.fetch p = .ok i d1) (h : d.fifosSound p) :
    d1.inp.length ≤ p.inFifoCap ∧ d1.out.length + packetLength i ≤ p.outFifoCap := by
  obtain ⟨hi, hd⟩ := (d.fetch_fetched p).of_ok hf
  obtain ⟨hinp, hout⟩ := hd.fifos
  have hlen := packetLength_le hi
  have hroom := Decoder.fetch_room hf
  exact ⟨hinp.trans h.1, by rw [hout]; omega⟩

theorem Decoder.fetched.fifosSound {p : Params} {d d' : Decoder} (hd : d.fetched d') (h : d.fifosSound p) : d'.fifosSound p := by
  obtain ⟨hinp, hout⟩ := hd.fifos
  exact ⟨hinp.trans h.1, by rw [hout]; exact h.2⟩

/-- Taking bytes from the head of the input FIFO. -/
theorem Decoder.drop_fifosSound {p : Params} {d : Decoder} (n : Nat) (h : d.fifosSound p) :
    (d.inp.drop n).length ≤ p.inFifoCap ∧ d.out.length ≤ p.outFifoCap :=
  ⟨(List.drop_sublist _ _).length_le.trans h.1, h.2⟩

theorem Decoder.headerStep_fifos {p : Params} {d : Decoder} (h : d.fifosSound p) :
    (d.headerStep p).Sat (fun _ => True) (Decoder.fifosSound p) (Decoder.fifosSound p) :=
  (d.headerStep_frame p).mono (fun _ hv => hv) (fun _ ⟨_, hd'⟩ => hd' ▸ Decoder.drop_fifosSound 6 h)
    fun _ hd' => hd' ▸ h

theorem Decoder.loadStep_fifos {p : Params} {d : Decoder} (h : d.fifosSound p) :
    d.loadStep.Sat (fun _ => True) (Decoder.fifosSound p) (Decoder.fifosSound p) := by
  have hload := d.rcLoad_fetched.mono (fun _ hv => hv) (fun _ hd => hd.fifosSound h) (fun _ hd => hd.fifosSound h)
  exact hload.bind fun _ _ _ hd => ⟨trivial, hd⟩

theorem Decoder.trailerStep_fifos {p : Params} {d : Decoder} (h : d.fifosSound p) :
    d.trailerStep.Sat (fun _ => True) (Decoder.fifosSound p) (Decoder.fifosSound p) :=
  d.trailerStep_frame.mono (fun _ hv => hv) (fun _ ⟨_, _, hd'⟩ => hd' ▸ Decoder.drop_fifosSound 20 h)
    fun _ ⟨n, _, _, hd'⟩ => hd' ▸ Decoder.drop_fifosSound n h

theorem CommandEffect.fifosSound {p : Params} {ch ch' : Channel} (heff : CommandEffect p ch ch')
    (h : ch.all (fun _ => True) (Decoder.fifosSound p)) : ch'.all (fun _ => True) (Decoder.fifosSound p) := by
  cases heff with
  | openDecoder | reset => exact ⟨Nat.zero_le _, Nat.zero_le _⟩
  | decoderStatus => exact h
  | push d bytes hfit =>
    rcases hfit with hfit | rfl
    · exact ⟨hfit, h.2⟩
    · exact ⟨by rw [List.append_nil]; exact h.1, h.2⟩
  | resync d bytes _ hle => exact ⟨hle.trans h.1, h.2⟩
  | openEncoder | close | encoderStatus | stage | restart => trivial

theorem ReadEffect.fifosSound {p : Params} {ch ch' : Channel} (heff : ReadEffect p ch ch')
    (h : ch.all (fun _ => True) (Decoder.fifosSound p)) : ch'.all (fun _ => True) (Decoder.fifosSound p) := by
  have leaves : ∀ (x : Src Decoder Unit) (d' : Decoder), stepLeaves x d' →
      x.Sat (fun _ => True) (Decoder.fifosSound p) (Decoder.fifosSound p) → d'.fifosSound p := fun x d' hx hsat =>
    stepLeaves_of_sat hx hsat (fun _ hd => hd) fun _ _ hd => hd
  cases heff with
  | encoderEnds | encoderCloses | encoderCodes => trivial
  | decoderEnds => exact h
  | header d d' hx => exact leaves _ d' hx (Decoder.headerStep_fifos h)
  | load d d' hx => exact leaves _ d' hx (Decoder.loadStep_fifos h)
  | trailer d d' hx => exact leaves _ d' hx (Decoder.trailerStep_fifos h)
  | fetchFails d d1 err _ _ hf => exact ((d.fetch_fetched p).of_raise hf).fifosSound h
  | packet d d1 d' i _ _ hf hrun =>
    obtain ⟨hinp, hout⟩ := Decoder.fetch_fifos hf h
    obtain ⟨lz, history, crc, bytes, totalOut, hlen, rfl⟩ := hrun
    exact ⟨hinp, by rw [List.length_append]; omega⟩
  | marker d d1 _ _ hf => exact Decoder.fetch_fifos hf h
  | packetFails d d1 d2 i err _ _ hf hrun =>
    obtain ⟨hinp, hout⟩ := Decoder.fetch_fifos hf h
    obtain ⟨lz, history, crc, bytes, totalOut, part, hlen, rfl⟩ := hrun
    exact ⟨hinp, by rw [Decoder.enterFatal, List.length_append]; omega⟩

end Sys2Proof.Machine

open Sys2Proof.Machine

/-- Settles O51: a command by `exec_command`, a packet by `exec_packet_setChan`. -/
theorem otherChannelsUnchanged : Obligations.OtherChannelsUnchanged := by
  intro i s t h
  obtain ⟨hparams, hlength⟩ := exec_sameConfig h
  cases hi : isPacket i with
  | false =>
    obtain ⟨t', ht', hafter⟩ := exec_command i s hi
    obtain rfl : t' = t := Host.Outcome.next.inj (ht'.symm.trans h)
    have hchan := fun c => hafter.chan_eq (c' := c)
    obtain ⟨-, hwords, hdata, -, hrun⟩ := hafter
    refine ⟨hchan, hparams, hlength, hwords, hdata, nofun, fun hread => ?_⟩
    rcases hrun with ⟨hrun, -⟩ | ⟨hread', -, -⟩
    · exact hrun
    · exact absurd ((isRead_eq_false hread).symm.trans hread') Bool.false_ne_true
  | true =>
    rcases exec_packet_setChan hi h with rfl | ⟨r, ch, hr, rfl⟩
    · exact ⟨fun _ _ => rfl, rfl, rfl, rfl, rfl, fun _ => rfl, fun _ => rfl⟩
    · refine ⟨fun c hc => ?_, hparams, hlength, rfl, rfl, fun _ => rfl, fun _ => rfl⟩
      rw [actsOn_packet hi, hr] at hc
      exact s.chan_setChan_of_ne ch fun hne => hc (congrArg some hne.symm)

/-- Settles O57: a fetch waits for the room of the longest packet, and a write takes only what fits. -/
theorem stepKeepsFifosSound : Obligations.StepKeepsFifosSound := by
  intro s t hs h
  have hgive : ∀ n (ch : Channel), ch.all (fun _ => True) (Decoder.fifosSound s.params) →
      (ch.give n).all (fun _ => True) (Decoder.fifosSound s.params) := by
    intro n ch hch
    cases ch with
    | dec d => exact ⟨hch.1, (List.drop_sublist _ _).length_le.trans hch.2⟩
    | closed | enc => trivial
  unfold State.fifosSound
  rw [(step_sameConfig h).1]
  exact step_forall_channels trivial hgive (fun _ _ => CommandEffect.fifosSound) (fun _ _ => ReadEffect.fifosSound) hs h

/-- Settles O55: each primitive of the range coders keeps R38, R171 and R198, the load establishes R198, and nothing else
enters a payload. -/
theorem stepKeepsCodingSound : Obligations.StepKeepsCodingSound := by
  intro s t hs h
  have hgive : ∀ n (ch : Channel), ch.all Encoder.codingSound Decoder.codingSound →
      (ch.give n).all Encoder.codingSound Decoder.codingSound := by
    intro n ch hch
    cases ch <;> exact hch
  exact step_forall_channels trivial hgive (fun _ _ => CommandEffect.codingSound) (fun _ _ => ReadEffect.codingSound) hs h

/-- Settles O54: a packet step inserts up to its own position and moves past it. The window's soundness is not needed. -/
theorem stepKeepsSearchSound : Obligations.StepKeepsSearchSound := by
  intro s t _ hs h
  have hgive : ∀ n (ch : Channel), ch.all Encoder.searchSound (fun _ => True) →
      (ch.give n).all Encoder.searchSound (fun _ => True) := by
    intro n ch hch
    cases ch <;> exact hch
  exact step_forall_channels trivial hgive (fun _ _ => CommandEffect.searchSound) (fun _ _ => ReadEffect.searchSound) hs h
end

section
/-! PROOFS. Family 20, memory: a step runs the command at the head of the port (R111, R145), and every step keeps the windows
and the rep distances sound (R103, R104, R242, R255). -/

namespace Sys2Proof.Machine

/-! ## Dictionary sizes (R371 to R374) -/

/-- A byte whose exponent lies in 13 to 29 codes a valid size, whatever its three fraction bits are (R373). -/
theorem dictValid_of_exponent {dd : Byte} (h1 : 13 ≤ dd.toNat % 32) (h2 : dd.toNat % 32 ≤ 29) : dictValid dd = true := by
  have hbyte := dd.isLt
  have hlow : 9 * 2 ^ 13 ≤ dictDecode16 dd :=
    Nat.mul_le_mul (by omega) (Nat.pow_le_pow_right (by omega) h1)
  have hhigh : dictDecode16 dd ≤ 16 * 2 ^ 29 :=
    Nat.mul_le_mul (by omega) (Nat.pow_le_pow_right (by omega) h2)
  unfold dictValid minDictionarySize maxDictionarySize
  rw [Bool.and_eq_true, decide_eq_true_eq, decide_eq_true_eq]
  omega

theorem ceilLog2_le_iff {v b : Nat} (hv : 1 ≤ v) : ceilLog2 v ≤ b ↔ v ≤ 2 ^ b := by
  have hlow : 2 ^ v.log2 ≤ v := Nat.log2_self_le (by omega)
  have hhigh : v < 2 ^ (v.log2 + 1) := Nat.lt_log2_self
  unfold ceilLog2
  split
  · rename_i hpow
    rw [← Nat.pow_le_pow_iff_right (a := 2) (by omega), hpow]
  · constructor
    · intro hb
      exact hhigh.le.trans (Nat.pow_le_pow_right (by omega) hb)
    · intro hb
      exact (Nat.pow_lt_pow_iff_right (a := 2) (by omega)).1 (by omega)

theorem dictEncode_valid {size : Nat} (h : size ≤ 2 ^ 29) : dictValid (dictEncode size) = true := by
  unfold dictEncode
  split
  · decide
  · rename_i hlarge
    have hlow : ¬ ceilLog2 size ≤ 12 := fun hb => hlarge ((ceilLog2_le_iff (by omega)).1 hb)
    have hhigh : ceilLog2 size ≤ 29 := (ceilLog2_le_iff (by omega)).2 h
    refine dictValid_of_exponent ?_ ?_ <;> rw [BitVec.toNat_ofNat] <;> omega

/-- The register that holds a valid size is not zero. -/
theorem dictionarySize_pos {dd : Byte} (h : dictValid dd = true) : 0 < (BitVec.ofNat 32 (dictDecode dd)).toNat := by
  unfold dictValid minDictionarySize maxDictionarySize at h
  rw [Bool.and_eq_true, decide_eq_true_eq, decide_eq_true_eq] at h
  rw [BitVec.toNat_ofNat]
  unfold dictDecode
  omega

/-! ## Rep distances (R255) -/

theorem Lzma.init_repsSound {dictionarySize : Nat} (h : 0 < dictionarySize) : Lzma.init.repsSound dictionarySize := by
  refine ⟨fun r hr => ?_, fun h7 => absurd h7 (by decide)⟩
  obtain rfl : r = 0#32 := by simpa [Lzma.init] using hr
  exact ⟨h, .inl rfl⟩

/-- The stored distance names a byte that is written and inside the dictionary (R104). -/
abbrev Lzma.reaches (lz : Lzma) (dictionarySize : Nat) (dist : Word) : Prop :=
  dist.toNat < lz.dataPosition.toNat ∧ dist.toNat < dictionarySize

/-- A packet keeps the rep distances sound: each is an old one or one inside the window, and the data position moves past the
first byte. -/
theorem Lzma.repsSound.moved {lz lz' : Lzma} {dictionarySize : Nat} {dataPosition : U64} (h : lz.repsSound dictionarySize)
    (hm : lz.moved lz' (lz.reaches dictionarySize)) (hdp : lz.dataPosition.toNat < dataPosition.toNat) :
    Lzma.repsSound { lz' with dataPosition := dataPosition } dictionarySize := by
  refine ⟨fun r hr => ?_, fun _ => Nat.lt_of_le_of_lt (Nat.zero_le _) hdp⟩
  rcases hm.2 r hr with hold | ⟨hnew, hsize⟩
  · obtain ⟨hsize, hwritten⟩ := h.1 r hold
    exact ⟨hsize, hwritten.imp id (Nat.lt_trans · hdp)⟩
  · exact ⟨hsize, .inr (Nat.lt_trans hnew hdp)⟩

/-! ## The window of an encoder -/

theorem Encoder.opened_windowSound {dictByte : Byte} (h : dictValid dictByte = true) (ml : BitVec 16) (lim : U64)
    (v : Variant) : (Encoder.opened dictByte ml lim v).windowSound :=
  ⟨rfl, Nat.le_refl _, Lzma.init_repsSound (dictionarySize_pos h)⟩

theorem Encoder.windowSound.dictionarySize_pos {e : Encoder} (h : e.windowSound) : 0 < e.dictionarySize.toNat := by
  obtain ⟨-, -, hreps, -⟩ := h
  exact Nat.lt_of_le_of_lt (Nat.zero_le _) (hreps e.lz.rep0 (List.mem_cons_self ..)).1

/-- The look-ahead is the window of the next member (R397). -/
theorem Encoder.memberRestart_windowSound {e : Encoder} (h : e.windowSound) : e.memberRestart.windowSound := by
  have hsize := h.dictionarySize_pos
  obtain ⟨hwin, hle, -⟩ := h
  have hfit : e.lz.dataPosition.toNat + e.lookahead ≤ e.streamPos.toNat := by unfold Encoder.lookahead; omega
  have hlen := (Memory.readList_spec hwin e.lz.dataPosition.toNat e.lookahead hfit).1
  have hstream : (BitVec.ofNat 64 e.lookahead).toNat = e.lookahead := by
    rw [BitVec.toNat_ofNat]
    exact Nat.mod_eq_of_lt (by have := e.streamPos.isLt; omega)
  refine ⟨?_, Nat.zero_le _, Lzma.init_repsSound hsize⟩
  show (Memory.writeList [] 0 _).map Prod.fst = List.range (BitVec.ofNat 64 e.lookahead).toNat
  rw [hstream, Memory.writeList_end (n := 0) _ rfl, hlen, Nat.zero_add]

/-- What a write stages keeps `ENC.stream_pos` below `2^64` (R45; log 14). A channel that still waits for its restart stages
nothing (R423). -/
theorem Encoder.staged_fits (p : Params) {e : Encoder} {bytes : List Byte} (h : e.resumeOnWrite = false ∨ bytes = []) :
    e.streamPos.toNat + min bytes.length (e.writeSize p) < 2 ^ 64 := by
  have hlt := e.streamPos.isLt
  rcases h with hresume | rfl
  · have hsize : e.writeSize p ≤ 2 ^ 64 - 1 - e.streamPos.toNat := by
      unfold Encoder.writeSize
      rw [hresume]
      split
      · exact Nat.zero_le _
      · exact Nat.min_le_right _ _
    omega
  · rw [List.length_nil, Nat.zero_min]
    exact hlt

/-- Bytes staged at the end of the window (R423). -/
theorem Encoder.windowSound.append {e : Encoder} (h : e.windowSound) {bytes : List Byte} {n : Nat} (hlen : bytes.length = n)
    (totalIn : U64) (hfit : e.streamPos.toNat + n < 2 ^ 64) :
    Encoder.windowSound { e with
      window := e.window.writeList e.streamPos.toNat bytes
      streamPos := e.streamPos + BitVec.ofNat 64 n
      totalIn := totalIn } := by
  obtain ⟨hwin, hle, hreps⟩ := h
  have hstream : (e.streamPos + BitVec.ofNat 64 n).toNat = e.streamPos.toNat + n := by
    rw [BitVec.toNat_add, BitVec.toNat_ofNat]
    omega
  refine ⟨?_, ?_, hreps⟩ <;> rw [hstream]
  · rw [← hlen]
    exact Memory.writeList_end bytes hwin
  · exact Nat.le_add_right_of_le hle

theorem Encoder.stage_windowSound {e : Encoder} (p : Params) (bytes : List Byte) (h : e.windowSound) :
    (e.stage p bytes).1.windowSound := by
  have hlen : ∀ k, (bytes.take (min bytes.length k)).length = min bytes.length k := fun k => by
    rw [List.length_take]
    omega
  unfold Encoder.stage
  split
  · exact (Encoder.memberRestart_windowSound h).append (hlen _) _ (Encoder.staged_fits p (.inl rfl))
  · rename_i hno
    refine h.append (hlen _) _ (Encoder.staged_fits p ?_)
    by_cases hresume : e.resumeOnWrite = true
    · exact .inr (by_contra fun hne => hno ⟨hresume, hne⟩)
    · exact .inl (Bool.eq_false_of_not_eq_true hresume)

/-- A close touches neither the window nor the LZMA registers (R394). -/
theorem Encoder.close_windowSound {e : Encoder} (mf : MatchFinder) (h : e.windowSound) :
    Encoder.windowSound { e.closeAction.afterClose with mf := mf } := by
  obtain ⟨re, models, out, sync, resume, limit, hclose⟩ := e.close_frame
  rw [hclose]
  exact h

theorem Encoder.fetch_windowSound (p : Params) {e : Encoder} (h : e.windowSound) : (e.fetch p).2.windowSound := by
  obtain ⟨planned, trial, hf⟩ := e.fetch_frame p
  rw [hf]
  exact h

theorem Encoder.lookahead_of_stepEnabled {p : Params} {e : Encoder} (h : e.stepEnabled p = true) : 1 ≤ e.lookahead := by
  unfold Encoder.stepEnabled Encoder.hasView at h
  simp only [Bool.and_eq_true, decide_eq_true_eq] at h
  exact h.2.1

/-- A packet covers bytes of its look-ahead and moves the rep distances (R290). -/
theorem Encoder.covered_windowSound {e : Encoder} (ds : List Decision) {lz : Lzma} {bytes : List Byte} (cyclicPos : Word)
    (h1 : 1 ≤ bytes.length) (h2 : bytes.length ≤ e.lookahead)
    (hm : e.lz.moved lz (e.lz.reaches e.dictionarySize.toNat)) (h : e.windowSound) :
    (e.covered ds lz bytes cyclicPos).windowSound := by
  obtain ⟨hwin, -, hreps⟩ := h
  have hdp := Encoder.dataPosition_add h2 h1
  obtain ⟨re, models, crc, out, hcov⟩ := e.covered_frame ds lz bytes cyclicPos
  rw [hcov]
  refine ⟨hwin, ?_, hreps.moved hm (by rw [hdp]; omega)⟩
  show (e.lz.dataPosition + BitVec.ofNat 64 bytes.length).toNat ≤ e.streamPos.toNat
  rw [hdp]
  unfold Encoder.lookahead at h2
  omega

/-! ## The history of a decoder -/

theorem Decoder.init_windowSound : Decoder.init.windowSound := ⟨rfl, nofun⟩

theorem Decoder.windowSound.with_phase {d : Decoder} {phase : Phase} (hp : phase = d.phase ∨ phase ≠ .inMember)
    (h : d.windowSound) : Decoder.windowSound { d with phase := phase } := by
  obtain ⟨hwin, hreps⟩ := h
  exact ⟨hwin, fun hin => hreps (Phase.eq_inMember hp hin)⟩

theorem Decoder.windowSound.enterFatal {d : Decoder} (err : ErrorCode) (h : d.windowSound) : (d.enterFatal err).windowSound :=
  ⟨h.1, nofun⟩

theorem Decoder.fetched.windowSound {d d' : Decoder} (hd : d.fetched d') (h : d.windowSound) : d'.windowSound := by
  obtain ⟨rd, models, bytes, -, hd⟩ := hd
  rw [hd]
  exact h

theorem Decoder.fetched.phase_eq {d d' : Decoder} (hd : d.fetched d') : d'.phase = d.phase := by
  obtain ⟨rd, models, bytes, -, hd⟩ := hd
  rw [hd]

/-- A header that is accepted codes a valid dictionary size (R385). -/
theorem Decoder.headerStep_ok {p : Params} {d d' : Decoder} (h : d.headerStep p = .ok () d') :
    ∃ dd, dictValid dd = true ∧ d' = d.acceptHeader dd := by
  unfold Decoder.headerStep at h
  split at h
  · split at h <;> cases h
  · dsimp only at h
    split at h
    · cases h
    · split at h
      · cases h
      · rename_i hvalid
        split at h
        · cases h
        · split at h <;> cases h
          exact ⟨_, by simpa using hvalid, rfl⟩

/-- A member starts with an empty history (R387). -/
theorem Decoder.acceptHeader_windowSound (d : Decoder) {dd : Byte} (h : dictValid dd = true) :
    (d.acceptHeader dd).windowSound := ⟨rfl, fun _ => Lzma.init_repsSound (dictionarySize_pos h)⟩

theorem Decoder.headerStep_windowSound {d : Decoder} (p : Params) (h : d.windowSound) :
    (d.headerStep p).Sat (fun _ => True) Decoder.windowSound Decoder.windowSound := by
  cases hx : d.headerStep p with
  | ok _ d' =>
    obtain ⟨dd, hvalid, rfl⟩ := Decoder.headerStep_ok hx
    exact ⟨trivial, d.acceptHeader_windowSound hvalid⟩
  | hold => trivial
  | raise err d' =>
    obtain rfl := (d.headerStep_frame p).of_raise hx
    exact h

theorem Decoder.loadStep_windowSound {d : Decoder} (h : d.windowSound) :
    d.loadStep.Sat (fun _ => True) Decoder.windowSound Decoder.windowSound := by
  have hload := d.rcLoad_fetched.mono (fun _ hv => hv) (fun _ hd => hd.windowSound h) (fun _ hd => hd.windowSound h)
  exact hload.bind fun _ _ _ hd => ⟨trivial, hd⟩

theorem Decoder.trailerStep_windowSound {d : Decoder} (h : d.windowSound) :
    d.trailerStep.Sat (fun _ => True) Decoder.windowSound Decoder.windowSound :=
  d.trailerStep_frame.mono (fun _ hv => hv)
    (fun _ ⟨_, _, hd'⟩ => hd' ▸ h.with_phase (phase := .memberFinished) (.inr nofun)) fun _ ⟨_, _, _, hd'⟩ => hd' ▸ h

/-! ## The packets of a decoder -/

/-- The executing side of a packet, as `exec` runs it (R270 to R277). -/
def Decoder.executePacket (d : Decoder) : Instr → Src Decoder Unit
  | .lit c => d.execute Lzma.afterLit 1 fun d => .ok () (d.emit c)
  | .matchDist len dist => d.executeMatch len dist
  | .shortRep => d.executeRep Lzma.afterShortRep 1
  | .rep0 len => d.executeRep Lzma.afterRep0 len
  | .rep1 len => d.executeRep Lzma.afterRep1 len
  | .rep2 len => d.executeRep Lzma.afterRep2 len
  | .rep3 len => d.executeRep Lzma.afterRep3 len
  | .eos => d.executeEos
  | _ => .hold

theorem exec_eq_executePacket {i : Instr} (hi : isPacket i = true) (s : State) :
    ∃ onEnc, exec i s = runPacket s onEnc (·.executePacket i) := by
  cases i
  case lit | matchDist | shortRep | rep0 | rep1 | rep2 | rep3 | eos =>
    simp only [exec, execLit, execMatchDist, execShortRep, execRep0, execRep1, execRep2, execRep3, execEos,
      Decoder.executePacket]
    exact ⟨_, rfl⟩
  all_goals exact absurd hi Bool.false_ne_true

theorem Decoder.countersHold_iff {d : Decoder} {n : Nat} :
    d.countersHold n = true ↔ d.lz.dataPosition.toNat + n < 2 ^ 64 ∧ d.totalOut.toNat + n < 2 ^ 64 := by
  simp [Decoder.countersHold]

/-- Bytes produced at the end of the history (R105, R282). -/
theorem Decoder.produced_windowSound {d : Decoder} {lz : Lzma} {bytes : List Byte} (h : d.windowSound)
    (hp : d.phase = .inMember) (h1 : 1 ≤ bytes.length) (hfit : d.lz.dataPosition.toNat + bytes.length < 2 ^ 64)
    (hm : d.lz.moved lz (d.lz.reaches d.dictionarySize.toNat)) :
    (d.produced lz bytes).windowSound := by
  obtain ⟨hwin, hreps⟩ := h
  have hdp : (d.lz.dataPosition + BitVec.ofNat 64 bytes.length).toNat = d.lz.dataPosition.toNat + bytes.length := by
    rw [BitVec.toNat_add, BitVec.toNat_ofNat]
    omega
  refine ⟨?_, fun _ => (hreps hp).moved hm (by omega)⟩
  show (d.history.writeList d.lz.dataPosition.toNat bytes).map Prod.fst =
    List.range (d.lz.dataPosition + BitVec.ofNat 64 bytes.length).toNat
  rw [hdp]
  exact Memory.writeList_end bytes hwin

theorem Decoder.executeEos_windowSound {d : Decoder} (h : d.windowSound) :
    d.executeEos.Sat (fun _ => True) Decoder.windowSound Decoder.windowSound False := by
  unfold Decoder.executeEos
  split
  · exact h
  · exact ⟨trivial, h⟩

section

variable {d : Decoder} (h : d.windowSound) (hp : d.phase = .inMember)
include h hp

theorem Decoder.executeLit_windowSound (c : Byte) :
    (d.execute Lzma.afterLit 1 fun d => .ok () (d.emit c)).Sat (fun _ => True) Decoder.windowSound Decoder.windowSound
      False := by
  unfold Decoder.execute
  split
  · rename_i hcount
    have hm := (Lzma.moved_cases d.lz (d.lz.reaches d.dictionarySize.toNat)).1
    exact ⟨trivial, Decoder.produced_windowSound (d := d) (bytes := [c]) h hp (Nat.le_refl 1)
      (Decoder.countersHold_iff.1 hcount).1 hm⟩
  · exact h

/-- A copy from inside the window never meets a byte that is not defined (R254, R255, R287). -/
theorem Decoder.executeCopy_windowSound {lz : Lzma → Lzma} {n dist : Nat} (hn : 1 ≤ n)
    (hm : d.lz.moved (lz d.lz) (d.lz.reaches d.dictionarySize.toNat))
    (hd : dist < d.lz.dataPosition.toNat) (hs : dist < d.dictionarySize.toNat) :
    (d.execute lz n (Decoder.emitCopy dist n)).Sat (fun _ => True) Decoder.windowSound Decoder.windowSound False := by
  by_cases hcount : d.countersHold n = true
  · obtain ⟨hpos, htotal⟩ := Decoder.countersHold_iff.1 hcount
    obtain ⟨bytes, rfl, -, hx⟩ := Decoder.execute_copy hm.1 h.1 hd hs hpos htotal
    rw [hx]
    exact ⟨trivial, Decoder.produced_windowSound h hp hn hpos hm⟩
  · unfold Decoder.execute
    rw [if_neg hcount]
    exact h

theorem Decoder.executeRep_windowSound {lz : Lzma → Lzma} {n : Nat} (hn : 1 ≤ n)
    (hm : d.lz.moved (lz d.lz) (d.lz.reaches d.dictionarySize.toNat)) :
    (d.executeRep lz n).Sat (fun _ => True) Decoder.windowSound Decoder.windowSound False := by
  unfold Decoder.executeRep
  split
  · exact h
  · rename_i hstart
    have hdp : d.lz.dataPosition.toNat ≠ 0 := fun h0 => hstart (BitVec.eq_of_toNat_eq h0)
    have hrep : d.lz.reaches d.dictionarySize.toNat (lz d.lz).rep0 := by
      rcases hm.2 _ (List.mem_cons_self ..) with hold | hnew
      · obtain ⟨hsize, hwritten⟩ := (h.2 hp).1 _ hold
        exact ⟨by omega, hsize⟩
      · exact hnew
    exact Decoder.executeCopy_windowSound h hp hn hm hrep.1 hrep.2

theorem Decoder.executeMatch_windowSound {len : Nat} (hn : 1 ≤ len) (dist : Word) :
    (d.executeMatch len dist).Sat (fun _ => True) Decoder.windowSound Decoder.windowSound False := by
  unfold Decoder.executeMatch
  split
  · exact h
  · split
    · exact h
    · rename_i hdist
      have hnew : d.lz.reaches d.dictionarySize.toNat dist := by omega
      obtain ⟨-, -, -, -, -, -, hm⟩ := Lzma.moved_cases d.lz (d.lz.reaches d.dictionarySize.toNat)
      exact Decoder.executeCopy_windowSound h hp hn (hm dist hnew) hnew.1 hnew.2

/-- Every packet a decoder can read (R142) keeps the history sound, whether it completes or fails. -/
theorem Decoder.executePacket_windowSound {i : Instr} (hi : i.decodedPacket) :
    (d.executePacket i).Sat (fun _ => True) Decoder.windowSound Decoder.windowSound False := by
  obtain ⟨-, hshort, hrep0, hrep1, hrep2, hrep3, -⟩ := Lzma.moved_cases d.lz (d.lz.reaches d.dictionarySize.toNat)
  cases i
  case lit c => exact Decoder.executeLit_windowSound h hp c
  case matchDist len dist => exact Decoder.executeMatch_windowSound h hp (Nat.le_of_succ_le hi.1) dist
  case shortRep => exact Decoder.executeRep_windowSound h hp (Nat.le_refl 1) hshort
  case rep0 len => exact Decoder.executeRep_windowSound h hp (Nat.le_of_succ_le hi.1) hrep0
  case rep1 len => exact Decoder.executeRep_windowSound h hp (Nat.le_of_succ_le hi.1) hrep1
  case rep2 len => exact Decoder.executeRep_windowSound h hp (Nat.le_of_succ_le hi.1) hrep2
  case rep3 len => exact Decoder.executeRep_windowSound h hp (Nat.le_of_succ_le hi.1) hrep3
  case eos => exact Decoder.executeEos_windowSound h
  all_goals exact hi.elim

end

/-! ## A step keeps the windows -/

/-- The window and the rep distances of a channel are sound (R103, R255). -/
abbrev Channel.windowSound (ch : Channel) : Prop := ch.all Encoder.windowSound Decoder.windowSound

/-- The executing side of a packet, put back on its channel. -/
theorem runPacket_decoder_windowSound {s t : State} {r : Run} {d : Decoder} {onEnc : Params → Encoder → Option Encoder}
    {onDec : Decoder → Src Decoder Unit} (hr : s.running = some r) (hc : s.chan r.chan = .dec d)
    (hx : (onDec d).Sat (fun _ => True) Decoder.windowSound Decoder.windowSound False)
    (ht : runPacket s onEnc onDec = .next t) : s.replaces r.chan Channel.windowSound t := by
  unfold runPacket at ht
  simp only [hr, hc] at ht
  cases ho : onDec d <;> rw [ho] at hx ht <;> cases ht
  case ok d' => exact ⟨.dec d', hx.2, rfl⟩
  case hold => exact hx.elim
  case raise err d' => exact ⟨.dec (d'.enterFatal err), Decoder.windowSound.enterFatal err hx, rfl⟩

/-- Every packet a decoder has read keeps its history sound. -/
theorem exec_packet_decoder_windowSound {s t : State} {r : Run} {d : Decoder} {i : Instr} (hr : s.running = some r)
    (hc : s.chan r.chan = .dec d) (hi : i.decodedPacket) (h : d.windowSound) (hp : d.phase = .inMember)
    (ht : exec i s = .next t) : s.replaces r.chan Channel.windowSound t := by
  obtain ⟨onEnc, hrun⟩ := exec_eq_executePacket (isPacket_of_decodedPacket hi) s
  exact runPacket_decoder_windowSound hr hc (Decoder.executePacket_windowSound h hp hi) (hrun.symm.trans ht)

theorem CommandEffect.windowSound {p : Params} {ch ch' : Channel} (heff : CommandEffect p ch ch') (h : ch.windowSound) :
    ch'.windowSound := by
  cases heff with
  | openEncoder size ml lim v _ h2 => exact Encoder.opened_windowSound (dictEncode_valid h2) ml lim v
  | openDecoder | reset => exact Decoder.init_windowSound
  | close => trivial
  | encoderStatus => exact h
  | stage e bytes => exact Encoder.stage_windowSound p bytes h
  | restart e => exact Encoder.memberRestart_windowSound h
  | decoderStatus d phase _ _ hp => exact Decoder.windowSound.with_phase hp h
  | push => exact h
  | resync d => exact ⟨h.1, nofun⟩

/-- The channel of an id, which is closed if the id names none. -/
theorem State.windowSound.chan {s : State} (h : s.windowSound) (c : Byte) : (s.chan c).windowSound := by
  by_cases hc : s.chan c = .closed
  · rw [hc]
    trivial
  · exact h _ (s.chan_mem rfl hc)

section

variable {s t : State} {r : Run} {d : Decoder}

/-- A packet fetched by a running read replaces the read's channel, whatever was put back for it. -/
theorem State.replaces_of_withRun {ch : Channel} {R : Channel → Prop} (h : (s.withRun r ch).replaces r.chan R t) :
    s.replaces r.chan R t := by
  obtain ⟨ch', hch', heq⟩ := h
  exact ⟨ch', hch', heq.trans (State.setChan_withRun_channels s r ch ch')⟩

theorem endDecoderRead_windowSound (err : ErrorCode) (h : d.windowSound) :
    s.replaces r.chan Channel.windowSound (s.endDecoderRead r d err) := by
  obtain ⟨phase, hph, hd⟩ := d.finishedCheck_phase
  exact ⟨.dec d.finishedCheck, hd ▸ h.with_phase hph, rfl⟩

theorem endEncoderRead_windowSound {e : Encoder} (h : e.windowSound) :
    s.replaces r.chan Channel.windowSound (s.endEncoderRead r e) := by
  obtain ⟨phase, -, he⟩ := Encoder.endCheck_phase { e with totalOut := e.totalOut + BitVec.ofNat 64 r.got.length }
  exact ⟨.enc (Encoder.endCheck _), he ▸ h, rfl⟩

theorem decoderStep_windowSound {x : Src Decoder Unit} (h : d.windowSound)
    (hx : x.Sat (fun _ => True) Decoder.windowSound Decoder.windowSound) (ht : decoderStep s r d x = .next t) :
    s.replaces r.chan Channel.windowSound t := by
  cases x <;> cases ht
  case ok d' => exact ⟨.dec d', hx.2, rfl⟩
  case hold => exact endDecoderRead_windowSound .ok h
  case raise err d' => exact ⟨.dec (d'.enterFatal err), Decoder.windowSound.enterFatal err hx, rfl⟩

variable (hlt : r.chan.toNat < s.channels.length)
include hlt

theorem decoderPacket_windowSound (h : d.windowSound) (hp : d.phase = .inMember) (ht : decoderPacket s r d = .next t) :
    s.replaces r.chan Channel.windowSound t := by
  unfold decoderPacket at ht
  split at ht
  · rename_i i d1 hf
    obtain ⟨hi, hd1⟩ := (d.fetch_fetched s.params).of_ok hf
    exact State.replaces_of_withRun (exec_packet_decoder_windowSound (State.withRun_running s r _)
      (State.chan_withRun hlt _) hi (hd1.windowSound h) (hd1.phase_eq.trans hp) ht)
  · cases ht
    exact endDecoderRead_windowSound .ok h
  · rename_i err d1 hf
    cases ht
    exact ⟨.dec (d1.enterFatal err), (((d.fetch_fetched s.params).of_raise hf).windowSound h).enterFatal err, rfl⟩

theorem decoderIteration_windowSound (h : d.windowSound) (ht : decoderIteration s r d = .next t) :
    s.replaces r.chan Channel.windowSound t := by
  rcases decoderIteration_cases (s := s) (r := r) (d := d) with
    ⟨err, hi⟩ | ⟨-, -, hi⟩ | ⟨-, -, -, hi⟩ | ⟨hp, -, -, hi⟩ | ⟨-, -, -, hi⟩ <;> rw [hi] at ht
  · cases ht
    exact endDecoderRead_windowSound err h
  · exact decoderStep_windowSound h (Decoder.headerStep_windowSound s.params h) ht
  · exact decoderStep_windowSound h (Decoder.loadStep_windowSound h) ht
  · exact decoderPacket_windowSound hlt h hp ht
  · exact decoderStep_windowSound h (Decoder.trailerStep_windowSound h) ht

theorem encoderIteration_windowSound {e : Encoder} (h : e.windowSound) (ht : encoderIteration s r e = .next t) :
    s.replaces r.chan Channel.windowSound t := by
  rcases encoderIteration_cases (s := s) (r := r) (e := e) with hi | ⟨-, hcl, hi⟩ | ⟨-, -, hstep, hi⟩ <;> rw [hi] at ht
  · cases ht
    exact endEncoderRead_windowSound h
  · have hx := exec_eos_encoder (State.withRun_running s r (.enc e)) (State.chan_withRun hlt _) hcl
    cases hx.symm.trans ht
    exact ⟨.enc _, Encoder.close_windowSound _ h, State.setChan_withRun_channels s r _ _⟩
  · have hfetch := Encoder.fetch_windowSound s.params h
    have hlegal : (e.fetch s.params).2.legalPacket s.params (e.fetch s.params).1 = true :=
      Encoder.fetch_legal h (Encoder.lookahead_of_stepEnabled hstep)
    obtain ⟨lz, bytes, cyc, hlen, h1, h2, hm, hx⟩ := exec_packet_encoder
      (State.withRun_running s r (.enc (e.fetch s.params).2)) (State.chan_withRun hlt _) hlegal
    cases hx.symm.trans ht
    exact ⟨.enc _, Encoder.covered_windowSound _ cyc (hlen ▸ h1) (hlen ▸ h2) hm hfetch,
      State.setChan_withRun_channels s r _ _⟩

end

theorem readStep_windowSound {s t : State} {r : Run} (hs : s.windowSound) (ht : readStep s r = .next t) :
    t.channels = s.channels ∨ s.replaces r.chan Channel.windowSound t := by
  have hsound := hs.chan r.chan
  unfold readStep at ht
  split at ht
  · cases ht
    exact .inl rfl
  · rename_i e hc
    rw [hc] at hsound
    exact .inr (encoderIteration_windowSound (r := r.give e.out) (State.chan_lt_enc hc) (by exact hsound) ht)
  · rename_i d hc
    rw [hc] at hsound
    exact .inr (decoderIteration_windowSound (r := r.give d.out) (State.chan_lt_dec hc) (by exact hsound) ht)

/-- EVERY STEP replaces at most one channel, and that one soundly. -/
theorem step_windowSound {s t : State} (hs : s.windowSound) (ht : step s = .next t) :
    t.channels = s.channels ∨ ∃ c, s.replaces c Channel.windowSound t := by
  cases hr : s.running with
  | none =>
    rcases step_port hr with hx | ⟨ws, bs, hx | ⟨i, u, -, hx, -, -, -, hch, -⟩⟩ <;> cases hx.symm.trans ht
    · exact .inl rfl
    · exact .inl rfl
    · rcases hch with hch | ⟨c, ch, -, -, heff, hch⟩
      · exact .inl hch
      · exact .inr ⟨c, ch, heff.windowSound (hs.chan c), hch⟩
  | some r =>
    rw [step, hr] at ht
    exact (readStep_windowSound hs ht).imp id fun hch => ⟨r.chan, hch⟩

/-! ## The command port -/

theorem step_eq_commandStep {s : State} (h : s.running = none) : step s = commandStep s := by
  unfold step
  rw [h]

theorem commandStep_instr {s : State} {i : Instr} {rest : Code}
    (h : decode (.command s.portWords s.portData) = .instr i rest) : commandStep s = exec i (s.withCode rest) := by
  unfold commandStep
  rw [h]

theorem commandStep_incomplete {s : State} (h : decode (.command s.portWords s.portData) = .incomplete) :
    commandStep s = .next s := by
  unfold commandStep
  rw [h]

end Sys2Proof.Machine

open Sys2Proof.Machine

/-- Settles O56: at most one channel is replaced, by a command or by an iteration of a read, and each of these keeps its window
and its rep distances sound. -/
theorem stepKeepsWindowSound : Obligations.StepKeepsWindowSound := by
  intro s t hs ht
  unfold State.windowSound
  rcases step_windowSound hs ht with heq | ⟨c, ch, hch, heq⟩ <;> rw [heq]
  · exact hs
  · exact forall_mem_set hs hch

/-- Settles O7: with no read in progress a step is the port's, and the port runs a whole command and waits for the rest of one
that is not. -/
theorem stepRunsCommand : Obligations.StepRunsCommand := by
  intro s hr
  rw [step_eq_commandStep hr]
  exact ⟨fun i ws bs h => commandStep_instr h, commandStep_incomplete⟩
end

section
/-! PROOFS. Family 30, encoding: packets and host commands decode to what was encoded (R135 to R148), every long enough sequence
of decision bits begins with exactly one packet (R139, R142), and reserved commands are rejected (R147). -/

namespace Sys2Proof

/-! ## The bits of a packet do not depend on its context (R136, R210) -/

theorem treeDecisions_bits (base : Nat → ModelRef) (symbol k m : Nat) :
    (treeDecisions base symbol k m).map Decision.bit = (directDecisions symbol k).map Decision.bit := by
  induction k generalizing m with
  | zero => rfl
  | succ k ih => exact congrArg (symbol.testBit k :: ·) (ih _)

theorem matchedDecisions_bits (ctx : Nat) (mb b : Byte) (k node : Nat) (matched : Bool) :
    (matchedDecisions ctx mb b k node matched).map Decision.bit = (directDecisions b.toNat k).map Decision.bit := by
  induction k generalizing node matched with
  | zero => rfl
  | succ k ih => exact congrArg (b.getLsbD k :: ·) (ih _ _)

/-- A literal has the bits of its byte, matched or not (R136). -/
theorem literalDecisions_bits (c : PacketCtx) (b : Byte) :
    (literalDecisions c b).map Decision.bit = (directDecisions b.toNat 8).map Decision.bit := by
  unfold literalDecisions
  split
  · exact matchedDecisions_bits _ _ _ _ _ _
  · exact treeDecisions_bits _ _ _ _

theorem lenDecisions_bits (l : LenModel) (ps ps' len : Nat) :
    (lenDecisions l ps len).map Decision.bit = (lenDecisions l ps' len).map Decision.bit := by
  simp only [lenDecisions, apply_ite (List.map Decision.bit), List.map_cons, treeDecisions_bits]

/-- The decision bits of a packet are those of its code in every context. -/
theorem packetDecisions_bits (c : PacketCtx) (i : Instr) : (packetDecisions c i).map Decision.bit = packetBits i := by
  unfold packetBits
  cases i
  case lit b => simp only [packetDecisions, List.map_cons, literalDecisions_bits]
  case shortRep => rfl
  case matchDist len d =>
    simp only [packetDecisions, List.map_cons, List.map_append, lenDecisions_bits _ c.posState PacketCtx.plain.posState]
  case eos =>
    simp only [packetDecisions, List.map_cons, List.map_append, lenDecisions_bits _ c.posState PacketCtx.plain.posState]
  case rep0 len | rep1 len | rep2 len | rep3 len =>
    simp only [packetDecisions, List.map_cons, lenDecisions_bits _ c.posState PacketCtx.plain.posState]
  all_goals rfl

/-! ## Decode of encode, packets -/

/-- A list of bits gives the decisions whose bits it begins with, under any models. -/
theorem listBit_gives (rest : List Bool) : Gives listBit fun ds bits => bits = ds.map Decision.bit ++ rest := by
  rintro d ds _ rfl
  exact ⟨ds.map Decision.bit ++ rest, rfl, rfl⟩

theorem decodePacket_packetBits {i : Instr} (hw : i.wellFormed = true) (hi : Machine.isPacket i = true) (rest : List Bool) :
    decodePacket (packetBits i ++ rest) = .instr i (.packet rest) := by
  obtain ⟨_, hread, rfl⟩ := decPacket_gives (listBit_gives rest) .plain i hw hi nofun nofun [] _
    (by rw [List.append_nil, packetDecisions_bits])
  rw [decodePacket, hread]

/-! ## Encode of decode, packets -/

/-- From `bits`, the reading `x` either takes the bits of decisions `ds`, at most `n` of them, and gives a value of which `V` says
that `ds` code it; or it holds, with fewer than `n` bits there. -/
def Src.Reads {α : Type} (V : α → List Decision → Prop) (n : Nat) (bits : List Bool) (x : Src (List Bool) α) : Prop :=
  match x with
  | .ok a rest => ∃ ds, V a ds ∧ ds.length ≤ n ∧ bits = ds.map Decision.bit ++ rest
  | .hold => bits.length < n
  | .raise _ _ => False

section Reads

variable {α β : Type} {V : α → List Decision → Prop} {W : β → List Decision → Prop} {n m : Nat} {bits : List Bool}

theorem Src.Reads.mono {V' : α → List Decision → Prop} {x : Src (List Bool) α} (h : x.Reads V n bits) (hn : n ≤ m)
    (hV : ∀ a ds, V a ds → V' a ds) : x.Reads V' m bits := by
  cases x with
  | ok a rest =>
    obtain ⟨ds, hval, hlen, hbits⟩ := h
    exact ⟨ds, hV a ds hval, hlen.trans hn, hbits⟩
  | hold => exact Nat.lt_of_lt_of_le h hn
  | raise e st => exact h

/-- A value that is there needs no bits. -/
theorem Src.Reads.ok {a : α} (h : V a []) : (Src.ok a bits).Reads V n bits := ⟨[], h, Nat.zero_le n, rfl⟩

theorem Src.Reads.bind {x : Src (List Bool) α} {f : α → List Bool → Src (List Bool) β} (hx : x.Reads V n bits)
    (hf : ∀ a ds rest, V a ds → (f a rest).Reads (fun b ds' => W b (ds ++ ds')) m rest) :
    (x.bind f).Reads W (n + m) bits := by
  cases x with
  | ok a rest =>
    obtain ⟨ds, hval, hlen, rfl⟩ := hx
    have hrest := hf a ds rest hval
    rw [Src.bind]
    generalize f a rest = y at hrest
    cases y with
    | ok b rest' =>
      obtain ⟨ds', hval', hlen', rfl⟩ := hrest
      exact ⟨ds ++ ds', hval', by rw [List.length_append]; omega, by rw [List.map_append, List.append_assoc]⟩
    | hold =>
      have hshort : rest.length < m := hrest
      show (ds.map Decision.bit ++ rest).length < n + m
      rw [List.length_append, List.length_map]
      omega
    | raise e st => exact hrest
  | hold => exact Nat.lt_add_right m hx
  | raise e st => exact hx

/-- One bit is read as the decision of that bit under the model it was asked with. -/
theorem listBit_reads (bits : List Bool) (r : Option ModelRef) :
    (listBit bits r).Reads (fun b ds => ds = [⟨b, r⟩]) 1 bits := by
  cases bits with
  | nil => exact Nat.one_pos
  | cons b rest => exact ⟨[⟨b, r⟩], rfl, Nat.le_refl 1, rfl⟩

/-- A reading that begins with a bit: what is read after it decides. -/
theorem Src.Reads.bit {r : Option ModelRef} {f : Bool → List Bool → Src (List Bool) β}
    (hf : ∀ b rest, (f b rest).Reads (fun v ds => W v (⟨b, r⟩ :: ds)) m rest) :
    ((listBit bits r).bind f).Reads W (m + 1) bits := by
  rw [Nat.add_comm]
  exact (listBit_reads bits r).bind fun b ds rest hds => by subst hds; exact hf b rest

end Reads

/-- The bit a value was extended by last is the one above those read later. -/
theorem testBit_of_div_two_pow {v m k : Nat} {b : Bool} (h : v / 2 ^ k = 2 * m + b.toNat) :
    v / 2 ^ (k + 1) = m ∧ v.testBit k = b := by
  rw [Nat.pow_succ, ← Nat.div_div_eq_div_mul, Nat.testBit_eq_decide_div_mod_eq, h]
  have hb := Bool.toNat_le b
  exact ⟨by omega, by cases b <;> simp⟩

theorem decTree_reads (base : Nat → ModelRef) (k m : Nat) (bits : List Bool) :
    (decTree listBit base k m bits).Reads (fun v ds => v / 2 ^ k = m ∧ ds = treeDecisions base v k m) k bits := by
  induction k generalizing m bits with
  | zero => exact .ok ⟨by simp, rfl⟩
  | succ k ih =>
    refine .bit fun b rest => (ih (2 * m + b.toNat) rest).mono (Nat.le_refl k) ?_
    rintro v ds ⟨hdiv, rfl⟩
    obtain ⟨hm, hbit⟩ := testBit_of_div_two_pow hdiv
    exact ⟨hm, by rw [treeDecisions, hbit]⟩

/-- A tree codes the low bits of its symbol. -/
theorem treeDecisions_mod (base : Nat → ModelRef) (symbol : Nat) {k n : Nat} (h : k ≤ n) (m : Nat) :
    treeDecisions base (symbol % 2 ^ n) k m = treeDecisions base symbol k m := by
  induction k generalizing m with
  | zero => rfl
  | succ k ih =>
    have hbit : (symbol % 2 ^ n).testBit k = symbol.testBit k := by simp; omega
    rw [treeDecisions, treeDecisions, hbit, ih (by omega)]

theorem decSymbol_reads (base : Nat → ModelRef) (n : Nat) (bits : List Bool) :
    (decSymbol listBit base n bits).Reads (fun v ds => v < 2 ^ n ∧ ds = treeDecisions base v n 1) n bits := by
  refine (decTree_reads base n 1 bits).bind (m := 0) fun v ds rest hv => .ok ?_
  obtain ⟨hdiv, rfl⟩ := hv
  have hmod : v - 2 ^ n = v % 2 ^ n := by
    have := Nat.div_add_mod v (2 ^ n)
    rw [hdiv, Nat.mul_one] at this
    omega
  rw [hmod, List.append_nil, treeDecisions_mod base v (Nat.le_refl n)]
  exact ⟨Nat.mod_lt v (Nat.two_pow_pos n), rfl⟩

theorem decTreeRev_reads (base : Nat → ModelRef) (k m i sym : Nat) (hsym : sym < 2 ^ i) (bits : List Bool) :
    (decTreeRev listBit base k m i sym bits).Reads
      (fun v ds => v < 2 ^ (i + k) ∧ v % 2 ^ i = sym ∧ ds = treeRevDecisions base v k m i) k bits := by
  induction k generalizing m i sym bits with
  | zero => exact .ok ⟨hsym, Nat.mod_eq_of_lt hsym, rfl⟩
  | succ k ih =>
    have hpow : 2 ^ (i + 1) = 2 * 2 ^ i := by ring
    have hnext : ∀ b : Bool, sym + b.toNat * 2 ^ i < 2 ^ (i + 1) := fun b => by cases b <;> simp <;> omega
    refine .bit fun b rest => (ih (2 * m + b.toNat) (i + 1) _ (hnext b) rest).mono (Nat.le_refl k) ?_
    rintro v ds ⟨hlt, hmod, rfl⟩
    have hlow : v % 2 ^ i = sym := by
      rw [← Nat.mod_mod_of_dvd v (Nat.pow_dvd_pow 2 (Nat.le_succ i)), hmod, Nat.add_mul_mod_self_right, Nat.mod_eq_of_lt hsym]
    have hbit : v.testBit i = b := by
      have h := Nat.testBit_mod_two_pow v (i + 1) i
      rw [hmod] at h
      rw [Nat.testBit_eq_decide_div_mod_eq, Nat.add_mul_div_right _ _ (Nat.two_pow_pos i), Nat.div_eq_of_lt hsym] at h
      cases b <;> simpa using h.symm
    exact ⟨by rwa [show i + (k + 1) = i + 1 + k by omega], hlow, by rw [treeRevDecisions, hbit]⟩

theorem decDirect_reads (k v : Nat) (bits : List Bool) :
    (decDirect listBit k v bits).Reads (fun w ds => w / 2 ^ k = v ∧ ds = directDecisions w k) k bits := by
  induction k generalizing v bits with
  | zero => exact .ok ⟨by simp, rfl⟩
  | succ k ih =>
    refine .bit fun b rest => (ih (2 * v + b.toNat) rest).mono (Nat.le_refl k) ?_
    rintro w ds ⟨hdiv, rfl⟩
    obtain ⟨hv, hbit⟩ := testBit_of_div_two_pow hdiv
    exact ⟨hv, by rw [directDecisions, hbit]⟩

/-- A literal of a state below 7 is a plain tree symbol (R242). -/
theorem decLiteral_reads {c : PacketCtx} (hc : c.state ≤ 6) (bits : List Bool) :
    (decLiteral listBit c bits).Reads (fun b ds => ds = literalDecisions c b) 8 bits := by
  rw [decLiteral, if_pos hc]
  refine (decSymbol_reads (.literal c.litState) 8 bits).bind (m := 0) fun v ds rest hv => .ok ?_
  obtain ⟨hlt, rfl⟩ := hv
  rw [literalDecisions, decide_eq_true hc, List.append_nil, BitVec.toNat_ofNat, Nat.mod_eq_of_lt hlt]

theorem decLen_reads (l : LenModel) (ps : Nat) (bits : List Bool) :
    (decLen listBit l ps bits).Reads (fun len ds => ds = lenDecisions l ps len) 10 bits := by
  refine .bit (m := 9) fun far rest => ?_
  cases far with
  | false =>
    refine ((decSymbol_reads (.low l ps) 3 rest).bind (m := 0) fun k ds rest hk => .ok ?_).mono (by omega) fun _ _ h => h
    obtain ⟨hlt, rfl⟩ := hk
    simp only [lenDecisions, Nat.add_sub_cancel_left, List.append_nil]
    rw [if_pos (by omega)]
  | true =>
    refine .bit (m := 8) fun high rest => ?_
    cases high with
    | false =>
      refine ((decSymbol_reads (.mid l ps) 3 rest).bind (m := 0) fun k ds rest hk => .ok ?_).mono (by omega) fun _ _ h => h
      obtain ⟨hlt, rfl⟩ := hk
      have hk : 10 + k - 2 = 8 + k := by omega
      simp only [lenDecisions, hk, Nat.add_sub_cancel_left, List.append_nil]
      rw [if_neg (by omega), if_pos (by omega)]
    | true =>
      refine (decSymbol_reads (.high l) 8 rest).bind (m := 0) fun k ds rest hk => .ok ?_
      obtain ⟨hlt, rfl⟩ := hk
      have hk : 18 + k - 2 = 16 + k := by omega
      simp only [lenDecisions, hk, Nat.add_sub_cancel_left, List.append_nil]
      rw [if_neg (by omega), if_neg (by omega)]

/-- The distances of the 64 slots are words (R262). -/
theorem slotBase_add_lt {slot r : Nat} (hs : slot < 64) (hr : r < 2 ^ slotBits slot) : slotBase slot + r < 2 ^ 32 := by
  have hbits : 2 ^ slotBits slot ≤ 2 ^ 30 := Nat.pow_le_pow_right (by omega) (by unfold slotBits; omega)
  calc slotBase slot + r < (2 + slot % 2) * 2 ^ slotBits slot + 2 ^ slotBits slot := Nat.add_lt_add_left hr _
    _ = (3 + slot % 2) * 2 ^ slotBits slot := by ring
    _ ≤ 4 * 2 ^ 30 := Nat.mul_le_mul (by omega) hbits
    _ = 2 ^ 32 := rfl

/-- The decisions of a distance, by its slot and what the footer adds to the slot's base. -/
theorem distDecisions_slot (len : Nat) {slot r : Nat} (h4 : 4 ≤ slot) (hs : slot < 64) (hr : r < 2 ^ slotBits slot) :
    distDecisions len (BitVec.ofNat 32 (slotBase slot + r)).toNat =
      treeDecisions (.disSlot (lenState len)) slot 6 1 ++
        if slot < 14 then treeRevDecisions (fun m => .dis (slotBase slot - slot + m)) r (slotBits slot) 1 0
        else directDecisions (r / 16) (slotBits slot - 4) ++ treeRevDecisions .align (r % 16) 4 1 0 := by
  rw [BitVec.toNat_ofNat, Nat.mod_eq_of_lt (slotBase_add_lt hs hr)]
  simp only [distDecisions, footerDecisions, distSlot_base h4 hr, Nat.add_sub_cancel_left]
  rw [if_neg (by omega : ¬ slot < 4)]

theorem decDist_reads (len : Nat) (bits : List Bool) :
    (decDist listBit len bits).Reads (fun d ds => ds = distDecisions len d.toNat) 36 bits := by
  refine (decSymbol_reads (.disSlot (lenState len)) 6 bits).bind (m := 30) fun slot ds rest hslot => ?_
  obtain ⟨hlt, rfl⟩ := hslot
  by_cases h4 : slot < 4
  · rw [if_pos h4]
    refine .ok ?_
    have hd : distSlot slot = slot := if_pos h4
    rw [BitVec.toNat_ofNat, Nat.mod_eq_of_lt (by omega)]
    simp only [distDecisions, footerDecisions, hd, if_pos h4]
  rw [if_neg h4]
  by_cases h14 : slot < 14
  · rw [if_pos h14]
    refine ((decTreeRev_reads _ (slotBits slot) 1 0 0 Nat.one_pos rest).bind (m := 0) fun r ds rest hr => .ok ?_).mono
      (by unfold slotBits; omega) fun _ _ h => h
    obtain ⟨hrlt, -, rfl⟩ := hr
    rw [Nat.zero_add] at hrlt
    rw [distDecisions_slot len (by omega) hlt hrlt, if_pos h14, List.append_nil]
  · rw [if_neg h14]
    have hbits : slotBits slot = slotBits slot - 4 + 4 ∧ slotBits slot ≤ 30 := by unfold slotBits; omega
    refine ((decDirect_reads (slotBits slot - 4) 0 rest).bind (m := 4) fun h ds rest hh => ?_).mono (by omega) fun _ _ h => h
    obtain ⟨hdiv, rfl⟩ := hh
    refine (decTreeRev_reads _ 4 1 0 0 Nat.one_pos rest).bind (m := 0) fun r ds rest hr => .ok ?_
    obtain ⟨hrlt, -, rfl⟩ := hr
    have hhlt : h < 2 ^ (slotBits slot - 4) := (Nat.div_eq_zero_iff_lt (Nat.two_pow_pos _)).1 hdiv
    have hsum : h * 16 + r < 2 ^ slotBits slot := by rw [hbits.1, pow_add]; omega
    rw [Nat.add_assoc, distDecisions_slot len (by omega) hlt hsum, if_neg h14, List.append_nil,
      show (h * 16 + r) / 16 = h by omega, show (h * 16 + r) % 16 = r by omega]

/-- The decisions `ds` are those of the packet `i` in the context `c`. -/
def packetCode (c : PacketCtx) (i : Instr) (ds : List Decision) : Prop := Machine.isPacket i = true ∧ ds = packetDecisions c i

/-- The MATCH form codes a MATCH or the marker (R140). -/
theorem packetCode_matchPacket (c : PacketCtx) (len : Nat) (d : Word) :
    packetCode c (matchPacket len d) (⟨true, some (.isMatch c.state c.posState)⟩ :: ⟨false, some (.rep c.state)⟩ ::
      (lenDecisions .matchLen c.posState len ++ distDecisions len d.toNat)) := by
  unfold matchPacket
  split
  case isTrue h =>
    obtain ⟨rfl, rfl⟩ := h
    exact ⟨rfl, rfl⟩
  case isFalse => exact ⟨rfl, rfl⟩

/-- A rep packet's length is the rest of its code. -/
theorem decLen_reads_rep {c : PacketCtx} {pre : List Decision} {i : Nat → Instr} {n : Nat} (hn : 10 ≤ n)
    (hi : ∀ len, packetCode c (i len) (pre ++ lenDecisions .repLen c.posState len)) (bits : List Bool) :
    ((decLen listBit .repLen c.posState bits).bind fun len st => .ok (i len) st).Reads
      (fun v ds => packetCode c v (pre ++ ds)) n bits := by
  refine ((decLen_reads .repLen c.posState bits).bind (m := 0) fun len ds rest hlen => .ok ?_).mono hn fun _ _ h => h
  rw [hlen, List.append_nil]
  exact hi len

/-- EVERY 48 BITS BEGIN WITH A PACKET (R139): from any bits, a packet is read from its own code, and a hold means
fewer than 48. -/
theorem decPacket_reads {c : PacketCtx} (hc : c.state ≤ 6) (hs : c.atStart = false) (bits : List Bool) :
    (decPacket listBit c bits).Reads (packetCode c) 48 bits := by
  refine .bit (m := 47) fun isMatch rest => ?_
  cases isMatch with
  | false =>
    refine (decLiteral_reads hc rest).bind (m := 39) fun b ds rest hds => .ok ?_
    rw [hds, List.append_nil]
    exact ⟨rfl, rfl⟩
  | true =>
    refine .bit (m := 46) fun isRep rest => ?_
    cases isRep with
    | false =>
      refine (decLen_reads .matchLen c.posState rest).bind (m := 36) fun len ds rest hlen => ?_
      refine (decDist_reads len rest).bind (m := 0) fun d ds' rest hd => .ok ?_
      rw [hlen, hd, List.append_nil]
      exact packetCode_matchPacket c len d
    | true =>
      rw [hs]
      refine .bit (m := 45) fun notRep0 rest => ?_
      cases notRep0 with
      | false =>
        refine .bit (m := 44) fun long rest => ?_
        cases long with
        | false => exact .ok ⟨rfl, rfl⟩
        | true => exact decLen_reads_rep (pre := [_, _, _, _]) (i := .rep0) (by omega) (fun _ => ⟨rfl, rfl⟩) rest
      | true =>
        refine .bit (m := 44) fun notRep1 rest => ?_
        cases notRep1 with
        | false => exact decLen_reads_rep (pre := [_, _, _, _]) (i := .rep1) (by omega) (fun _ => ⟨rfl, rfl⟩) rest
        | true =>
          refine .bit (m := 43) fun notRep2 rest => ?_
          cases notRep2 with
          | false => exact decLen_reads_rep (pre := [_, _, _, _, _]) (i := .rep2) (by omega) (fun _ => ⟨rfl, rfl⟩) rest
          | true => exact decLen_reads_rep (pre := [_, _, _, _, _]) (i := .rep3) (by omega) (fun _ => ⟨rfl, rfl⟩) rest

/-- A sequence of 48 or more bits is read as a packet, from exactly the bits of its code. -/
theorem decodePacket_complete {bits : List Bool} (h : 48 ≤ bits.length) :
    ∃ i rest, decodePacket bits = .instr i (.packet rest) ∧ Machine.isPacket i = true ∧ bits = packetBits i ++ rest := by
  have hread := decPacket_reads (c := .plain) (Nat.zero_le 6) rfl bits
  unfold decodePacket
  generalize decPacket listBit .plain bits = x at hread
  cases x with
  | ok i rest =>
    obtain ⟨ds, ⟨hi, rfl⟩, -, hbits⟩ := hread
    exact ⟨i, rest, rfl, hi, hbits⟩
  | hold => exact absurd hread (Nat.not_lt.2 h)
  | raise e st => exact hread.elim

/-- No code of a packet is the beginning of another's (R142). -/
theorem packetBits_prefixFree {i j : Instr} {rest rest' : List Bool} (hi : i.wellFormed = true) (hj : j.wellFormed = true)
    (hpi : Machine.isPacket i = true) (hpj : Machine.isPacket j = true) (h : packetBits i ++ rest = packetBits j ++ rest') :
    i = j := by
  have hboth : Decoded.instr i (.packet rest) = .instr j (.packet rest') := by
    rw [← decodePacket_packetBits hi hpi, h, decodePacket_packetBits hj hpj]
  injection hboth

/-! ## How many decisions a packet has (R141) -/

@[simp] theorem treeDecisions_length (base : Nat → ModelRef) (symbol k m : Nat) :
    (treeDecisions base symbol k m).length = k := by
  induction k generalizing m with
  | zero => rfl
  | succ k ih => exact congrArg (· + 1) (ih _)

@[simp] theorem treeRevDecisions_length (base : Nat → ModelRef) (symbol k m i : Nat) :
    (treeRevDecisions base symbol k m i).length = k := by
  induction k generalizing m i with
  | zero => rfl
  | succ k ih => exact congrArg (· + 1) (ih _ _)

@[simp] theorem directDecisions_length (value k : Nat) : (directDecisions value k).length = k := by
  induction k with
  | zero => rfl
  | succ k ih => exact congrArg (· + 1) ih

@[simp] theorem matchedDecisions_length (ctx : Nat) (mb b : Byte) (k node : Nat) (matched : Bool) :
    (matchedDecisions ctx mb b k node matched).length = k := by
  induction k generalizing node matched with
  | zero => rfl
  | succ k ih => exact congrArg (· + 1) (ih _ _)

@[simp] theorem literalDecisions_length (c : PacketCtx) (b : Byte) : (literalDecisions c b).length = 8 := by
  unfold literalDecisions
  split
  · exact matchedDecisions_length _ _ _ _ _ _
  · exact treeDecisions_length _ _ _ _

/-- `L` of R141. -/
@[simp] theorem lenDecisions_length (l : LenModel) (ps len : Nat) :
    (lenDecisions l ps len).length = if len ≤ 9 then 4 else if len ≤ 17 then 5 else 10 := by
  simp only [lenDecisions, apply_ite List.length, List.length_cons, treeDecisions_length]
  split_ifs <;> omega

/-- `F` of R141. -/
@[simp] theorem footerDecisions_length (d : Nat) :
    (footerDecisions d).length = if distSlot d < 4 then 0 else distSlot d / 2 - 1 := by
  simp only [footerDecisions, apply_ite List.length, List.length_append, List.length_nil, treeRevDecisions_length,
    directDecisions_length]
  unfold slotBits
  split_ifs <;> omega

@[simp] theorem distDecisions_length (len d : Nat) :
    (distDecisions len d).length = 6 + if distSlot d < 4 then 0 else distSlot d / 2 - 1 := by
  rw [distDecisions, List.length_append, treeDecisions_length, footerDecisions_length]

/-! ## Which decisions are direct (R141, R181) -/

/-- The decision is a direct bit: no model codes it. -/
def Decision.isDirect (x : Decision) : Bool := x.model.isNone

@[simp] theorem treeDecisions_direct (base : Nat → ModelRef) (symbol k m : Nat) :
    (treeDecisions base symbol k m).filter Decision.isDirect = [] := by
  induction k generalizing m with
  | zero => rfl
  | succ k ih => exact ih _

@[simp] theorem treeRevDecisions_direct (base : Nat → ModelRef) (symbol k m i : Nat) :
    (treeRevDecisions base symbol k m i).filter Decision.isDirect = [] := by
  induction k generalizing m i with
  | zero => rfl
  | succ k ih => exact ih _ _

@[simp] theorem directDecisions_direct (value k : Nat) :
    (directDecisions value k).filter Decision.isDirect = directDecisions value k := by
  induction k with
  | zero => rfl
  | succ k ih => exact congrArg (⟨value.testBit k, none⟩ :: ·) ih

@[simp] theorem lenDecisions_direct (l : LenModel) (ps len : Nat) :
    (lenDecisions l ps len).filter Decision.isDirect = [] := by
  unfold lenDecisions
  dsimp only
  split_ifs <;> exact treeDecisions_direct _ _ _ _

/-- The direct bits of a distance are those above the align tree's four (R264). -/
theorem distDecisions_direct_length (len : Nat) {d : Nat} (h : 14 ≤ distSlot d) :
    ((distDecisions len d).filter Decision.isDirect).length = slotBits (distSlot d) - 4 := by
  simp only [distDecisions, footerDecisions]
  rw [if_neg (by omega), if_neg (by omega)]
  simp

/-- The direct bits of a MATCH are those of its distance. -/
theorem matchDist_direct (c : PacketCtx) (len : Nat) (d : Word) :
    (packetDecisions c (.matchDist len d)).filter Decision.isDirect = (distDecisions len d.toNat).filter Decision.isDirect := by
  show List.filter _ (lenDecisions .matchLen c.posState len ++ distDecisions len d.toNat) = _
  rw [List.filter_append, lenDecisions_direct, List.nil_append]

/-- A MATCH has its first two bits, `L`, six slot bits and `F`. -/
theorem matchDist_length (c : PacketCtx) (len : Nat) (d : Word) :
    (packetDecisions c (.matchDist len d)).length = 2 + (if len ≤ 9 then 4 else if len ≤ 17 then 5 else 10) + 6 +
      if distSlot d.toNat < 4 then 0 else distSlot d.toNat / 2 - 1 := by
  simp only [packetDecisions, List.length_cons, List.length_append, lenDecisions_length, distDecisions_length]
  omega

/-- Only the longest length and footer together need 48 decisions: `2 + 10 + 6 + 30` (R141). -/
theorem matchDist_length_le (c : PacketCtx) (len : Nat) (d : Word) :
    (packetDecisions c (.matchDist len d)).length ≤ 48 ∧
      ((packetDecisions c (.matchDist len d)).length = 48 ↔
        18 ≤ len ∧ (distSlot d.toNat = 62 ∨ distSlot d.toNat = 63)) := by
  have hslot := distSlot_lt d.isLt
  rw [matchDist_length]
  constructor <;> split_ifs <;> omega

/-! ## Decode of encode, commands -/

/-- A write takes as many data bytes as its length word says (R148), and the bytes after them are left over. -/
theorem dataOperands_append (f : Word → List Byte → Instr) {n : Word} {bytes : List Byte} (h : bytes.length = dataCount n)
    (ws : List Word) (bs : List Byte) : dataOperands f (n :: ws) (bytes ++ bs) = .instr (f n bytes) (.command ws bs) := by
  rw [dataOperands, if_neg (by rw [List.length_append]; omega), ← h, List.take_left, List.drop_left]

/-! ## Reserved encodings (R145, R147) -/

theorem opcodeField_and_mask (w : Word) : opcodeField (w &&& 0xFFFF0000#32) = opcodeField w := by
  unfold opcodeField
  rw [BitVec.extractLsb'_and]
  exact congrArg BitVec.toNat BitVec.and_allOnes

theorem chanField_and_mask (w : Word) : chanField (w &&& 0xFFFF0000#32) = chanField w := by
  unfold chanField
  rw [BitVec.extractLsb'_and]
  exact BitVec.and_allOnes

/-- The reserved field is the low half of the word (R145). -/
theorem reservedField_ne_zero {w : Word} (h : w &&& 0xFFFF#32 ≠ 0#32) : reservedField w ≠ 0 := by
  intro hzero
  have hlow : w.toNat % 2 ^ 16 = 0 := by simpa [reservedField] using congrArg BitVec.toNat hzero
  exact h (BitVec.eq_of_toNat_eq ((Nat.and_two_pow_sub_one_eq_mod w.toNat 16).trans hlow))

/-- A word that passes the checks stands for what the opcode map says. -/
theorem decodeOpcode_of_checkFields {w : Word} {r : Decoded} {i : Instr} {rest : Code} (h : checkFields w r = .instr i rest) :
    r = .instr i rest := by
  unfold checkFields at h
  split at h
  · split_ifs at h
    exact h
  · exact h
  · exact h

/-- A word that fails a check is rejected, and its operands with it (log 17). -/
theorem decode_of_badField {w : Word} {ws : List Word} {bs : List Byte} {i : Instr} {rest : Code}
    (h : decodeOpcode (opcodeField w) (chanField w) ws bs = .instr i rest)
    (hbad : reservedField w ≠ 0 ∨ opcodeField w ≤ 6 ∧ chanField w ≠ 0) :
    ∃ why, decode (.command (w :: ws) bs) = .reserved why rest := by
  rw [decode, decodeCommand, h]
  unfold checkFields
  dsimp only
  by_cases hfield : reservedField w ≠ 0
  · exact ⟨_, if_pos hfield⟩
  · exact ⟨_, (if_neg hfield).trans (if_pos (hbad.resolve_left hfield))⟩

/-- The opcodes R146 does not list. -/
theorem decodeOpcode_unlisted {op : Nat}
    (h : op = 0 ∨ (7 ≤ op ∧ op ≤ 0x0F) ∨ (0x1B ≤ op ∧ op ≤ 0x1F) ∨ 0x32 ≤ op) (chan : Byte) (ws : List Word)
    (bs : List Byte) : decodeOpcode op chan ws bs = .reserved .opcode (.command ws bs) := by
  unfold decodeOpcode
  split
  case h_36 => rfl
  all_goals omega

/-- A global query has no operands (R146). -/
theorem decodeOpcode_query {op : Nat} (h1 : 1 ≤ op) (h6 : op ≤ 6) (chan : Byte) (ws : List Word) (bs : List Byte) :
    ∃ i, decodeOpcode op chan ws bs = .instr i (.command ws bs) := by
  interval_cases op <;> exact ⟨_, rfl⟩

end Sys2Proof

namespace Sys2Proof.Machine

theorem commandStep_reserved {s : State} {why : Reserved} {rest : Code}
    (h : decode (.command s.portWords s.portData) = .reserved why rest) : commandStep s = .next (s.withCode rest).reject := by
  unfold commandStep
  rw [h]

/-! ## Channels that do not exist (R147, R410) -/

theorem State.chan_eq_closed {s : State} {c : Byte} (h : s.channels.length ≤ c.toNat) : s.chan c = .closed := by
  by_contra hopen
  exact absurd (s.chan_lt hopen) (Nat.not_lt.2 h)

/-- Every encoder command but `ENC_OPEN` is run on an open encoder channel (R410). -/
theorem exec_eq_withEncoder {i : Instr} {c : Byte} (h : encoderChannel i = some c) (s : State) :
    ∃ f, exec i s = withEncoder s c f := by
  cases i
  case encClose | encWriteSize | encWrite | encRead | encSyncFlush | encFinish | encRestartMember | encMemberFinished
      | encFinished | encErrno =>
    cases h
    exact ⟨_, rfl⟩
  all_goals cases h

/-- Every decoder command but `DEC_OPEN` is run on an open decoder channel (R410). -/
theorem exec_eq_withDecoder {i : Instr} {c : Byte} (h : decoderChannel i = some c) (s : State) :
    ∃ f, exec i s = withDecoder s c f := by
  cases i
  case decClose | decWriteSize | decWrite | decRead | decFinish | decReset | decSyncToMember | decMemberFinished | decFinished
      | decErrno | decMemberVersion | decDictionarySize | decDataCrc | decDataPosition | decMemberPosition | decTotalInSize
      | decTotalOutSize =>
    cases h
    exact ⟨_, rfl⟩
  all_goals cases h

/-- A command that acts on a channel opens it, or is one of the encoder's or of the decoder's. -/
theorem actsOn_command {s : State} {i : Instr} {c : Byte} (hi : isPacket i = false) (h : actsOn s i = some c) :
    (∃ ds ml lim, i = .encOpen c ds ml lim) ∨ i = .decOpen c ∨ encoderChannel i = some c ∨ decoderChannel i = some c := by
  unfold actsOn at h
  split at h
  · cases h; exact .inl ⟨_, _, _, rfl⟩
  · cases h; exact .inr (.inl rfl)
  · rw [hi, if_neg Bool.false_ne_true, Option.or_eq_some_iff] at h
    exact .inr (.inr (h.imp id And.right))

/-- A command to a channel that does not exist is rejected (R147). -/
theorem exec_of_no_channel {s : State} {i : Instr} {c : Byte} (hi : isPacket i = false) (h : actsOn s i = some c)
    (hc : s.channels.length ≤ c.toNat) : exec i s = .next s.reject := by
  have hclosed := State.chan_eq_closed hc
  have hinvalid : s.chanValid c = false := decide_eq_false (Nat.not_lt.2 hc)
  rcases actsOn_command hi h with ⟨ds, ml, lim, rfl⟩ | rfl | henc | hdec
  · show execEncOpen c ds ml lim s = _
    rw [execEncOpen, hinvalid]
    rfl
  · show execDecOpen c s = _
    rw [execDecOpen, hinvalid]
    rfl
  · obtain ⟨f, hf⟩ := exec_eq_withEncoder henc s
    rw [hf, withEncoder, hclosed]
  · obtain ⟨f, hf⟩ := exec_eq_withDecoder hdec s
    rw [hf, withDecoder, hclosed]

end Sys2Proof.Machine

open Sys2Proof Sys2Proof.Machine

/-- Settles O1: each code is decoded by evaluation. -/
theorem sampleWordsDecode : Obligations.SampleWordsDecode := by
  unfold Obligations.SampleWordsDecode
  decide

/-- Settles O2, by cases on the command: its word has its opcode and channel (`decode_commandWord`), and its opcode
its operands. -/
theorem commandRoundTrip : Obligations.CommandRoundTrip := by
  intro i words data hw he ws bs
  cases i
  case lit | matchDist | shortRep | rep0 | rep1 | rep2 | rep3 | eos => cases he
  case qApiVersion | qVersionString | qMinDictionarySize | qMaxDictionarySize | qMinMatchLenLimit | qMaxMatchLenLimit =>
    cases he
    exact decode_commandWord _ _ ws bs (.inr rfl)
  case encOpen chan ds ml lim =>
    cases he
    refine (decode_commandWord 0x10 chan _ bs (.inl (by decide))).trans ?_
    show Decoded.instr (.encOpen chan ds ml (highWord lim ++ lowWord lim)) _ = _
    rw [highWord_append_lowWord]
    rfl
  case encWrite chan n bytes =>
    cases he
    refine (decode_commandWord 0x13 chan _ _ (.inl (by decide))).trans ?_
    exact dataOperands_append (.encWrite chan) (of_decide_eq_true hw) ws bs
  case decWrite chan n bytes =>
    cases he
    refine (decode_commandWord 0x23 chan _ _ (.inl (by decide))).trans ?_
    exact dataOperands_append (.decWrite chan) (of_decide_eq_true hw) ws bs
  all_goals
    cases he
    exact decode_commandWord _ _ _ bs (.inl (by decide))

/-- Settles O3: any source that gives the decisions of a packet is read as that packet (`decPacket_gives`), and so are a list of
decisions that checks the models and a list of bare bits. -/
theorem packetRoundTrip : Obligations.PacketRoundTrip := by
  refine ⟨fun c i rest hw hi hc hs => ?_, packetDecisions_bits, fun i rest hw hi => decodePacket_packetBits hw hi rest⟩
  obtain ⟨_, hread, rfl⟩ := decPacket_gives checkedBit_gives c i hw hi hc hs rest _ rfl
  exact hread

/-- Settles O4: a reading that holds has met fewer than 48 bits (`decPacket_reads`), and what begins with the codes of two packets
decodes to both. -/
theorem packetCodeComplete : Obligations.PacketCodeComplete :=
  ⟨fun _ h => decodePacket_complete h, fun _ _ _ _ hi hj hpi hpj h => packetBits_prefixFree hi hj hpi hpj h⟩

/-- Settles O5: the lengths are those of the fields (`lenDecisions_length`, `distDecisions_length`), and a MATCH of 48 decisions
has a slot of 62 or 63, whose direct bits are the 30 footer bits but the align tree's four. -/
theorem packetDecisionCounts : Obligations.PacketDecisionCounts := by
  intro c
  have heos : distSlot eosDistance.toNat = 63 := by decide
  refine ⟨fun b => by simp [packetDecisions], rfl, by simp [packetDecisions, heos], fun len _ _ => ?_⟩
  dsimp only
  refine ⟨?rep0, ?rep1, ?rep2, ?rep3, fun d => ?_⟩
  case rep0 | rep1 | rep2 | rep3 =>
    simp only [packetDecisions, List.length_cons, lenDecisions_length]
    omega
  obtain ⟨hle, hiff⟩ := matchDist_length_le c len d
  refine ⟨matchDist_length c len d, hle, hiff, fun h => ?_⟩
  obtain ⟨-, hslot⟩ := hiff.1 h
  show ((packetDecisions c (.matchDist len d)).filter Decision.isDirect).length = 26
  rw [matchDist_direct, distDecisions_direct_length len (by omega), slotBits]
  omega

/-- Settles O6: the port takes a reserved encoding with its operands and answers `bad_argument` (`commandStep_reserved`), and a
command to no channel does the same (`exec_of_no_channel`). -/
theorem reservedCommandsAreRejected : Obligations.ReservedCommandsAreRejected := by
  intro s
  have hreject : ∀ {why ws bs}, s.running = none →
      decode (.command s.portWords s.portData) = .reserved why (.command ws bs) →
      step s = .next (State.respond { s with portWords := ws, portData := bs } .badArgument [] []) :=
    fun hr hdecode => (step_eq_commandStep hr).trans (commandStep_reserved hdecode)
  refine ⟨fun w ws hr hport hop => ?_, fun w ws i ws' bs' hr hport hinstr hmask => ?_,
    fun w ws hr hport h1 h6 hchan => ?_, fun i c hi hacts hc => exec_of_no_channel hi hacts hc⟩
  · refine hreject hr (why := .opcode) ?_
    rw [hport, decode, decodeCommand, decodeOpcode_unlisted hop]
    rfl
  · replace hinstr := decodeOpcode_of_checkFields (show checkFields _ _ = _ from hinstr)
    rw [opcodeField_and_mask, chanField_and_mask] at hinstr
    obtain ⟨why, hdecode⟩ := decode_of_badField hinstr (.inl (reservedField_ne_zero hmask))
    exact hreject hr (hport ▸ hdecode)
  · obtain ⟨i, hinstr⟩ := decodeOpcode_query h1 h6 (chanField w) ws s.portData
    obtain ⟨why, hdecode⟩ := decode_of_badField hinstr (.inr ⟨h6, hchan⟩)
    exact hreject hr (hport ▸ hdecode)
end

section
/-! PROOFS. Family 40, range coder: what a decision bit does on both sides (R178, R181, R194, R197), the accounting of bytes
(R183), the load (R190), and that the decoder reads back what the encoder coded (R199 to R201). -/

namespace Sys2Proof.Machine

/-! ## A decision bit splits the range in two

Both sides of the coder split the range in the same way, and normalise what is left of it in the same way: `encDecision_eq` and
`rangeBit_eq` say so. -/

/-- Where a decision's two parts of the range meet (R178, R181). -/
def splitBound (models : Models) (range : Word) : Option ModelRef → Word
  | some r => rangeBound range (models.get r)
  | none => range >>> 1

/-- The range left after a decision bit, before it is normalised. -/
def splitRange (models : Models) (range : Word) (m : Option ModelRef) (bit : Bool) : Word :=
  match m with
  | some r => if bit then range - rangeBound range (models.get r) else rangeBound range (models.get r)
  | none => range >>> 1

/-- The models after a decision bit (R222). -/
def splitModels (models : Models) (m : Option ModelRef) (bit : Bool) : Models :=
  match m with
  | some r => models.set r (bitUpdate (models.get r) bit)
  | none => models

/-- How far a bit moves the low end of the interval. -/
def splitStart (models : Models) (range : Word) (m : Option ModelRef) (bit : Bool) : Word :=
  if bit then splitBound models range m else 0#32

/-- The range that an encoder keeps for a decision. -/
def Encoder.kept (e : Encoder) (d : Decision) : Word := splitRange e.models e.re.range d.model d.bit

/-- Where that range begins in the encoder's own. -/
def Encoder.keptStart (e : Encoder) (d : Decision) : Word := splitStart e.models e.re.range d.model d.bit

/-- An encoder that has taken a bit but has not yet normalised. -/
def Encoder.narrowed (e : Encoder) (d : Decision) : Encoder :=
  { e with
    re := { e.re with low := e.re.low + (e.keptStart d).setWidth 33, range := e.kept d }
    models := splitModels e.models d.model d.bit }

/-- The bit a decoder finds (R194, R197). -/
def Decoder.nextBit (d : Decoder) (m : Option ModelRef) : Bool :=
  decide ((splitBound d.models d.rd.range m).toNat ≤ d.rd.code.toNat)

/-- A decoder that has found a bit but has not yet normalised. -/
def Decoder.narrowed (d : Decoder) (m : Option ModelRef) (bit : Bool) : Decoder :=
  { d with
    rd :=
      { code := d.rd.code - splitStart d.models d.rd.range m bit
        range := splitRange d.models d.rd.range m bit }
    models := splitModels d.models m bit }

theorem Encoder.encDecision_eq (e : Encoder) (d : Decision) : e.encDecision d = (e.narrowed d).normalize := by
  obtain ⟨bit, m⟩ := d
  cases m <;> cases bit <;>
    simp [Encoder.encDecision, Encoder.encBit, Encoder.encDirectBit, Encoder.narrowed, Encoder.kept, Encoder.keptStart,
      splitStart, splitRange, splitModels, splitBound]

theorem rangeBit_eq (d : Decoder) (m : Option ModelRef) :
    rangeBit d m = (d.narrowed m (d.nextBit m)).normalize.bind fun _ d' => .ok (d.nextBit m) d' := by
  cases m with
  | none =>
    show (Decoder.normalize { d with
      rd := { code := if d.nextBit none then d.rd.code - d.rd.range >>> 1 else d.rd.code, range := d.rd.range >>> 1 } }).bind
        (fun _ d' => .ok (d.nextBit none) d') = _
    cases d.nextBit none <;> simp [Decoder.narrowed, splitStart, splitRange, splitModels, splitBound]
  | some r =>
    show (Decoder.normalize { d with
      rd := if d.nextBit (some r) then _ else _
      models := d.models.set r (bitUpdate (d.models.get r) (d.nextBit (some r))) }).bind
        (fun _ d' => .ok (d.nextBit (some r)) d') = _
    cases d.nextBit (some r) <;> simp [Decoder.narrowed, splitStart, splitRange, splitModels, splitBound]

@[simp] theorem Encoder.narrowed_models (e : Encoder) (d : Decision) :
    (e.narrowed d).models = splitModels e.models d.model d.bit := rfl
@[simp] theorem Encoder.narrowed_range (e : Encoder) (d : Decision) : (e.narrowed d).re.range = e.kept d := rfl
@[simp] theorem Encoder.narrowed_shifts (e : Encoder) (d : Decision) : (e.narrowed d).re.shifts = e.re.shifts := rfl
@[simp] theorem Encoder.narrowed_cache (e : Encoder) (d : Decision) : (e.narrowed d).re.cache = e.re.cache := rfl

theorem splitBound_direct_toNat (models : Models) (range : Word) :
    (splitBound models range none).toNat = range.toNat / 2 := by
  simp [splitBound, Nat.shiftRight_eq_div_pow]

theorem rangeBound_le (range : Word) (p : Prob) : (rangeBound range p).toNat ≤ range.toNat := by
  rw [rangeBound_toNat]
  calc range.toNat / 2048 * p.toNat ≤ range.toNat / 2048 * 2048 := Nat.mul_le_mul_left _ p.isLt.le
    _ ≤ range.toNat := Nat.div_mul_le_self _ _

theorem splitRange_model_toNat (models : Models) (range : Word) (r : ModelRef) (bit : Bool) :
    (splitRange models range (some r) bit).toNat =
      if bit then range.toNat - (rangeBound range (models.get r)).toNat else (rangeBound range (models.get r)).toNat := by
  cases bit with
  | false => rfl
  | true => exact BitVec.toNat_sub_of_le (rangeBound_le range _)

/-- Each part of the range is at least `2^17`, the parts do not overlap, and the lower part ends at the bound (R178, R181,
R185). -/
theorem splitRange_bounds {models : Models} {range : Word} (hm : models.sound) (hr : 2 ^ 24 ≤ range.toNat)
    (m : Option ModelRef) (bit : Bool) :
    2 ^ 17 ≤ (splitRange models range m bit).toNat ∧
      (splitStart models range m bit).toNat + (splitRange models range m bit).toNat ≤ range.toNat ∧
      (bit = false → (splitRange models range m bit).toNat = (splitBound models range m).toNat) := by
  cases m with
  | none =>
    have hhalf := splitBound_direct_toNat models range
    show 2 ^ 17 ≤ (splitBound models range none).toNat ∧
      (splitStart models range none bit).toNat + (splitBound models range none).toNat ≤ range.toNat ∧ (_ → _)
    cases bit with
    | false => exact ⟨by omega, by simp [splitStart]; omega, fun _ => rfl⟩
    | true => exact ⟨by omega, by simp only [splitStart, if_true]; omega, nofun⟩
  | some r =>
    obtain ⟨h1, h2⟩ := rangeBound_bounds hr (Models.get_inRange hm r)
    rw [splitRange_model_toNat]
    cases bit with
    | false => exact ⟨by simp; omega, by simp [splitStart]; omega, fun _ => rfl⟩
    | true => exact ⟨by simp; omega, by simp [splitStart, splitBound]; omega, nofun⟩

theorem Encoder.kept_bounds {e : Encoder} (h : e.codingSound) (d : Decision) :
    2 ^ 17 ≤ (e.kept d).toNat ∧ (e.keptStart d).toNat + (e.kept d).toNat ≤ e.re.range.toNat ∧
      (d.bit = false → (e.kept d).toNat = (splitBound e.models e.re.range d.model).toNat) := by
  obtain ⟨hm, hr, -⟩ := h
  exact splitRange_bounds hm hr d.model d.bit

theorem splitModels_sound {models : Models} (hm : models.sound) (m : Option ModelRef) (bit : Bool) :
    (splitModels models m bit).sound := by
  cases m with
  | none => exact hm
  | some r => exact Models.set_sound r hm (bitUpdate_inRange (Models.get_inRange hm r) bit)

/-! ## Normalising (R177, R192) -/

/-- How many shifts normalising a range takes (R185). -/
def shiftsFor (range : Word) : Nat := if range.toNat < top then 1 else 0

theorem shiftsFor_le (range : Word) : shiftsFor range ≤ 1 := by unfold shiftsFor; split <;> omega

@[simp] theorem Encoder.normalize_models (e : Encoder) : e.normalize.models = e.models := by
  unfold Encoder.normalize
  split <;> rfl

theorem Encoder.encDecision_models (e : Encoder) (d : Decision) :
    (e.encDecision d).models = splitModels e.models d.model d.bit := by
  rw [Encoder.encDecision_eq, Encoder.normalize_models, Encoder.narrowed_models]

theorem Encoder.encBit_eq (e : Encoder) (r : ModelRef) (b : Bool) : e.encBit r b = e.encDecision ⟨b, some r⟩ := rfl
theorem Encoder.encDirectBit_eq (e : Encoder) (b : Bool) : e.encDirectBit b = e.encDecision ⟨b, none⟩ := rfl

theorem Encoder.normalize_of_small {e : Encoder} (h : e.re.range.toNat < 2 ^ 24) :
    e.normalize = Encoder.shiftLow { e with re := { e.re with range := e.re.range <<< 8 } } := if_pos h

theorem Encoder.normalize_of_large {e : Encoder} (h : ¬ e.re.range.toNat < 2 ^ 24) : e.normalize = e := if_neg h

theorem shiftsFor_small {range : Word} (h : range.toNat < 2 ^ 24) : shiftsFor range = 1 := if_pos h
theorem shiftsFor_large {range : Word} (h : ¬ range.toNat < 2 ^ 24) : shiftsFor range = 0 := if_neg h

/-- One shift, or none, brings the range back to `2^24` (R177). -/
theorem Encoder.normalize_range (e : Encoder) :
    e.normalize.re.range.toNat = if e.re.range.toNat < 2 ^ 24 then e.re.range.toNat * 2 ^ 8 else e.re.range.toNat := by
  split
  next h =>
    rw [Encoder.normalize_of_small h]
    exact Word.shiftLeft8_toNat h
  next h => rw [Encoder.normalize_of_large h]

theorem Encoder.normalize_shifts (e : Encoder) :
    e.normalize.re.shifts = if e.re.range.toNat < 2 ^ 24 then e.re.shifts + 1#64 else e.re.shifts := by
  split
  next h =>
    rw [Encoder.normalize_of_small h]
    rfl
  next h => rw [Encoder.normalize_of_large h]

theorem Decoder.check_models (d : Decoder) : d.check.Sat (fun _ => True) (·.models = d.models) (·.models = d.models) := by
  unfold Decoder.check
  split
  · exact ⟨trivial, rfl⟩
  · rfl

theorem Decoder.rdByte_models (d : Decoder) :
    d.rdByte.Sat (fun _ => True) (·.models = d.models) (·.models = d.models) := by
  unfold Decoder.rdByte
  split
  · split
    · rfl
    · trivial
  · split
    · exact ⟨trivial, rfl⟩
    · rfl

theorem Decoder.normalize_models (d : Decoder) :
    d.normalize.Sat (fun _ => True) (·.models = d.models) (·.models = d.models) := by
  unfold Decoder.normalize
  split
  · exact (Decoder.rdByte_models _).bind fun b d' _ hd => by
      rw [← show d'.models = d.models from hd]
      exact Decoder.check_models _
  · exact d.check_models

/-- The bit read is the one the code names, and the models follow it (R194, R197, R222). -/
theorem rangeBit_ok {d d' : Decoder} {m : Option ModelRef} {b : Bool} (h : rangeBit d m = .ok b d') :
    b = d.nextBit m ∧ (d.narrowed m b).normalize = .ok () d' := by
  rw [rangeBit_eq] at h
  cases hn : (d.narrowed m (d.nextBit m)).normalize <;> rw [hn] at h <;> cases h
  exact ⟨rfl, hn⟩

theorem rangeBit_models {d d' : Decoder} {m : Option ModelRef} {b : Bool} (h : rangeBit d m = .ok b d') :
    d'.models = splitModels d.models m b :=
  ((Decoder.normalize_models _).of_ok (rangeBit_ok h).2).2

/-! ## Every shift is a byte emitted or pending (R183) -/

/-- With `n` bytes in the output before the member's payload: the payload's bytes and the pending ones are the shifts. -/
def Encoder.accounts (e : Encoder) (n : Nat) : Prop :=
  n ≤ e.out.length ∧ e.out.length + e.re.ffCount.toNat = n + e.re.shifts.toNat

section

variable {e : Encoder} {n : Nat}

theorem RangeEnc.shift_shifts {r : RangeEnc} (h : r.shifts.toNat + 1 < 2 ^ 64) : r.shift.shifts.toNat = r.shifts.toNat + 1 :=
  BitVec.toNat_add_of_lt h

/-- A shift that defers its byte (R176). -/
theorem Encoder.shiftLow_defers (hd : e.re.defers = true) :
    e.shiftLow.out = e.out ∧ e.shiftLow.re.cache = e.re.cache ∧ e.shiftLow.re.ffCount = e.re.ffCount + 1#64 := by
  simp [Encoder.shiftLow, RangeEnc.shiftBytes, RangeEnc.shift, hd]

/-- A shift that emits the cache byte and the pending bytes (R176). -/
theorem Encoder.shiftLow_emits (hd : e.re.defers = false) :
    e.shiftLow.out = e.out ++ (e.re.cache + BitVec.ofNat 8 e.re.carry.toNat) ::
        List.replicate e.re.ffCount.toNat (0xFF#8 + BitVec.ofNat 8 e.re.carry.toNat) ∧
      e.shiftLow.re.cache = BitVec.ofNat 8 (e.re.low.toNat / 2 ^ 24) ∧ e.shiftLow.re.ffCount = 0#64 := by
  simp [Encoder.shiftLow, RangeEnc.shiftBytes, RangeEnc.shift, hd]

theorem Encoder.shiftLow_accounts (h : e.accounts n) (hs : e.re.shifts.toNat + 1 < 2 ^ 64) : e.shiftLow.accounts n := by
  obtain ⟨hn, hc⟩ := h
  have hshifts : e.shiftLow.re.shifts.toNat = e.re.shifts.toNat + 1 := RangeEnc.shift_shifts hs
  unfold Encoder.accounts
  cases hd : e.re.defers with
  | true =>
    obtain ⟨hout, -, hff⟩ := Encoder.shiftLow_defers hd
    rw [hout, hff, hshifts, BitVec.toNat_add_of_lt (by simp; omega), BitVec.toNat_ofNat]
    omega
  | false =>
    obtain ⟨hout, -, hff⟩ := Encoder.shiftLow_emits hd
    rw [hout, hff, hshifts, List.length_append, List.length_cons, List.length_replicate, BitVec.toNat_ofNat]
    omega

theorem Encoder.normalize_accounts (h : e.accounts n) (hs : e.re.shifts.toNat + 1 < 2 ^ 64) : e.normalize.accounts n := by
  by_cases hr : e.re.range.toNat < 2 ^ 24
  · rw [Encoder.normalize_of_small hr]
    exact Encoder.shiftLow_accounts h hs
  · rwa [Encoder.normalize_of_large hr]

theorem Encoder.encDecision_accounts (h : e.accounts n) (hs : e.re.shifts.toNat + 1 < 2 ^ 64) (d : Decision) :
    (e.encDecision d).accounts n := by
  rw [Encoder.encDecision_eq]
  exact Encoder.normalize_accounts (e := e.narrowed d) h hs

/-- A decision shifts as often as the range it keeps needs, while the count of shifts does not wrap. -/
theorem Encoder.encDecision_shifts (hs : e.re.shifts.toNat + 1 < 2 ^ 64) (d : Decision) :
    (e.encDecision d).re.shifts.toNat = e.re.shifts.toNat + shiftsFor (e.kept d) := by
  rw [Encoder.encDecision_eq, Encoder.normalize_shifts, Encoder.narrowed_range, Encoder.narrowed_shifts]
  split
  next hr =>
    rw [shiftsFor_small hr, ← RangeEnc.shift_shifts hs]
    rfl
  next hr => rw [shiftsFor_large hr, Nat.add_zero]

theorem Encoder.encDecisions_accounts {ds : List Decision} (h : e.accounts n) (hs : e.re.shifts.toNat + ds.length < 2 ^ 64) :
    (e.encDecisions ds).accounts n ∧ (e.encDecisions ds).re.shifts.toNat ≤ e.re.shifts.toNat + ds.length := by
  induction ds generalizing e with
  | nil => exact ⟨h, le_rfl⟩
  | cons d ds ih =>
    rw [List.length_cons] at hs
    have hone : e.re.shifts.toNat + 1 < 2 ^ 64 := by omega
    have hd := Encoder.encDecision_shifts hone d
    have hle := shiftsFor_le (e.kept d)
    obtain ⟨hacc, hsh⟩ := ih (Encoder.encDecision_accounts h hone d) (by omega)
    exact ⟨hacc, hsh.trans (by rw [List.length_cons]; omega)⟩

theorem Encoder.shiftLow_iterate_accounts (k : Nat) (h : e.accounts n) (hs : e.re.shifts.toNat + k < 2 ^ 64) :
    (Encoder.shiftLow^[k] e).accounts n ∧ (Encoder.shiftLow^[k] e).re.shifts.toNat = e.re.shifts.toNat + k := by
  induction k with
  | zero => exact ⟨h, rfl⟩
  | succ k ih =>
    obtain ⟨hacc, hsh⟩ := ih (by omega)
    rw [Function.iterate_succ_apply']
    exact ⟨Encoder.shiftLow_accounts hacc (by omega), (RangeEnc.shift_shifts (by omega)).trans (by omega)⟩

end

/-! ## The flush (R182, R184) -/

theorem Encoder.flush_eq_iterate (e : Encoder) : e.flush = Encoder.shiftLow^[5] e := rfl

theorem Encoder.shiftLow_low (e : Encoder) : e.shiftLow.re.low.toNat = e.re.low.toNat % 2 ^ 24 * 2 ^ 8 :=
  RangeEnc.shift_low e.re

/-- Four shifts move every bit of `RE.low` out of its lower 32. -/
theorem Encoder.shiftLow_four_low (e : Encoder) : e.shiftLow.shiftLow.shiftLow.shiftLow.re.low.toNat = 0 := by
  simp only [Encoder.shiftLow_low]
  omega

theorem RangeEnc.shift_of_low_zero {r : RangeEnc} (h : r.low.toNat = 0) :
    r.shift.low = 0#33 ∧ r.shift.cache = 0#8 ∧ r.shift.ffCount = 0#64 := by
  simp [RangeEnc.shift, RangeEnc.defers, h]

theorem Encoder.flush_clears (e : Encoder) : e.flush.re.low = 0#33 ∧ e.flush.re.cache = 0#8 ∧ e.flush.re.ffCount = 0#64 :=
  RangeEnc.shift_of_low_zero e.shiftLow_four_low

theorem Encoder.accounts_of_init {e : Encoder} (h : e.re = RangeEnc.init) : e.accounts e.out.length :=
  ⟨le_rfl, by rw [h]; rfl⟩

/-- The decisions of a member and its flush, from a fresh range coder (R183). -/
theorem Encoder.payload_accounts {e : Encoder} {ds : List Decision} (h : e.re = RangeEnc.init) (hds : ds.length + 5 < 2 ^ 64) :
    (e.encDecisions ds).accounts e.out.length ∧ (e.encDecisions ds).re.shifts.toNat ≤ ds.length ∧
      (e.encDecisions ds).flush.accounts e.out.length ∧
      (e.encDecisions ds).flush.re.shifts.toNat = (e.encDecisions ds).re.shifts.toNat + 5 := by
  have hinit : e.re.shifts.toNat = 0 := by rw [h]; rfl
  obtain ⟨hacc, hsh⟩ := Encoder.encDecisions_accounts (ds := ds) (Encoder.accounts_of_init h) (by omega)
  exact ⟨hacc, by omega, Encoder.shiftLow_iterate_accounts 5 hacc (by omega)⟩

/-! ## Taking bytes of input (R191) -/

/-- `n` bytes are popped and both input counters count them. -/
def Decoder.popped (d : Decoder) (n : Nat) : Decoder :=
  { d with
    inp := d.inp.drop n
    memberPosition := d.memberPosition + BitVec.ofNat 64 n
    totalIn := d.totalIn + BitVec.ofNat 64 n }

theorem Decoder.inputCountersHold_iff (d : Decoder) (n : Nat) :
    d.inputCountersHold n = true ↔ d.memberPosition.toNat + n < 2 ^ 64 ∧ d.totalIn.toNat + n < 2 ^ 64 := by
  simp [Decoder.inputCountersHold]

theorem Decoder.inputCountersHold_mono {d : Decoder} {m n : Nat} (h : d.inputCountersHold n = true) (hmn : m ≤ n) :
    d.inputCountersHold m = true := by
  rw [Decoder.inputCountersHold_iff] at h ⊢
  omega

@[simp] theorem Decoder.popped_inp (d : Decoder) (n : Nat) : (d.popped n).inp = d.inp.drop n := rfl
@[simp] theorem Decoder.popped_rd (d : Decoder) (n : Nat) : (d.popped n).rd = d.rd := rfl
@[simp] theorem Decoder.popped_finishing (d : Decoder) (n : Nat) : (d.popped n).finishing = d.finishing := rfl

@[simp] theorem Decoder.popped_zero (d : Decoder) : d.popped 0 = d := by
  simp [Decoder.popped]

theorem Decoder.popped_popped (d : Decoder) (m n : Nat) : (d.popped m).popped n = d.popped (m + n) := by
  simp only [Decoder.popped, List.drop_drop, BitVec.ofNat_add, BitVec.add_assoc]

/-- What is left of the counters after `m` bytes. -/
theorem Decoder.inputCountersHold_popped {d : Decoder} {m n : Nat} (h : d.inputCountersHold (m + n) = true) :
    (d.popped m).inputCountersHold n = true := by
  rw [Decoder.inputCountersHold_iff] at h ⊢
  simp only [Decoder.popped, BitVec.toNat_add, BitVec.toNat_ofNat]
  omega

section

variable {d : Decoder}

theorem Decoder.rdByte_hold_of_nil (hi : d.inp = []) (hf : d.finishing = false) : d.rdByte = .hold := by
  unfold Decoder.rdByte
  rw [hi]
  exact if_neg (by simp [hf])

theorem Decoder.rdByte_eof (hi : d.inp = []) (hf : d.finishing = true) : d.rdByte = .raise .unexpectedEof d := by
  unfold Decoder.rdByte
  rw [hi]
  exact if_pos hf

theorem Decoder.rdByte_cons {b : Byte} {rest : List Byte} (hi : d.inp = b :: rest) (hc : d.inputCountersHold 1 = true) :
    d.rdByte = .ok b (d.popped 1) := by
  unfold Decoder.rdByte
  rw [Decoder.popped, hi]
  exact if_pos hc

theorem Decoder.rdByte_full (hi : d.inp ≠ []) (hc : d.inputCountersHold 1 = false) : d.rdByte = .raise .libraryError d := by
  obtain ⟨b, rest, hi⟩ := List.exists_cons_of_ne_nil hi
  unfold Decoder.rdByte
  rw [hi]
  exact if_neg (by simp [hc])

/-- Every way the decoder can read a byte. -/
theorem Decoder.rdByte_cases :
    (d.inp = [] ∧ d.finishing = false ∧ d.rdByte = .hold) ∨
      (d.inp = [] ∧ d.finishing = true ∧ d.rdByte = .raise .unexpectedEof d) ∨
      (∃ b rest, d.inp = b :: rest ∧ d.rdByte = .ok b (d.popped 1)) ∨
      (d.inp ≠ [] ∧ d.inputCountersHold 1 = false ∧ d.rdByte = .raise .libraryError d) := by
  rcases hi : d.inp with _ | ⟨b, rest⟩
  · cases hf : d.finishing with
    | false => exact .inl ⟨rfl, rfl, Decoder.rdByte_hold_of_nil hi hf⟩
    | true => exact .inr (.inl ⟨rfl, rfl, Decoder.rdByte_eof hi hf⟩)
  · cases hc : d.inputCountersHold 1 with
    | true => exact .inr (.inr (.inl ⟨b, rest, rfl, Decoder.rdByte_cons hi hc⟩))
    | false => exact .inr (.inr (.inr ⟨nofun, rfl, Decoder.rdByte_full (by simp [hi]) hc⟩))

end

/-! ## How a decision bit ends (R191, R193, R198) -/

/-- No byte of input has been taken. -/
def Decoder.tookNone (d d' : Decoder) : Prop :=
  d'.inp = d.inp ∧ d'.memberPosition = d.memberPosition ∧ d'.totalIn = d.totalIn

/-- One byte of input has been taken and counted. -/
def Decoder.tookOne (d d' : Decoder) : Prop :=
  ∃ x, d.inp = x :: d'.inp ∧ d'.memberPosition = d.memberPosition + 1#64 ∧ d'.totalIn = d.totalIn + 1#64

/-- The ends of a decision bit of a decoder `d`: a code below the range after at most one byte; a hold; or an error. -/
def Decoder.bitEnds (d : Decoder) {α : Type} : Src Decoder α → Prop
  | .ok _ d' => d'.rd.code.toNat < d'.rd.range.toNat ∧ (d.tookNone d' ∨ d.tookOne d')
  | .hold => d.inp = [] ∧ d.finishing = false
  | .raise err d' =>
      (err = .unexpectedEof ∧ d.tookNone d' ∧ d.inp = [] ∧ d.finishing = true) ∨
      (err = .dataError ∧ (d.tookNone d' ∨ d.tookOne d') ∧ d'.rd.range.toNat ≤ d'.rd.code.toNat) ∨
      (err = .libraryError ∧ d.tookNone d' ∧ d.inp ≠ [] ∧
        (d.memberPosition.toNat = 2 ^ 64 - 1 ∨ d.totalIn.toNat = 2 ^ 64 - 1))

section

variable {d d' : Decoder}

/-- DEC_CHECK, once at most one byte has been taken. -/
theorem Decoder.check_bitEnds (h : d.tookNone d' ∨ d.tookOne d') : d.bitEnds d'.check := by
  unfold Decoder.check
  split
  · exact ⟨‹_›, h⟩
  · exact .inr (.inl ⟨rfl, h, by omega⟩)

theorem Decoder.counters_full (h : d.inputCountersHold 1 = false) :
    d.memberPosition.toNat = 2 ^ 64 - 1 ∨ d.totalIn.toNat = 2 ^ 64 - 1 := by
  have hm := d.memberPosition.isLt
  have ht := d.totalIn.isLt
  have hn := mt (Decoder.inputCountersHold_iff d 1).2 (by simp [h])
  omega

theorem Decoder.normalize_bitEnds : d.bitEnds d.normalize := by
  unfold Decoder.normalize
  split
  · rcases Decoder.rdByte_cases (d := { d with rd := { d.rd with range := d.rd.range <<< 8 } }) with
      ⟨hi, hf, hr⟩ | ⟨hi, hf, hr⟩ | ⟨b, rest, hi, hr⟩ | ⟨hi, hc, hr⟩ <;> rw [hr]
    · exact ⟨hi, hf⟩
    · exact .inl ⟨rfl, ⟨rfl, rfl, rfl⟩, hi, hf⟩
    · refine Decoder.check_bitEnds (.inr ⟨b, ?_, rfl, rfl⟩)
      show d.inp = b :: d.inp.drop 1
      rw [show d.inp = b :: rest from hi, List.drop_one, List.tail_cons]
    · exact .inr (.inr ⟨rfl, ⟨rfl, rfl, rfl⟩, hi, Decoder.counters_full hc⟩)
  · exact Decoder.check_bitEnds (.inl ⟨rfl, rfl, rfl⟩)

theorem rangeBit_bitEnds (d : Decoder) (m : Option ModelRef) : d.bitEnds (rangeBit d m) := by
  have hends := Decoder.normalize_bitEnds (d := d.narrowed m (d.nextBit m))
  rw [rangeBit_eq]
  cases hn : (d.narrowed m (d.nextBit m)).normalize <;> rw [hn] at hends <;> exact hends

/-- A bit leaves a range of at least `2^24`, wherever the code stood (R198). -/
theorem rangeBit_range {m : Option ModelRef} {b : Bool} (hm : d.models.sound) (hr : 2 ^ 24 ≤ d.rd.range.toNat)
    (h : rangeBit d m = .ok b d') : 2 ^ 24 ≤ d'.rd.range.toNat := by
  obtain ⟨hlow, -, -⟩ := splitRange_bounds hm hr m b
  have hdec : (d.narrowed m b).normalize.Sat _ Decoder.decoding _ :=
    Decoder.normalize_decoding (splitModels_sound hm m b) (by exact le_trans (by decide) hlow)
  obtain ⟨-, -, hrange, -⟩ := hdec.of_ok (rangeBit_ok h).2
  exact hrange

end

/-! ## Values of bytes, most significant first (R108) -/

/-- The value of bytes, most significant first. -/
def beValue : List Byte → Nat
  | [] => 0
  | b :: rest => b.toNat * 2 ^ (8 * rest.length) + beValue rest

theorem beValue_append (xs ys : List Byte) : beValue (xs ++ ys) = beValue xs * 2 ^ (8 * ys.length) + beValue ys := by
  induction xs with
  | nil => simp [beValue]
  | cons x xs ih =>
    simp only [List.cons_append, beValue, ih, List.length_append, Nat.mul_add, pow_add]
    ring

theorem beValue_lt (bytes : List Byte) : beValue bytes < 2 ^ (8 * bytes.length) := by
  induction bytes with
  | nil => simp [beValue]
  | cons b bytes ih =>
    have hb : b.toNat + 1 ≤ 2 ^ 8 := b.isLt
    calc beValue (b :: bytes) < (b.toNat + 1) * 2 ^ (8 * bytes.length) := by rw [beValue, add_mul]; omega
      _ ≤ 2 ^ 8 * 2 ^ (8 * bytes.length) := Nat.mul_le_mul_right _ hb
      _ = 2 ^ (8 * (bytes.length + 1)) := by rw [← pow_add, Nat.mul_succ, Nat.add_comm]

/-- `RD.code` with a byte shifted in (R190, R192). -/
def codeWith (code : Word) (b : Byte) : Word := (code <<< 8) ||| b.setWidth 32

theorem codeWith_toNat {code : Word} (h : code.toNat < 2 ^ 24) (b : Byte) :
    (codeWith code b).toNat = code.toNat * 2 ^ 8 + b.toNat := by
  rw [codeWith, BitVec.toNat_or, BitVec.toNat_setWidth_of_le (by decide), Word.shiftLeft8_toNat h, ← Nat.shiftLeft_eq,
    Nat.shiftLeft_add_eq_or_of_lt b.isLt]

theorem toNat_append_byte {n : Nat} (x : BitVec n) (b : Byte) : (x ++ b).toNat = x.toNat * 2 ^ 8 + b.toNat := by
  rw [BitVec.toNat_append, ← Nat.shiftLeft_eq, Nat.shiftLeft_add_eq_or_of_lt b.isLt]

/-! ## The load (R190) -/

/-- The decoder with other range-coder registers. -/
def Decoder.withRd (d : Decoder) (rd : RangeDec) : Decoder := { d with rd := rd }

@[simp] theorem Decoder.withRd_inp (d : Decoder) (rd : RangeDec) : (d.withRd rd).inp = d.inp := rfl
@[simp] theorem Decoder.withRd_finishing (d : Decoder) (rd : RangeDec) : (d.withRd rd).finishing = d.finishing := rfl
@[simp] theorem Decoder.withRd_rd (d : Decoder) (rd : RangeDec) : (d.withRd rd).rd = rd := rfl
@[simp] theorem Decoder.withRd_withRd (d : Decoder) (rd rd' : RangeDec) : (d.withRd rd).withRd rd' = d.withRd rd' := rfl
@[simp] theorem Decoder.popped_withRd (d : Decoder) (rd : RangeDec) (n : Nat) :
    (d.withRd rd).popped n = (d.popped n).withRd rd := rfl
@[simp] theorem Decoder.inputCountersHold_withRd (d : Decoder) (rd : RangeDec) (n : Nat) :
    (d.withRd rd).inputCountersHold n = d.inputCountersHold n := rfl

/-- The load of four bytes. -/
theorem codeWith_four (b1 b2 b3 b4 : Byte) :
    [b1, b2, b3, b4].foldl codeWith 0#32 = (b1 ++ b2 ++ b3 ++ b4 : Word) := by
  have h1 := b1.isLt
  have h2 := b2.isLt
  have h3 := b3.isLt
  have hone : (codeWith 0#32 b1).toNat = b1.toNat := (codeWith_toNat (by decide) b1).trans (by simp)
  have htwo := codeWith_toNat (code := codeWith 0#32 b1) (by omega) b2
  have hthree := codeWith_toNat (code := codeWith (codeWith 0#32 b1) b2) (by omega) b3
  apply BitVec.eq_of_toNat_eq
  refine (codeWith_toNat (code := codeWith (codeWith (codeWith 0#32 b1) b2) b3) (by omega) b4).trans ?_
  rw [toNat_append_byte, toNat_append_byte, toNat_append_byte, hthree, htwo, hone]

/-- A decoder that has shifted the next `n` bytes into `RD.code`, most significant first. -/
def Decoder.shiftedIn (d : Decoder) (n : Nat) : Decoder :=
  (d.popped n).withRd { d.rd with code := (d.inp.take n).foldl codeWith d.rd.code }

/-- The repetition in RC_DEC_LOAD. -/
def Decoder.loadBytes : Nat → Decoder → Src Decoder Unit
  | 0, d => .ok () d
  | n + 1, d => d.loadByte.bind fun _ d => Decoder.loadBytes n d

theorem Src.bind_assoc {σ α β γ : Type} (x : Src σ α) (f : α → σ → Src σ β) (g : β → σ → Src σ γ) :
    (x.bind f).bind g = x.bind fun a st => (f a st).bind g := by
  cases x <;> rfl

theorem Decoder.rcLoad_eq (d : Decoder) :
    d.rcLoad = (d.withRd .init).rdByte.bind fun b d =>
      if b ≠ 0x00#8 then .raise .headerError d else (Decoder.loadBytes 4 d).bind fun _ d => d.check := by
  simp only [Decoder.rcLoad, Decoder.loadBytes, Src.bind_assoc]
  rfl

@[simp] theorem Decoder.shiftedIn_inp (d : Decoder) (n : Nat) : (d.shiftedIn n).inp = d.inp.drop n := rfl

section

variable {d : Decoder} {b : Byte} {rest : List Byte} {n : Nat}

theorem Decoder.shiftedIn_zero : d.shiftedIn 0 = d := by
  rw [Decoder.shiftedIn, Decoder.popped_zero]
  rfl

theorem Decoder.shiftedIn_succ (hi : d.inp = b :: rest) (n : Nat) : (d.shiftedIn 1).shiftedIn n = d.shiftedIn (n + 1) := by
  simp [Decoder.shiftedIn, Decoder.popped_popped, Nat.add_comm 1 n, hi]

theorem Decoder.loadByte_cons (hi : d.inp = b :: rest) (hc : d.inputCountersHold 1 = true) :
    d.loadByte = .ok () (d.shiftedIn 1) := by
  rw [Decoder.loadByte, Decoder.rdByte_cons hi hc, Decoder.shiftedIn, hi]
  rfl

theorem Decoder.inputCountersHold_shiftedIn (hc : d.inputCountersHold (n + 1) = true) :
    (d.shiftedIn 1).inputCountersHold n = true :=
  Decoder.inputCountersHold_popped (m := 1) (by rwa [Nat.add_comm])

/-- The first of several bytes. -/
theorem Decoder.loadBytes_succ (hi : d.inp = b :: rest) (hc : d.inputCountersHold 1 = true) :
    Decoder.loadBytes (n + 1) d = Decoder.loadBytes n (d.shiftedIn 1) := by
  rw [Decoder.loadBytes, Decoder.loadByte_cons hi hc]
  rfl

/-- With `n` bytes of input and room in the counters, all are taken. -/
theorem Decoder.loadBytes_ok (hlen : n ≤ d.inp.length) (hc : d.inputCountersHold n = true) :
    Decoder.loadBytes n d = .ok () (d.shiftedIn n) := by
  induction n generalizing d with
  | zero => rw [Decoder.loadBytes, Decoder.shiftedIn_zero]
  | succ n ih =>
    obtain ⟨b, rest, hi⟩ := List.exists_cons_of_length_pos (l := d.inp) (by omega)
    rw [Decoder.loadBytes_succ hi (Decoder.inputCountersHold_mono hc (by omega)), ← Decoder.shiftedIn_succ hi n]
    refine ih ?_ (Decoder.inputCountersHold_shiftedIn hc)
    rw [Decoder.shiftedIn_inp, List.length_drop]
    omega

/-- With fewer, the load waits, or has taken them all when the end of the input is found. -/
theorem Decoder.loadBytes_short (hlen : d.inp.length < n) (hc : d.inputCountersHold d.inp.length = true) :
    Decoder.loadBytes n d = if d.finishing then .raise .unexpectedEof (d.shiftedIn d.inp.length) else .hold := by
  induction n generalizing d with
  | zero => omega
  | succ n ih =>
    rcases hi : d.inp with _ | ⟨b, rest⟩
    · rw [List.length_nil, Decoder.shiftedIn_zero, Decoder.loadBytes, Decoder.loadByte]
      cases hf : d.finishing with
      | false => rw [Decoder.rdByte_hold_of_nil hi hf]; rfl
      | true => rw [Decoder.rdByte_eof hi hf]; rfl
    · rw [hi, List.length_cons] at hlen hc
      have hrest : (d.shiftedIn 1).inp = rest := by rw [Decoder.shiftedIn_inp, hi]; rfl
      rw [Decoder.loadBytes_succ hi (Decoder.inputCountersHold_mono hc (by omega)), List.length_cons,
        ← Decoder.shiftedIn_succ hi rest.length, ← hrest]
      refine ih (by rw [hrest]; omega) ?_
      rw [hrest]
      exact Decoder.inputCountersHold_shiftedIn hc

/-! ### RC_DEC_LOAD by its input -/

theorem Decoder.check_of_lt (h : d.rd.code.toNat < d.rd.range.toNat) : d.check = .ok () d := if_pos h

theorem Decoder.check_of_le (h : d.rd.range.toNat ≤ d.rd.code.toNat) : d.check = .raise .dataError d :=
  if_neg (Nat.not_lt.2 h)

/-- The one code that the load refuses (R193). -/
theorem code_lt_of_ne {code : Word} (h : code ≠ 0xFFFFFFFF#32) : code.toNat < (0xFFFFFFFF#32 : Word).toNat := by
  have hne : code.toNat ≠ (0xFFFFFFFF#32 : Word).toNat := fun heq => h (BitVec.eq_of_toNat_eq heq)
  have hlt := code.isLt
  rw [BitVec.toNat_ofNat] at hne ⊢
  omega

theorem Decoder.rcLoad_full (hi : d.inp ≠ []) (hc : d.inputCountersHold 1 = false) :
    d.rcLoad = .raise .libraryError (d.withRd .init) := by
  rw [Decoder.rcLoad_eq, Decoder.rdByte_full (d := d.withRd .init) hi hc]
  rfl

/-- The first byte is taken, whatever it is. -/
theorem Decoder.rcLoad_cons (hi : d.inp = b :: rest) (hc : d.inputCountersHold 1 = true) :
    d.rcLoad = if b ≠ 0x00#8 then .raise .headerError ((d.popped 1).withRd .init)
      else (Decoder.loadBytes 4 ((d.popped 1).withRd .init)).bind fun _ d => d.check := by
  rw [Decoder.rcLoad_eq, Decoder.rdByte_cons (d := d.withRd .init) hi hc]
  rfl

theorem Decoder.rcLoad_five {b1 b2 b3 b4 : Byte} (hi : d.inp = 0x00#8 :: b1 :: b2 :: b3 :: b4 :: rest)
    (hc : d.inputCountersHold 5 = true) :
    d.rcLoad = ((d.popped 5).withRd { code := b1 ++ b2 ++ b3 ++ b4, range := 0xFFFFFFFF#32 }).check := by
  have hc4 : (d.popped 1).inputCountersHold 4 = true := Decoder.inputCountersHold_popped hc
  have hload : Decoder.loadBytes 4 ((d.popped 1).withRd .init) =
      .ok () ((d.popped 5).withRd { code := b1 ++ b2 ++ b3 ++ b4, range := 0xFFFFFFFF#32 }) := by
    rw [Decoder.loadBytes_ok (d := (d.popped 1).withRd .init) (by simp [hi]) hc4, ← codeWith_four]
    simp [Decoder.shiftedIn, Decoder.popped_popped, hi, RangeDec.init]
  rw [Decoder.rcLoad_cons hi (Decoder.inputCountersHold_mono hc (by omega)), if_neg (not_not.2 rfl), hload]
  rfl

theorem Decoder.rcLoad_short (hlen : d.inp.length < 5) (hzero : d.inp = [] ∨ d.inp.head? = some 0x00#8)
    (hc : d.inputCountersHold d.inp.length = true) :
    ∃ rd, d.rcLoad =
      if d.finishing then .raise .unexpectedEof ((d.popped d.inp.length).withRd rd) else .hold := by
  rcases hi : d.inp with _ | ⟨b, rest⟩
  · refine ⟨.init, ?_⟩
    rw [Decoder.rcLoad_eq, List.length_nil, Decoder.popped_zero]
    cases hf : d.finishing with
    | false => rw [Decoder.rdByte_hold_of_nil (d := d.withRd .init) hi hf]; rfl
    | true => rw [Decoder.rdByte_eof (d := d.withRd .init) hi hf]; rfl
  · obtain rfl : b = 0x00#8 := by simpa [hi] using hzero
    rw [hi, List.length_cons] at hlen hc
    have hrest : ((d.popped 1).withRd .init).inp = rest := by simp [hi]
    have hload := Decoder.loadBytes_short (n := 4) (d := (d.popped 1).withRd .init) (by rw [hrest]; omega)
      (by rw [hrest]; exact Decoder.inputCountersHold_popped (m := 1) (by rwa [Nat.add_comm]))
    have hshift : ((d.popped 1).withRd .init).shiftedIn rest.length =
        (d.popped (rest.length + 1)).withRd { code := rest.foldl codeWith 0#32, range := 0xFFFFFFFF#32 } := by
      simp [Decoder.shiftedIn, Decoder.popped_popped, Nat.add_comm 1, hi, RangeDec.init]
    refine ⟨{ code := rest.foldl codeWith 0#32, range := 0xFFFFFFFF#32 }, ?_⟩
    rw [Decoder.rcLoad_cons hi (Decoder.inputCountersHold_mono hc (by omega)), if_neg (not_not.2 rfl), hload, hrest, hshift,
      Decoder.withRd_finishing, Decoder.popped_finishing, List.length_cons]
    cases d.finishing <;> rfl

end

/-- A load step, in a read that the output FIFO does not satisfy (R444). -/
theorem step_load {s : State} {r : Run} {d : Decoder} (hrun : s.running = some r) (hchan : s.chan r.chan = .dec d)
    (hphase : d.phase = .inMember) (hpart : d.part = .load) (hmore : r.got.length + d.out.length < r.n) :
    step s = decoderStep s { r with got := r.got ++ d.out } { d with out := [] } (Decoder.loadStep { d with out := [] }) := by
  rw [step_decoder hrun hchan hmore, decoderIteration_load (by exact hphase) (by exact hpart) (Run.not_full hmore)]

/-! ## The point an encoder has coded (R200)

The bytes of the output FIFO, the cache byte, the pending bytes and `RE.low` are the digits of one number. A decision moves it
into the part of the range that is kept, and a shift multiplies it by 256, whatever carries (R176, R178). -/

/-- The low end of the encoder's interval, in units of the range. -/
def Encoder.point (e : Encoder) : Nat :=
  beValue (e.out ++ e.re.cache :: List.replicate e.re.ffCount.toNat 0xFF#8) * 2 ^ 32 + e.re.low.toNat

theorem beValue_replicate_zero (n : Nat) : beValue (List.replicate n 0x00#8) = 0 := by
  induction n with
  | zero => rfl
  | succ n ih => simp [List.replicate_succ, beValue, ih]

theorem beValue_replicate_ff (n : Nat) : beValue (List.replicate n 0xFF#8) + 1 = 2 ^ (8 * n) := by
  induction n with
  | zero => rfl
  | succ n ih =>
    rw [List.replicate_succ, beValue, List.length_replicate, Nat.add_assoc, ih, Nat.mul_succ, pow_add]
    simp
    ring

/-- The carry runs through the pending bytes into the cache byte (R176). -/
theorem beValue_carried {cache : Byte} {carry : Bool} (h : cache.toNat + carry.toNat < 2 ^ 8) (n : Nat) :
    beValue ((cache + BitVec.ofNat 8 carry.toNat) :: List.replicate n (0xFF#8 + BitVec.ofNat 8 carry.toNat)) =
      beValue (cache :: List.replicate n 0xFF#8) + carry.toNat := by
  cases carry with
  | false => simp
  | true =>
    have hff := beValue_replicate_ff n
    have hsum : (cache + BitVec.ofNat 8 true.toNat).toNat = cache.toNat + 1 := BitVec.toNat_add_of_lt h
    have hzero : 0xFF#8 + BitVec.ofNat 8 true.toNat = 0x00#8 := by decide
    rw [beValue, beValue, hsum, hzero, beValue_replicate_zero, List.length_replicate, List.length_replicate, add_mul,
      Bool.toNat_true]
    omega

theorem RangeEnc.carry_toNat (r : RangeEnc) : r.carry.toNat = r.low.toNat / 2 ^ 32 := by
  have := r.low.isLt
  by_cases h : 2 ^ 32 ≤ r.low.toNat
  · rw [RangeEnc.carry, decide_eq_true h, Bool.toNat_true]
    omega
  · rw [RangeEnc.carry, decide_eq_false h, Bool.toNat_false]
    omega

/-- A shift multiplies the point by 256, as long as the cache byte can take the carry (R176). -/
theorem Encoder.shiftLow_point {e : Encoder} (hcache : e.re.cache.toNat * 2 ^ 32 + e.re.low.toNat < 2 ^ 40)
    (hff : e.re.ffCount.toNat + 1 < 2 ^ 64) : e.shiftLow.point = e.point * 2 ^ 8 := by
  have hlow := e.shiftLow_low
  cases hd : e.re.defers with
  | true =>
    obtain ⟨hout, hcell, hcount⟩ := Encoder.shiftLow_defers hd
    have htop : e.re.low.toNat / 2 ^ 24 = 0xFF := by simpa [RangeEnc.defers] using hd
    have hbytes : e.out ++ e.re.cache :: List.replicate (e.re.ffCount.toNat + 1) 0xFF#8 =
        (e.out ++ e.re.cache :: List.replicate e.re.ffCount.toNat 0xFF#8) ++ [0xFF#8] := by
      simp [List.replicate_succ']
    rw [Encoder.point, Encoder.point, hout, hcell, hcount, hlow, BitVec.toNat_add_of_lt (by simpa using hff)]
    show beValue (e.out ++ e.re.cache :: List.replicate (e.re.ffCount.toNat + 1) 0xFF#8) * 2 ^ 32 + _ = _
    rw [hbytes, beValue_append]
    simp [beValue]
    omega
  | false =>
    obtain ⟨hout, hcell, hcount⟩ := Encoder.shiftLow_emits hd
    have hcarry := e.re.carry_toNat
    have hcarried := beValue_carried (cache := e.re.cache) (carry := e.re.carry) (by omega) e.re.ffCount.toNat
    have hvalue : beValue e.shiftLow.out =
        beValue (e.out ++ e.re.cache :: List.replicate e.re.ffCount.toNat 0xFF#8) + e.re.low.toNat / 2 ^ 32 := by
      rw [hout, beValue_append, hcarried, beValue_append, ← hcarry]
      simp
      omega
    rw [Encoder.point, Encoder.point, hcount, hlow, beValue_append, hvalue, hcell]
    simp [beValue]
    omega

/-- R171, and that the cache byte can take what the interval may still carry into it. -/
def Encoder.carrySafe (e : Encoder) : Prop :=
  e.codingSound ∧ e.re.cache.toNat * 2 ^ 32 + e.re.low.toNat + e.re.range.toNat ≤ 2 ^ 40

theorem RangeEnc.shift_cache (r : RangeEnc) :
    r.shift.cache.toNat = if r.low.toNat / 2 ^ 24 = 0xFF then r.cache.toNat else r.low.toNat / 2 ^ 24 % 2 ^ 8 := by
  by_cases h : r.low.toNat / 2 ^ 24 = 0xFF
  · simp only [RangeEnc.shift, RangeEnc.defers, h, decide_true, if_true]
  · simp only [RangeEnc.shift, RangeEnc.defers, h, decide_false, Bool.false_eq_true, if_false, BitVec.toNat_ofNat]

/-- The byte that a shift emits leaves room for what the rest of the interval may carry into it. -/
theorem emitted_byte_fits {low range range' : Nat} (hlow : low + range ≤ 2 ^ 33) (hgrow : range' ≤ range * 2 ^ 8)
    (hlt : range' < 2 ^ 32) (hemits : low / 2 ^ 24 ≠ 0xFF) :
    low / 2 ^ 24 % 2 ^ 8 * 2 ^ 32 + low % 2 ^ 24 * 2 ^ 8 + range' ≤ 2 ^ 40 := by
  have hdigits : low / 2 ^ 24 % 2 ^ 8 * 2 ^ 32 + low % 2 ^ 24 * 2 ^ 8 = low % 2 ^ 32 * 2 ^ 8 := by omega
  rw [hdigits]
  by_cases hcarry : low < 2 ^ 32 <;> omega

/-- What an interval may carry into the cache byte, after a shift and with a range that has grown with it at most. -/
theorem RangeEnc.shift_carrySafe {r : RangeEnc} {range range' : Nat} (hlow : r.low.toNat + range ≤ 2 ^ 33)
    (hcache : r.cache.toNat * 2 ^ 32 + r.low.toNat + range ≤ 2 ^ 40) (hgrow : range' ≤ range * 2 ^ 8)
    (hlt : range' < 2 ^ 32) : r.shift.cache.toNat * 2 ^ 32 + r.shift.low.toNat + range' ≤ 2 ^ 40 := by
  have hbyte := r.cache.isLt
  rw [RangeEnc.shift_low, RangeEnc.shift_cache]
  split
  · omega
  · exact emitted_byte_fits hlow hgrow hlt ‹_›

theorem Encoder.shiftLow_carrySafe {e : Encoder} (h : e.carrySafe) : e.shiftLow.carrySafe := by
  obtain ⟨hs, hcache⟩ := h
  have hgrow : e.re.range.toNat ≤ e.re.range.toNat * 2 ^ 8 := by omega
  refine ⟨Encoder.shiftLow_sound hs, ?_⟩
  obtain ⟨-, -, hlow⟩ := hs
  exact RangeEnc.shift_carrySafe (r := e.re) (range' := e.re.range.toNat) hlow hcache hgrow e.re.range.isLt

theorem Encoder.carrySafe.codingSound {e : Encoder} (h : e.carrySafe) : e.codingSound := h.1

theorem Encoder.carrySafe.range_pos {e : Encoder} (h : e.carrySafe) : 0 < e.re.range.toNat := by
  obtain ⟨⟨-, hr, -⟩, -⟩ := h
  omega

theorem Encoder.carrySafe.cache_lt {e : Encoder} (h : e.carrySafe) :
    e.re.cache.toNat * 2 ^ 32 + e.re.low.toNat < 2 ^ 40 := by
  obtain ⟨⟨-, hr, -⟩, hcache⟩ := h
  omega

theorem Encoder.accounts.ffCount_le {e : Encoder} {n : Nat} (h : e.accounts n) : e.re.ffCount.toNat ≤ e.re.shifts.toNat := by
  obtain ⟨hn, hc⟩ := h
  omega

theorem Encoder.shiftLow_iterate_point {e : Encoder} {n : Nat} (k : Nat) (hs : e.carrySafe) (ha : e.accounts n)
    (hsh : e.re.shifts.toNat + k < 2 ^ 64) :
    (Encoder.shiftLow^[k] e).carrySafe ∧ (Encoder.shiftLow^[k] e).point = e.point * 2 ^ (8 * k) := by
  induction k with
  | zero => exact ⟨hs, by simp⟩
  | succ k ih =>
    obtain ⟨hsafe, hpoint⟩ := ih (by omega)
    obtain ⟨hacc, hshifts⟩ := Encoder.shiftLow_iterate_accounts k ha (by omega)
    have hff := hacc.ffCount_le
    rw [Function.iterate_succ_apply']
    refine ⟨Encoder.shiftLow_carrySafe hsafe, ?_⟩
    rw [Encoder.shiftLow_point hsafe.cache_lt (by omega), hpoint, Nat.mul_succ, pow_add, Nat.mul_assoc]

/-- The flush writes the whole point out (R182). -/
theorem Encoder.flush_out_value {e : Encoder} {n : Nat} (hs : e.carrySafe) (ha : e.accounts n)
    (hsh : e.re.shifts.toNat + 5 < 2 ^ 64) : beValue e.flush.out = e.point := by
  obtain ⟨-, hpoint⟩ := Encoder.shiftLow_iterate_point 5 hs ha hsh
  obtain ⟨hlow, hcache, hff⟩ := e.flush_clears
  rw [← Encoder.flush_eq_iterate, Encoder.point, hlow, hcache, hff, beValue_append] at hpoint
  simp [beValue] at hpoint
  omega

section

variable {e : Encoder}

theorem Encoder.narrowed_low (h : e.codingSound) (d : Decision) :
    (e.narrowed d).re.low.toNat = e.re.low.toNat + (e.keptStart d).toNat := by
  obtain ⟨hpos, hsum, -⟩ := Encoder.kept_bounds h d
  obtain ⟨-, -, hl⟩ := h
  have hwide : ((e.keptStart d).setWidth 33).toNat = (e.keptStart d).toNat := BitVec.toNat_setWidth_of_le (by decide)
  show (e.re.low + _).toNat = _
  rw [BitVec.toNat_add_of_lt (by omega), hwide]

theorem Encoder.encDecision_carrySafe (h : e.carrySafe) (d : Decision) : (e.encDecision d).carrySafe := by
  obtain ⟨hs, hcache⟩ := h
  refine ⟨Encoder.encDecisions_sound hs [d], ?_⟩
  have hlow := Encoder.narrowed_low hs d
  obtain ⟨-, hsum, -⟩ := Encoder.kept_bounds hs d
  obtain ⟨-, -, hl⟩ := hs
  rw [Encoder.encDecision_eq]
  by_cases hsmall : (e.narrowed d).re.range.toNat < 2 ^ 24
  · have hrange := Word.shiftLeft8_toNat hsmall
    rw [Encoder.normalize_of_small hsmall]
    exact RangeEnc.shift_carrySafe (r := { (e.narrowed d).re with range := (e.narrowed d).re.range <<< 8 })
      (range := (e.narrowed d).re.range.toNat) (by simp; omega) (by simp; omega) hrange.le (by omega)
  · rw [Encoder.normalize_of_large hsmall, hlow, Encoder.narrowed_range, Encoder.narrowed_cache]
    omega

/-- A decision moves the point to the part of the range that is kept, and normalising scales it (R178, R181). -/
theorem Encoder.encDecision_point (h : e.carrySafe) (hff : e.re.ffCount.toNat + 1 < 2 ^ 64) (d : Decision) :
    (e.encDecision d).point = (e.point + (e.keptStart d).toNat) * 2 ^ (8 * shiftsFor (e.kept d)) := by
  obtain ⟨hs, hcache⟩ := h
  have hlow := Encoder.narrowed_low hs d
  obtain ⟨hpos, hsum, -⟩ := Encoder.kept_bounds hs d
  have hpoint : (e.narrowed d).point = e.point + (e.keptStart d).toNat := by
    rw [Encoder.point, Encoder.point, hlow, Nat.add_assoc]
    rfl
  rw [Encoder.encDecision_eq, ← hpoint, ← Encoder.narrowed_range]
  by_cases hsmall : (e.narrowed d).re.range.toNat < 2 ^ 24
  · rw [Encoder.normalize_of_small hsmall, shiftsFor_small hsmall]
    exact Encoder.shiftLow_point (e := { e.narrowed d with re := { (e.narrowed d).re with range := _ } })
      (by simp; omega) hff
  · rw [Encoder.normalize_of_large hsmall, shiftsFor_large hsmall, Nat.mul_zero, pow_zero, Nat.mul_one]

theorem Encoder.encDecision_range (e : Encoder) (d : Decision) :
    (e.encDecision d).re.range.toNat = (e.kept d).toNat * 2 ^ (8 * shiftsFor (e.kept d)) := by
  rw [Encoder.encDecision_eq, Encoder.normalize_range, Encoder.narrowed_range]
  split
  next h => rw [shiftsFor_small h]
  next h => rw [shiftsFor_large h, Nat.mul_zero, pow_zero, Nat.mul_one]

end

/-! ## Intervals nest (R171) -/

/-- `last` stands `k` shifts further on, inside the interval of `e`. -/
structure Encoder.narrows (e last : Encoder) (k : Nat) : Prop where
  shifts : last.re.shifts.toNat = e.re.shifts.toNat + k
  lower : e.point * 2 ^ (8 * k) ≤ last.point
  upper : last.point + last.re.range.toNat ≤ (e.point + e.re.range.toNat) * 2 ^ (8 * k)

theorem Encoder.narrows_refl (e : Encoder) : e.narrows e 0 := ⟨rfl, by simp, by simp⟩

theorem Encoder.narrows.trans {e e' e'' : Encoder} {k l : Nat} (h : e.narrows e' k) (h' : e'.narrows e'' l) :
    e.narrows e'' (k + l) := by
  refine ⟨by rw [h'.shifts, h.shifts, Nat.add_assoc], ?_, ?_⟩
  · calc e.point * 2 ^ (8 * (k + l)) = e.point * 2 ^ (8 * k) * 2 ^ (8 * l) := by rw [Nat.mul_add, pow_add, Nat.mul_assoc]
      _ ≤ e'.point * 2 ^ (8 * l) := Nat.mul_le_mul_right _ h.lower
      _ ≤ e''.point := h'.lower
  · calc e''.point + e''.re.range.toNat ≤ (e'.point + e'.re.range.toNat) * 2 ^ (8 * l) := h'.upper
      _ ≤ (e.point + e.re.range.toNat) * 2 ^ (8 * k) * 2 ^ (8 * l) := Nat.mul_le_mul_right _ h.upper
      _ = (e.point + e.re.range.toNat) * 2 ^ (8 * (k + l)) := by rw [Nat.mul_add, pow_add, Nat.mul_assoc]

theorem Encoder.encDecision_narrows {e : Encoder} (h : e.carrySafe) (hff : e.re.ffCount.toNat + 1 < 2 ^ 64)
    (hsh : e.re.shifts.toNat + 1 < 2 ^ 64) (d : Decision) : e.narrows (e.encDecision d) (shiftsFor (e.kept d)) := by
  obtain ⟨-, hsum, -⟩ := Encoder.kept_bounds h.codingSound d
  refine ⟨Encoder.encDecision_shifts hsh d, ?_, ?_⟩
  · rw [Encoder.encDecision_point h hff]
    exact Nat.mul_le_mul_right _ (by omega)
  · rw [Encoder.encDecision_point h hff, Encoder.encDecision_range, ← add_mul]
    exact Nat.mul_le_mul_right _ (by omega)

/-- What the decisions still to be coded can rely on: no carry is lost and no counter of the range coder wraps. -/
structure Encoder.roomFor (e : Encoder) (n count : Nat) : Prop where
  carrySafe : e.carrySafe
  accounts : e.accounts n
  shifts : e.re.shifts.toNat + count < 2 ^ 64

section

variable {e : Encoder} {n count : Nat}

theorem Encoder.roomFor.shifts_lt (h : e.roomFor n (count + 1)) : e.re.shifts.toNat + 1 < 2 ^ 64 := by
  have := h.shifts
  omega

theorem Encoder.roomFor.ffCount_lt (h : e.roomFor n (count + 1)) : e.re.ffCount.toNat + 1 < 2 ^ 64 := by
  have := h.accounts.ffCount_le
  have := h.shifts_lt
  omega

theorem Encoder.roomFor.encDecision (h : e.roomFor n (count + 1)) (d : Decision) : (e.encDecision d).roomFor n count := by
  refine ⟨Encoder.encDecision_carrySafe h.carrySafe d, Encoder.encDecision_accounts h.accounts h.shifts_lt d, ?_⟩
  have hle := shiftsFor_le (e.kept d)
  have hroom := h.shifts
  rw [Encoder.encDecision_shifts h.shifts_lt]
  omega

end

theorem Encoder.encDecisions_narrows {n : Nat} (ds : List Decision) {e : Encoder} (h : e.roomFor n ds.length) :
    (e.encDecisions ds).roomFor n 0 ∧ ∃ k, e.narrows (e.encDecisions ds) k := by
  induction ds generalizing e with
  | nil => exact ⟨h, 0, e.narrows_refl⟩
  | cons d ds ih =>
    obtain ⟨hroom, k, hk⟩ := ih (h.encDecision d)
    exact ⟨hroom, _, (Encoder.encDecision_narrows h.carrySafe h.ffCount_lt h.shifts_lt d).trans hk⟩

/-! ## The decoder follows the encoder (R199, R200) -/

/-- A decoder at the place of `e`, on the way to `last`, with `bytes` of the payload still to come: its code is the coded point
less the encoder's (R200). -/
structure Decoder.tracks (d : Decoder) (e last : Encoder) (bytes rest : List Byte) : Prop where
  models : d.models = e.models
  range : d.rd.range = e.re.range
  inp : d.inp = bytes ++ rest
  shifts : last.re.shifts.toNat = e.re.shifts.toNat + bytes.length
  counters : d.inputCountersHold bytes.length = true
  point : (e.point + d.rd.code.toNat) * 2 ^ (8 * bytes.length) + beValue bytes = last.point

/-- Normalising takes the bytes the range needs, and the code stays below the range (R192, R193). -/
theorem Decoder.normalize_ok {d : Decoder} {bytes rest : List Byte} (hi : d.inp = bytes ++ rest)
    (hlen : bytes.length = shiftsFor d.rd.range) (hc : d.inputCountersHold bytes.length = true)
    (hcode : d.rd.code.toNat < d.rd.range.toNat) :
    ∃ rd : RangeDec, d.normalize = .ok () ((d.popped bytes.length).withRd rd) ∧
      rd.code.toNat = d.rd.code.toNat * 2 ^ (8 * bytes.length) + beValue bytes ∧
      rd.range.toNat = d.rd.range.toNat * 2 ^ (8 * bytes.length) := by
  by_cases hsmall : d.rd.range.toNat < 2 ^ 24
  · rw [shiftsFor_small hsmall] at hlen
    obtain ⟨b, rfl⟩ := List.length_eq_one_iff.1 hlen
    have hrange := Word.shiftLeft8_toNat hsmall
    have hnew := codeWith_toNat (hcode.trans hsmall) b
    have hb := b.isLt
    refine ⟨{ code := codeWith d.rd.code b, range := d.rd.range <<< 8 }, ?_, by simpa [beValue] using hnew,
      by simpa using hrange⟩
    have hbyte := Decoder.rdByte_cons (d := d.withRd { d.rd with range := d.rd.range <<< 8 }) hi hc
    have hshift : d.normalize = (d.withRd { d.rd with range := d.rd.range <<< 8 }).rdByte.bind fun b d =>
        (d.withRd { d.rd with code := codeWith d.rd.code b }).check := if_pos hsmall
    rw [hshift, hbyte]
    refine Decoder.check_of_lt ?_
    show (codeWith d.rd.code b).toNat < (d.rd.range <<< 8).toNat
    rw [hrange, hnew]
    omega
  · rw [shiftsFor_large hsmall] at hlen
    obtain rfl := List.length_eq_zero_iff.1 hlen
    refine ⟨d.rd, ?_, by simp [beValue], by simp⟩
    rw [List.length_nil, Decoder.popped_zero]
    exact (if_neg hsmall).trans (Decoder.check_of_lt hcode)

/-- Where the coded point lies in the part of an interval that is kept, its leading digits lie there too. -/
theorem code_mem_of_point_mem {point start width code unit low target : Nat} (hlow : low < unit)
    (htarget : (point + code) * unit + low = target) (hlower : (point + start) * unit ≤ target)
    (hupper : target < (point + start + width) * unit) : start ≤ code ∧ code < start + width := by
  constructor
  · have hlt : (point + start) * unit < (point + code + 1) * unit := by rw [add_mul (point + code)]; omega
    have := Nat.lt_of_mul_lt_mul_right hlt
    omega
  · have hlt : (point + code) * unit < (point + start + width) * unit := by omega
    have := Nat.lt_of_mul_lt_mul_right hlt
    omega

section

variable {d : Decoder} {e last : Encoder} {bytes rest : List Byte} {dec : Decision}

/-- The decoder's code lies in the part of the range that the encoder kept. -/
theorem Decoder.tracks.code_mem {n count k : Nat} (h : d.tracks e last bytes rest) (hroom : e.roomFor n (count + 1))
    (hn : (e.encDecision dec).narrows last k) (hpos : 0 < last.re.range.toNat)
    (hlen : bytes.length = shiftsFor (e.kept dec) + k) :
    (e.keptStart dec).toNat ≤ d.rd.code.toNat ∧ d.rd.code.toNat < (e.keptStart dec).toNat + (e.kept dec).toNat := by
  have hpoint := Encoder.encDecision_point hroom.carrySafe hroom.ffCount_lt dec
  have hunit : ∀ a, a * 2 ^ (8 * shiftsFor (e.kept dec)) * 2 ^ (8 * k) = a * 2 ^ (8 * bytes.length) := fun a => by
    rw [hlen, Nat.mul_add, pow_add, Nat.mul_assoc]
  refine code_mem_of_point_mem (beValue_lt bytes) h.point ?_ ?_
  · rw [← hunit, ← hpoint]
    exact hn.lower
  · rw [← hunit, add_mul _ (e.kept dec).toNat, ← hpoint, ← e.encDecision_range dec]
    exact lt_of_lt_of_le (Nat.lt_add_of_pos_right hpos) hn.upper

/-- The decoder finds the bit that was coded. -/
theorem Decoder.tracks.nextBit_eq (h : d.tracks e last bytes rest) (hs : e.codingSound)
    (hstart : (e.keptStart dec).toNat ≤ d.rd.code.toNat)
    (hend : d.rd.code.toNat < (e.keptStart dec).toNat + (e.kept dec).toNat) : d.nextBit dec.model = dec.bit := by
  obtain ⟨-, -, hzero⟩ := Encoder.kept_bounds hs dec
  rw [Decoder.nextBit, h.models, h.range]
  rw [Encoder.keptStart] at hstart hend
  cases hbit : dec.bit with
  | true =>
    rw [hbit] at hstart
    exact decide_eq_true hstart
  | false =>
    rw [hzero hbit, hbit] at hend
    exact decide_eq_false (Nat.not_le.2 (by simpa [splitStart] using hend))

/-- The decoder splits its range as the encoder does. -/
theorem Decoder.tracks.narrowed_rd (h : d.tracks e last bytes rest) :
    (d.narrowed dec.model dec.bit).rd = { code := d.rd.code - e.keptStart dec, range := e.kept dec } := by
  rw [Encoder.keptStart, Encoder.kept, ← h.models, ← h.range]
  rfl

/-- Normalising takes the bytes `now` that the kept range needs, and the decoder stands where the encoder does after the
decision. -/
theorem Decoder.tracks.normalize {n count : Nat} {now later : List Byte} (h : d.tracks e last (now ++ later) rest)
    (hroom : e.roomFor n (count + 1)) (hnow : now.length = shiftsFor (e.kept dec))
    (hstart : (e.keptStart dec).toNat ≤ d.rd.code.toNat)
    (hend : d.rd.code.toNat < (e.keptStart dec).toNat + (e.kept dec).toNat) :
    ∃ d', (d.narrowed dec.model dec.bit).normalize = .ok () d' ∧ d'.tracks (e.encDecision dec) last later rest := by
  have hcounters := h.counters
  rw [List.length_append] at hcounters
  have hcode : (d.rd.code - e.keptStart dec).toNat = d.rd.code.toNat - (e.keptStart dec).toNat :=
    BitVec.toNat_sub_of_le (by rwa [BitVec.le_def])
  obtain ⟨rd, hnormalize, hrdCode, hrdRange⟩ := Decoder.normalize_ok (d := d.narrowed dec.model dec.bit)
    (h.inp.trans (List.append_assoc _ _ _)) (by rw [h.narrowed_rd, hnow])
    (Decoder.inputCountersHold_mono (n := now.length + later.length) hcounters (by omega))
    (by rw [h.narrowed_rd, hcode]; show _ < (e.kept dec).toNat; omega)
  rw [h.narrowed_rd] at hrdCode hrdRange
  refine ⟨_, hnormalize,
    { models := ?models, range := ?range, inp := ?inp, shifts := ?shifts, counters := ?counters, point := ?point }⟩
  case models =>
    rw [Encoder.encDecision_models, ← h.models]
    rfl
  case range =>
    apply BitVec.eq_of_toNat_eq
    rw [e.encDecision_range, ← hnow]
    exact hrdRange
  case inp =>
    show d.inp.drop now.length = _
    rw [h.inp, List.append_assoc, List.drop_left]
  case shifts =>
    rw [h.shifts, Encoder.encDecision_shifts hroom.shifts_lt, List.length_append, hnow, Nat.add_assoc]
  case counters => exact Decoder.inputCountersHold_popped (d := d) hcounters
  case point =>
    obtain ⟨past, hpast⟩ := Nat.exists_eq_add_of_le hstart
    rw [← h.point, Encoder.encDecision_point hroom.carrySafe hroom.ffCount_lt, ← hnow, beValue_append, List.length_append,
      hpast]
    show (_ + rd.code.toNat) * _ + _ = _
    rw [hrdCode, hcode, hpast, Nat.add_sub_cancel_left]
    ring

/-- A decoder that tracks the encoder is given the next bit and tracks it still. -/
theorem Decoder.tracks.rangeBit {n count k : Nat} (h : d.tracks e last bytes rest) (hroom : e.roomFor n (count + 1))
    (hn : (e.encDecision dec).narrows last k) (hpos : 0 < last.re.range.toNat) :
    ∃ d' bytes', rangeBit d dec.model = .ok dec.bit d' ∧ d'.tracks (e.encDecision dec) last bytes' rest := by
  have hlen : bytes.length = shiftsFor (e.kept dec) + k := by
    have := h.shifts
    have := hn.shifts
    have := Encoder.encDecision_shifts hroom.shifts_lt dec
    omega
  obtain ⟨hstart, hend⟩ := h.code_mem hroom hn hpos hlen
  have hbit := h.nextBit_eq hroom.carrySafe.codingSound hstart hend
  rw [← List.take_append_drop (shiftsFor (e.kept dec)) bytes] at h
  obtain ⟨d', hnormalize, htracks⟩ := h.normalize hroom (by rw [List.length_take]; omega) hstart hend
  exact ⟨d', _, by rw [rangeBit_eq, hbit, hnormalize]; rfl, htracks⟩

end

/-- The decisions still to come are read, and then no byte of the payload is left. -/
theorem readBits_tracks {n : Nat} {rest : List Byte} (ds : List Decision) {d : Decoder} {e : Encoder} {bytes : List Byte}
    (hroom : e.roomFor n ds.length) (h : d.tracks e (e.encDecisions ds) bytes rest) :
    ∃ d', readBits (ds.map Decision.model) d = .ok (ds.map Decision.bit) d' ∧
      d'.tracks (e.encDecisions ds) (e.encDecisions ds) [] rest := by
  induction ds generalizing d e bytes with
  | nil =>
    have hshifts : e.re.shifts.toNat = e.re.shifts.toNat + bytes.length := h.shifts
    obtain rfl : bytes = [] := List.length_eq_zero_iff.1 (by omega)
    exact ⟨d, rfl, h⟩
  | cons dec ds ih =>
    obtain ⟨hlast, k, hn⟩ := Encoder.encDecisions_narrows ds (hroom.encDecision dec)
    obtain ⟨d1, bytes1, hbit, h1⟩ := h.rangeBit hroom hn hlast.carrySafe.range_pos
    obtain ⟨d2, hbits, h2⟩ := ih (hroom.encDecision dec) h1
    refine ⟨d2, ?_, h2⟩
    rw [List.map_cons, readBits, hbit]
    show (readBits (ds.map Decision.model) d1).bind _ = _
    rw [hbits]
    rfl

/-- A payload whose value lies in the first range is loaded: its first byte is 0 (R190). -/
theorem Decoder.rcLoad_payload {d : Decoder} {payload rest : List Byte} {k : Nat} (hi : d.inp = payload ++ rest)
    (hlen : payload.length = k + 5) (hc : d.inputCountersHold payload.length = true)
    (hvalue : beValue payload < 0xFFFFFFFF * 2 ^ (8 * k)) :
    ∃ code bytes, d.rcLoad = .ok () ((d.popped 5).withRd { code := code, range := 0xFFFFFFFF#32 }) ∧
      (d.popped 5).inp = bytes ++ rest ∧ bytes.length = k ∧
      beValue payload = code.toNat * 2 ^ (8 * k) + beValue bytes := by
  match payload, hlen with
  | b0 :: b1 :: b2 :: b3 :: b4 :: bytes, hlen =>
    obtain rfl : bytes.length = k := by simpa using hlen
    have hsplit : beValue (b0 :: b1 :: b2 :: b3 :: b4 :: bytes) =
        beValue [b0, b1, b2, b3, b4] * 2 ^ (8 * bytes.length) + beValue bytes := beValue_append [b0, b1, b2, b3, b4] bytes
    have hhead : beValue [b0, b1, b2, b3, b4] < 0xFFFFFFFF :=
      Nat.lt_of_mul_lt_mul_right (a := 2 ^ (8 * bytes.length)) (by omega)
    have hcode : (b1 ++ b2 ++ b3 ++ b4 : Word).toNat = beValue [b1, b2, b3, b4] := by
      rw [toNat_append_byte, toNat_append_byte, toNat_append_byte]
      simp [beValue]
      omega
    have hcons : beValue [b0, b1, b2, b3, b4] = b0.toNat * 2 ^ 32 + beValue [b1, b2, b3, b4] := rfl
    obtain rfl : b0 = 0x00#8 := BitVec.eq_of_toNat_eq (by rw [BitVec.toNat_ofNat]; omega)
    refine ⟨b1 ++ b2 ++ b3 ++ b4, bytes, ?_, by rw [Decoder.popped_inp, hi]; rfl, rfl, ?_⟩
    · rw [Decoder.rcLoad_five (rest := bytes ++ rest) hi (Decoder.inputCountersHold_mono hc (by simp))]
      refine Decoder.check_of_lt ?_
      rw [Decoder.withRd_rd, BitVec.toNat_ofNat, hcode]
      omega
    · rw [hsplit, hcode, hcons]
      simp

theorem Encoder.point_of_init {e : Encoder} (h : e.re = RangeEnc.init) : e.point = beValue e.out * 2 ^ 40 := by
  rw [Encoder.point, h, beValue_append]
  simp [RangeEnc.init, beValue]
  omega

theorem Encoder.roomFor_of_init {e : Encoder} {count : Nat} (h : e.re = RangeEnc.init) (hm : e.models.sound)
    (hcount : count < 2 ^ 64) : e.roomFor e.out.length count := by
  refine ⟨⟨⟨hm, ?_⟩, ?_⟩, Encoder.accounts_of_init h, ?_⟩ <;> rw [h]
  · exact RangeEnc.init_sound
  · decide
  · rwa [show RangeEnc.init.shifts.toNat = 0 from rfl, Nat.zero_add]

/-- The payload of a member is the coded point: five bytes, one more for each shift, of a value below the first range
(R183, R199). -/
theorem Encoder.payload_value {e : Encoder} {ds : List Decision} {payload : List Byte} (hinit : e.re = RangeEnc.init)
    (hm : e.models.sound) (hds : ds.length + 5 < 2 ^ 64) (hout : (e.encDecisions ds).flush.out = e.out ++ payload) :
    payload.length = (e.encDecisions ds).re.shifts.toNat + 5 ∧
      e.point * 2 ^ (8 * (e.encDecisions ds).re.shifts.toNat) + beValue payload = (e.encDecisions ds).point ∧
      beValue payload < 0xFFFFFFFF * 2 ^ (8 * (e.encDecisions ds).re.shifts.toNat) := by
  obtain ⟨-, hshifts, ⟨-, hbytes⟩, hfive⟩ := Encoder.payload_accounts hinit hds
  obtain ⟨hlast, k, hn⟩ := Encoder.encDecisions_narrows ds (Encoder.roomFor_of_init hinit hm (by omega))
  obtain ⟨-, -, hff⟩ := (e.encDecisions ds).flush_clears
  have hlen : payload.length = (e.encDecisions ds).re.shifts.toNat + 5 := by
    rw [hff, hout, List.length_append, hfive, BitVec.toNat_ofNat] at hbytes
    omega
  have hk : (e.encDecisions ds).re.shifts.toNat = k := by simpa [hinit, RangeEnc.init] using hn.shifts
  have hpoint := Encoder.flush_out_value hlast.carrySafe hlast.accounts (by omega)
  rw [hout, beValue_append, hlen, Nat.mul_add, Nat.add_comm (8 * _), pow_add, ← Nat.mul_assoc, ← Encoder.point_of_init hinit]
    at hpoint
  refine ⟨hlen, hpoint, ?_⟩
  have hupper := hn.upper
  have hrange : e.re.range.toNat = 0xFFFFFFFF := by rw [hinit]; rfl
  have hpos := hlast.carrySafe.range_pos
  rw [← hk, ← hpoint, hrange, add_mul] at hupper
  omega

end Sys2Proof.Machine

open Sys2Proof Sys2Proof.Machine

/-- Settles O17: the part of the range that is left is at least `2^13 * 31` (`rangeBound_bounds`), and a half at least `2^23`. -/
theorem oneShiftSuffices : Obligations.OneShiftSuffices := by
  intro e hm hr
  refine ⟨fun m b => ?_, fun b => ?_⟩
  · have hbound : (rangeBound e.re.range (e.models.get m)).toNat = e.re.range.toNat / 2 ^ 11 * (e.models.get m).toNat :=
      rangeBound_toNat _ _
    obtain ⟨hlow, hhigh⟩ := rangeBound_bounds hr (Models.get_inRange hm m)
    have hnew : 2 ^ 13 * 31 ≤ (splitRange e.models e.re.range (some m) b).toNat := by
      rw [splitRange_model_toNat]
      cases b <;> simp only [Bool.false_eq_true, if_false, if_true] <;> omega
    rw [Encoder.encBit_eq, Encoder.encDecision_eq, Encoder.normalize_range, Encoder.normalize_shifts, Encoder.narrowed_range,
      Encoder.narrowed_shifts, Encoder.kept]
    dsimp only
    rw [← hbound, ← splitRange_model_toNat]
    exact ⟨hnew, by omega, by omega, rfl, rfl⟩
  · have hhalf : (e.kept ⟨b, none⟩).toNat = e.re.range.toNat / 2 := splitBound_direct_toNat e.models e.re.range
    rw [Encoder.encDirectBit_eq, Encoder.encDecision_eq, Encoder.normalize_range, Encoder.normalize_shifts,
      Encoder.narrowed_range, Encoder.narrowed_shifts, hhalf]
    exact ⟨by omega, by omega, rfl, rfl⟩

/-- Settles O11: both sides write the entry of the decision's model (`splitModels`) and normalising writes none. -/
theorem bitsUpdateOneModel : Obligations.BitsUpdateOneModel := by
  refine ⟨fun e m b => ?_, fun d d' m b h => ?_, fun d d' b h => rangeBit_models (m := none) h⟩
  · rw [Encoder.encBit_eq, Encoder.encDirectBit_eq, Encoder.encDecision_models, Encoder.encDecision_models]
    exact ⟨Models.get_set_self _ _ _, fun m' hm => Models.get_set_ne _ _ hm, rfl⟩
  · rw [rangeBit_models (m := some m) h]
    exact ⟨Models.get_set_self _ _ _, fun m' hm => Models.get_set_ne _ _ hm⟩

/-- Settles O18: every shift emits or defers one byte (`Encoder.shiftLow_accounts`), and the flush leaves none pending. -/
theorem byteAccounting : Obligations.ByteAccounting := by
  intro e ds hinit hds
  obtain ⟨⟨-, hcoded⟩, -, ⟨-, hflush⟩, -⟩ := Encoder.payload_accounts hinit hds
  obtain ⟨-, -, hff⟩ := (e.encDecisions ds).flush_clears
  rw [hff] at hflush
  exact ⟨congrArg (· + 1) hcoded, hflush, rfl, rfl⟩

/-- Settles O19: four shifts empty `RE.low`, the fifth the cache and the pending count. -/
theorem flushClears : Obligations.FlushClears := by
  intro e
  obtain ⟨hlow, hcache, hff⟩ := e.flush_clears
  exact ⟨hlow, hcache, hff, rfl⟩

/-- Settles O20: a bit ends in one of the ways of `Decoder.bitEnds`, and one shift is enough for its range. -/
theorem oneByteABit : Obligations.OneByteABit := by
  intro d d' m
  have hends := rangeBit_bitEnds d m
  refine ⟨fun b hm hr h => ⟨rangeBit_range hm hr h, ?_⟩, fun h => ?_, fun err h => ?_⟩ <;>
    rw [h] at hends <;> exact hends

/-- Settles O23: the step is RC_DEC_LOAD on the channel's input (`Decoder.rcLoad_full`, `rcLoad_cons`, `rcLoad_five`,
`rcLoad_short`). -/
theorem loadStep : Obligations.LoadStep := by
  intro s r d hrun hchan hphase hpart hmore
  have hstep := step_load hrun hchan hphase hpart hmore
  have hholds : ∀ {n}, n ≤ 5 → d.memberPosition.toNat + 5 < 2 ^ 64 → d.totalIn.toNat + 5 < 2 ^ 64 →
      Decoder.inputCountersHold { d with out := [] } n = true :=
    fun hn hp ht => (Decoder.inputCountersHold_iff _ _).2 ⟨by simp; omega, by simp; omega⟩
  refine ⟨fun hi hfull => ⟨.init, ?_⟩, fun hp ht => ⟨fun b rest hi hb => ⟨.init, ?_⟩, fun b1 b2 b3 b4 rest hi => ?_,
    fun hlen hzero => ?_⟩⟩
  · have hc : Decoder.inputCountersHold { d with out := [] } 1 = false := by
      simp [Decoder.inputCountersHold]; omega
    rw [hstep, Decoder.loadStep, Decoder.rcLoad_full (d := { d with out := [] }) hi hc]
    rfl
  · rw [hstep, Decoder.loadStep, Decoder.rcLoad_cons (d := { d with out := [] }) hi (hholds (by omega) hp ht), if_pos hb]
    simp [Decoder.popped, Decoder.withRd, hi, Src.bind, decoderStep, Decoder.enterFatal]
  · have hload := Decoder.rcLoad_five (d := { d with out := [] }) hi (hholds le_rfl hp ht)
    have hpop : ∀ rd, (Decoder.popped { d with out := [] } 5).withRd rd =
        { d with out := [], inp := rest, memberPosition := d.memberPosition + 5#64, totalIn := d.totalIn + 5#64, rd := rd } := by
      simp [Decoder.popped, Decoder.withRd, hi]
    rw [hpop] at hload
    refine ⟨fun hcode => ?_, fun hcode => ?_⟩
    · rw [hstep, Decoder.loadStep, hload, Decoder.check_of_lt (code_lt_of_ne hcode)]
      rfl
    · rw [hstep, Decoder.loadStep, hload, Decoder.check_of_le (by rw [hcode])]
      rfl
  · obtain ⟨rd, hload⟩ := Decoder.rcLoad_short (d := { d with out := [] }) hlen hzero (hholds hlen.le hp ht)
    refine ⟨fun hf => ?_, fun hf => ⟨rd, ?_⟩⟩
    · rw [hstep, Decoder.loadStep, hload, if_neg (by simp [hf])]
      show Host.Outcome.next (s.endDecoderRead _ _ _) = _
      rw [State.endDecoderRead, Decoder.finishedCheck_of_ne (by simp [hphase])]
    · rw [hstep, Decoder.loadStep, hload, if_pos hf]
      simp [Decoder.popped, Decoder.withRd, Src.bind, decoderStep, Decoder.enterFatal]

/-- Settles O21: the load puts the decoder at the start of the coded point (`Encoder.payload_value`, `Decoder.rcLoad_payload`),
each bit keeps it at the encoder's place (`Decoder.tracks.rangeBit`), and at the end no byte is left and the code, the coded
point less the encoder's own, is 0. -/
theorem payloadDecodes : Obligations.PayloadDecodes := by
  intro e ds d payload rest hinit hm hds hout hmodels hinp hpos htotal
  obtain ⟨hlen, hpoint, hvalue⟩ := Encoder.payload_value hinit hm hds hout
  have hcounters := (d.inputCountersHold_iff payload.length).2 ⟨hpos, htotal⟩
  obtain ⟨code, bytes, hload, hbytes, hk, hcode⟩ := Decoder.rcLoad_payload hinp hlen hcounters hvalue
  have hstart : ((d.popped 5).withRd { code := code, range := 0xFFFFFFFF#32 }).tracks e (e.encDecisions ds) bytes rest := by
    refine ⟨hmodels, by rw [hinit]; rfl, hbytes, ?_, ?_, ?_⟩
    · rw [hk, hinit, show RangeEnc.init.shifts.toNat = 0 from rfl, Nat.zero_add]
    · exact Decoder.inputCountersHold_popped (d := d) (m := 5) (by rwa [hk, Nat.add_comm, ← hlen])
    · rw [hk, ← hpoint, hcode, add_mul, Nat.add_assoc, Decoder.withRd_rd]
  obtain ⟨d1, hread, hend⟩ := readBits_tracks ds (Encoder.roomFor_of_init hinit hm (by omega)) hstart
  have hzero : d1.rd.code.toNat = 0 := by simpa [beValue] using hend.point
  exact ⟨_, d1, hload, hread, hend.inp, BitVec.eq_of_toNat_eq hzero, hend.range, hend.models⟩
end

section
/-! PROOFS. Family 41, bit models: the two values of BitUpdate and the range it keeps (R222). -/

open Sys2Proof.Machine

/-- Settles O10: the values are `bitUpdate_zero` and `bitUpdate_one`, and the range is kept by `bitUpdate_inRange`. -/
theorem bitUpdateValues : Obligations.BitUpdateValues := by
  intro p hlow hhigh
  have hrange : probInRange p := ⟨hlow, hhigh⟩
  exact ⟨bitUpdate_zero p (by omega), bitUpdate_one p, bitUpdate_inRange hrange⟩
end

section
/-! PROOFS. Family 42, LZMA packets: what each packet does on a decoder and on an encoder (R270 to R277), the member close
(R394 to R396), the distance slots (R262), the state transitions (R252), and that no step stops the block (R291, R345). -/

namespace Sys2Proof

/-! ## Distance slots (R262) -/

/-- The slot of a distance by its top set bit and the bit below it. -/
theorem distSlot_of_top_bit {d n : Nat} (h4 : 4 ≤ d) (hlo : 2 ^ n ≤ d) (hhi : d < 2 ^ (n + 1)) :
    distSlot d = 2 * n + d / 2 ^ (n - 1) % 2 := by
  have hlog : d.log2 = n := (Nat.log2_eq_iff (by omega)).2 ⟨hlo, hhi⟩
  rw [distSlot, if_neg (by omega), hlog, Nat.toNat_testBit]

/-- The base of a slot as R262 writes it. -/
theorem slotBase_eq_shiftLeft (slot : Nat) : (2 ||| (slot &&& 1)) <<< slotBits slot = slotBase slot := by
  have hor : 2 ||| slot % 2 = 2 + slot % 2 := by
    rcases Nat.mod_two_eq_zero_or_one slot with h | h <;> rw [h] <;> rfl
  rw [Nat.and_one_is_mod, hor, Nat.shiftLeft_eq, slotBase]

/-- A slot of 4 or more covers the `2^db` distances from its base on. -/
theorem distSlot_eq_iff {slot : Nat} (h4 : 4 ≤ slot) (d : Nat) :
    distSlot d = slot ↔ slotBase slot ≤ d ∧ d < slotBase slot + 2 ^ slotBits slot := by
  constructor
  · rintro rfl
    refine slotBase_distSlot (Nat.not_lt.1 fun hd => ?_)
    rw [distSlot, if_pos hd] at h4
    omega
  · rintro ⟨hlo, hhi⟩
    obtain ⟨r, rfl⟩ := Nat.exists_eq_add_of_le hlo
    exact distSlot_base h4 (by omega)

end Sys2Proof

namespace Sys2Proof.Machine

/-! ## No step stops -/

section

variable {s : State} {r : Run} {d : Decoder}

theorem decoderStep_goesOn (x : Src Decoder Unit) : ∃ t, decoderStep s r d x = .next t := by
  cases x <;> exact ⟨_, rfl⟩

variable (hlt : r.chan.toNat < s.channels.length)
include hlt

/-- What a decoder fetches is a packet, which its channel can run (R142). -/
theorem decoderPacket_goesOn : ∃ t, decoderPacket s r d = .next t := by
  unfold decoderPacket
  split
  · rename_i i d' hf
    obtain ⟨hi, -⟩ := (d.fetch_fetched s.params).of_ok hf
    obtain ⟨d'', hx, -⟩ := exec_packet_decoder (State.withRun_running s r (.dec d')) (State.chan_withRun hlt _)
      (isPacket_of_decodedPacket hi)
    exact ⟨_, hx⟩
  · exact ⟨_, rfl⟩
  · exact ⟨_, rfl⟩

theorem decoderIteration_goesOn : ∃ t, decoderIteration s r d = .next t := by
  rcases decoderIteration_cases (s := s) (r := r) (d := d) with
    ⟨err, hi⟩ | ⟨-, -, hi⟩ | ⟨-, -, -, hi⟩ | ⟨-, -, -, hi⟩ | ⟨-, -, -, hi⟩ <;> rw [hi]
  · exact ⟨_, rfl⟩
  · exact decoderStep_goesOn _
  · exact decoderStep_goesOn _
  · exact decoderPacket_goesOn hlt
  · exact decoderStep_goesOn _

/-- An encoder closes only where a close is enabled, and codes only what R345 allows: on a sound window there is always such a
packet. -/
theorem encoderIteration_goesOn {e : Encoder} (h : e.windowSound) : ∃ t, encoderIteration s r e = .next t := by
  rcases encoderIteration_cases (s := s) (r := r) (e := e) with hi | ⟨-, hclose, hi⟩ | ⟨-, -, hstep, hi⟩ <;> rw [hi]
  · exact ⟨_, rfl⟩
  · exact ⟨_, exec_eos_encoder (State.withRun_running s r _) (State.chan_withRun hlt _) hclose⟩
  · have hlegal : (e.fetch s.params).2.legalPacket s.params (e.fetch s.params).1 = true :=
      Encoder.fetch_legal h (Encoder.lookahead_of_stepEnabled hstep)
    obtain ⟨_, _, _, -, -, -, -, hx⟩ := exec_packet_encoder (State.withRun_running s r (.enc (e.fetch s.params).2))
      (State.chan_withRun hlt _) hlegal
    exact ⟨_, hx⟩

end

theorem readStep_goesOn {s : State} (hs : s.windowSound) (r : Run) : ∃ t, readStep s r = .next t := by
  have hsound := hs.chan r.chan
  unfold readStep
  split
  · exact ⟨_, rfl⟩
  · rename_i e hc
    rw [hc] at hsound
    exact encoderIteration_goesOn (r := r.give e.out) (State.chan_lt_enc hc) hsound
  · rename_i d hc
    exact decoderIteration_goesOn (r := r.give d.out) (State.chan_lt_dec hc)

/-- The port waits, rejects or runs a command, and each answers (R147, R483). -/
theorem step_goesOn_of_port {s : State} (hr : s.running = none) : ∃ t, step s = .next t := by
  rcases step_port hr with hx | ⟨_, _, hx | ⟨_, _, -, hx, -⟩⟩ <;> exact ⟨_, hx⟩

/-! ## A packet on a decoder -/

section

variable {s : State} {r : Run} {d : Decoder} (hr : s.running = some r) (hc : s.chan r.chan = .dec d)
include hr hc

/-- A packet that completes leaves the decoder it ends with. -/
theorem exec_packet_ok {i : Instr} {d' : Decoder} (hi : isPacket i = true) (h : d.executePacket i = .ok () d') :
    exec i s = .next (s.setChan r.chan (.dec d')) := by
  obtain ⟨onEnc, hx⟩ := exec_eq_executePacket hi s
  rw [hx, runPacket]
  simp only [hr, hc, h]

/-- A packet that raises leaves its channel Fatal (R415, R484). -/
theorem exec_packet_raise {i : Instr} {err : ErrorCode} {d' : Decoder} (hi : isPacket i = true)
    (h : d.executePacket i = .raise err d') :
    exec i s = .next (s.setChan r.chan (.dec { d' with errno := err, phase := .fatal })) := by
  obtain ⟨onEnc, hx⟩ := exec_eq_executePacket hi s
  rw [hx, runPacket]
  simp only [hr, hc, h]
  rfl

end

section

variable {d : Decoder} {lz : Lzma → Lzma} {n : Nat} {emit : Decoder → Src Decoder Unit}

theorem Decoder.execute_of_room (hp : d.lz.dataPosition.toNat + n < 2 ^ 64) (ht : d.totalOut.toNat + n < 2 ^ 64) :
    d.execute lz n emit = emit { d with lz := lz d.lz } :=
  if_pos (Decoder.countersHold_iff.2 ⟨hp, ht⟩)

/-- A counter with no room (R45, R489; log 14). -/
theorem Decoder.execute_full (h : 2 ^ 64 ≤ d.lz.dataPosition.toNat + n ∨ 2 ^ 64 ≤ d.totalOut.toNat + n) :
    d.execute lz n emit = .raise .libraryError d :=
  if_neg fun hcount => by
    obtain ⟨hp, ht⟩ := Decoder.countersHold_iff.1 hcount
    omega

theorem Decoder.executeLit_ok (b : Byte) (hp : d.lz.dataPosition.toNat + 1 < 2 ^ 64) (ht : d.totalOut.toNat + 1 < 2 ^ 64) :
    d.executePacket (.lit b) = .ok () (d.produced d.lz.afterLit [b]) :=
  Decoder.execute_of_room (lz := Lzma.afterLit) (emit := fun d => .ok () (d.emit b)) hp ht

theorem Decoder.executeLit_full {b : Byte} (h : 2 ^ 64 ≤ d.lz.dataPosition.toNat + 1 ∨ 2 ^ 64 ≤ d.totalOut.toNat + 1) :
    d.executePacket (.lit b) = .raise .libraryError d :=
  Decoder.execute_full (lz := Lzma.afterLit) (emit := fun d => .ok () (d.emit b)) h

/-- R287 and R288: the distances a MATCH may not have. -/
theorem Decoder.executeMatch_dataError {len : Nat} {dist : Word}
    (h : dist = eosDistance ∨ d.lz.dataPosition.toNat ≤ dist.toNat ∨ d.dictionarySize.toNat ≤ dist.toNat) :
    d.executeMatch len dist = .raise .dataError d := by
  unfold Decoder.executeMatch
  split
  · rfl
  · exact if_pos (h.resolve_left ‹_›)

theorem Decoder.executeMatch_of_reaches {len : Nat} {dist : Word} (hne : dist ≠ eosDistance)
    (hd : d.lz.reaches d.dictionarySize.toNat dist) :
    d.executeMatch len dist = d.execute (·.afterMatch dist) len (Decoder.emitCopy dist.toNat len) := by
  unfold Decoder.executeMatch
  rw [if_neg hne, if_neg (by omega)]

theorem Decoder.executeRep_at_start (h : d.lz.dataPosition = 0#64) : d.executeRep lz n = .raise .dataError d := if_pos h

/-- R283: past the member's start a rep packet copies from the distance its registers name. -/
theorem Decoder.executeRep_of_pos (h : 1 ≤ d.lz.dataPosition.toNat) :
    d.executeRep lz n = d.execute lz n fun d => Decoder.emitCopy d.lz.rep0.toNat n d :=
  if_neg fun h0 => by rw [h0] at h; exact absurd h (by decide)

theorem isPacket_of_isRepClass {i : Instr} (h : isRepClass i = true) : isPacket i = true := by
  cases i
  case shortRep | rep0 | rep1 | rep2 | rep3 => rfl
  all_goals cases h

/-- Every rep-class packet raises at a member's start (R283). -/
theorem Decoder.executePacket_rep_at_start {i : Instr} (hi : isRepClass i = true) (h : d.lz.dataPosition = 0#64) :
    d.executePacket i = .raise .dataError d := by
  cases i
  case shortRep | rep0 | rep1 | rep2 | rep3 => exact Decoder.executeRep_at_start h
  all_goals cases hi

/-- A rep distance of a sound window, once the member has a byte (R255). -/
theorem Decoder.windowSound.reaches {dist : Word} (h : d.windowSound) (hp : d.phase = .inMember)
    (h1 : 1 ≤ d.lz.dataPosition.toNat) (hdist : dist ∈ [d.lz.rep0, d.lz.rep1, d.lz.rep2, d.lz.rep3]) :
    d.lz.reaches d.dictionarySize.toNat dist := by
  obtain ⟨hsize, hwritten⟩ := (h.2 hp).1 dist hdist
  exact ⟨by omega, hsize⟩

end

/-- A rep-class packet on a decoder that has a byte: a counter with no room is `library_error`; else a copy from the distance
that the packet puts in `rep0` (R254, R255, R272 to R276). -/
theorem exec_rep_decoder {s : State} {r : Run} {d : Decoder} {i : Instr} {lz : Lzma → Lzma} {n : Nat}
    (hr : s.running = some r) (hc : s.chan r.chan = .dec d) (hi : isPacket i = true)
    (hx : d.executePacket i = d.executeRep lz n) (hlz : (lz d.lz).dataPosition = d.lz.dataPosition)
    (hw : d.history.map Prod.fst = List.range d.lz.dataPosition.toNat) (h1 : 1 ≤ d.lz.dataPosition.toNat)
    (hd : d.lz.reaches d.dictionarySize.toNat (lz d.lz).rep0) :
    (2 ^ 64 ≤ d.lz.dataPosition.toNat + n ∨ 2 ^ 64 ≤ d.totalOut.toNat + n →
      exec i s = .next (s.setChan r.chan (.dec { d with errno := .libraryError, phase := .fatal }))) ∧
    (d.lz.dataPosition.toNat + n < 2 ^ 64 → d.totalOut.toNat + n < 2 ^ 64 →
      ∃ bytes, bytes.length = n ∧ isCopy d.history d.lz.dataPosition.toNat (lz d.lz).rep0.toNat bytes ∧
        exec i s = .next (s.setChan r.chan (.dec (d.produced (lz d.lz) bytes)))) := by
  rw [Decoder.executeRep_of_pos h1] at hx
  refine ⟨fun hfull => exec_packet_raise hr hc hi (hx.trans (Decoder.execute_full hfull)), fun hp ht => ?_⟩
  obtain ⟨bytes, hlen, hcopy, hex⟩ := Decoder.execute_copy hlz hw hd.1 hd.2 hp ht
  refine ⟨bytes, hlen, hcopy, exec_packet_ok hr hc hi (hx.trans ?_)⟩
  rw [Decoder.execute_of_room hp ht] at hex ⊢
  exact hex

theorem Decoder.executeEos_ok {d : Decoder} (h : d.rd.code = 0#32) : d.executeEos = .ok () { d with part := .trailer } :=
  if_neg fun hne => hne h

theorem Decoder.executeEos_dataError {d : Decoder} (h : d.rd.code ≠ 0#32) : d.executeEos = .raise .dataError d := if_pos h

/-! ## A packet on an encoder -/

section

variable {s : State} {r : Run} {e : Encoder} (hr : s.running = some r) (hc : s.chan r.chan = .enc e)
include hr hc

theorem runPacket_encoder {onEnc : Params → Encoder → Option Encoder} {e' : Encoder} (onDec : Decoder → Src Decoder Unit)
    (h : onEnc s.params e = some e') : runPacket s onEnc onDec = .next (s.setChan r.chan (.enc e')) := by
  unfold runPacket
  simp only [hr, hc, h]

/-- A legal packet that copies the next `n` bytes from distance `dw` (R271 to R276, R290). -/
theorem runPacket_copy_encoder {i : Instr} {lz : Lzma → Lzma} {n : Nat} {dist : Encoder → Word} {dw : Word}
    (onDec : Decoder → Src Decoder Unit) (hlegal : e.legalPacket s.params i = true)
    (hlz : ∀ x, (lz x).dataPosition = x.dataPosition) (hdist : ∀ e1 : Encoder, e1.lz = lz e.lz → dist e1 = dw)
    (hla : n ≤ e.lookahead) (hd : e.lz.reaches e.dictionarySize.toNat dw) (hcopy : e.copiesNext n dw.toNat) :
    ∃ cyc bytes, bytes.length = n ∧ e.nextBytes bytes ∧
      runPacket s (fun p e => e.codePacket p i lz fun e => Encoder.emitCopy (dist e).toNat n e) onDec =
        .next (s.setChan r.chan (.enc (e.covered (packetDecisions e.ctx i) (lz e.lz) bytes cyc))) := by
  obtain ⟨cyc, bytes, hlen, hnext, h⟩ := Encoder.codePacket_copy hlegal hlz hdist hd.1 hd.2 hcopy hla
  exact ⟨cyc, bytes, hlen, hnext, runPacket_encoder hr hc onDec h⟩

/-- The same for a rep packet, which copies from the distance it puts in `rep0` (R272 to R276). -/
theorem runPacket_rep_encoder {i : Instr} {lz : Lzma → Lzma} {n : Nat} (onDec : Decoder → Src Decoder Unit)
    (hlegal : e.legalPacket s.params i = true) (hlz : ∀ x, (lz x).dataPosition = x.dataPosition) (hla : n ≤ e.lookahead)
    (hd : e.lz.reaches e.dictionarySize.toNat (lz e.lz).rep0) (hcopy : e.copiesNext n (lz e.lz).rep0.toNat) :
    ∃ cyc bytes, bytes.length = n ∧ e.nextBytes bytes ∧
      runPacket s (fun p e => e.codePacket p i lz fun e => Encoder.emitCopy e.lz.rep0.toNat n e) onDec =
        .next (s.setChan r.chan (.enc (e.covered (packetDecisions e.ctx i) (lz e.lz) bytes cyc))) :=
  runPacket_copy_encoder hr hc (dist := fun e => e.lz.rep0) onDec hlegal hlz (fun _ h => congrArg Lzma.rep0 h) hla hd hcopy

end

section

variable {p : Params} {e : Encoder}

/-- A byte that is the next one is legal as a LIT, with its match byte there where R242 needs one. -/
theorem Encoder.legal_lit {b : Byte} (hla : 1 ≤ e.lookahead) (hb : e.window.read e.lz.dataPosition.toNat = some b)
    (hmatch : e.lz.state.val ≤ 6 ∨
      ∃ mb, winRead e.window e.lz.dataPosition.toNat e.dictionarySize.toNat e.lz.rep0.toNat = some mb) :
    e.legalPacket p (.lit b) = true := by
  simp only [Encoder.legalPacket, Bool.and_eq_true, Bool.or_eq_true, decide_eq_true_eq]
  refine ⟨⟨hla, hb⟩, ?_⟩
  by_cases h6 : e.lz.state.val ≤ 6
  · exact .inl h6
  · obtain ⟨mb, hmb⟩ := hmatch.resolve_left h6
    have h7 : 7 ≤ e.lz.state.val := by omega
    right
    simp only [Encoder.ctx, packetCtx, if_pos h7, hmb, Option.isSome_some]

theorem Encoder.legal_shortRep (hla : 1 ≤ e.lookahead) (hd : e.lz.reaches e.dictionarySize.toNat e.lz.rep0)
    (hcopy : e.copiesNext 1 e.lz.rep0.toNat) : e.legalPacket p .shortRep = true := by
  simp only [Encoder.legalPacket, Bool.and_eq_true, decide_eq_true_eq]
  exact ⟨hla, Encoder.copyAgrees_iff.2 ⟨hd.1, hd.2, hcopy⟩⟩

variable {len : Nat} {dist : Word} (h2 : 2 ≤ len) (hlim : len ≤ e.matchLenLimit.toNat) (hafter : len ≤ p.afterSize)
  (hla : len ≤ e.lookahead) (hd : e.lz.reaches e.dictionarySize.toNat dist) (hcopy : e.copiesNext len dist.toNat)
include h2 hlim hafter hla hd hcopy

/-- A length within the limits, of bytes that are the next ones, is legal for the rep packet of that distance (R345 (a)). -/
theorem Encoder.repLegal_of_copiesNext : e.repLegal p len dist = true := by
  have hview : len ≤ min e.matchLenLimit.toNat (e.view p) := le_min hlim (le_min hla hafter)
  simp only [Encoder.repLegal, Bool.and_eq_true, decide_eq_true_eq]
  exact ⟨⟨h2, hview⟩, Encoder.copyAgrees_iff.2 ⟨hd.1, hd.2, hcopy⟩⟩

/-- So is the pair of that length and distance (R331): inside the dictionary it is not before `keep_from`. -/
theorem Encoder.validPair_of_copiesNext : e.validPair e.lz.dataPosition.toNat (e.view p) len dist.toNat = true := by
  have hview : len ≤ min e.matchLenLimit.toNat (e.view p) := le_min hlim (le_min hla hafter)
  have hkeep : e.keepFrom ≤ e.lz.dataPosition.toNat - dist.toNat - 1 := by unfold Encoder.keepFrom; omega
  simp only [Encoder.validPair, Bool.and_eq_true, decide_eq_true_eq]
  exact ⟨⟨⟨⟨⟨h2, hview⟩, hd.1⟩, hd.2⟩, hkeep⟩, Encoder.matchLength_of_copiesNext hd.1 hcopy⟩

end

/-! ## The context of the next packet (R226, R227, R242) -/

theorem packetCtx_eq {lz : Lzma} {window : Memory} {size : Nat} {prev mb : Byte} (hsize : 1 ≤ size)
    (hstart : lz.dataPosition.toNat = 0 → prev = 0x00#8)
    (hprev : 1 ≤ lz.dataPosition.toNat → window.read (lz.dataPosition.toNat - 1) = some prev)
    (hmatch : 7 ≤ lz.state.val → lz.rep0.toNat < lz.dataPosition.toNat ∧ lz.rep0.toNat < size ∧
      window.read (lz.dataPosition.toNat - lz.rep0.toNat - 1) = some mb) :
    packetCtx lz window size =
      { state := lz.state.val, posState := lz.dataPosition.toNat % 4, litState := prev.toNat / 2 ^ 5
        matchByte := if 7 ≤ lz.state.val then some mb else none, atStart := decide (lz.dataPosition.toNat = 0) } := by
  have hlit : (winRead window lz.dataPosition.toNat size 0).getD 0x00#8 = prev := by
    unfold winRead
    split
    · rename_i h
      rw [Nat.sub_zero, hprev h.1]
      rfl
    · exact (hstart (by omega)).symm
  have hmb : (if 7 ≤ lz.state.val then winRead window lz.dataPosition.toNat size lz.rep0.toNat else none) =
      if 7 ≤ lz.state.val then some mb else none :=
    if_ctx_congr Iff.rfl (fun h7 => by
      obtain ⟨hd, hs, hread⟩ := hmatch h7
      rw [winRead, if_pos ⟨hd, hs⟩, hread]) fun _ => rfl
  have hzero : lz.dataPosition = 0#64 ↔ lz.dataPosition.toNat = 0 := BitVec.toNat_inj.symm
  simp only [packetCtx, hlit, hmb, hzero, posState, litState, Nat.reducePow]

/-! ## The member close -/

theorem Encoder.codeEos_lz {p : Params} {e e' : Encoder} (h : e.codeEos p = some e') : e'.lz = e.lz := by
  unfold Encoder.codeEos at h
  split at h
  · obtain ⟨mf, hmf, -⟩ := e.mfCatchUp_spec p
    obtain ⟨_, _, _, _, _, _, hclose⟩ := e.close_frame
    rw [← Option.some.inj h, hmf, Encoder.close_mf, hclose]
  · exact absurd h nofun

/-- The decision bits of the marker (R140). -/
theorem packetDecisions_eos (c : PacketCtx) :
    packetDecisions c .eos = ⟨true, some (.isMatch c.state c.posState)⟩ :: ⟨false, some (.rep c.state)⟩ ::
      (lenDecisions .matchLen c.posState 2 ++ distDecisions 2 0xFFFFFFFF) := rfl

/-- The close action with its trailer written from the registers before it (R394). -/
theorem Encoder.closeAction_of_marker {e e1 : Encoder} (h : (e.encDecisions (packetDecisions e.ctx .eos)).flush = e1) :
    e.closeAction = { e1 with
      out := e1.out ++ leBytes 4 (e.crc ^^^ 0xFFFFFFFF#32).toNat ++ leBytes 8 e.lz.dataPosition.toNat ++
        leBytes 8 (6 + e1.re.shifts.toNat + 20) } := by
  have hcode : e.coded e1 := h ▸ Encoder.coded_trans (Encoder.encDecisions_coded e _) (Encoder.flush_coded _)
  rw [Encoder.closeAction, h]
  obtain ⟨re, models, bytes, rfl⟩ := hcode
  simp only [Encoder.trailer, crcFinal, Encoder.memberPosition, List.append_assoc]

theorem Encoder.closeAction_status (e : Encoder) :
    e.closeAction.lookahead = e.lookahead ∧ e.closeAction.syncPending = e.syncPending := by
  obtain ⟨re, models, bytes, hcode⟩ := e.closeAction_coded
  rw [hcode]
  exact ⟨rfl, rfl⟩

section

variable {e : Encoder}

theorem Encoder.afterClose_limit (h : 1 ≤ e.lookahead) :
    e.afterClose = { e with limitReached := true, phase := .memberFinished } := if_pos h

theorem Encoder.afterClose_sync (h : e.lookahead = 0) (hs : e.syncPending = true) :
    e.afterClose = { e with syncPending := false, resumeOnWrite := true, phase := .memberFinished } := by
  rw [Encoder.afterClose, if_neg (by omega), if_pos hs]

theorem Encoder.afterClose_finish (h : e.lookahead = 0) (hs : e.syncPending = false) :
    e.afterClose = { e with phase := .memberFinished } := by
  rw [Encoder.afterClose, if_neg (by omega), if_neg (by simp [hs])]

theorem Encoder.closeEnabled_of_limit {p : Params} (hp : e.phase = .inMember) (hla : 1 ≤ e.lookahead)
    (hview : p.afterSize ≤ e.lookahead ∨ e.finishing = true ∨ e.syncPending = true)
    (hlimit : e.memberSizeLimit.toNat ≤ 6 + e.re.shifts.toNat + 20 + p.memberMargin) : e.closeEnabled p = true := by
  have hat : e.atLimit p = true := decide_eq_true hlimit
  simp only [Encoder.closeEnabled, Encoder.limitClose, Encoder.hasView, Bool.or_eq_true, Bool.and_eq_true, decide_eq_true_eq,
    or_assoc]
  exact .inl ⟨⟨hp, hla, hview⟩, hat⟩

theorem Encoder.closeEnabled_of_end (p : Params) (hp : e.phase = .inMember) (hla : e.lookahead = 0)
    (hend : e.finishing = true ∨ e.syncPending = true) : e.closeEnabled p = true := by
  simp only [Encoder.closeEnabled, Encoder.endClose, Bool.or_eq_true, Bool.and_eq_true, decide_eq_true_eq]
  exact .inr ⟨⟨hp, hla⟩, hend⟩

end

end Sys2Proof.Machine

open Sys2Proof Sys2Proof.Machine

/-- Settles O58: the port always answers, a decoder runs whatever packet it fetches, and on a sound window what an encoder
fetches is legal. -/
theorem stepGoesOn : Obligations.StepGoesOn := by
  intro s hs
  cases hr : s.running with
  | none => exact step_goesOn_of_port hr
  | some r =>
    rw [step, hr]
    exact readStep_goesOn hs r

/-- Settles O15: the top bits of a distance are its slot (`distSlot_of_top_bit`), and a slot's distances are those from its base
on (`distSlot_eq_iff`). -/
theorem distanceSlots : Obligations.DistanceSlots := by
  refine ⟨fun d h => if_pos h, fun d n => distSlot_of_top_bit, fun slot d h4 _ => ?_⟩
  show distSlot d = slot ↔ (2 ||| (slot &&& 1)) <<< slotBits slot ≤ d ∧
    d ≤ (2 ||| (slot &&& 1)) <<< slotBits slot + 2 ^ slotBits slot - 1
  have hpow := Nat.two_pow_pos (slotBits slot)
  rw [slotBase_eq_shiftLeft, distSlot_eq_iff h4]
  omega

/-- Settles O42: `Decoder.executeLit_ok` and `Decoder.execute_full` on a decoder, `Encoder.codePacket_spec` on an encoder, and
`packetCtx_eq` for the context of both. -/
theorem litPacket : Obligations.LitPacket := by
  intro s r b hr
  refine ⟨fun d hc hp ht => ?_, fun d hc hfull => ?_, fun e hc hla hb hmatch => ?_, ?_⟩
  · exact exec_packet_ok hr hc rfl (Decoder.executeLit_ok b hp ht)
  · exact exec_packet_raise hr hc rfl (Decoder.executeLit_full (by omega))
  · obtain ⟨cyc, h⟩ := Encoder.codePacket_spec (p := s.params) (bytes := [b]) (lz := Lzma.afterLit)
      (emit := fun e => some (e.emit b)) (Encoder.legal_lit hla hb hmatch) (fun _ => rfl) fun e1 _ _ _ => ⟨e1.nextCyclic, rfl⟩
    exact ⟨cyc, runPacket_encoder
      (onEnc := fun p e => e.codePacket p (.lit b) Lzma.afterLit fun e => some (e.emit b)) hr hc _ h⟩
  · intro lz window size prev mb hsize hstart hprev hmb
    have hctx := packetCtx_eq hsize hstart hprev hmb
    refine ⟨?_, ?_⟩
    · rintro e rfl rfl rfl
      exact hctx
    · rintro d rfl rfl rfl
      refine ⟨hctx, fun hroom => ?_⟩
      have hasRoom : d.hasRoom s.params = true := decide_eq_true hroom
      rw [Decoder.fetch, if_pos hasRoom, Decoder.ctx, hctx]

/-- Settles O43: `Decoder.executeMatch_dataError`, `Decoder.execute_full` and `Decoder.execute_copy` on a decoder,
`runPacket_copy_encoder` on an encoder. -/
theorem matchPacket : Obligations.MatchPacket := by
  intro s r len dist hr
  refine ⟨fun d hc => ⟨fun hbad => ?_, fun hne hd hs hfull => ?_, fun hne hd hs hw hp ht => ?_⟩,
    fun e hc h2 hlim hla hafter hd hs hcopy => ?_⟩
  · exact exec_packet_raise hr hc rfl (Decoder.executeMatch_dataError hbad)
  · exact exec_packet_raise hr hc rfl ((Decoder.executeMatch_of_reaches hne ⟨hd, hs⟩).trans (Decoder.execute_full hfull))
  · obtain ⟨bytes, hlen, hcopy, hx⟩ := Decoder.execute_copy (lz := (·.afterMatch dist)) rfl hw.1 hd hs hp ht
    exact ⟨bytes, hlen, hcopy, exec_packet_ok hr hc rfl ((Decoder.executeMatch_of_reaches hne ⟨hd, hs⟩).trans hx)⟩
  · exact runPacket_copy_encoder hr hc (i := .matchDist len dist) (lz := (·.afterMatch dist)) (dist := fun _ => dist) _
      (Encoder.validPair_of_copiesNext h2 hlim hafter hla ⟨hd, hs⟩ hcopy) (fun _ => rfl) (fun _ _ => rfl) hla ⟨hd, hs⟩
      hcopy

/-- Settles O44: each packet is `exec_rep_decoder` at its own distance, which a sound window reaches. -/
theorem repPacketsDecoded : Obligations.RepPacketsDecoded := by
  intro s r d hr hc
  refine ⟨fun h0 i hi => ?_, fun hp hw h1 => ?_⟩
  · exact exec_packet_raise hr hc (isPacket_of_isRepClass hi) (Decoder.executePacket_rep_at_start hi h0)
  · have hreach {dist : Word} := hw.reaches (dist := dist) hp h1
    exact ⟨exec_rep_decoder (lz := Lzma.afterShortRep) hr hc rfl rfl rfl hw.1 h1 (hreach (by simp [Lzma.afterShortRep])),
      fun len => ⟨
        exec_rep_decoder (lz := Lzma.afterRep0) hr hc rfl rfl rfl hw.1 h1 (hreach (by simp [Lzma.afterRep0])),
        exec_rep_decoder (lz := Lzma.afterRep1) hr hc rfl rfl rfl hw.1 h1 (hreach (by simp [Lzma.afterRep1])),
        exec_rep_decoder (lz := Lzma.afterRep2) hr hc rfl rfl rfl hw.1 h1 (hreach (by simp [Lzma.afterRep2])),
        exec_rep_decoder (lz := Lzma.afterRep3) hr hc rfl rfl rfl hw.1 h1 (hreach (by simp [Lzma.afterRep3]))⟩⟩

/-- Settles O45: each packet is legal (`Encoder.legal_shortRep`, `Encoder.repLegal_of_copiesNext`) and copies from its own
distance (`runPacket_rep_encoder`). -/
theorem repPacketsEncoded : Obligations.RepPacketsEncoded := by
  intro s r e hr hc
  refine ⟨fun hla hd hs hcopy => ?_, fun len h2 hlim hafter => ?_⟩
  · exact runPacket_rep_encoder hr hc (lz := Lzma.afterShortRep) _ (Encoder.legal_shortRep hla ⟨hd, hs⟩ hcopy) (fun _ => rfl)
      hla ⟨hd, hs⟩ hcopy
  · have hlegal {dist : Word} := Encoder.repLegal_of_copiesNext (dist := dist) h2 hlim hafter
    exact ⟨
      fun hla hd hs hcopy => runPacket_rep_encoder hr hc (i := .rep0 len) (lz := Lzma.afterRep0) _
        (hlegal hla ⟨hd, hs⟩ hcopy) (fun _ => rfl) hla ⟨hd, hs⟩ hcopy,
      fun hla hd hs hcopy => runPacket_rep_encoder hr hc (i := .rep1 len) (lz := Lzma.afterRep1) _
        (hlegal hla ⟨hd, hs⟩ hcopy) (fun _ => rfl) hla ⟨hd, hs⟩ hcopy,
      fun hla hd hs hcopy => runPacket_rep_encoder hr hc (i := .rep2 len) (lz := Lzma.afterRep2) _
        (hlegal hla ⟨hd, hs⟩ hcopy) (fun _ => rfl) hla ⟨hd, hs⟩ hcopy,
      fun hla hd hs hcopy => runPacket_rep_encoder hr hc (i := .rep3 len) (lz := Lzma.afterRep3) _
        (hlegal hla ⟨hd, hs⟩ hcopy) (fun _ => rfl) hla ⟨hd, hs⟩ hcopy⟩

/-- Settles O47: `exec_eos_encoder` at an enabled close, with the trailer of `Encoder.closeAction_of_marker` and the status of
`Encoder.afterClose`. -/
theorem memberClose : Obligations.MemberClose := by
  intro s r e hr hc hp ending view limit ps e1 closed
  have hclose := Encoder.closeAction_of_marker (e := e) (e1 := e1) (by rw [packetDecisions_eos]; rfl)
  have hrun := exec_eos_encoder hr hc
  obtain ⟨hla, hsync⟩ := e.closeAction_status
  clear_value e1
  refine ⟨fun hview hlimit => ?_, fun h0 hs => ?_, fun h0 hs hf => ?_⟩
  · rw [hrun (Encoder.closeEnabled_of_limit hp hview.1 hview.2 hlimit),
      Encoder.afterClose_limit (hview.1.trans_eq hla.symm), hclose]
  · rw [hrun (Encoder.closeEnabled_of_end _ hp h0 (.inr hs)),
      Encoder.afterClose_sync (hla.trans h0) (hsync.trans hs), hclose]
  · rw [hrun (Encoder.closeEnabled_of_end _ hp h0 (.inl hf)),
      Encoder.afterClose_finish (hla.trans h0) (hsync.trans hs), hclose]

/-- Settles O12: the tables by evaluation; the marker leaves the LZMA registers on both sides. -/
theorem stateTransitions : Obligations.StateTransitions := by
  refine ⟨by decide, by decide, by decide, by decide, fun lz => ⟨rfl, fun _ => rfl, rfl, rfl, rfl, rfl, rfl⟩,
    fun d d' h => ?_, fun p e e' => Encoder.codeEos_lz⟩
  unfold Decoder.executeEos at h
  split at h <;> cases h
  rfl

/-- Settles O46: the marker asks for `RD.code = 0`. -/
theorem eosDecoded : Obligations.EosDecoded := by
  intro s r d hr hc
  exact ⟨fun h => exec_packet_ok hr hc rfl (Decoder.executeEos_ok h),
    fun h => exec_packet_raise hr hc rfl (Decoder.executeEos_dataError h)⟩
end

section
/-! PROOFS. Family 43, match-finder: every pair reported is valid (R331 to R333), every position passed over is inserted (R335),
the packet a step codes is legal (R345), and what the encoder's introspection commands answer (R422, R428 to R430). -/

namespace Sys2Proof.Machine

/-! ## Valid pairs (R331) -/

/-- What R331 asks of a pair, in terms of the window. -/
theorem Encoder.validPair_iff {e : Encoder} {pos avail len d : Nat} :
    e.validPair pos avail len d = true ↔
      2 ≤ len ∧ len ≤ min e.matchLenLimit.toNat avail ∧ d < pos ∧ d < e.dictionarySize.toNat ∧ e.keepFrom ≤ pos - d - 1 ∧
        ∀ k, k < len → ∃ b, e.window.read (pos + k) = some b ∧ e.window.read (pos - d - 1 + k) = some b := by
  simp only [Encoder.validPair, Bool.and_eq_true, decide_eq_true_eq, matchLength_eq_iff, and_assoc]

/-- The pairs reported for a position: each valid (R331), their lengths strictly rising (R333). -/
structure Encoder.pairsSound (e : Encoder) (pos avail : Nat) (pairs : List (Nat × Nat)) : Prop where
  valid : ∀ len d, (len, d) ∈ pairs → e.validPair pos avail len d = true
  rising : (pairs.map Prod.fst).Pairwise (· < ·)

/-- What a search holds of its best match: once it has the length of a match, it is a valid pair. -/
def Encoder.matchSound (e : Encoder) (pos avail : Nat) (q : Nat × Nat) : Prop :=
  2 ≤ q.1 → e.validPair pos avail q.1 q.2 = true

theorem Encoder.pairsSound_nil (e : Encoder) (pos avail : Nat) : e.pairsSound pos avail [] := ⟨nofun, List.Pairwise.nil⟩

/-- Of two equally long pairs one of the two is kept, so `addPair` makes no pair of its own. -/
theorem mem_addPair {len d : Nat} {pairs : List (Nat × Nat)} {q : Nat × Nat} (h : q ∈ addPair len d pairs) :
    q = (len, d) ∨ q ∈ pairs := by
  induction pairs with
  | nil => exact .inl (List.mem_singleton.1 h)
  | cons head rest ih =>
    obtain ⟨len', d'⟩ := head
    unfold addPair at h
    split at h
    · exact List.mem_cons.1 h
    · split at h
      · rename_i heq
        subst heq
        rcases List.mem_cons.1 h with rfl | h
        · rcases min_choice d d' with hmin | hmin <;> simp [hmin]
        · exact .inr (List.mem_cons_of_mem _ h)
      · rcases List.mem_cons.1 h with rfl | h
        · exact .inr List.mem_cons_self
        · exact (ih h).imp_right (List.mem_cons_of_mem _)

theorem addPair_rising (len d : Nat) {pairs : List (Nat × Nat)} (h : (pairs.map Prod.fst).Pairwise (· < ·)) :
    ((addPair len d pairs).map Prod.fst).Pairwise (· < ·) := by
  induction pairs with
  | nil => exact List.pairwise_singleton _ _
  | cons head rest ih =>
    obtain ⟨len', d'⟩ := head
    obtain ⟨hhead, hrest⟩ := List.pairwise_cons.1 h
    unfold addPair
    split
    · rename_i hlt
      refine List.pairwise_cons.2 ⟨fun x hx => ?_, h⟩
      rcases List.mem_cons.1 hx with rfl | hx
      · exact hlt
      · exact hlt.trans (hhead x hx)
    · split
      · rename_i heq
        subst heq
        exact h
      · refine List.pairwise_cons.2 ⟨fun x hx => ?_, ih hrest⟩
        obtain ⟨q, hq, rfl⟩ := List.mem_map.1 hx
        rcases mem_addPair hq with rfl | hq
        · show len' < len
          omega
        · exact hhead _ (List.mem_map_of_mem hq)

theorem length_addMatch_nil (len d : Nat) : (addMatch len d []).length ≤ 1 := by
  unfold addMatch
  split
  · exact Nat.le_refl 1
  · exact Nat.zero_le 1

section

variable {e : Encoder} {pos avail : Nat}

theorem Encoder.pairsSound.add {pairs : List (Nat × Nat)} (h : e.pairsSound pos avail pairs) {len d : Nat}
    (hnew : e.matchSound pos avail (len, d)) : e.pairsSound pos avail (addMatch len d pairs) := by
  unfold addMatch
  split
  · rename_i h2
    refine ⟨fun l x hmem => ?_, addPair_rising len d h.rising⟩
    rcases mem_addPair hmem with heq | hold
    · cases heq
      exact hnew h2
    · exact h.valid l x hold
  · exact h

theorem Encoder.matchSound_of_reachable {c : Nat} (hc : e.reachable pos c = true) :
    e.matchSound pos avail (matchLength e.window pos c (min e.matchLenLimit.toNat avail), pos - c - 1) := by
  intro h2
  simp only [Encoder.reachable, Bool.and_eq_true, decide_eq_true_eq] at hc
  obtain ⟨⟨hlt, hdict⟩, hkeep⟩ := hc
  have hback : pos - (pos - c - 1) - 1 = c := by omega
  rw [Encoder.validPair_iff, hback]
  exact ⟨h2, matchLength_le _ _ _ _, by omega, by omega, hkeep, fun k hk => matchLength_agrees hk⟩

/-! ## What the searches report (R332, R333) -/

/-- The pair a chain walk ends with is the one it began with or one it met. -/
theorem Encoder.chainWalk_sound (k : Nat) (cand : Option Nat) {best : Nat × Nat} (h : e.matchSound pos avail best) :
    e.matchSound pos avail (e.chainWalk pos (min e.matchLenLimit.toNat avail) k cand best) := by
  induction k generalizing cand best with
  | zero => exact h
  | succ k ih =>
    cases cand with
    | none => exact h
    | some c =>
      unfold Encoder.chainWalk
      split
      · rename_i hc
        refine ih _ ?_
        split
        · exact Encoder.matchSound_of_reachable hc
        · exact h
      · exact h

theorem Encoder.sidePair_sound (cand : Option Nat) {pairs : List (Nat × Nat)} (h : e.pairsSound pos avail pairs) :
    e.pairsSound pos avail (e.sidePair pos (min e.matchLenLimit.toNat avail) cand pairs) := by
  unfold Encoder.sidePair
  split
  · split
    · rename_i hc
      exact h.add (Encoder.matchSound_of_reachable hc)
    · exact h
  · exact h

theorem Encoder.treeWalk_sound (k : Nat) (cand : Option Nat) (left right : Nat) (son : PosTable) {pairs : List (Nat × Nat)}
    (h : e.pairsSound pos avail pairs) :
    e.pairsSound pos avail (e.treeWalk pos (min e.matchLenLimit.toNat avail) k cand left right son pairs).2 := by
  induction k generalizing cand left right son pairs with
  | zero => exact h
  | succ k ih =>
    cases cand with
    | none => exact h
    | some c =>
      unfold Encoder.treeWalk
      split
      · rename_i hc
        have hnext := h.add (Encoder.matchSound_of_reachable hc)
        simp only
        split
        · exact hnext
        · split
          · exact ih _ _ _ _ hnext
          · exact ih _ _ _ _ hnext
      · exact h

theorem Encoder.mfFast_sound (p : Params) (e : Encoder) (pos avail : Nat) :
    e.pairsSound pos avail (e.mfFast p pos avail).2 ∧ (e.mfFast p pos avail).2.length ≤ 1 := by
  unfold Encoder.mfFast
  split
  · exact ⟨e.pairsSound_nil pos avail, Nat.zero_le 1⟩
  · exact ⟨(e.pairsSound_nil pos avail).add (Encoder.chainWalk_sound _ _ (best := (0, 0)) nofun), length_addMatch_nil _ _⟩

theorem Encoder.mfNormal_sound (p : Params) (e : Encoder) (pos avail : Nat) :
    e.pairsSound pos avail (e.mfNormal p pos avail).2 :=
  Encoder.treeWalk_sound _ _ _ _ _ (Encoder.sidePair_sound _ (Encoder.sidePair_sound _ (e.pairsSound_nil pos avail)))

/-- An insertion reports what its variant's search finds (R330). -/
theorem Encoder.mfInsert_sound (p : Params) (e : Encoder) (pos fin : Nat) :
    e.pairsSound pos (fin - pos) (e.mfInsert p pos fin).2 ∧ (e.variant = .fast → (e.mfInsert p pos fin).2.length ≤ 1) := by
  unfold Encoder.mfInsert
  cases e.variant with
  | fast =>
    obtain ⟨hsound, hone⟩ := e.mfFast_sound p pos (fin - pos)
    exact ⟨hsound, fun _ => hone⟩
  | normal => exact ⟨e.mfNormal_sound p pos (fin - pos), nofun⟩

end

/-! ## Legal packets (R345) -/

/-- A copy of `len` bytes from `dist` yields the next bytes, all of them in view, from inside the dictionary. -/
def Encoder.copiesInView (p : Params) (e : Encoder) (len : Nat) (dist : Word) : Prop :=
  len ≤ e.view p ∧ dist.toNat < e.lz.dataPosition.toNat ∧ dist.toNat < e.dictionarySize.toNat ∧ e.copiesNext len dist.toNat

section

variable {p : Params} {e : Encoder} {len : Nat} {dist : Word}

theorem Encoder.copiesInView_of_copyAgrees (hview : len ≤ e.view p) (h : e.copyAgrees len dist = true) :
    e.copiesInView p len dist := ⟨hview, Encoder.copyAgrees_iff.1 h⟩

theorem Encoder.copiesInView_of_repLegal (h : e.repLegal p len dist = true) :
    (2 ≤ len ∧ len ≤ e.matchLenLimit.toNat) ∧ e.copiesInView p len dist := by
  simp only [Encoder.repLegal, Bool.and_eq_true, decide_eq_true_eq] at h
  obtain ⟨⟨h2, hlen⟩, hcopy⟩ := h
  obtain ⟨hlim, hview⟩ := le_min_iff.1 hlen
  exact ⟨⟨h2, hlim⟩, Encoder.copiesInView_of_copyAgrees hview hcopy⟩

/-- A valid pair at `LZ.data_position` is a copy in view. -/
theorem Encoder.copiesInView_of_validPair (h : e.validPair e.lz.dataPosition.toNat (e.view p) len dist.toNat = true) :
    (2 ≤ len ∧ len ≤ e.matchLenLimit.toNat) ∧ e.copiesInView p len dist := by
  obtain ⟨h2, hlen, hpos, hdict, -, hbytes⟩ := Encoder.validPair_iff.1 h
  obtain ⟨hlim, hview⟩ := le_min_iff.1 hlen
  exact ⟨⟨h2, hlim⟩, hview, hpos, hdict, Encoder.copiesNext_of_matchLength hpos (matchLength_eq_iff.2 hbytes)⟩

/-- The fetch searches and plans only, so the packet it chooses is legal before it too. -/
theorem Encoder.legalPacket_fetch (hw : e.windowSound) (hview : 1 ≤ e.view p) : e.legalPacket p (e.fetch p).1 = true := by
  obtain ⟨planned, trial, hfetch⟩ := e.fetch_frame p
  have hlegal := Encoder.fetch_legal (p := p) hw (hview.trans (Nat.min_le_left _ _))
  rwa [hfetch, Encoder.legalPacket_search] at hlegal

end

/-! ## The encoder's introspection commands (R422, R428 to R430) -/

theorem withEncoder_of_chan {s : State} {c : Byte} {e : Encoder} (h : s.chan c = .enc e)
    (f : Encoder → Host.Outcome State Fault Refusal) : withEncoder s c f = f e := by
  unfold withEncoder
  rw [h]

theorem flagWord_decide (P : Prop) [Decidable P] : flagWord (decide P) = if P then 1#32 else 0#32 := by
  unfold flagWord
  simp only [decide_eq_true_eq]

theorem Encoder.memberFinishedFlag_eq (e : Encoder) :
    e.memberFinishedFlag = decide ((e.phase = .memberFinished ∨ e.phase = .finished) ∧ e.out = []) := by
  rw [Bool.eq_iff_iff]
  simp only [Encoder.memberFinishedFlag, Bool.and_eq_true, List.isEmpty_iff, decide_eq_true_eq]

section

variable {p : Params} {e : Encoder}

theorem Encoder.writeSize_of_shut (h : e.phase = .fatal ∨ e.finishing = true ∨ e.syncPending = true ∨ e.limitReached = true) :
    e.writeSize p = 0 := if_pos h

/-- While positions are left for `2^31` more bytes, the end of the position space (log 14) does not cap the free space. -/
theorem Encoder.writeSize_of_writable (hp : e.phase ≠ .fatal) (hf : e.finishing = false) (hs : e.syncPending = false)
    (hl : e.limitReached = false) (hroom : e.streamPos.toNat + 2 ^ 31 ≤ 2 ^ 64) :
    e.writeSize p = min (2 ^ 31 - 1) (if e.resumeOnWrite then e.windowSize p - e.lookahead else e.freeSpace p) := by
  have hopen : ¬ (e.phase = .fatal ∨ e.finishing = true ∨ e.syncPending = true ∨ e.limitReached = true) := by
    simp [hp, hf, hs, hl]
  unfold Encoder.writeSize
  rw [if_neg hopen]
  split
  · exact Nat.min_comm _ _
  · omega

end

end Sys2Proof.Machine

open Sys2Proof.Machine

/-- Settles O27: `Encoder.writeSize` by its cases; the flags and the errno are read from their registers. -/
theorem encoderIntrospection : Obligations.EncoderIntrospection := by
  intro s c e hc
  refine ⟨⟨_, withEncoder_of_chan hc _, fun hroom => ⟨fun hshut => ?_, fun hp hf hs hl => ?_⟩⟩, ?_, ?_,
    withEncoder_of_chan hc _⟩
  · rw [Encoder.writeSize_of_shut hshut]
  · exact congrArg _ (Encoder.writeSize_of_writable hp hf hs hl hroom)
  · rw [← flagWord_decide, ← Encoder.memberFinishedFlag_eq]
    exact withEncoder_of_chan hc _
  · rw [← flagWord_decide]
    exact withEncoder_of_chan hc _

/-- Settles O48: an insertion's pairs are sound (`Encoder.mfInsert_sound`), read by `Encoder.validPair_iff`. -/
theorem matchFinderPairsAreValid : Obligations.MatchFinderPairsAreValid := by
  intro p e pos fin
  obtain ⟨hsound, hone⟩ := e.mfInsert_sound p pos fin
  exact ⟨fun len d hmem => Encoder.validPair_iff.1 (hsound.valid len d hmem), hsound.rising, hone⟩

/-- Settles O49: the fetch leaves the tables of the search, which lists every position up to the packet's own
(`Encoder.search_spec`). -/
theorem everyPositionInserted : Obligations.EveryPositionInserted := by
  intro p e hnext dp fin key
  obtain ⟨hpast, -, hlisted⟩ := e.search_spec p
  refine ⟨hpast, fun q hfrom hto hfast => ?_⟩
  obtain ⟨q', hget, hle, hlt, hkey⟩ :=
    hlisted hnext q hfrom (Nat.lt_succ_of_le hto) fun hv => Nat.le_sub_of_add_le' (hfast hv)
  exact ⟨q', hget, hle, Nat.le_of_lt_succ hlt, hkey⟩

/-- Settles O50: the packet fetched is legal (`Encoder.legalPacket_fetch`), and a legal packet is one of seven kinds. -/
theorem chosenPacketIsLegal : Obligations.ChosenPacketIsLegal := by
  intro p e hw hview copies limited
  have hlegal := Encoder.legalPacket_fetch (p := p) hw hview
  generalize (e.fetch p).1 = i at hlegal ⊢
  cases i
  case lit b =>
    simp only [Encoder.legalPacket, Bool.and_eq_true, decide_eq_true_eq] at hlegal
    exact hlegal.1.2
  case matchDist len dist => exact Encoder.copiesInView_of_validPair hlegal
  case shortRep =>
    simp only [Encoder.legalPacket, Bool.and_eq_true] at hlegal
    exact Encoder.copiesInView_of_copyAgrees hview hlegal.2
  case rep0 | rep1 | rep2 | rep3 => exact Encoder.copiesInView_of_repLegal hlegal
  all_goals cases hlegal
end

section
/-! PROOFS. Family 44, framing and CRC: the coded dictionary sizes (R371 to R374), the CRC (R380 to R382), the header and trailer
steps (R385, R388), the resynchronisation (R393), and the member restart (R397). -/

namespace Sys2Proof.Machine

/-! ## The coded dictionary sizes (R371 to R374) -/

theorem dictValid_iff_bounds {dd : Byte} :
    dictValid dd = true ↔ 16 * 2 ^ 12 ≤ dictDecode16 dd ∧ dictDecode16 dd ≤ 16 * 2 ^ 29 := by
  rw [dictValid, minDictionarySize, maxDictionarySize, Bool.and_eq_true, decide_eq_true_eq, decide_eq_true_eq]

/-- `16 - i` sixteenths of `2 ^ n` lie in `[2 ^ 12, 2 ^ 29]` for `n` in 13 to 29, whatever `i` is, and for `n = 12` when
`i = 0` (R373). -/
theorem dictValid_iff {dd : Byte} : dictValid dd = true ↔ dd = 0x0C#8 ∨ (13 ≤ dd.toNat % 32 ∧ dd.toNat % 32 ≤ 29) := by
  refine ⟨fun hvalid => ?_, ?_⟩
  · have hbyte := dd.isLt
    obtain ⟨hlow, hhigh⟩ := dictValid_iff_bounds.1 hvalid
    unfold dictDecode16 at hlow hhigh
    rcases Nat.lt_trichotomy (dd.toNat % 32) 12 with hsmall | htwelve | hlarge
    · have hpow : 2 ^ (dd.toNat % 32) ≤ 2 ^ 11 := Nat.pow_le_pow_right (by omega) (by omega)
      have := Nat.mul_le_mul (Nat.sub_le 16 (dd.toNat / 32)) hpow
      omega
    · rw [htwelve] at hlow
      exact .inl (BitVec.eq_of_toNat_eq (by rw [BitVec.toNat_ofNat]; omega))
    · refine .inr ⟨hlarge, not_lt.1 fun hbig => ?_⟩
      have hpow : 2 ^ 30 ≤ 2 ^ (dd.toNat % 32) := Nat.pow_le_pow_right (by omega) hbig
      have := Nat.mul_le_mul (show 9 ≤ 16 - dd.toNat / 32 by omega) hpow
      omega
  · rintro (rfl | ⟨h1, h2⟩)
    · decide
    · exact dictValid_of_exponent h1 h2

/-- A byte of fraction `i` and exponent `n` decodes to `16 - i` units of `2 ^ (n - 4)` (R371). -/
theorem dictDecode_eq {dd : Byte} (h : 4 ≤ dd.toNat % 32) :
    dictDecode dd = (16 - dd.toNat / 32) * 2 ^ (dd.toNat % 32 - 4) := by
  have hpow : 2 ^ (dd.toNat % 32) = 2 ^ (dd.toNat % 32 - 4) * 16 := (pow_sub_mul_pow 2 h).symm
  rw [dictDecode, dictDecode16, hpow, ← Nat.mul_assoc, Nat.mul_div_cancel _ (by omega)]

theorem dictDecode_ge_min {dd : Byte} (h : dictValid dd = true) : 2 ^ 12 ≤ dictDecode dd := by
  obtain ⟨hlow, -⟩ := dictValid_iff_bounds.1 h
  unfold dictDecode
  omega

/-- A byte that suffices for a size above `2 ^ (b - 1)` has exponent `b`, or it suffices for `2 ^ b` too. -/
theorem dictDecode_sufficient {dd : Byte} {b : Nat} (hvalid : dictValid dd = true) (hb : 4 < b)
    (hsize : 2 ^ (b - 1) < dictDecode dd) :
    (∃ i, dictDecode dd = (16 - i) * 2 ^ (b - 4)) ∨ 2 ^ b ≤ dictDecode dd := by
  have hexp : 4 ≤ dd.toNat % 32 := by
    rcases dictValid_iff.1 hvalid with rfl | ⟨h13, -⟩
    · decide
    · omega
  have hbyte := dd.isLt
  rw [dictDecode_eq hexp] at hsize ⊢
  rcases Nat.lt_trichotomy b (dd.toNat % 32) with hlt | rfl | hgt
  · refine .inr ?_
    calc 2 ^ b = 8 * 2 ^ (b - 3) := (pow_mul_pow_sub 2 (show 3 ≤ b by omega)).symm
      _ ≤ (16 - dd.toNat / 32) * 2 ^ (dd.toNat % 32 - 4) :=
        Nat.mul_le_mul (by omega) (Nat.pow_le_pow_right (by omega) (by omega))
  · exact .inl ⟨_, rfl⟩
  · refine absurd hsize (Nat.not_lt.2 ?_)
    calc (16 - dd.toNat / 32) * 2 ^ (dd.toNat % 32 - 4) ≤ 16 * 2 ^ (b - 1 - 4) :=
          Nat.mul_le_mul (Nat.sub_le _ _) (Nat.pow_le_pow_right (by omega) (by omega))
      _ = 2 ^ (b - 1) := pow_mul_pow_sub 2 (show 4 ≤ b - 1 by omega)

/-- The size a large enough request is coded as: all units of `2 ^ (b - 4)` that the request leaves of `2 ^ b` are taken off
(R374). -/
theorem dictDecode_dictEncode {size : Nat} (hlow : 2 ^ 12 < size) (hhigh : size ≤ 2 ^ 29) :
    ∃ b, 12 < b ∧ 2 ^ (b - 1) < size ∧ size ≤ 2 ^ b ∧
      dictDecode (dictEncode size) = (16 - (2 ^ b - size) / 2 ^ (b - 4)) * 2 ^ (b - 4) := by
  have h12 : ¬ ceilLog2 size ≤ 12 := fun hb => absurd ((ceilLog2_le_iff (by omega)).1 hb) (by omega)
  have h29 : ceilLog2 size ≤ 29 := (ceilLog2_le_iff (by omega)).2 hhigh
  have hpow : size ≤ 2 ^ ceilLog2 size := (ceilLog2_le_iff (by omega)).1 le_rfl
  have hhalf : ¬ size ≤ 2 ^ (ceilLog2 size - 1) := fun hle => by
    have := (ceilLog2_le_iff (by omega)).2 hle
    omega
  have henc : dictEncode size =
      BitVec.ofNat 8 ((2 ^ ceilLog2 size - size) / 2 ^ (ceilLog2 size - 4) * 32 + ceilLog2 size) := if_neg (by omega)
  refine ⟨ceilLog2 size, by omega, by omega, hpow, ?_⟩
  generalize ceilLog2 size = b at *
  have hsplit : 2 ^ (b - 1) = 8 * 2 ^ (b - 4) := (pow_mul_pow_sub 2 (show 3 ≤ b - 1 by omega)).symm
  have hdouble : 2 ^ b = 2 * 2 ^ (b - 1) := (pow_mul_pow_sub 2 (show 1 ≤ b by omega)).symm
  have hfrac : (2 ^ b - size) / 2 ^ (b - 4) < 8 := (Nat.div_lt_iff_lt_mul (Nat.two_pow_pos _)).2 (by omega)
  have hbyte : (dictEncode size).toNat = (2 ^ b - size) / 2 ^ (b - 4) * 32 + b := by
    rw [henc, BitVec.toNat_ofNat]
    omega
  have hexp : (dictEncode size).toNat % 32 = b := by omega
  rw [dictDecode_eq (by omega), hexp, hbyte]
  congr 2
  omega

/-! ## The CRC (R380, R382) -/

/-- The steps of a table entry are linear over exclusive or. -/
theorem crcShift_xor (a b : Word) : crcShift (a ^^^ b) = crcShift a ^^^ crcShift b := by
  unfold crcShift
  rw [BitVec.getLsbD_xor, BitVec.ushiftRight_xor_distrib]
  cases a.getLsbD 0 <;> cases b.getLsbD 0 <;>
    simp only [Bool.xor_false, Bool.xor_true, Bool.not_false, Bool.not_true, Bool.false_eq_true, if_true, if_false]
  · ac_rfl
  · ac_rfl
  · calc a >>> 1 ^^^ b >>> 1 = (0xEDB88320#32 ^^^ 0xEDB88320#32) ^^^ (a >>> 1 ^^^ b >>> 1) := by
          rw [BitVec.xor_self, BitVec.zero_xor]
      _ = 0xEDB88320#32 ^^^ a >>> 1 ^^^ (0xEDB88320#32 ^^^ b >>> 1) := by ac_rfl

theorem repeat_crcShift_xor (n : Nat) (a b : Word) :
    Nat.repeat crcShift n (a ^^^ b) = Nat.repeat crcShift n a ^^^ Nat.repeat crcShift n b := by
  induction n with
  | zero => rfl
  | succ n ih => rw [Nat.repeat, ih, crcShift_xor]; rfl

/-- Low bits that are 0 are shifted out with no use of the polynomial. -/
theorem repeat_crcShift_of_low_zero {v : Word} {n : Nat} (h : ∀ i, i < n → v.getLsbD i = false) :
    Nat.repeat crcShift n v = v >>> n := by
  induction n with
  | zero => rfl
  | succ n ih =>
    have hbit : (v >>> n).getLsbD 0 = false := by rw [BitVec.getLsbD_ushiftRight]; exact h n (Nat.lt_succ_self n)
    rw [Nat.repeat, ih fun i hi => h i (Nat.lt_succ_of_lt hi), crcShift, hbit, BitVec.shiftRight_add]
    rfl

theorem setWidth_byte_ushiftRight (b : Byte) : b.setWidth 32 >>> 8 = 0#32 := by
  refine BitVec.eq_of_toNat_eq ?_
  rw [BitVec.toNat_ushiftRight, BitVec.toNat_setWidth_of_le (by omega), Nat.shiftRight_eq_div_pow, Nat.div_eq_of_lt b.isLt]
  rfl

/-- Eight steps use the polynomial as the low byte says, which is its table entry, and shift the bits above it down. -/
theorem repeat_crcShift_eight (v : Word) : Nat.repeat crcShift 8 v = crcTable (v.setWidth 8) ^^^ (v >>> 8) := by
  have hsplit : v = (v.setWidth 8).setWidth 32 ^^^ (v ^^^ (v.setWidth 8).setWidth 32) := by
    rw [BitVec.xor_comm v, ← BitVec.xor_assoc, BitVec.xor_self, BitVec.zero_xor]
  have hlow : ∀ i, i < 8 → (v ^^^ (v.setWidth 8).setWidth 32).getLsbD i = false := fun i hi => by
    simp [hi, show i < 32 by omega]
  have hhigh : (v ^^^ (v.setWidth 8).setWidth 32) >>> 8 = v >>> 8 := by
    rw [BitVec.ushiftRight_xor_distrib, setWidth_byte_ushiftRight, BitVec.xor_zero]
  calc Nat.repeat crcShift 8 v
      = Nat.repeat crcShift 8 ((v.setWidth 8).setWidth 32) ^^^ Nat.repeat crcShift 8 (v ^^^ (v.setWidth 8).setWidth 32) := by
        rw [← repeat_crcShift_xor, ← hsplit]
    _ = crcTable (v.setWidth 8) ^^^ (v >>> 8) := by rw [repeat_crcShift_of_low_zero hlow, hhigh]; rfl

/-! ## Headers (R370, R385, R393) -/

/-- The three checks of R385: magic, version and size byte. -/
theorem validHeader_six {b0 b1 b2 b3 v dd : Byte} {bytes rest : List Byte} (h : bytes = b0 :: b1 :: b2 :: b3 :: v :: dd :: rest) :
    validHeader bytes = true ↔
      [b0, b1, b2, b3] = [0x4C#8, 0x5A#8, 0x49#8, 0x50#8] ∧ v = 0x01#8 ∧ dictValid dd = true := by
  simp [h, validHeader, headerPrefix, and_assoc]

theorem validHeader_iff {bytes : List Byte} :
    validHeader bytes = true ↔ ∃ dd rest, dictValid dd = true ∧ bytes = headerPrefix ++ dd :: rest := by
  constructor
  · intro h
    unfold validHeader at h
    split at h
    · rw [Bool.and_eq_true, decide_eq_true_eq] at h
      exact ⟨_, _, h.2, congrArg (· ++ _ :: _) h.1⟩
    · cases h
  · rintro ⟨dd, rest, hvalid, rfl⟩
    exact hvalid

theorem headerStart_iff {bytes : List Byte} : headerStart bytes = true ↔ bytes <+: headerPrefix := List.isPrefixOf_iff_prefix

/-! ## Member steps of the decoder (R385, R388) -/

section

variable {d : Decoder} {p : Params} {b0 b1 b2 b3 v dd : Byte} {rest : List Byte}

theorem Decoder.headerStep_short (h : d.inp.length < 6) : d.headerStep p =
    if d.finishing then .raise (if headerStart d.inp then .unexpectedEof else .headerError) d else .hold := if_pos h

/-- The header step with six bytes or more (R385). -/
theorem Decoder.headerStep_six (h : d.inp = b0 :: b1 :: b2 :: b3 :: v :: dd :: rest) : d.headerStep p =
    if validHeader d.inp = false then .raise .headerError d
    else if p.maxWindowBytes < dictDecode dd then .raise .memError d
    else if 2 ^ 64 ≤ d.totalIn.toNat + 6 then .raise .libraryError d
    else .ok () (d.acceptHeader dd) := by
  have hlen : ¬ d.inp.length < 6 := by simp [h]
  rw [Decoder.headerStep, if_neg hlen, h]
  show (if [b0, b1, b2, b3, v] ≠ headerPrefix then _ else if (!dictValid dd) = true then _ else _) =
    if (decide ([b0, b1, b2, b3, v] = headerPrefix) && dictValid dd) = false then _ else _
  by_cases hpre : [b0, b1, b2, b3, v] = headerPrefix
  · rw [if_neg (not_not.2 hpre), decide_eq_true hpre]
    cases dictValid dd <;> rfl
  · rw [if_pos hpre, decide_eq_false hpre]
    rfl

end

/-- A header step, in a read that the output FIFO does not satisfy (R444). -/
theorem step_header {s : State} {r : Run} {d : Decoder} (hrun : s.running = some r) (hchan : s.chan r.chan = .dec d)
    (hphase : d.phase = .idle) (hmore : r.got.length + d.out.length < r.n) :
    step s = decoderStep s { r with got := r.got ++ d.out } { d with out := [] }
      (Decoder.headerStep s.params { d with out := [] }) := by
  rw [step_decoder hrun hchan hmore, decoderIteration_idle (by exact hphase) (Run.not_full hmore)]

/-- A trailer step, in a read that the output FIFO does not satisfy (R444). -/
theorem step_trailer {s : State} {r : Run} {d : Decoder} (hrun : s.running = some r) (hchan : s.chan r.chan = .dec d)
    (hphase : d.phase = .inMember) (hpart : d.part = .trailer) (hmore : r.got.length + d.out.length < r.n) :
    step s = decoderStep s { r with got := r.got ++ d.out } { d with out := [] } (Decoder.trailerStep { d with out := [] }) := by
  rw [step_decoder hrun hchan hmore, decoderIteration_trailer (by exact hphase) (by exact hpart) (Run.not_full hmore)]

/-- A member step that holds ends the read with the decoder as it was (R20, R444). -/
theorem decoderStep_hold {s : State} {r : Run} {d : Decoder} (hp : d.phase ≠ .memberFinished) :
    decoderStep s r d .hold = .next ((s.setChan r.chan (.dec d)).endRead r .ok) := by
  show Host.Outcome.next (s.endDecoderRead r d .ok) = _
  rw [State.endDecoderRead, Decoder.finishedCheck_of_ne hp]

section

variable {d : Decoder}

theorem Decoder.trailerStep_short (h : d.inp.length < 20) :
    d.trailerStep = if d.finishing then .raise .unexpectedEof d else .hold := if_pos h

/-- The trailer step with twenty bytes or more and room in the counters (R388). -/
theorem Decoder.trailerStep_twenty {t rest : List Byte} (hi : d.inp = t ++ rest) (hlen : t.length = 20)
    (hc : d.inputCountersHold 20 = true) :
    let d20 := { d with inp := rest, memberPosition := d.memberPosition + 20#64, totalIn := d.totalIn + 20#64 }
    d.trailerStep =
      if Decoder.trailerMatches d20 t then .ok () { d20 with phase := .memberFinished } else .raise .dataError d20 := by
  have hmore : ¬ d.inp.length < 20 := by simp [hi, hlen]
  rw [Decoder.trailerStep, if_neg hmore, hc, hi, List.take_left' hlen, List.drop_left' hlen]
  rfl

/-- The trailer's three fields are the CRC, the data size and the member size (R388). -/
theorem Decoder.trailerMatches_iff {crc size member : List Byte} (hcrc : crc.length = 4) (hsize : size.length = 8)
    (hmember : member.length = 8) : d.trailerMatches (crc ++ size ++ member) = true ↔
      leValue crc = (crcFinal d.crc).toNat ∧ leValue size = d.lz.dataPosition.toNat ∧
        leValue member = d.memberPosition.toNat := by
  have hfields : (crc ++ size ++ member).take 4 = crc ∧ ((crc ++ size ++ member).drop 4).take 8 = size ∧
      ((crc ++ size ++ member).drop 12).take 8 = member := by
    refine ⟨?_, ?_, ?_⟩
    · rw [List.append_assoc, List.take_left' hcrc]
    · rw [List.append_assoc, List.drop_left' hcrc, List.take_left' hsize]
    · rw [List.drop_left' (by simp [hcrc, hsize]), List.take_of_length_le hmember.le]
  obtain ⟨h1, h2, h3⟩ := hfields
  rw [Decoder.trailerMatches, h1, h2, h3, Bool.and_eq_true, Bool.and_eq_true, decide_eq_true_eq, decide_eq_true_eq,
    decide_eq_true_eq, and_assoc]

end

/-! ## The resynchronisation (R393) -/

/-- Where the search stops is what its two checks say. -/
theorem resyncStop_iff (bytes : List Byte) : resyncStop bytes ↔ validHeader bytes = true ∨ headerStart bytes = true := by
  rw [validHeader_iff, headerStart_iff]
  constructor
  · rintro ⟨dd, hvalid, ⟨rest, hbytes⟩ | ⟨hlen, hpre⟩⟩
    · exact .inl ⟨dd, rest, hvalid, hbytes⟩
    · exact .inr (List.prefix_of_prefix_length_le hpre (List.prefix_append _ _) (Nat.le_of_lt_succ hlen))
  · rintro (⟨dd, rest, hvalid, hbytes⟩ | hpre)
    · exact ⟨dd, hvalid, .inl ⟨rest, hbytes⟩⟩
    · exact ⟨0x0C#8, by decide, .inr ⟨Nat.lt_succ_of_le hpre.length_le, hpre.trans (List.prefix_append _ _)⟩⟩

/-- The search keeps the input from the first place where it may stop, and counts what it discards. -/
theorem resyncSearch_spec (bytes : List Byte) : ∃ dropped, bytes = dropped ++ (resyncSearch bytes).1 ∧
    (resyncSearch bytes).2 = dropped.length ∧ resyncStop (resyncSearch bytes).1 ∧
      ∀ k, k < dropped.length → ¬ resyncStop (bytes.drop k) := by
  induction bytes with
  | nil => exact ⟨[], rfl, rfl, (resyncStop_iff []).2 (.inr rfl), nofun⟩
  | cons b rest ih =>
    by_cases hstop : resyncStop (b :: rest)
    · have hsearch : resyncSearch (b :: rest) = (b :: rest, 0) :=
        if_pos (Bool.or_eq_true _ _ ▸ (resyncStop_iff _).1 hstop)
      rw [hsearch]
      exact ⟨[], rfl, rfl, hstop, nofun⟩
    · have hsearch : resyncSearch (b :: rest) = ((resyncSearch rest).1, (resyncSearch rest).2 + 1) :=
        if_neg fun h => hstop ((resyncStop_iff _).2 ((Bool.or_eq_true _ _).mp h))
      obtain ⟨dropped, hrest, hcount, hkept, hbefore⟩ := ih
      rw [hsearch]
      refine ⟨b :: dropped, congrArg (b :: ·) hrest, congrArg (· + 1) hcount, hkept, fun k hk => ?_⟩
      cases k with
      | zero => exact hstop
      | succ k => exact hbefore k (Nat.lt_of_succ_lt_succ hk)

theorem withDecoder_of_chan {s : State} {c : Byte} {d : Decoder} (h : s.chan c = .dec d)
    (f : Decoder → Host.Outcome State Fault Refusal) : withDecoder s c f = f d := by
  unfold withDecoder
  rw [h]

/-! ## The member restart (R397) -/

theorem State.setChan_setChan (s : State) (c : Byte) (ch ch' : Channel) : (s.setChan c ch).setChan c ch' = s.setChan c ch' := by
  simp only [State.setChan, List.set_set]

/-- The look-ahead is at positions 0 up of the restarted member (R397). -/
theorem Encoder.memberRestart_read {e : Encoder} (h : e.windowSound) (k : Nat) :
    e.memberRestart.window.read k = if k < e.lookahead then e.window.read (e.lz.dataPosition.toNat + k) else none := by
  obtain ⟨hwin, hle, -⟩ := h
  have hfit : e.lz.dataPosition.toNat + e.lookahead ≤ e.streamPos.toNat := by unfold Encoder.lookahead; omega
  obtain ⟨hlen, hbytes⟩ := Memory.readList_spec hwin e.lz.dataPosition.toNat e.lookahead hfit
  show (Memory.writeList [] 0 (e.window.readList e.lz.dataPosition.toNat e.lookahead)).read k = _
  rw [Memory.read_writeList, hlen, Nat.zero_add, Nat.sub_zero]
  split
  · rename_i hk
    rw [if_pos hk.2, hbytes k hk.2]
  · rename_i hk
    rw [if_neg fun hlt => hk ⟨Nat.zero_le k, hlt⟩]
    rfl

/-- The first bytes after a sync-flush close are staged in the restarted member (R423). -/
theorem Encoder.stage_resume (p : Params) {e : Encoder} {bytes : List Byte} (hresume : e.resumeOnWrite = true)
    (hbytes : bytes ≠ []) : e.stage p bytes = e.memberRestart.stage p bytes := by
  unfold Encoder.stage
  rw [if_pos ⟨hresume, hbytes⟩, if_neg (show ¬ (e.memberRestart.resumeOnWrite = true ∧ bytes ≠ []) from nofun)]

/-- A write of bytes to a channel that takes them. -/
theorem execEncWrite_stages {s : State} {c : Byte} {e : Encoder} {n : Word} (bytes : List Byte) (hc : s.chan c = .enc e)
    (hn : lengthNegative n = false) (hp : e.phase ≠ .fatal) (hf : e.finishing = false) :
    execEncWrite c n bytes s = .next (s.encRespond c (e.stage s.params bytes).1 .ok
      [BitVec.ofNat 32 (e.stage s.params bytes).2]) := by
  rw [execEncWrite, withEncoder_of_chan hc, hn, hf, if_neg Bool.false_ne_true, if_neg hp, if_neg Bool.false_ne_true]

end Sys2Proof.Machine

open Sys2Proof Sys2Proof.Machine

/-- Settles O13: the count by evaluation, the bytes by `dictValid_iff`. -/
theorem validDictionaryBytes : Obligations.ValidDictionaryBytes :=
  ⟨by decide +kernel, fun _ => dictValid_iff⟩

/-- Settles O14: with `2 ^ (b - 1) < size ≤ 2 ^ b` the byte takes off `2 ^ b` all the units it can (`dictDecode_dictEncode`), and
a byte of another exponent codes less than `size` or at least `2 ^ b` (`dictDecode_sufficient`). -/
theorem dictEncodeIsLeast : Obligations.DictEncodeIsLeast := by
  intro size hlow hhigh
  refine ⟨dictEncode_valid hhigh, ?_⟩
  rcases hlow.eq_or_lt with rfl | hlarge
  · exact ⟨by decide, fun dd hvalid _ => dictDecode_ge_min hvalid⟩
  · obtain ⟨b, hb, hhalf, hpow, hsize⟩ := dictDecode_dictEncode hlarge hhigh
    have hunits : 2 ^ b = 16 * 2 ^ (b - 4) := (pow_mul_pow_sub 2 (show 4 ≤ b by omega)).symm
    rw [hsize]
    refine ⟨?_, fun dd hvalid hfit => ?_⟩
    · have htaken := Nat.div_mul_le_self (2 ^ b - size) (2 ^ (b - 4))
      rw [Nat.sub_mul]
      omega
    · rcases dictDecode_sufficient hvalid (by omega) (hhalf.trans_le hfit) with ⟨i, hi⟩ | hall
      · have htaken : i ≤ (2 ^ b - size) / 2 ^ (b - 4) := by
          rw [hi, Nat.sub_mul] at hfit
          exact (Nat.le_div_iff_mul_le (Nat.two_pow_pos _)).2 (by omega)
        rw [hi]
        exact Nat.mul_le_mul_right _ (Nat.sub_le_sub_left htaken 16)
      · exact (Nat.mul_le_mul_right _ (Nat.sub_le _ _)).trans (hunits ▸ hall)

/-- Settles O16: the step is linear (`crcShift_xor`); the low byte is what the table was made of, and the bits above it are
shifted down (`repeat_crcShift_of_low_zero`). -/
theorem crcIsBitSerial : Obligations.CrcIsBitSerial := by
  intro c b
  have hbits : (c ^^^ b.setWidth 32) >>> 8 = c >>> 8 := by
    rw [BitVec.ushiftRight_xor_distrib, setWidth_byte_ushiftRight, BitVec.xor_zero]
  rw [crcUpdate, ← hbits]
  exact (repeat_crcShift_eight _).symm

/-- Settles O22: below six bytes the step waits or fails (`Decoder.headerStep_short`), and with six it runs its checks in order
(`Decoder.headerStep_six`). -/
theorem headerStep : Obligations.HeaderStep := by
  intro s r d hrun hchan hphase hmore r' fails
  have hstep := step_header hrun hchan hphase hmore
  have hfails : ∀ {err}, Decoder.headerStep s.params { d with out := [] } = .raise err { d with out := [] } → fails err :=
    fun h => hstep.trans (by rw [h]; rfl)
  refine ⟨fun hlen hf => ?_, fun hlen hf hpre => hfails ?_, fun hlen hf hpre => hfails ?_, fun b0 b1 b2 b3 v dd rest hi => ?_⟩
  · rw [hstep, Decoder.headerStep_short (by exact hlen), if_neg (by simp [hf]), decoderStep_hold (by simp [hphase])]
  · rw [Decoder.headerStep_short (by exact hlen), if_pos (by exact hf), if_pos (headerStart_iff.2 hpre)]
  · rw [Decoder.headerStep_short (by exact hlen), if_pos (by exact hf), if_neg (mt headerStart_iff.1 hpre)]
  · have hsix := Decoder.headerStep_six (d := { d with out := [] }) (p := s.params) hi
    refine ⟨fun hbad => hfails (hsix.trans (if_pos ?_)), fun hmagic hv hvalid => ?_⟩
    · refine Bool.eq_false_of_not_eq_true fun h => ?_
      obtain ⟨hmagic, hv, hvalid⟩ := (validHeader_six hi).1 h
      simp [hmagic, hv, hvalid] at hbad
    · replace hsix := hsix.trans (if_neg (by simp [(validHeader_six hi).2 ⟨hmagic, hv, hvalid⟩]))
      refine ⟨fun hmem => hfails (hsix.trans (if_pos hmem)), fun hmem hfull => hfails ?_, fun hmem hroom => ?_⟩
      · rw [hsix, if_neg (Nat.not_lt.2 hmem), if_pos hfull]
      · rw [hstep, hsix, if_neg (Nat.not_lt.2 hmem), if_neg (Nat.not_le.2 hroom)]
        have hrest : rest = d.inp.drop 6 := by rw [hi]; rfl
        rw [hrest]
        rfl

/-- Settles O24: below twenty bytes the step waits or fails (`Decoder.trailerStep_short`), and with twenty it checks the three
fields (`Decoder.trailerStep_twenty`, `Decoder.trailerMatches_iff`). -/
theorem trailerStep : Obligations.TrailerStep := by
  intro s r d hrun hchan hphase hpart hmore r'
  have hstep := step_trailer hrun hchan hphase hpart hmore
  refine ⟨fun hlen hf => ?_, fun hlen hf => ?_, fun crc size member rest hi hcrc hsize hmember hp ht => ?_⟩
  · rw [hstep, Decoder.trailerStep_short (by exact hlen), if_neg (by simp [hf]), decoderStep_hold (by simp [hphase])]
  · rw [hstep, Decoder.trailerStep_short (by exact hlen), if_pos (by exact hf)]
    rfl
  · intro good d20
    have hlen : (crc ++ size ++ member).length = 20 := by simp [hcrc, hsize, hmember]
    have htwenty := Decoder.trailerStep_twenty (d := { d with out := [] }) hi hlen
      ((Decoder.inputCountersHold_iff _ _).2 ⟨hp, ht⟩)
    have hpos : d20.memberPosition.toNat = d.memberPosition.toNat + 20 := by
      simp only [d20, BitVec.toNat_add, BitVec.toNat_ofNat]
      omega
    have hmatch := Decoder.trailerMatches_iff (d := d20) hcrc hsize hmember
    rw [hpos] at hmatch
    refine ⟨fun hgood => ?_, fun hbad => ?_⟩
    · rw [hstep, htwenty.trans (if_pos (hmatch.2 hgood))]
      rfl
    · rw [hstep, htwenty.trans (if_neg (mt hmatch.1 hbad))]
      rfl

/-- Settles O32: the search of `resyncSearch_spec`, with room in the counter for what it discards. -/
theorem resynchronisation : Obligations.Resynchronisation := by
  intro s c d hc
  refine ⟨fun hleave hroom => ?_, fun hp h1 h2 => ?_⟩
  · obtain ⟨dropped, hinp, hcount, hstop, hbefore⟩ := resyncSearch_spec d.inp
    refine ⟨dropped, _, hinp, hstop, hbefore, ?_⟩
    have hlen := congrArg List.length hinp
    rw [List.length_append] at hlen
    show execDecSyncToMember c s = _
    have hresync : d.resync = .ok () (d.leaveFatalAt (resyncSearch d.inp).1 dropped.length) := by
      rw [← hcount]
      exact if_pos (by omega)
    rw [execDecSyncToMember, withDecoder_of_chan hc, if_neg (by tauto), hresync]
    rfl
  · show execDecSyncToMember c s = _
    rw [execDecSyncToMember, withDecoder_of_chan hc, if_pos ⟨hp, h1, h2⟩]

/-- Settles O37: the command restarts the member, the write stages in the restarted member (`Encoder.stage_resume`), and the
look-ahead is moved as `Encoder.memberRestart_read` says. -/
theorem memberRestart : Obligations.MemberRestart := by
  intro s c e hc hw hp
  refine ⟨⟨e.memberRestart, ⟨_, rfl, fun k hk => ?_, fun k hk => ?_⟩, fun hlim hfin hout => ?_,
    fun n bytes hn hlen hf hresume => ?_⟩, fun hno => ?_⟩
  · exact (e.memberRestart_read hw k).trans (if_pos hk)
  · exact (e.memberRestart_read hw k).trans (if_neg (Nat.not_lt.2 hk))
  · show execEncRestartMember c s = _
    rw [execEncRestartMember, withEncoder_of_chan hc, if_neg hp, if_pos ⟨hlim, hfin, hout⟩]
    rfl
  · show execEncWrite c n bytes s = execEncWrite c n bytes _
    have hbytes : bytes ≠ [] := by
      rintro rfl
      obtain rfl : n = 0#32 := BitVec.eq_of_toNat_eq hlen.symm
      exact absurd hn (by decide)
    have hpos : lengthNegative n = false := by rw [lengthNegative, BitVec.msb_eq_toInt, decide_eq_false (by omega)]
    have hc' : (s.setChan c (.enc e.memberRestart)).chan c = .enc e.memberRestart :=
      State.chan_setChan_self s _ (State.chan_lt_enc hc)
    rw [execEncWrite_stages bytes hc hpos hp hf, execEncWrite_stages bytes hc' hpos nofun hf, State.setChan_params,
      Encoder.stage_resume s.params hresume hbytes, State.encRespond, State.encRespond, State.setChan_setChan]
  · show execEncRestartMember c s = _
    rw [execEncRestartMember, withEncoder_of_chan hc, if_neg hp, if_neg hno]
    rfl
end

section
/-! PROOFS. Family 45, host commands: how a read ends (R413, R424, R444), and that every read does. -/

namespace Sys2Proof.Machine

/-! ## The end of a read (R390, R398) -/

theorem Encoder.endCheck_eq (e : Encoder) : e.endCheck = { e with
    phase := if e.phase = .memberFinished ∧ e.finishing = true ∧ e.lookahead = 0 ∧ e.out = [] then .finished else e.phase } := by
  unfold Encoder.endCheck
  split <;> rfl

theorem Decoder.finishedCheck_eq (d : Decoder) : d.finishedCheck = { d with
    phase := if d.phase = .memberFinished ∧ d.out = [] ∧ d.inp = [] ∧ d.finishing = true then .finished else d.phase } := by
  unfold Decoder.finishedCheck
  split <;> rfl

section

variable {s : State} {r : Run} {e : Encoder} {d : Decoder}

theorem step_of_encoder (hr : s.running = some r) (hc : s.chan r.chan = .enc e) :
    step s = encoderIteration s (r.give e.out) { e with out := e.out.drop (r.take e.out) } := by
  simp only [step, hr, readStep, hc]

theorem step_of_decoder (hr : s.running = some r) (hc : s.chan r.chan = .dec d) :
    step s = decoderIteration s (r.give d.out) { d with out := d.out.drop (r.take d.out) } := by
  simp only [step, hr, readStep, hc]

/-- Outside a member no close and no packet step is enabled (R340, R342, R395). -/
theorem Encoder.not_enabled_of_phase (p : Params) (hp : e.phase ≠ .inMember) :
    e.closeEnabled p = false ∧ e.stepEnabled p = false := by
  simp [Encoder.closeEnabled, Encoder.limitClose, Encoder.endClose, Encoder.stepEnabled, hp]

/-- Nor is one while the look-ahead is short and more of it may come. -/
theorem Encoder.not_enabled_of_short {p : Params} (hla : e.lookahead < p.afterSize) (hf : e.finishing = false)
    (hs : e.syncPending = false) : e.closeEnabled p = false ∧ e.stepEnabled p = false := by
  simp [Encoder.closeEnabled, Encoder.limitClose, Encoder.endClose, Encoder.stepEnabled, Encoder.hasView, hla, hf, hs]

theorem encoderIteration_full (hf : r.full = true) : encoderIteration s r e = .next (s.endEncoderRead r e) := if_pos hf

/-- With nothing enabled a read ends (R424). -/
theorem encoderIteration_not_enabled (h : e.closeEnabled s.params = false ∧ e.stepEnabled s.params = false) :
    encoderIteration s r e = .next (s.endEncoderRead r e) := by
  rcases encoderIteration_cases (s := s) (r := r) (e := e) with hi | ⟨-, hclose, -⟩ | ⟨-, -, hstep, -⟩
  · exact hi
  · exact absurd (h.1.symm.trans hclose) Bool.false_ne_true
  · exact absurd (h.2.symm.trans hstep) Bool.false_ne_true

theorem encoderIteration_ends
    (h : r.full = true ∨ e.phase ≠ .inMember ∨
      (e.lookahead < s.params.afterSize ∧ e.finishing = false ∧ e.syncPending = false)) :
    encoderIteration s r e = .next (s.endEncoderRead r e) := by
  rcases h with hf | hp | ⟨hla, hf, hs⟩
  · exact encoderIteration_full hf
  · exact encoderIteration_not_enabled (Encoder.not_enabled_of_phase s.params hp)
  · exact encoderIteration_not_enabled (Encoder.not_enabled_of_short hla hf hs)

theorem decoderIteration_ends (h : (d.phase ≠ .fatal ∧ r.full = true) ∨ d.phase = .memberFinished ∨ d.phase = .finished) :
    decoderIteration s r d = .next (s.endDecoderRead r d .ok) := by
  rcases h with ⟨hp, hf⟩ | hp
  · exact decoderIteration_full hp hf
  · exact decoderIteration_done hp

end

/-! ## A measure for reads -/

/-- A step from `s` ends the read with one response more, or goes on with the responses as they are and a measure less than
`k`. -/
def readLowers (P : Nat → State → Prop) (k : Nat) (s : State) : Prop :=
  ∃ t, step s = .next t ∧
    (t.running = none ∧ t.responses.length = s.responses.length + 1 ∨ t.responses = s.responses ∧ ∃ k', k' < k ∧ P k' t)

/-- INDUCTION OVER A READ: if each step of the states it passes through ends it or lowers their measure `k`, it ends within
`k + 1` steps. -/
theorem run_ends {P : Nat → State → Prop} (hstep : ∀ k s, P k s → readLowers P k s) (k : Nat) (s : State) (hs : P k s) :
    ∃ n t, n ≤ k + 1 ∧ Sys2Proof.core.run n s = .next t ∧ t.running = none ∧
      t.responses.length = s.responses.length + 1 := by
  induction k using Nat.strong_induction_on generalizing s with
  | _ k ih =>
    obtain ⟨t, ht, ⟨hrun, hresp⟩ | ⟨hresp, k', hlt, hP⟩⟩ := hstep k s hs
    · exact ⟨1, t, by omega, (core_run_succ 0 ht).trans (core_run_zero t), hrun, hresp⟩
    · obtain ⟨n, u, hn, hu, hrun, hlen⟩ := ih k' hlt t hP
      exact ⟨n + 1, u, by omega, (core_run_succ n ht).trans hu, hrun, hresp ▸ hlen⟩

section

variable {s : State} {r : Run}

theorem State.endRead_responses_length (err : ErrorCode) :
    (s.endRead r err).responses.length = s.responses.length + 1 := by
  simp [State.endRead]

/-- What a packet leaves of a read's channel is put back for it. -/
theorem State.setChan_withRun (s : State) (r : Run) (ch ch' : Channel) :
    (s.withRun r ch).setChan r.chan ch' = s.withRun r ch' := by
  simp only [State.withRun, State.setChan, List.set_set]

end

/-! ## Decoder reads -/

/-- How many steps beside packets a part of a member may have before it: the load, the marker and the trailer. -/
def Part.stepsAhead : Part → Nat
  | .header => 0
  | .load => 3
  | .payload => 2
  | .trailer => 1

/-- How many steps beside packets may lie before the read ends: the header, and those of the member (R444). -/
def Decoder.stepsAhead (d : Decoder) : Nat :=
  match d.phase with
  | .idle => 4
  | .inMember => d.part.stepsAhead
  | _ => 0

theorem Decoder.stepsAhead_idle {d : Decoder} (hp : d.phase = .idle) : d.stepsAhead = 4 := by
  rw [Decoder.stepsAhead, hp]

theorem Decoder.stepsAhead_inMember {d : Decoder} {part : Part} (hp : d.phase = .inMember) (hpt : d.part = part) :
    d.stepsAhead = part.stepsAhead := by
  rw [Decoder.stepsAhead, hp, hpt]

theorem Decoder.stepsAhead_le (d : Decoder) : d.stepsAhead ≤ 4 := by
  have hpart : d.part.stepsAhead ≤ 4 := by cases d.part <;> decide
  unfold Decoder.stepsAhead
  split
  · exact Nat.le_refl 4
  · exact hpart
  · exact Nat.zero_le 4

/-- A step that goes on gives output, or has one step less ahead and takes no output back. -/
def Decoder.advances (d d' : Decoder) : Prop :=
  d'.stepsAhead ≤ d.stepsAhead ∧ d.out.length < d'.out.length ∨
    d'.stepsAhead < d.stepsAhead ∧ d.out.length ≤ d'.out.length

/-- A step beside packets: if it ends it leaves the output FIFO and has one step less ahead; if it raises it leaves the FIFO. -/
def Decoder.memberStep (d : Decoder) (x : Src Decoder Unit) : Prop :=
  0 < d.stepsAhead ∧
    x.Sat (fun _ => True) (fun d' => d'.stepsAhead < d.stepsAhead ∧ d'.out = d.out) (fun d' => d'.out = d.out)

section

variable {s : State} {r : Run} {d : Decoder}

theorem Decoder.headerStep_memberStep (p : Params) (hp : d.phase = .idle) : d.memberStep (d.headerStep p) := by
  rw [Decoder.memberStep, Decoder.stepsAhead_idle hp]
  exact ⟨by decide, (d.headerStep_frame p).mono (fun _ hv => hv) (fun _ ⟨_, hd'⟩ => hd' ▸ ⟨Nat.lt_succ_self 3, rfl⟩)
    fun _ hd' => hd' ▸ rfl⟩

theorem Decoder.loadStep_memberStep (hp : d.phase = .inMember) (hpt : d.part = .load) : d.memberStep d.loadStep := by
  rw [Decoder.memberStep, Decoder.stepsAhead_inMember hp hpt]
  have hload := d.rcLoad_fetched.mono (fun _ hv => hv) (fun _ hd' => hd') fun _ hd' => hd'.fifos.2
  refine ⟨by decide, hload.bind fun _ d' _ hd' => ⟨trivial, ?_, hd'.fifos.2⟩⟩
  rw [Decoder.stepsAhead_inMember (part := .payload) (by exact hd'.phase_eq.trans hp) rfl]
  decide

theorem Decoder.trailerStep_memberStep (hp : d.phase = .inMember) (hpt : d.part = .trailer) : d.memberStep d.trailerStep := by
  rw [Decoder.memberStep, Decoder.stepsAhead_inMember hp hpt]
  exact ⟨by decide, d.trailerStep_frame.mono (fun _ hv => hv) (fun _ ⟨_, _, hd'⟩ => hd' ▸ ⟨Nat.one_pos, rfl⟩)
    fun _ ⟨_, _, _, hd'⟩ => hd' ▸ rfl⟩

/-- A step beside packets ends the read or advances it. -/
theorem decoderStep_advances {x : Src Decoder Unit} (hx : d.memberStep x) :
    decoderStep s r d x = .next (s.endDecoderRead r d .ok) ∨
      ∃ d', decoderStep s r d x = .next (s.withRun r (.dec d')) ∧ d.advances d' := by
  obtain ⟨hahead, hx⟩ := hx
  cases x with
  | ok _ d' => exact .inr ⟨d', rfl, .inr ⟨hx.2.1, (congrArg List.length hx.2.2).ge⟩⟩
  | hold => exact .inl rfl
  | raise err d' => exact .inr ⟨d'.enterFatal err, rfl, .inr ⟨hahead, (congrArg List.length hx).ge⟩⟩

theorem one_le_packetLength {i : Instr} (hi : i.decodedPacket) (hne : i ≠ .eos) : 1 ≤ packetLength i := by
  cases i
  case lit | shortRep => exact Nat.le_refl 1
  case matchDist | rep0 | rep1 | rep2 | rep3 => exact Nat.le_of_succ_le hi.1
  case eos => exact absurd rfl hne
  all_goals exact hi.elim

/-- A fetch changes only the coder, the models and the input. -/
theorem Decoder.fetched.stepsAhead_eq {d' : Decoder} (hd : d.fetched d') : d'.stepsAhead = d.stepsAhead := by
  obtain ⟨rd, models, bytes, -, hd⟩ := hd
  rw [hd]
  rfl

theorem Decoder.fetched.part_eq {d' : Decoder} (hd : d.fetched d') : d'.part = d.part := by
  obtain ⟨rd, models, bytes, -, hd⟩ := hd
  rw [hd]

theorem Decoder.fetched.advances {d1 d' : Decoder} (hd : d.fetched d1) (h : d1.advances d') : d.advances d' := by
  unfold Decoder.advances at h ⊢
  rwa [hd.stepsAhead_eq, hd.fifos.2] at h

section

variable (hp : d.phase = .inMember) (hpt : d.part = .payload)
include hp hpt

/-- A packet that completes gives output, the marker ends the payload, and a failure leaves the channel Fatal. -/
theorem exec_packet_advances {i : Instr} (hr : s.running = some r) (hc : s.chan r.chan = .dec d) (hi : i.decodedPacket) :
    ∃ d', exec i s = .next (s.setChan r.chan (.dec d')) ∧ d.advances d' := by
  obtain ⟨d', hx, hd'⟩ := exec_packet_decoder hr hc (isPacket_of_decodedPacket hi)
  refine ⟨d', hx, ?_⟩
  rw [Decoder.advances, Decoder.stepsAhead_inMember hp hpt]
  rcases hd' with ⟨hne, lz, history, crc, bytes, totalOut, hlen, rfl⟩ | ⟨-, rfl⟩ |
    ⟨err, d2, ⟨lz, history, crc, bytes, totalOut, part, -, rfl⟩, rfl⟩
  · have hpos := one_le_packetLength hi hne
    refine .inl ⟨(Decoder.stepsAhead_inMember (by exact hp) (by exact hpt)).le, ?_⟩
    rw [List.length_append]
    omega
  · refine .inr ⟨?_, Nat.le_refl _⟩
    rw [Decoder.stepsAhead_inMember (part := .trailer) (by exact hp) rfl]
    decide
  · exact .inr ⟨Nat.two_pos, by simp [Decoder.enterFatal]⟩

theorem decoderPacket_advances (hlt : r.chan.toNat < s.channels.length) :
    decoderPacket s r d = .next (s.endDecoderRead r d .ok) ∨
      ∃ d', decoderPacket s r d = .next (s.withRun r (.dec d')) ∧ d.advances d' := by
  have hfetch := d.fetch_fetched s.params
  unfold decoderPacket
  cases hf : d.fetch s.params with
  | hold => exact .inl rfl
  | raise err d1 =>
    refine .inr ⟨d1.enterFatal err, rfl, .inr ⟨?_, (congrArg List.length (hfetch.of_raise hf).fifos.2).ge⟩⟩
    rw [Decoder.stepsAhead_inMember hp hpt]
    exact Nat.two_pos
  | ok i d1 =>
    obtain ⟨hi, hd1⟩ := hfetch.of_ok hf
    obtain ⟨d', hx, hadv⟩ := exec_packet_advances (hd1.phase_eq.trans hp) (hd1.part_eq.trans hpt)
      (State.withRun_running s r (.dec d1)) (State.chan_withRun hlt _) hi
    rw [State.setChan_withRun] at hx
    exact .inr ⟨d', hx, hd1.advances hadv⟩

end

/-- One iteration of DEC_READ ends the read or advances it. -/
theorem decoderIteration_advances (hlt : r.chan.toNat < s.channels.length) :
    (∃ err, decoderIteration s r d = .next (s.endDecoderRead r d err)) ∨
      ∃ d', r.full = false ∧ decoderIteration s r d = .next (s.withRun r (.dec d')) ∧ d.advances d' := by
  rcases decoderIteration_cases (s := s) (r := r) (d := d) with
    hend | ⟨hp, hf, hi⟩ | ⟨hp, hpt, hf, hi⟩ | ⟨hp, hpt, hf, hi⟩ | ⟨hp, hpt, hf, hi⟩
  · exact .inl hend
  all_goals rw [hi]
  · exact (decoderStep_advances (Decoder.headerStep_memberStep s.params hp)).imp (⟨_, ·⟩) fun ⟨d', h⟩ => ⟨d', hf, h⟩
  · exact (decoderStep_advances (Decoder.loadStep_memberStep hp hpt)).imp (⟨_, ·⟩) fun ⟨d', h⟩ => ⟨d', hf, h⟩
  · exact (decoderPacket_advances hp hpt hlt).imp (⟨_, ·⟩) fun ⟨d', h⟩ => ⟨d', hf, h⟩
  · exact (decoderStep_advances (Decoder.trailerStep_memberStep hp hpt)).imp (⟨_, ·⟩) fun ⟨d', h⟩ => ⟨d', hf, h⟩

theorem Run.give_got_length (r : Run) (fifo : List Byte) : (r.give fifo).got.length = r.got.length + r.take fifo := by
  simp [Run.give, Run.take]

/-- The bytes a read still lacks beyond those in the output FIFO, and the steps beside packets ahead of it. -/
def Decoder.toGo (r : Run) (d : Decoder) : Nat := r.n - r.got.length - d.out.length + d.stepsAhead

/-- Giving the FIFO's bytes leaves what is to go, and a step that advances lowers it. -/
theorem Decoder.advances.toGo_lt {d' : Decoder} (hf : (r.give d.out).full = false)
    (h : Decoder.advances { d with out := d.out.drop (r.take d.out) } d') : d'.toGo (r.give d.out) < d.toGo r := by
  have hsteps : Decoder.stepsAhead { d with out := d.out.drop (r.take d.out) } = d.stepsAhead := rfl
  have hmore : (r.give d.out).got.length < r.n :=
    Nat.lt_of_not_le fun hle => absurd (hf.symm.trans ((Run.full_iff _).2 hle)) Bool.false_ne_true
  rw [Run.give_got_length, Run.take] at hmore
  rw [Decoder.advances, hsteps, List.length_drop, Run.take] at h
  rw [Decoder.toGo, Decoder.toGo, Run.give_got_length, Run.give_n, Run.take]
  omega

end

/-- The read in progress is a decoder's with `k` bytes and steps to go. -/
def State.decoderReads (k : Nat) (s : State) : Prop :=
  ∃ r d, s.running = some r ∧ s.chan r.chan = .dec d ∧ k = d.toGo r

theorem step_decoderReads {k : Nat} {s : State} (h : s.decoderReads k) : readLowers State.decoderReads k s := by
  obtain ⟨r, d, hr, hc, rfl⟩ := h
  have hlt := State.chan_lt_dec hc
  have hstep := step_of_decoder hr hc
  rcases decoderIteration_advances (r := r.give d.out) (d := { d with out := d.out.drop (r.take d.out) }) hlt with
    ⟨err, hi⟩ | ⟨d', hf, hi, hadv⟩ <;> rw [hi] at hstep
  · exact ⟨_, hstep, .inl ⟨rfl, State.endRead_responses_length err⟩⟩
  · exact ⟨_, hstep, .inr ⟨rfl, _, hadv.toGo_lt hf, r.give d.out, d', rfl, State.chan_withRun hlt _, rfl⟩⟩

/-! ## Encoder reads -/

/-- The look-ahead still to code, and the close (R424). -/
def Encoder.stepsAhead (e : Encoder) : Nat := e.lookahead + if e.phase = .inMember then 1 else 0

theorem Encoder.phase_of_closeEnabled {p : Params} {e : Encoder} (h : e.closeEnabled p = true) : e.phase = .inMember :=
  by_contra fun hp => absurd ((Encoder.not_enabled_of_phase p hp).1.symm.trans h) Bool.false_ne_true

/-- A packet codes bytes of its look-ahead. -/
theorem Encoder.covered_stepsAhead {e : Encoder} (ds : List Decision) (lz : Lzma) {bytes : List Byte} (cyclicPos : Word)
    (h1 : 1 ≤ bytes.length) (h2 : bytes.length ≤ e.lookahead) :
    (e.covered ds lz bytes cyclicPos).stepsAhead < e.stepsAhead := by
  have hdp := Encoder.dataPosition_add h2 h1
  obtain ⟨re, models, crc, out, hcov⟩ := e.covered_frame ds lz bytes cyclicPos
  rw [hcov]
  unfold Encoder.stepsAhead
  refine Nat.add_lt_add_right ?_ _
  show e.streamPos.toNat - (e.lz.dataPosition + BitVec.ofNat 64 bytes.length).toNat < e.lookahead
  rw [hdp]
  unfold Encoder.lookahead at h2 ⊢
  omega

/-- A close leaves the look-ahead and ends the member (R394). -/
theorem Encoder.close_stepsAhead {e : Encoder} (mf : MatchFinder) (hp : e.phase = .inMember) :
    Encoder.stepsAhead { e.closeAction.afterClose with mf := mf } < e.stepsAhead := by
  obtain ⟨re, models, out, sync, resume, limit, hclose⟩ := e.close_frame
  rw [hclose]
  simp only [Encoder.stepsAhead, hp]
  exact Nat.lt_succ_self e.lookahead

/-- One iteration of ENC_READ ends the read, or closes the member or codes a packet, and leaves less to do. -/
theorem encoderIteration_advances {s : State} {r : Run} {e : Encoder} (hlt : r.chan.toNat < s.channels.length)
    (hw : e.windowSound) : encoderIteration s r e = .next (s.endEncoderRead r e) ∨
      ∃ e', encoderIteration s r e = .next (s.withRun r (.enc e')) ∧ e'.stepsAhead < e.stepsAhead := by
  rcases encoderIteration_cases (s := s) (r := r) (e := e) with hi | ⟨-, hclose, hi⟩ | ⟨-, -, hstep, hi⟩
  · exact .inl hi
  · have hx := exec_eos_encoder (State.withRun_running s r (.enc e)) (State.chan_withRun hlt _) hclose
    rw [State.setChan_withRun] at hx
    exact .inr ⟨_, hi.trans hx, Encoder.close_stepsAhead _ (Encoder.phase_of_closeEnabled hclose)⟩
  · obtain ⟨lz, bytes, cyc, hlen, h1, h2, -, hx⟩ := exec_packet_encoder
      (State.withRun_running s r (.enc (e.fetch s.params).2)) (State.chan_withRun hlt _)
      (Encoder.fetch_legal hw (Encoder.lookahead_of_stepEnabled hstep))
    rw [State.setChan_withRun] at hx
    -- the fetch searches and plans only: it leaves the phase and the positions
    exact .inr ⟨_, hi.trans hx, (Encoder.covered_stepsAhead _ lz cyc (hlen ▸ h1) (hlen ▸ h2)).trans_eq rfl⟩

/-- The read in progress is an encoder's with `k` bytes and steps to go, and the windows are sound. -/
def State.encoderReads (k : Nat) (s : State) : Prop :=
  s.windowSound ∧ ∃ r e, s.running = some r ∧ s.chan r.chan = .enc e ∧ k = e.stepsAhead

theorem step_encoderReads {k : Nat} {s : State} (h : s.encoderReads k) : readLowers State.encoderReads k s := by
  obtain ⟨hw, r, e, hr, hc, rfl⟩ := h
  have hlt := State.chan_lt_enc hc
  have hsound : e.windowSound := by
    have hch := hw.chan r.chan
    rwa [hc] at hch
  have hstep := step_of_encoder hr hc
  rcases encoderIteration_advances (r := r.give e.out) (e := { e with out := e.out.drop (r.take e.out) }) hlt hsound with
    hi | ⟨e', hi, hlt'⟩ <;> rw [hi] at hstep
  · exact ⟨_, hstep, .inl ⟨rfl, State.endRead_responses_length .ok⟩⟩
  · exact ⟨_, hstep, .inr ⟨rfl, _, hlt', stepKeepsWindowSound _ _ hw hstep, r.give e.out, e', rfl,
      State.chan_withRun hlt _, rfl⟩⟩

end Sys2Proof.Machine

open Sys2Proof.Machine

/-- Settles O59: a step of the read gives a byte, or passes one of at most four steps that are no packets, or ends the read. -/
theorem decoderReadEnds : Obligations.DecoderReadEnds := by
  intro s r d hr hc
  obtain ⟨n, t, hn, h⟩ := run_ends (P := State.decoderReads) (fun _ _ => step_decoderReads) _ s ⟨r, d, hr, hc, rfl⟩
  have hahead := d.stepsAhead_le
  unfold Decoder.toGo at hn
  exact ⟨n, t, by omega, h⟩

/-- Settles O60: a step of the read codes a byte of look-ahead, or closes the member, which is done once, or ends the read. -/
theorem encoderReadEnds : Obligations.EncoderReadEnds := by
  intro s r e hw hr hc
  obtain ⟨n, t, hn, h⟩ := run_ends (P := State.encoderReads) (fun _ _ => step_encoderReads) _ s ⟨hw, r, e, hr, hc, rfl⟩
  have hahead : e.stepsAhead ≤ e.lookahead + 1 := Nat.add_le_add_left (by split <;> omega) _
  exact ⟨n, t, by omega, h⟩

/-- Settles O9: the read gives the bytes and its iteration ends it (`encoderIteration_ends`, `decoderIteration_ends`). -/
theorem readEnds : Obligations.ReadEnds := by
  intro s r hr
  refine ⟨fun e hc => ?enc, fun d hc => ⟨fun hp => ?fatal, ?dec⟩⟩
  case enc =>
    intro give got hend out phase
    rw [step_of_encoder hr hc, encoderIteration_ends (by exact hend.imp (r.give e.out).full_iff.2 id),
      State.endEncoderRead, Encoder.endCheck_eq]
    rfl
  case fatal =>
    rw [step_of_decoder hr hc, decoderIteration_fatal (by exact hp), State.endDecoderRead,
      Decoder.finishedCheck_of_ne (by simp [hp])]
    rfl
  case dec =>
    intro hend phase
    rw [step_of_decoder hr hc, decoderIteration_ends (by exact hend.imp (And.imp id (r.give d.out).full_iff.2) id),
      State.endDecoderRead, Decoder.finishedCheck_eq]
    rfl
end

section
/-! PROOFS. Family 45, host commands: the packet a step of a read runs (R280, R281, R340, R342, R395, R413). -/

namespace Sys2Proof.Machine

/-! ## The first decisions of a packet (R283, R289) -/

section

variable {p : Params} {d : Decoder}

theorem Decoder.fetch_of_room (h : d.out.length + 273 ≤ p.outFifoCap) : d.fetch p = decPacket rangeBit d.ctx d :=
  if_pos (decide_eq_true h)

variable {c : PacketCtx} {err : ErrorCode} {d' : Decoder}

/-- A packet raises what its first decision bit raises (R289). -/
theorem decPacket_raise_first (h : rangeBit d (some (.isMatch c.state c.posState)) = .raise err d') :
    decPacket rangeBit c d = .raise err d' := by
  rw [decPacket, h]
  rfl

section

variable {d1 : Decoder} (h1 : rangeBit d (some (.isMatch c.state c.posState)) = .ok true d1)
include h1

/-- A packet whose first decision is 1 raises what its second raises. -/
theorem decPacket_raise_second (h2 : rangeBit d1 (some (.rep c.state)) = .raise err d') :
    decPacket rangeBit c d = .raise err d' := by
  rw [decPacket, h1]
  show (rangeBit d1 (some (.rep c.state))).bind _ = _
  rw [h2]
  rfl

/-- A rep packet at data position 0 fails before its third decision is asked for (R283). -/
theorem decPacket_rep_at_start (h2 : rangeBit d1 (some (.rep c.state)) = .ok true d') (hs : c.atStart = true) :
    decPacket rangeBit c d = .raise .dataError d' := by
  rw [decPacket, h1]
  show (rangeBit d1 (some (.rep c.state))).bind _ = _
  rw [h2]
  exact if_pos hs

end

end

/-! ## A step of a read -/

/-- A packet step, in a read that the output FIFO does not satisfy (R444). -/
theorem step_payload {s : State} {r : Run} {d : Decoder} (hr : s.running = some r) (hc : s.chan r.chan = .dec d)
    (hmore : r.got.length + d.out.length < r.n) (hp : d.phase = .inMember) (hpt : d.part = .payload) :
    step s = decoderPacket s { r with got := r.got ++ d.out } { d with out := [] } := by
  rw [step_decoder hr hc hmore, decoderIteration_payload (by exact hp) (by exact hpt) (Run.not_full hmore)]

section

variable {s : State} {r : Run} {e : Encoder} (hf : r.full = false)
include hf

theorem encoderIteration_close (hclose : e.closeEnabled s.params = true) :
    encoderIteration s r e = exec .eos (s.withRun r (.enc e)) := by
  rw [encoderIteration, hf, if_neg Bool.false_ne_true, if_pos hclose]

theorem encoderIteration_packet (h : e.closeEnabled s.params = false ∧ e.stepEnabled s.params = true) :
    encoderIteration s r e = exec (e.fetch s.params).1 (s.withRun r (.enc (e.fetch s.params).2)) := by
  rw [encoderIteration, hf, h.1, if_neg Bool.false_ne_true, if_neg Bool.false_ne_true, if_pos h.2]

end

/-- Below the size limit, with look-ahead in view and room in the output FIFO, it is a packet step that is enabled (R340). -/
theorem Encoder.stepEnabled_of_view {p : Params} {e : Encoder} (hp : e.phase = .inMember) (hla : 1 ≤ e.lookahead)
    (hview : p.afterSize ≤ e.lookahead ∨ e.finishing = true ∨ e.syncPending = true)
    (hlimit : ¬ e.memberSizeLimit.toNat ≤ 6 + e.re.shifts.toNat + 20 + p.memberMargin)
    (hreserve : e.out.length < p.encOutReserve) : e.closeEnabled p = false ∧ e.stepEnabled p = true := by
  have hat : e.atLimit p = false := decide_eq_false hlimit
  have hhas : e.hasView p = true := by simp [Encoder.hasView, hla, hview, or_assoc]
  have hend : e.endClose = false := by simp [Encoder.endClose, Nat.ne_of_gt hla]
  simp [Encoder.closeEnabled, Encoder.limitClose, Encoder.stepEnabled, hp, hat, hhas, hend, hreserve]

end Sys2Proof.Machine

open Sys2Proof Sys2Proof.Machine

/-- Settles O8: a decoder step fetches and runs (`step_payload`), and a fetch asks for the first decisions in order; an encoder's
step is the packet's (`Encoder.stepEnabled_of_view`) or the close's. -/
theorem stepRunsPacket : Obligations.StepRunsPacket := by
  intro s r hr
  refine ⟨fun d i d' hc hmore hp hpt hf => ?runs, fun d err d' hc hmore hp hpt hf => ⟨?raises, ?kept⟩, fun d hroom => ?bits,
    fun e hc hmore hp => ?enc⟩
  case runs =>
    rw [step_payload hr hc hmore hp hpt, decoderPacket, hf]
  case raises =>
    rw [step_payload hr hc hmore hp hpt, decoderPacket, hf]
    rfl
  case kept =>
    obtain ⟨rd, models, taken, hinp, hd'⟩ := (Decoder.fetch_fetched s.params { d with out := [] }).of_raise hf
    exact ⟨taken, rd, models, hinp, hd'⟩
  case bits =>
    intro first second
    rw [Decoder.fetch_of_room hroom]
    refine ⟨fun err d' h => decPacket_raise_first h, fun d1 h1 => ⟨fun err d' h2 => ?_, fun d' h2 h0 => ?_⟩⟩
    · exact decPacket_raise_second h1 h2
    · exact decPacket_rep_at_start h1 h2 (decide_eq_true h0)
  case enc =>
    intro e0 ending view limit
    rw [step_encoder hr hc hmore]
    refine ⟨fun ⟨hla, hview⟩ hlimit hreserve => ?_, fun ⟨hla, hview⟩ hlimit => ?_, fun hla hend => ?_⟩
    · have hstep := Encoder.stepEnabled_of_view (p := s.params) (e := e0) hp hla hview hlimit hreserve
      exact encoderIteration_packet (Run.not_full hmore) hstep
    · exact encoderIteration_close (Run.not_full hmore) (Encoder.closeEnabled_of_limit (e := e0) hp hla hview hlimit)
    · exact encoderIteration_close (Run.not_full hmore) (Encoder.closeEnabled_of_end (e := e0) s.params hp hla hend)
end

section
/-! PROOFS. Family 45, host commands: the queries, what a command to a channel of either kind answers, and what it leaves
(R410 to R465). -/

namespace Sys2Proof.Machine

/-! ## Lengths (R411) -/

theorem lengthNegative_of_neg {n : Word} (h : n.toInt < 0) : lengthNegative n = true := by
  rw [lengthNegative, BitVec.msb_eq_toInt, decide_eq_true h]

theorem lengthNegative_of_nonneg {n : Word} (h : 0 ≤ n.toInt) : lengthNegative n = false := by
  rw [lengthNegative, BitVec.msb_eq_toInt, decide_eq_false (not_lt.2 h)]

/-! ## Words of a 64-bit result (R146) -/

theorem resultWords_append (lo hi : Word) : resultWords (hi ++ lo) = [lo, hi] := by
  unfold resultWords lowWord highWord
  rw [BitVec.extractLsb'_append_eq_right, BitVec.extractLsb'_append_eq_left]

/-! ## Channels of the wrong kind (R410) -/

section

variable {s : State} {c : Byte}

theorem withEncoder_of_ne (h : ∀ e, s.chan c ≠ .enc e) (f : Encoder → Host.Outcome State Fault Refusal) :
    withEncoder s c f = .next (s.respond .badArgument [] []) := by
  unfold withEncoder
  split
  · exact absurd ‹_› (h _)
  · rfl
  · rfl

theorem withDecoder_of_ne (h : ∀ d, s.chan c ≠ .dec d) (f : Decoder → Host.Outcome State Fault Refusal) :
    withDecoder s c f = .next (s.respond .badArgument [] []) := by
  unfold withDecoder
  split
  · exact absurd ‹_› (h _)
  · rfl
  · rfl

/-- An introspection command whose result is a 64-bit register. -/
theorem introspect_u64 {d : Decoder} (hc : s.chan c = .dec d) {f : Decoder → U64} {lo hi : Word} (hv : hi ++ lo = f d) :
    introspect s c (fun d => resultWords (f d)) = .next (s.respond .ok [lo, hi] []) := by
  rw [← resultWords_append, hv]
  exact withDecoder_of_chan hc _

/-! ## Status registers -/

theorem Encoder.rejectArgument_eq (e : Encoder) :
    e.rejectArgument = { e with errno := if e.phase = .fatal then e.errno else .badArgument } := by
  unfold Encoder.rejectArgument
  split <;> rfl

theorem Decoder.rejectArgument_eq (d : Decoder) :
    d.rejectArgument = { d with errno := if d.phase = .fatal then d.errno else .badArgument } := by
  unfold Decoder.rejectArgument
  split <;> rfl

theorem Decoder.nextMemberCheck_eq (d : Decoder) : d.nextMemberCheck = { d with
    phase := if d.phase = .memberFinished ∧ d.out = [] ∧ 1 ≤ d.inp.length then .idle else d.phase } := by
  unfold Decoder.nextMemberCheck
  simp only [Nat.one_le_iff_ne_zero, ne_eq, List.length_eq_zero_iff]
  split <;> rfl

theorem Decoder.memberFinishedFlag_eq (d : Decoder) :
    d.memberFinishedFlag = decide ((d.phase = .memberFinished ∨ d.phase = .finished) ∧ d.out = []) := by
  rw [Bool.eq_iff_iff]
  simp only [Decoder.memberFinishedFlag, Bool.and_eq_true, List.isEmpty_iff, decide_eq_true_eq]

/-! ## Opening (R420, R440) -/

theorem State.chanValid_of_lt (h : c.toNat < s.channels.length) : s.chanValid c = true := decide_eq_true h

theorem execDecOpen_of_open (hlt : c.toNat < s.channels.length) (hc : s.chan c ≠ .closed) :
    execDecOpen c s = .next (s.respond .badArgument [] []) := by
  rw [execDecOpen, State.chanValid_of_lt hlt]
  split
  · rfl
  · split
    · rfl
    · rfl
    · exact absurd ‹_› hc

theorem execDecOpen_of_closed (hlt : c.toNat < s.channels.length) (hc : s.chan c = .closed) :
    execDecOpen c s = .next (s.decRespond c .init .ok []) := by
  rw [execDecOpen, State.chanValid_of_lt hlt, hc]
  rfl

variable {ds ml : Word} {lim : U64}

theorem execEncOpen_of_open (hlt : c.toNat < s.channels.length) (hc : s.chan c ≠ .closed) :
    execEncOpen c ds ml lim s = .next (s.respond .badArgument [] []) := by
  rw [execEncOpen, State.chanValid_of_lt hlt]
  split
  · rfl
  · split
    · rfl
    · rfl
    · exact absurd ‹_› hc

/-- The operand bounds, then the window's room (R420). -/
theorem execEncOpen_of_closed (hlt : c.toNat < s.channels.length) (hc : s.chan c = .closed) :
    execEncOpen c ds ml lim s =
      if openOperandsOk ds ml lim = false then .next (s.respond .badArgument [] [])
      else if s.params.maxWindowBytes < dictDecode (dictEncode ds.toNat) + s.params.beforeSize + s.params.afterSize then
        .next (s.respond .memError [] [])
      else .next (s.encRespond c (Encoder.opened (dictEncode ds.toNat) (ml.setWidth 16) lim
        (chosenVariant s.params (dictDecode (dictEncode ds.toNat)) ml.toNat)) .ok []) := by
  rw [execEncOpen, State.chanValid_of_lt hlt, hc]
  cases openOperandsOk ds ml lim <;> rfl

theorem openOperandsOk_iff : openOperandsOk ds ml lim = true ↔
    2 ^ 12 ≤ ds.toNat ∧ ds.toNat ≤ 2 ^ 29 ∧ 5 ≤ ml.toNat ∧ ml.toNat ≤ 273 ∧ 100 ≤ lim.toNat ∧ lim.toNat ≤ 2 ^ 63 - 1 := by
  simp only [openOperandsOk, Bool.and_eq_true, decide_eq_true_eq, and_assoc]
  rfl

/-! ## Writes (R423, R443) -/

/-- A write that restarts no member stages what fits (R423). -/
theorem Encoder.stage_of_not_resumed {e : Encoder} (p : Params) {bytes : List Byte}
    (h : e.resumeOnWrite = false ∨ bytes = []) : e.stage p bytes =
      let m := min bytes.length (e.writeSize p)
      ({ e with
          window := e.window.writeList e.streamPos.toNat (bytes.take m)
          streamPos := e.streamPos + BitVec.ofNat 64 m
          totalIn := e.totalIn + BitVec.ofNat 64 m }, m) := by
  have hno : ¬ (e.resumeOnWrite = true ∧ bytes ≠ []) := by
    rintro ⟨hresume, hbytes⟩
    rcases h with h | h
    · exact absurd (h.symm.trans hresume) Bool.false_ne_true
    · exact hbytes h
  rw [Encoder.stage, if_neg hno]

/-- A write of no bytes stages nothing. -/
theorem Encoder.stage_nil (p : Params) (e : Encoder) : e.stage p [] = (e, 0) := by
  rw [Encoder.stage_of_not_resumed p (.inr rfl)]
  simp [Memory.writeList]

theorem execDecWrite_pushes {d : Decoder} {n : Word} (bytes : List Byte) (hc : s.chan c = .dec d)
    (hn : lengthNegative n = false) (hp : d.phase ≠ .fatal) (hf : d.finishing = false) :
    let m := min bytes.length (s.params.inFifoCap - d.inp.length)
    execDecWrite c n bytes s = .next (s.decRespond c { d with inp := d.inp ++ bytes.take m } .ok [BitVec.ofNat 32 m]) := by
  rw [execDecWrite, withDecoder_of_chan hc, hn, hf, if_neg Bool.false_ne_true, if_neg hp, if_neg Bool.false_ne_true]

end

end Sys2Proof.Machine

open Sys2Proof Sys2Proof.Machine

/-- Settles O26: the queries by evaluation, a query word with a channel by `reservedCommandsAreRejected`. -/
theorem globalQueries : Obligations.GlobalQueries := by
  intro s
  refine ⟨rfl, rfl, rfl, rfl, rfl, rfl, fun op chan ws h1 h6 hchan hr hport => ?_⟩
  obtain ⟨-, -, hquery, -⟩ := reservedCommandsAreRejected s
  exact hquery _ ws hr hport (by rwa [opcodeField_commandWord]) (by rwa [opcodeField_commandWord])
    (by rwa [chanField_commandWord])

/-- Settles O33: such a command is run by `withEncoder` or `withDecoder`. -/
theorem wrongChannel : Obligations.WrongChannel := by
  intro s i c
  refine ⟨fun hi hne => ?_, fun hi hne => ?_⟩
  · obtain ⟨f, hf⟩ := exec_eq_withEncoder hi s
    rw [hf, withEncoder_of_ne hne]
  · obtain ⟨f, hf⟩ := exec_eq_withDecoder hi s
    rw [hf, withDecoder_of_ne hne]

/-- Settles O28: each command reads its register; on another channel it is `wrongChannel`'s. -/
theorem decoderIntrospection : Obligations.DecoderIntrospection := by
  intro s c
  have hread := fun d (hc : s.chan c = .dec d) => withDecoder_of_chan hc
  refine ⟨fun d hc => ⟨?size, ?member, ?fin, hread d hc _, hread d hc _, hread d hc _, hread d hc _,
    fun _ _ => introspect_u64 hc (f := (·.lz.dataPosition)), fun _ _ => introspect_u64 hc (f := (·.memberPosition)),
    fun _ _ => introspect_u64 hc (f := (·.totalIn)), fun _ _ => introspect_u64 hc (f := (·.totalOut))⟩, fun hne i hi => ?wrong⟩
  case wrong =>
    refine (wrongChannel s i c).2 ?_ hne
    revert i
    simp [decoderChannel]
  case size =>
    refine (hread d hc _).trans ?_
    show Host.Outcome.next (s.respond .ok [BitVec.ofNat 32 (d.writeSize s.params)] []) = _
    rw [Decoder.writeSize, apply_ite (BitVec.ofNat 32)]
  case member =>
    rw [← flagWord_decide, ← Decoder.memberFinishedFlag_eq]
    exact hread d hc _
  case fin =>
    rw [← flagWord_decide]
    exact hread d hc _

/-- Settles O31: the reset leaves `Decoder.init`; on another channel it is `wrongChannel`'s. -/
theorem decoderReset : Obligations.DecoderReset :=
  fun s c => ⟨(wrongChannel s (.decReset c) c).2 rfl, fun _ hc => withDecoder_of_chan hc _⟩

/-- Settles O35: opens by `execDecOpen_of_open` and `execDecOpen_of_closed`, closes by the kind of the channel. -/
theorem decoderOpenAndCloses : Obligations.DecoderOpenAndCloses :=
  fun s c => ⟨execDecOpen_of_open, execDecOpen_of_closed, fun _ hc => withEncoder_of_chan hc _,
    (wrongChannel s (.encClose c) c).1 rfl, fun _ hc => withDecoder_of_chan hc _, (wrongChannel s (.decClose c) c).2 rfl⟩

/-- Settles O34: the checks in order (`execEncOpen_of_closed`). -/
theorem encoderOpen : Obligations.EncoderOpen := by
  intro s c ds ml lim hlt
  refine ⟨execEncOpen_of_open hlt, fun hc => ?_⟩
  intro legal dd fits
  have hopen := execEncOpen_of_closed (ds := ds) (ml := ml) (lim := lim) hlt hc
  refine ⟨fun hno => ?_, fun hok hno => ?_, fun hok hfits => ?_⟩
  · exact hopen.trans (if_pos (Bool.eq_false_of_not_eq_true (mt openOperandsOk_iff.1 hno)))
  · exact hopen.trans ((if_neg (by simp [openOperandsOk_iff.2 hok])).trans (if_pos (Nat.lt_of_not_le hno)))
  · refine hopen.trans ((if_neg (by simp [openOperandsOk_iff.2 hok])).trans ((if_neg (Nat.not_lt.2 hfits)).trans ?_))
    rw [BitVec.ofNat_toNat]
    rfl

/-- Settles O29: a negative length is checked first, no bytes stage and push nothing, and a read of 0 bytes is satisfied
(`readEnds`). -/
theorem lengthOperands : Obligations.LengthOperands := by
  intro s c n bytes
  refine ⟨fun e hc => ⟨fun hn => ?encNeg, fun hp hf => ?encZero⟩, fun d hc => ⟨fun hn => ?decNeg, fun hp hf => ?decZero⟩,
    fun r d hr hzero hgot hc hp hm => ?readZero⟩
  case encNeg =>
    intro e'
    have hneg := lengthNegative_of_neg hn
    have he' : e.rejectArgument = e' := e.rejectArgument_eq
    rw [← he']
    exact ⟨(withEncoder_of_chan hc _).trans (if_pos hneg), (withEncoder_of_chan hc _).trans (if_pos hneg)⟩
  case decNeg =>
    intro d'
    have hneg := lengthNegative_of_neg hn
    have hd' : d.rejectArgument = d' := d.rejectArgument_eq
    rw [← hd']
    exact ⟨(withDecoder_of_chan hc _).trans (if_pos hneg), (withDecoder_of_chan hc _).trans (if_pos hneg)⟩
  case encZero =>
    refine (execEncWrite_stages [] hc rfl hp hf).trans ?_
    rw [Encoder.stage_nil]
    rfl
  case decZero =>
    refine (execDecWrite_pushes [] hc rfl hp hf).trans ?_
    simp [State.decRespond]
  case readZero =>
    have hend := ((readEnds s r hr).2 d hc).2 (.inl ⟨hp, by simp [hzero]⟩)
    simpa [hzero, hgot, hm] using hend

/-- Settles O30: the latch is checked after the length and before all else. -/
theorem fatalLatch : Obligations.FatalLatch := by
  intro s c n bytes hn
  have hpos : ¬ lengthNegative n = true := by simp [lengthNegative_of_nonneg hn]
  refine ⟨fun e hc hp => ?_, fun d hc hp => ?_⟩
  · have hrun := withEncoder_of_chan hc
    exact ⟨(hrun _).trans ((if_neg hpos).trans (if_pos hp)), (hrun _).trans ((if_neg hpos).trans (if_pos hp)),
      (hrun _).trans (if_pos hp), (hrun _).trans (if_pos hp), (hrun _).trans (if_pos hp)⟩
  · have hrun := withDecoder_of_chan hc
    exact ⟨(hrun _).trans ((if_neg hpos).trans (if_pos hp)), (hrun _).trans ((if_neg hpos).trans (if_pos hp)),
      (hrun _).trans (if_pos hp)⟩

/-- Settles O36: what is staged is written at the window's end (`Memory.read_writeList`), past which a sound window is empty. -/
theorem encoderWrite : Obligations.EncoderWrite := by
  intro s c n bytes e hc hn hlen hp
  have hpos := lengthNegative_of_nonneg hn
  refine ⟨fun hf => ?_, fun hf hresume hw => ?_⟩
  · show execEncWrite c n bytes s = _
    rw [execEncWrite, withEncoder_of_chan hc, hpos, if_neg Bool.false_ne_true, if_neg hp, if_pos hf]
    rfl
  · intro m
    have htake : (bytes.take m).length = m := List.length_take_of_le (Nat.min_le_left _ _)
    refine ⟨e.window.writeList e.streamPos.toNat (bytes.take m), ?_, fun k hk => ?_, fun pos hlt => ?_, fun pos hge => ?_⟩
    · refine (execEncWrite_stages bytes hc hpos hp hf).trans ?_
      rw [Encoder.stage_of_not_resumed s.params (.inl hresume)]
      rfl
    · rw [Memory.read_writeList, htake, if_pos ⟨by omega, by omega⟩, Nat.add_sub_cancel_left, List.getElem?_take_of_lt hk]
    · rw [Memory.read_writeList, if_neg (by omega)]
    · rw [Memory.read_writeList, htake, if_neg (by omega)]
      exact Memory.read_eq_none hw.1 (by omega)

/-- Settles O38: a write that is taken pushes what fits (`execDecWrite_pushes`). -/
theorem decoderWrite : Obligations.DecoderWrite := by
  intro s c n bytes d hc hn hlen hp
  have hpos := lengthNegative_of_nonneg hn
  refine ⟨fun hf => ?_, fun hf => ?_⟩
  · show execDecWrite c n bytes s = _
    rw [execDecWrite, withDecoder_of_chan hc, hpos, if_neg Bool.false_ne_true, if_neg hp, if_pos hf]
    rfl
  · rw [← hlen]
    exact execDecWrite_pushes bytes hc hpos hp hf

/-- Settles O39: past its checks the command starts the read, on a decoder after NextMemberCheck. -/
theorem readStarts : Obligations.ReadStarts := by
  intro s c n hn
  have hpos : ¬ lengthNegative n = true := by simp [lengthNegative_of_nonneg hn]
  refine ⟨fun e hc hp => (withEncoder_of_chan hc _).trans ((if_neg hpos).trans (if_neg hp)), fun d hc hp => ?_⟩
  intro phase
  refine (withDecoder_of_chan hc _).trans ((if_neg hpos).trans ((if_neg hp).trans ?_))
  rw [Decoder.nextMemberCheck_eq]

/-- Settles O40: the command's checks in order. -/
theorem encoderSyncFlush : Obligations.EncoderSyncFlush := by
  intro s c e hc
  have hrun := withEncoder_of_chan hc
  refine ⟨fun hp => (hrun _).trans (if_pos hp), fun hp hnone => ?_, fun hf hp hsome => ?_⟩
  · refine (hrun _).trans ((if_neg hp).trans ?_)
    by_cases hshut : e.finishing = true ∨ e.phase ≠ .inMember
    · exact if_pos hshut
    · exact (if_neg hshut).trans (if_pos ((or_assoc.2 hnone).resolve_left hshut))
  · exact (hrun _).trans ((if_neg (by simp [hp])).trans ((if_neg (by simp [hf, hp])).trans (if_neg hsome)))

/-- Settles O41: `finishing` is set, and the end check of either kind follows. -/
theorem finishes : Obligations.Finishes := by
  intro s c
  refine ⟨fun e hc => ⟨fun hp => (withEncoder_of_chan hc _).trans (if_pos hp), fun hp => ?_⟩,
    fun d hc => ⟨fun hp => (withDecoder_of_chan hc _).trans (if_pos hp), fun hp => ?_⟩⟩
  · intro phase
    refine (withEncoder_of_chan hc _).trans ((if_neg hp).trans ?_)
    rw [Encoder.endCheck_eq]
    simp only [true_and]
    rfl
  · intro phase
    refine (withDecoder_of_chan hc _).trans ((if_neg hp).trans ?_)
    rw [Decoder.finishedCheck_eq]
    simp only [and_true]
    rfl
end

section
/-! PROOFS. Family 70, reset and hazards: the state after power-on (R520). -/

namespace Sys2Proof.Machine

theorem Params.default_wf : Params.default.wf := by
  unfold Params.wf
  decide

theorem State.reset_channel_closed {ch : Channel} (h : ch ∈ State.reset.channels) : ch = .closed :=
  List.eq_of_mem_replicate (n := 2) h

theorem State.reset_paramsWf : State.reset.paramsWf := ⟨by decide, Params.default_wf⟩

/-- A closed channel holds no register (R421), so what a predicate asks of the registers holds of it. -/
theorem State.reset_channels_all (enc : Encoder → Prop) (dec : Decoder → Prop) :
    ∀ ch ∈ State.reset.channels, ch.all enc dec := by
  intro ch h
  rw [State.reset_channel_closed h]
  trivial

end Sys2Proof.Machine

open Sys2Proof.Machine

/-- Settles O52: the default parameters meet their bounds, and the four invariants speak of open channels only, of which there
is none (`State.reset_channels_all`). -/
theorem resetIsSound : Obligations.ResetIsSound := by
  have hall := State.reset_channels_all
  exact ⟨fun _ => State.reset_channel_closed, rfl, rfl, State.reset_paramsWf, hall _ _, hall _ _, hall _ _, hall _ _⟩
end
